-- ==== Sys2Proof/Word.lean ====
section
/-! DEFINITION. The words, names and small containers of the JV-418 (spec 00, 5.1 to 5.4; R1, R7, R42). -/

namespace Sys2Proof

abbrev Byte := BitVec 8
/-- The 16-bit name of a record (R1). -/
abbrev Key := BitVec 16
/-- A version number, or the store sequence (R7, R31). -/
abbrev Seq := BitVec 32
/-- A set of ports: bit p names port p (R2, R174). -/
abbrev PortSet := BitVec 3
/-- A sector number (R42). -/
abbrev Sector := Fin 64

/-- The three ports of the part (spec 00, 1.1). -/
inductive Port where
  | p0 | p1 | p2
deriving DecidableEq, Repr

/-- The two select ports (spec 08). -/
inductive SelPort where
  | s0 | s1
deriving DecidableEq, Repr

/-- The two banks of the array (R42). -/
inductive Bank where
  | b0 | b1
deriving DecidableEq, Repr

/-- A select port as a port of the part. -/
def SelPort.port : SelPort → Port
  | .s0 => .p0
  | .s1 => .p1

/-- One value for each port. -/
structure PerPort (α : Type) where
  p0 : α
  p1 : α
  p2 : α
deriving DecidableEq, Repr

def PerPort.get {α : Type} (v : PerPort α) : Port → α
  | .p0 => v.p0
  | .p1 => v.p1
  | .p2 => v.p2

def PerPort.set {α : Type} (v : PerPort α) (p : Port) (a : α) : PerPort α :=
  match p with
  | .p0 => { v with p0 := a }
  | .p1 => { v with p1 := a }
  | .p2 => { v with p2 := a }

def PerPort.map {α β : Type} (f : α → β) (v : PerPort α) : PerPort β :=
  { p0 := f v.p0, p1 := f v.p1, p2 := f v.p2 }

/-- The same value for every port. -/
def PerPort.all {α : Type} (a : α) : PerPort α :=
  { p0 := a, p1 := a, p2 := a }

/-- One value for each select port. -/
structure PerSel (α : Type) where
  s0 : α
  s1 : α
deriving DecidableEq, Repr

def PerSel.get {α : Type} (v : PerSel α) : SelPort → α
  | .s0 => v.s0
  | .s1 => v.s1

def PerSel.set {α : Type} (v : PerSel α) (p : SelPort) (a : α) : PerSel α :=
  match p with
  | .s0 => { v with s0 := a }
  | .s1 => { v with s1 := a }

/-- One value for each bank. -/
structure PerBank (α : Type) where
  b0 : α
  b1 : α
deriving DecidableEq, Repr

def PerBank.get {α : Type} (v : PerBank α) : Bank → α
  | .b0 => v.b0
  | .b1 => v.b1

def PerBank.set {α : Type} (v : PerBank α) (k : Bank) (a : α) : PerBank α :=
  match k with
  | .b0 => { v with b0 := a }
  | .b1 => { v with b1 := a }

/-- Ports in ascending order. -/
def allPorts : List Port := [.p0, .p1, .p2]

/-- A port's number, 0 to 2. -/
def Port.num : Port → Nat
  | .p0 => 0
  | .p1 => 1
  | .p2 => 2

/-- A port, or none for the value 3: the owner of a system record, no administrator, no committing port
(R6, R166, R133). -/
def portCode : Option Port → Byte
  | some .p0 => 0
  | some .p1 => 1
  | some .p2 => 2
  | none => 3

end Sys2Proof
end

