-- ==== Sys2Proof/Config.lean ====
section
/-! DEFINITION. What is fixed for every JV-418 (R119, R42, R84), and the values the manual leaves open, which are constants
with no body: nothing can be proved of their value. -/

namespace Sys2Proof.Config

/-- Bytes of the array (R42, R119). -/
abbrev arrayBytes : Nat := 262144
abbrev sectorBytes : Nat := 4096
/-- Offset of the first entry of a sector (R42). -/
abbrev firstOffset : Nat := 32
/-- The last offset at which an entry may begin (R42). -/
abbrev lastOffset : Nat := 4076
/-- Usable bytes of a sector (R42). -/
abbrev usableBytes : Nat := 4064
abbrev maxPayload : Nat := 1024
abbrev directorySlots : Nat := 512
abbrev maxBatchOps : Nat := 8
abbrev maxStagedBytes : Nat := 2048
abbrev maxWatches : Nat := 8
abbrev maxNotes : Nat := 16
/-- The longest request frame that reaches a slot (R110). -/
abbrev maxRequestBytes : Nat := 1046
/-- The crossing allowance of R71. -/
abbrev crossingAllowance : Nat := 1044
/-- Stale bytes that make a sector a candidate of trigger 1 (R74). -/
abbrev triggerStale : Nat := 1016
/-- Suspensions of one erase (R59). -/
abbrev maxSuspends : Nat := 16
/-- Time limit of a program, in milliseconds (R46). -/
abbrev programLimitMs : Nat := 3
/-- Time limit of an erase, in milliseconds of erase time (R46). -/
abbrev eraseLimitMs : Nat := 300
/-- The first sequence that is never assigned (R31). -/
abbrev seqLimit : Nat := 0xFFFFFF00
/-- The format mark of a sector header (R177). -/
def formatMark : BitVec 32 := 0x4A4B5631
/-- Sectors that must not be RETIRED in a READY store (R83, R101). -/
abbrev minUsableSectors : Nat := 8
abbrev defaultTrigger : Nat := 3
abbrev defaultLowSpace : Nat := 8128
/-- The attention enable mask after reset: every used cause but RESP (R121, R176). -/
def defaultMask : BitVec 16 := 0x03FE
/-- The used positions of a cause set (R138). -/
def usedCauses : BitVec 16 := 0x03FF

/-- FREE VALUE (log 10): the erase count that an open writes when the count it has is FFFFFFFFh; the manual gives the
field 4 bytes (R177) and states no successor of its largest value. -/
opaque eraseCountAfterMax : BitVec 32

/-- FREE VALUE (log 11): the generation that a mount takes as the one after 65535 (R89); the manual gives generations
1 to 65535 only (R84). -/
opaque generationAfterMax : BitVec 16

end Sys2Proof.Config
end

