-- ==== Sys2Proof/Syntax.lean ====
section
/-! DEFINITION. The commands of the JV-418: one constructor of `Instr` for each row of spec/opcode_table.json, and the
requests that a request frame can carry (R174). -/

namespace Sys2Proof

/-- The attributes a PUT may carry (R2, R174). -/
structure Attrs where
  readSet : PortSet
  writeSet : PortSet
  writeOnce : Bool
deriving DecidableEq, Repr

/-- The seventeen requests with their parameters, as R174 lays them out. -/
inductive Request where
  | identify
  | storeInfo
  | configure (mask : BitVec 16) (releaseEnable : Byte) (stretchLimit : Byte)
  | events (clear : BitVec 16)
  | get (key : Key) (offset maxLength : BitVec 16)
  | stat (key : Key)
  | list (afterKey : Key) (maxCount : Byte)
  | put (key : Key) (expected : Option Seq) (attrs : Option Attrs) (payload : List Byte)
  | delete (key : Key) (expected : Option Seq)
  | beginBatch
  | commit
  | abandon
  | watch (key : Key)
  | unwatch (key : Key)
  | notes (maxCount : Byte)
  | reclaim
  | format
deriving DecidableEq, Repr

/-- The status codes of a response (R174). -/
inductive Status where
  | ok | notFound | denied | conflict | writeOnce | quota | dirFull | full | tooLong | badKey | noBatch | batchOpen
  | batchFull | watchFull | corrupt | state | notAdmin | seqLimit | media | malformed | unknown | badValue
deriving DecidableEq, Repr

/-- The five kinds of entry (R178). -/
inductive EntryKind where
  | record | tombstone | memberRecord | memberTombstone | endMarker
deriving DecidableEq, Repr

/-- The commands. The first seventeen are requests: each stands for a well-formed request frame that reaches the slot of
its port with the given tag (R110, R111). The rest are the part's other events. -/
inductive Instr where
  /-- IDENTIFY, code 01h (R119). -/
  | identify (p : Port) (tag : Byte)
  /-- STORE_INFO, code 02h (R120). -/
  | storeInfo (p : Port) (tag : Byte)
  /-- CONFIGURE, code 03h (R121). -/
  | configure (p : Port) (tag : Byte) (mask : BitVec 16) (releaseEnable : Byte) (stretchLimit : Byte)
  /-- EVENTS, code 04h (R143). -/
  | events (p : Port) (tag : Byte) (clear : BitVec 16)
  /-- GET, code 10h (R124). -/
  | get (p : Port) (tag : Byte) (key : Key) (offset maxLength : BitVec 16)
  /-- STAT, code 11h (R122). -/
  | stat (p : Port) (tag : Byte) (key : Key)
  /-- LIST, code 12h (R123). -/
  | list (p : Port) (tag : Byte) (afterKey : Key) (maxCount : Byte)
  /-- PUT, code 20h (R22, R25). -/
  | put (p : Port) (tag : Byte) (key : Key) (expected : Option Seq) (attrs : Option Attrs) (payload : List Byte)
  /-- DELETE, code 21h (R22, R25). -/
  | delete (p : Port) (tag : Byte) (key : Key) (expected : Option Seq)
  /-- BEGIN, code 22h (R20). -/
  | beginBatch (p : Port) (tag : Byte)
  /-- COMMIT, code 23h (R24). -/
  | commit (p : Port) (tag : Byte)
  /-- ABANDON, code 24h (R21). -/
  | abandon (p : Port) (tag : Byte)
  /-- WATCH, code 30h (R131). -/
  | watch (p : Port) (tag : Byte) (key : Key)
  /-- UNWATCH, code 31h (R132). -/
  | unwatch (p : Port) (tag : Byte) (key : Key)
  /-- NOTES, code 32h (R137). -/
  | notes (p : Port) (tag : Byte) (maxCount : Byte)
  /-- RECLAIM, code 40h (R76). -/
  | reclaim (p : Port) (tag : Byte)
  /-- FORMAT, code 41h (R102). -/
  | format (p : Port) (tag : Byte)
  /-- REQUEST_FRAME_END: a request frame of these bytes ends on port p (R110). -/
  | requestFrameEnd (p : Port) (bytes : List Byte)
  /-- READ_START: the oldest queued read of the bank starts (R57). -/
  | readStart (k : Bank)
  /-- READ_FINISH: the read in progress at the bank's read port finishes (R60). -/
  | readFinish (k : Bank)
  /-- ENGINE_GRANT: the arbiter grants the free engine (R52). -/
  | engineGrant
  /-- ENGINE_OP_START: the issued operation starts (R48). -/
  | engineOpStart
  /-- PROGRAM_COMPLETE: the program ends with its readback (R43); `miss` holds, byte by byte of the run, the bits that were
  driven to 0 and did not take. -/
  | programComplete (miss : List Byte)
  /-- PROGRAM_TIMEOUT: the program is ended at 3 ms (R46); `miss` as above. -/
  | programTimeout (miss : List Byte)
  /-- ERASE_COMPLETE: the erase ends with its verify (R44); `residue` lists offsets of the sector and the bytes they hold
  where these are not FFh. -/
  | eraseComplete (residue : List (Nat × Byte))
  /-- ERASE_TIMEOUT: the erase is ended at 300 ms of erase time (R46); `residue` as above. -/
  | eraseTimeout (residue : List (Nat × Byte))
  /-- STEP_READ_COMPLETE: the holder's step read returns its bytes (R49). -/
  | stepReadComplete
  /-- RESET_ASSERT: the part goes into reset (R180); `miss` and `residue` say what an interrupted program or erase left
  (R45). -/
  | resetAssert (miss : List Byte) (residue : List (Nat × Byte))
  /-- RESET_END: reset ends with these strap and select levels (R180). -/
  | resetEnd (adm adr : BitVec 2) (sel0High sel1High : Bool)
  /-- RELEASE: port p's release input has been low for 1 us (R127, R128). -/
  | release (p : Port)
  /-- SELECT_FALL: the select input falls with the clock at this level (R146). -/
  | selectFall (p : SelPort) (clockHigh : Bool)
  /-- REQUEST_FRAME_SELECT_END: select rises in a REQUEST frame (R151). -/
  | requestFrameSelectEnd (p : SelPort) (onBoundary : Bool)
  /-- FETCH_FRAME_END: select rises in a FETCH frame (R152). -/
  | fetchFrameEnd (p : SelPort) (onBoundary : Bool)
  /-- OTHER_FRAME_END: select rises in a POLL, untyped or unknown frame (R152). -/
  | otherFrameEnd (p : SelPort) (onBoundary : Bool)
  /-- DISCARDING_END: select rises in DISCARDING (R154). -/
  | discardingEnd (p : SelPort)
  /-- BUS_START: a START or repeated START on port 2 (R157); whether a byte was incomplete. -/
  | busStart (incomplete : Bool)
  /-- BUS_STOP: a STOP on port 2 (R157); whether a byte was incomplete. -/
  | busStop (incomplete : Bool)
  /-- ADDRESS_BYTE: an address byte completes on port 2 (R157). -/
  | addressByte (b : Byte)
  /-- STRETCH_LIMIT_EXPIRY: the stretch time reaches the stretch limit (R161). -/
  | stretchLimitExpiry
  /-- SELECT_BYTE_COMPLETE: a byte completes on a select port; `sdi` is the byte received (R147, R149). -/
  | selectByteComplete (p : SelPort) (sdi : Byte)
  /-- TWO_WIRE_REQUEST_BYTE: a data byte from the master reaches its acknowledge bit (R158). -/
  | twoWireRequestByte (b : Byte)
  /-- READ_BYTE_ACKNOWLEDGE: the master's acknowledge bit for a byte the port sent; true for ACK (R162). -/
  | readByteAcknowledge (ack : Bool)
  /-- RELEASE_INPUT_HIGH: port p's release input returns high (R127). -/
  | releaseInputHigh (p : Port)
deriving DecidableEq, Repr

end Sys2Proof
end

