-- ==== Sys2Proof/Machine/Formats.lean ====
section
/-! DEFINITION. Byte order, check computations and byte layouts (R174 to R179). -/

namespace Sys2Proof.Machine

/-! ## Byte order: most significant byte first (spec 00, 5.2) -/

def be16 (x : BitVec 16) : List Byte := [x.extractLsb' 8 8, x.extractLsb' 0 8]

def be32 (x : BitVec 32) : List Byte :=
  [x.extractLsb' 24 8, x.extractLsb' 16 8, x.extractLsb' 8 8, x.extractLsb' 0 8]

def be16Nat (n : Nat) : List Byte := be16 (BitVec.ofNat 16 n)
def be32Nat (n : Nat) : List Byte := be32 (BitVec.ofNat 32 n)
def byteNat (n : Nat) : Byte := BitVec.ofNat 8 n

def word16 (a b : Byte) : BitVec 16 := a ++ b
def word32 (a b c d : Byte) : BitVec 32 := (word16 a b) ++ (word16 c d)

/-- The byte at an index, 00h past the end. -/
def byteAt (l : List Byte) (i : Nat) : Byte := l.getD i 0
def word16At (l : List Byte) (i : Nat) : BitVec 16 := word16 (byteAt l i) (byteAt l (i + 1))
def word32At (l : List Byte) (i : Nat) : BitVec 32 :=
  word32 (byteAt l i) (byteAt l (i + 1)) (byteAt l (i + 2)) (byteAt l (i + 3))

def boolByte (b : Bool) : Byte := if b then 1 else 0

/-- A port set as the low three bits of a byte (R174). -/
def portSetByte (s : PortSet) : Byte := s.zeroExtend 8

/-! ## Check computations (R179) -/

def crc16Shift (r : BitVec 16) : BitVec 16 :=
  if r.msb then (r <<< 1) ^^^ 0x1021 else r <<< 1

def crc16Bits : Nat → BitVec 16 → BitVec 16
  | 0, r => r
  | n + 1, r => crc16Bits n (crc16Shift r)

def crc16Byte (r : BitVec 16) (b : Byte) : BitVec 16 := crc16Bits 8 (r ^^^ (b ++ (0 : Byte)))

/-- CRC-16: register from FFFFh, generator 1021h, most significant bit first, no complement (R179). -/
def crc16 (l : List Byte) : BitVec 16 := l.foldl crc16Byte 0xFFFF

def crc32Shift (r : BitVec 32) : BitVec 32 :=
  if r.getLsbD 0 then (r >>> 1) ^^^ 0xEDB88320 else r >>> 1

def crc32Bits : Nat → BitVec 32 → BitVec 32
  | 0, r => r
  | n + 1, r => crc32Bits n (crc32Shift r)

def crc32Byte (r : BitVec 32) (b : Byte) : BitVec 32 := crc32Bits 8 (r ^^^ b.zeroExtend 32)

/-- CRC-32: register from FFFFFFFFh, EDB88320h, least significant bit first, complemented (R179). -/
def crc32 (l : List Byte) : BitVec 32 := ~~~ (l.foldl crc32Byte 0xFFFFFFFF)

/-! ## Codes -/

/-- Status codes (R174). -/
def statusCode : Status → Byte
  | .ok => 0x00 | .notFound => 0x01 | .denied => 0x02 | .conflict => 0x03 | .writeOnce => 0x04 | .quota => 0x05
  | .dirFull => 0x06 | .full => 0x07 | .tooLong => 0x08 | .badKey => 0x09 | .noBatch => 0x0A | .batchOpen => 0x0B
  | .batchFull => 0x0C | .watchFull => 0x0D | .corrupt => 0x0E | .state => 0x0F | .notAdmin => 0x10
  | .seqLimit => 0x11 | .media => 0x12 | .malformed => 0x13 | .unknown => 0x14 | .badValue => 0x15

/-- Kind bytes (R178). -/
def kindCode : EntryKind → Byte
  | .record => 1 | .tombstone => 2 | .memberRecord => 3 | .memberTombstone => 4 | .endMarker => 5

/-- The kind a byte names, if it is one of the five (R178). -/
def kindOf (b : Byte) : Option EntryKind :=
  if b = 1 then some .record
  else if b = 2 then some .tombstone
  else if b = 3 then some .memberRecord
  else if b = 4 then some .memberTombstone
  else if b = 5 then some .endMarker
  else none

def kindIsRecord : EntryKind → Bool
  | .record | .memberRecord => true
  | .tombstone | .memberTombstone | .endMarker => false

def kindIsTombstone : EntryKind → Bool
  | .tombstone | .memberTombstone => true
  | .record | .memberRecord | .endMarker => false

def kindIsMember : EntryKind → Bool
  | .memberRecord | .memberTombstone => true
  | .record | .tombstone | .endMarker => false

/-! ## Keys (R1) -/

def isUserKey (k : Key) : Bool := 0x0001 ≤ k && k ≤ 0xFEFF
def isSystemKey (k : Key) : Bool := 0xFF00 ≤ k && k ≤ 0xFF03
def isKey (k : Key) : Bool := isUserKey k || isSystemKey k

/-! ## Responses (R117, R174) -/

/-- Status code, tag, body length, body and CRC-16 over everything before it. -/
def response (st : Status) (tag : Byte) (body : List Byte) : List Byte :=
  let front := statusCode st :: tag :: (be16Nat body.length ++ body)
  front ++ be16 (crc16 front)

/-- The 5-byte body of the write requests and FORMAT: sequence and operation index (R40, R175). -/
def writeBody (seq : Seq) (index : Byte) : List Byte := be32 seq ++ [index]

/-! ## Entries (R178) -/

/-- The smallest multiple of 4 not below n. -/
def roundUp4 (n : Nat) : Nat := (n + 3) / 4 * 4

/-- Array bytes of an entry with this payload length (R178). -/
def footprint (length : Nat) : Nat := 20 + roundUp4 length

/-- A payload padded with FFh to a multiple of 4 (R33). -/
def padded (payload : List Byte) : List Byte :=
  payload ++ List.replicate (roundUp4 payload.length - payload.length) 0xFF

/-- An entry as it is to be programmed: header bytes 0 to 12, and bytes 16 to 19 + P (R33, R178). -/
structure EntryImage where
  header : List Byte
  body : List Byte
deriving DecidableEq, Repr

/-- Bytes of the array the entry occupies. -/
def EntryImage.footprint (e : EntryImage) : Nat := 16 + e.body.length

/-- Access byte: read set in bits 0 to 2, write set in bits 4 to 6 (R178). -/
def accessByte (readSet writeSet : PortSet) : Byte := (writeSet.zeroExtend 4) ++ (readSet.zeroExtend 4)

def accessReadSet (b : Byte) : PortSet := b.extractLsb' 0 3
def accessWriteSet (b : Byte) : PortSet := b.extractLsb' 4 3

/-- Header bytes 0 to 12 (R178). -/
def entryHeader (key : Key) (length : Nat) (seq : Seq) (kind : EntryKind) (owner access flags : Byte) (count : Nat) :
    List Byte :=
  be16 key ++ be16Nat length ++ be32 seq ++ [kindCode kind, owner, access, flags, byteNat count]

/-- The image of an entry from its header and its padded payload; `good` false complements the CRC-32 (R80, R178). -/
def entryImage (header paddedPayload : List Byte) (good : Bool) : EntryImage :=
  let c := crc32 (header ++ paddedPayload)
  { header := header, body := paddedPayload ++ be32 (if good then c else ~~~c) }

/-- The fields of the 16 header bytes of an entry (R178). -/
structure EntryHeader where
  key : Key
  length : Nat
  seq : Seq
  kind : Byte
  owner : Byte
  access : Byte
  flags : Byte
  count : Byte
  written : Bool
  complete : Bool
  settled : Bool
deriving DecidableEq, Repr

/-- A mark counts as set when it reads 00h (R177). -/
def markSet (b : Byte) : Bool := b == 0

def parseEntryHeader (l : List Byte) : EntryHeader :=
  { key := word16At l 0
    length := (word16At l 2).toNat
    seq := word32At l 4
    kind := byteAt l 8
    owner := byteAt l 9
    access := byteAt l 10
    flags := byteAt l 11
    count := byteAt l 12
    written := markSet (byteAt l 13)
    complete := markSet (byteAt l 14)
    settled := markSet (byteAt l 15) }

/-- The stored CRC-32 of a whole entry of this payload length equals the one computed over bytes 0 to 12 and the padded
payload (R178). -/
def entryCrcOk (l : List Byte) (length : Nat) : Bool :=
  let p := roundUp4 length
  crc32 (l.take 13 ++ (l.drop 16).take p) == word32At l (16 + p)

def allFF (l : List Byte) : Bool := l.all (· == 0xFF)

/-! ## Sector headers (R177) -/

/-- Bytes 0 to 17 of a sector header: format mark, generation, erase count, open sequence, pad, header check (R67). -/
def sectorHeader (gen : BitVec 16) (eraseCount : BitVec 32) (openSeq : Seq) : List Byte :=
  let front := be32 Config.formatMark ++ be16 gen ++ be32 eraseCount ++ be32 openSeq ++ [0xFF, 0xFF]
  front ++ be16 (crc16 front)

def openedMarkOffset : Nat := 18
def fullMarkOffset : Nat := 19
def reclaimMarkOffset : Nat := 20
def retiredMarkOffset : Nat := 21

/-- What phase 1 of a mount finds in a sector (R88). -/
inductive HeaderClass where
  | retired (eraseCount : Option (BitVec 32))
  | valid (gen : BitVec 16) (eraseCount : BitVec 32) (openSeq : Seq) (opened full reclaim : Bool)
  | withdrawn (gen : BitVec 16) (eraseCount : BitVec 32) (openSeq : Seq)
  | erased
  | unclean
deriving DecidableEq, Repr

/-- The generation is from 1 and the header check matches with 4A4B5631h in place of the format mark (R88). -/
def headerChecks (h : List Byte) : Bool :=
  word16At h 4 != 0 &&
    crc16 (be32 Config.formatMark ++ (h.drop 4).take 12) == word16At h 16

/-- Test 2 of R88: 4A4B5631h, or any value but 0 whose ones all lie in it. -/
def passesValid (h : List Byte) : Bool :=
  word32At h 0 != 0 && (word32At h 0 &&& ~~~Config.formatMark) == 0 && headerChecks h

/-- Test 3 of R88. -/
def passesWithdrawn (h : List Byte) : Bool := word32At h 0 == 0 && headerChecks h

/-- The class of R88 from the 32 header bytes alone; none where test 4 must still read the rest of the sector. -/
def classifyHeader (h : List Byte) : Option HeaderClass :=
  if markSet (byteAt h 21) then
    some (.retired (if passesValid h || passesWithdrawn h then some (word32At h 6) else none))
  else if passesValid h then
    some (.valid (word16At h 4) (word32At h 6) (word32At h 10) (markSet (byteAt h 18)) (markSet (byteAt h 19))
      (markSet (byteAt h 20)))
  else if passesWithdrawn h then some (.withdrawn (word16At h 4) (word32At h 6) (word32At h 10))
  else if allFF h then none
  else some .unclean

end Sys2Proof.Machine
end

