-- ==== Sys2Proof/WellFormed.lean ====
section
/-! DEFINITION. Which commands can be sent: the bounds the manual puts on their operands. Every operand not named here
admits every value of its type. -/

namespace Sys2Proof

/-- Bytes of the request frame that carries a PUT: header, parameters and check (R112, R174). -/
def putFrameBytes (expected : Option Seq) (attrs : Option Attrs) (payload : List Byte) : Nat :=
  11 + (if expected.isSome then 4 else 0) + (if attrs.isSome then 3 else 0) + payload.length

/-- A request fits a frame that reaches the slot: at most 1046 bytes (R110). Only a PUT can be longer. -/
def Request.wf : Request → Bool
  | .put _ expected attrs payload => putFrameBytes expected attrs payload ≤ Config.maxRequestBytes
  | _ => true

/-- Offsets named by an erase's residue lie in the sector (R42). -/
def residueWf (residue : List (Nat × Byte)) : Bool := residue.all fun c => c.1 < Config.sectorBytes

/-- A command that can occur: a PUT fits its frame, a request frame that reaches the slot carries at most 1046 bytes (R110),
and what an erase left lies in its sector. -/
def Instr.wf : Instr → Bool
  | .put _ _ _ expected attrs payload => putFrameBytes expected attrs payload ≤ Config.maxRequestBytes
  | .requestFrameEnd _ bytes => bytes.length ≤ Config.maxRequestBytes
  | .programComplete miss => miss.length ≤ Config.sectorBytes
  | .programTimeout miss => miss.length ≤ Config.sectorBytes
  | .eraseComplete residue => residueWf residue
  | .eraseTimeout residue => residueWf residue
  | .resetAssert miss residue => miss.length ≤ Config.sectorBytes && residueWf residue
  | .identify _ _ | .storeInfo _ _ | .configure _ _ _ _ _ | .events _ _ _ | .get _ _ _ _ _ | .stat _ _ _
  | .list _ _ _ _ | .delete _ _ _ _ | .beginBatch _ _ | .commit _ _ | .abandon _ _ | .watch _ _ _
  | .unwatch _ _ _ | .notes _ _ _ | .reclaim _ _ | .format _ _ | .readStart _ | .readFinish _ | .engineGrant
  | .engineOpStart | .stepReadComplete | .resetEnd _ _ _ _ | .release _ | .selectFall _ _
  | .requestFrameSelectEnd _ _ | .fetchFrameEnd _ _ | .otherFrameEnd _ _ | .discardingEnd _ | .busStart _
  | .busStop _ | .addressByte _ | .stretchLimitExpiry | .selectByteComplete _ _ | .twoWireRequestByte _
  | .readByteAcknowledge _ | .releaseInputHigh _ => true

end Sys2Proof
end

