-- ==== Sys2Proof/Decode.lean ====
section
/-! DEFINITION. `decodeTableWord`, which the table's rows give no bits for, and the part's own decoder: from the bytes of a
request frame to a request (R111, R112, R174), with the encoder a master uses. -/

namespace Sys2Proof

/-- No row of spec/opcode_table.json gives bits, so no word spells a command. -/
def decodeTableWord (_nbits _w : Nat) : Option Instr := none

namespace Decode

open Machine

/-- Request codes (R174). -/
def code : Request → Byte
  | .identify => 0x01
  | .storeInfo => 0x02
  | .configure _ _ _ => 0x03
  | .events _ => 0x04
  | .get _ _ _ => 0x10
  | .stat _ => 0x11
  | .list _ _ => 0x12
  | .put _ _ _ _ => 0x20
  | .delete _ _ => 0x21
  | .beginBatch => 0x22
  | .commit => 0x23
  | .abandon => 0x24
  | .watch _ => 0x30
  | .unwatch _ => 0x31
  | .notes _ => 0x32
  | .reclaim => 0x40
  | .format => 0x41

/-- The seventeen codes (R111, R174). -/
def knownCode (c : Byte) : Bool :=
  [0x01, 0x02, 0x03, 0x04, 0x10, 0x11, 0x12, 0x20, 0x21, 0x22, 0x23, 0x24, 0x30, 0x31, 0x32, 0x40, 0x41].contains c

/-- The tag of a frame: byte 1, or 00h for a frame of one byte (R111). -/
def frameTag (frame : List Byte) : Byte := byteAt frame 1

/-- Check 1 of R111: at least 6 bytes, and 6 plus the parameter length. -/
def lengthOk (frame : List Byte) : Bool :=
  6 ≤ frame.length && frame.length == 6 + (word16At frame 2).toNat

/-- Check 2 of R111: the CRC-16 over every byte but the last two. -/
def checkOk (frame : List Byte) : Bool :=
  crc16 (frame.take (frame.length - 2)) == word16At frame (frame.length - 2)

/-- The parameters of a frame that passes check 1. -/
def frameParams (frame : List Byte) : List Byte := (frame.drop 4).take (frame.length - 6)

/-- An access set byte: bits 7 to 3 are 0 (R112). -/
def portSetOf (b : Byte) : Option PortSet := if b >>> 3 == 0 then some (b.extractLsb' 0 3) else none

/-- The write-once byte: 00h or 01h (R112). -/
def writeOnceOf (b : Byte) : Option Bool := if b == 0 then some false else if b == 1 then some true else none

/-- The three attribute bytes of a PUT (R112). -/
def attrsOf (r w o : Byte) : Option Attrs :=
  match portSetOf r, portSetOf w, writeOnceOf o with
  | some rs, some ws, some wo => some { readSet := rs, writeSet := ws, writeOnce := wo }
  | _, _, _ => none

/-- Payload length and payload, which end the parameters of a PUT. -/
def payloadOf (ps : List Byte) : Option (List Byte) :=
  match ps with
  | a :: b :: rest => if rest.length == (word16 a b).toNat then some rest else none
  | _ => none

/-- The PUT parameters after the expected sequence. -/
def putRest (key : Key) (expected : Option Seq) (attrsPresent : Bool) (ps : List Byte) : Option Request :=
  if attrsPresent then
    match ps with
    | r :: w :: o :: rest =>
      match attrsOf r w o, payloadOf rest with
      | some a, some pl => some (.put key expected (some a) pl)
      | _, _ => none
    | _ => none
  else
    match payloadOf ps with
    | some pl => some (.put key expected none pl)
    | none => none

/-- The parameters of a PUT (R112): option flag bits 7 to 2 are 0; bit 0 is expected-present, bit 1 attrs-present. -/
def putParams (ps : List Byte) : Option Request :=
  match ps with
  | k1 :: k0 :: flags :: rest =>
    if flags >>> 2 == 0 then
      if flags.getLsbD 0 then
        match rest with
        | a :: b :: c :: d :: rest' => putRest (word16 k1 k0) (some (word32 a b c d)) (flags.getLsbD 1) rest'
        | _ => none
      else putRest (word16 k1 k0) none (flags.getLsbD 1) rest
    else none
  | _ => none

/-- The parameters of a DELETE (R112): attrs-present is 0 as well. -/
def deleteParams (ps : List Byte) : Option Request :=
  match ps with
  | [k1, k0, flags] => if flags == 0 then some (.delete (word16 k1 k0) none) else none
  | [k1, k0, flags, a, b, c, d] =>
    if flags == 1 then some (.delete (word16 k1 k0) (some (word32 a b c d))) else none
  | _ => none

/-- A request that has no parameters (R112). -/
def noParams (r : Request) (ps : List Byte) : Option Request := if ps.isEmpty then some r else none

/-- A request whose one parameter is a 16-bit word (R112). -/
def oneWord (f : BitVec 16 → Request) (ps : List Byte) : Option Request :=
  match ps with
  | [a, b] => some (f (word16 a b))
  | _ => none

/-- The structure check (R112): the request that a known code and its parameters spell, or none. -/
def parse (c : Byte) (ps : List Byte) : Option Request :=
  if c == 0x01 then noParams .identify ps
  else if c == 0x02 then noParams .storeInfo ps
  else if c == 0x03 then
    match ps with
    | [m1, m0, r, t] => some (.configure (word16 m1 m0) r t)
    | _ => none
  else if c == 0x04 then oneWord .events ps
  else if c == 0x10 then
    match ps with
    | [k1, k0, o1, o0, m1, m0] => some (.get (word16 k1 k0) (word16 o1 o0) (word16 m1 m0))
    | _ => none
  else if c == 0x11 then oneWord .stat ps
  else if c == 0x12 then
    match ps with
    | [k1, k0, m] => some (.list (word16 k1 k0) m)
    | _ => none
  else if c == 0x20 then putParams ps
  else if c == 0x21 then deleteParams ps
  else if c == 0x22 then noParams .beginBatch ps
  else if c == 0x23 then noParams .commit ps
  else if c == 0x24 then noParams .abandon ps
  else if c == 0x30 then oneWord .watch ps
  else if c == 0x31 then oneWord .unwatch ps
  else if c == 0x32 then
    match ps with
    | [m] => some (.notes m)
    | _ => none
  else if c == 0x40 then noParams .reclaim ps
  else if c == 0x41 then noParams .format ps
  else none

/-- What the common checks make of a frame (R111): a status, or the request. -/
inductive Checked where
  | refused (st : Status)
  | request (r : Request)
deriving DecidableEq, Repr

/-- The common checks of R111 in their order: length, check, code, mount, structure. -/
def commonChecks (mounting : Bool) (frame : List Byte) : Checked :=
  if !lengthOk frame then .refused .malformed
  else if !checkOk frame then .refused .malformed
  else if !knownCode (byteAt frame 0) then .refused .unknown
  else if mounting && byteAt frame 0 != 0x01 then .refused .state
  else
    match parse (byteAt frame 0) (frameParams frame) with
    | some r => .request r
    | none => .refused .malformed

/-! ## The encoder -/

/-- Option flags: bit 0 expected-present, bit 1 attrs-present (R174). -/
def optionFlags (expected : Option Seq) (attrs : Option Attrs) : Byte :=
  (if expected.isSome then 1 else 0) ||| (if attrs.isSome then 2 else 0)

def expectedBytes : Option Seq → List Byte
  | some s => be32 s
  | none => []

def attrsBytes : Option Attrs → List Byte
  | some a => [portSetByte a.readSet, portSetByte a.writeSet, boolByte a.writeOnce]
  | none => []

/-- The parameters of a request (R174). -/
def params : Request → List Byte
  | .identify | .storeInfo | .beginBatch | .commit | .abandon | .reclaim | .format => []
  | .configure mask rel stretch => be16 mask ++ [rel, stretch]
  | .events clear => be16 clear
  | .get key offset maxLength => be16 key ++ be16 offset ++ be16 maxLength
  | .stat key | .watch key | .unwatch key => be16 key
  | .list afterKey maxCount => be16 afterKey ++ [maxCount]
  | .put key expected attrs payload =>
    be16 key ++ [optionFlags expected attrs] ++ expectedBytes expected ++ attrsBytes attrs ++
      be16Nat payload.length ++ payload
  | .delete key expected => be16 key ++ [optionFlags expected none] ++ expectedBytes expected
  | .notes maxCount => [maxCount]

/-- The request frame: code, tag, parameter length, parameters, CRC-16 (R174). -/
def encode (tag : Byte) (r : Request) : List Byte :=
  let front := code r :: tag :: (be16Nat (params r).length ++ params r)
  front ++ be16 (crc16 front)

end Decode

/-- The request that a request command stands for, with its port and tag; none for the other commands. -/
def Instr.request? : Instr → Option (Port × Byte × Request)
  | .identify p tag => some (p, tag, .identify)
  | .storeInfo p tag => some (p, tag, .storeInfo)
  | .configure p tag mask rel stretch => some (p, tag, .configure mask rel stretch)
  | .events p tag clear => some (p, tag, .events clear)
  | .get p tag key offset maxLength => some (p, tag, .get key offset maxLength)
  | .stat p tag key => some (p, tag, .stat key)
  | .list p tag afterKey maxCount => some (p, tag, .list afterKey maxCount)
  | .put p tag key expected attrs payload => some (p, tag, .put key expected attrs payload)
  | .delete p tag key expected => some (p, tag, .delete key expected)
  | .beginBatch p tag => some (p, tag, .beginBatch)
  | .commit p tag => some (p, tag, .commit)
  | .abandon p tag => some (p, tag, .abandon)
  | .watch p tag key => some (p, tag, .watch key)
  | .unwatch p tag key => some (p, tag, .unwatch key)
  | .notes p tag maxCount => some (p, tag, .notes maxCount)
  | .reclaim p tag => some (p, tag, .reclaim)
  | .format p tag => some (p, tag, .format)
  | .requestFrameEnd _ _ | .readStart _ | .readFinish _ | .engineGrant | .engineOpStart | .programComplete _
  | .programTimeout _ | .eraseComplete _ | .eraseTimeout _ | .stepReadComplete | .resetAssert _ _
  | .resetEnd _ _ _ _ | .release _ | .selectFall _ _ | .requestFrameSelectEnd _ _ | .fetchFrameEnd _ _
  | .otherFrameEnd _ _ | .discardingEnd _ | .busStart _ | .busStop _ | .addressByte _ | .stretchLimitExpiry
  | .selectByteComplete _ _ | .twoWireRequestByte _ | .readByteAcknowledge _ | .releaseInputHigh _ => none

end Sys2Proof
end

