-- ==== Sys2Proof/Machine/State.lean ====
section
/-! DEFINITION. The state of the JV-418: every piece of state the manual gives it, as plain data. The rule that names a field
stands beside it. What is a function of other fields (level causes, ATTN, job flags, pin counts, live and stale bytes) is not
stored (log 8). -/

namespace Sys2Proof.Machine

/-! ## Record controller -/

/-- The state of an occupied directory slot (R9). A FREE slot is not listed. -/
inductive SlotState where
  | live | tombstone | damaged
deriving DecidableEq, Repr

/-- An occupied directory slot (R8). Owner none is the value 3, a system record. -/
structure DirSlot where
  key : Key
  state : SlotState
  sector : Sector
  offset : Nat
  length : Nat
  seq : Seq
  owner : Option Port
  readSet : PortSet
  writeSet : PortSet
  writeOnce : Bool
deriving DecidableEq, Repr

/-! ## Commit unit -/

/-- What a write operation does (R22): put with its attributes, if any, and its payload; or delete. -/
inductive WriteKind where
  | put (attrs : Option Attrs) (payload : List Byte)
  | delete
deriving DecidableEq, Repr

/-- A staged operation, or the one operation of a single write (R22, R25). -/
structure WriteOp where
  key : Key
  expected : Option Seq
  kind : WriteKind
deriving DecidableEq, Repr

/-- The batch context with its staging list (R19). COMMITTING: the list is held by the job. -/
inductive BatchContext where
  | closed
  | opened (staging : List WriteOp)
  | committing
deriving DecidableEq, Repr

/-- The states of a commit job (R26). -/
inductive JobState where
  | queued | waitSpace | running
deriving DecidableEq, Repr

/-- A place in the array (R42). -/
structure Loc where
  sector : Sector
  offset : Nat
deriving DecidableEq, Repr

/-- A commit job (R26). `locs` holds the locations of the entries programmed in the current attempt, in staging order,
which R14 hands to the record controller. -/
structure Job where
  ops : List WriteOp
  batch : Bool
  format : Bool
  state : JobState
  attempt : Nat
  seq : Option Seq
  detached : Bool
  locs : List Loc
deriving DecidableEq, Repr

/-! ## Port units and notification unit -/

/-- A request that would create a job, held for a detached job (R26). -/
inductive Held where
  | write (op : WriteOp)
  | commit
  | format
deriving DecidableEq, Repr

/-- The pending work of a WORKING slot (R109). -/
inductive PendingWork where
  | read
  | job
  | held (h : Held)
deriving DecidableEq, Repr

/-- The request slot (R109): WORKING with the tag of its request, ANSWERED with the response in the buffer. -/
inductive ReqSlot where
  | empty
  | working (tag : Byte) (w : PendingWork)
  | answered (response : List Byte)
deriving DecidableEq, Repr

/-- Kinds of note (R133). -/
inductive NoteKind where
  | written | deleted | withdrawn | damaged
deriving DecidableEq, Repr

/-- A note (R133). By-port none is the value 3. -/
structure Note where
  key : Key
  seq : Seq
  kind : NoteKind
  byPort : Option Port
  merged : Nat
deriving DecidableEq, Repr

/-- What belongs to one port: request slot and fetch progress (R109), sticky causes (R138), configuration (R121), release
input (R127), batch context (R19), commit job (R26), watch table (R130), notification queue (R133). -/
structure PortState where
  slot : ReqSlot
  fetchProgress : Nat
  sticky : BitVec 16
  mask : BitVec 16
  releaseEnable : Bool
  stretchLimit : Byte
  releaseSpent : Bool
  batch : BatchContext
  job : Option Job
  watches : List Key
  notes : List Note
deriving DecidableEq, Repr

/-! ## Framing -/

/-- Framing states of a select port (R145). -/
inductive SelectState where
  | idle | frame | discarding
deriving DecidableEq, Repr

/-- Frame types (R147). -/
inductive FrameType where
  | none | poll | request | fetch | unknown
deriving DecidableEq, Repr

/-- The framing block of a select port (R145). `mode3` is the clock mode: 3, or 0. `sdo` is the byte that goes out in the current
byte of the frame, none outside a frame; `driven` is whether SDOp is driven, or at high impedance: in mode 3 it is driven from the
first falling clock edge only (R144, log 21). -/
structure SelectFraming where
  state : SelectState
  mode3 : Bool
  bytesComplete : Nat
  frameType : FrameType
  showedAnswered : Bool
  requestBytes : List Byte
  overLength : Bool
  sdo : Option Byte
  driven : Bool
deriving DecidableEq, Repr

/-- Framing states of port 2 (R156). -/
inductive WireState where
  | idle | addressedWrite | addressedRead | stretching | ignoring
deriving DecidableEq, Repr

/-- The two-wire framing block (R156). `address` holds, in IDLE after a START, the bits received of the address
byte, 0 to 8 of them: none in it between commands, since the row ADDRESS_BYTE carries all eight (log 21); `sending` is the byte
being sent on SDA, `bytesSent` how many bytes of the transaction have counted, `ackOut` the acknowledge bit the port last gave:
true for ACK (log 21). -/
structure WireFraming where
  state : WireState
  address : Option (List Bool)
  requestBytes : List Byte
  overLength : Bool
  showedAnswered : Bool
  nakSeen : Bool
  stretchTime : Nat
  sending : Option Byte
  bytesSent : Nat
  ackOut : Option Bool
deriving DecidableEq, Repr

/-! ## Space manager -/

/-- Sector states (R64). -/
inductive SectorState where
  | erased | active | full | source | oldgen | unclean | retired
deriving DecidableEq, Repr

/-- A row of the sector table (R63), less live and stale bytes, which are computed (R65). -/
structure SectorRow where
  state : SectorState
  eraseCount : Option (BitVec 32)
  openSeq : Option Seq
  generation : Option (BitVec 16)
  writeOffset : Option Nat
deriving DecidableEq, Repr

/-- Where a copying cycle stands: the walk phase with its cursor, or the sweep phase (R73). -/
inductive CopyPos where
  | walk (cursor : Nat)
  | sweep
deriving DecidableEq, Repr

/-- The reclaim cycle: state, victim, phase and cursor (R73). -/
inductive Cycle where
  | idle
  | marking (victim : Sector)
  | copying (victim : Sector) (pos : CopyPos)
  | erasing (victim : Sector)
deriving DecidableEq, Repr

/-! ## Array engine -/

/-- Kinds of engine operation (R47): a program of these bytes, an erase, a step read of this length. -/
inductive EngineOpKind where
  | program (bytes : List Byte)
  | erase
  | stepRead (length : Nat)
deriving DecidableEq, Repr

/-- An engine operation and where it works (R47). -/
structure EngineOp where
  kind : EngineOpKind
  sector : Sector
  offset : Nat
deriving DecidableEq, Repr

/-- The engine state with its current operation (R47): PROGRAMMING covers step reads; times in milliseconds. -/
inductive EngineState where
  | idle
  | programming (op : EngineOp) (elapsed : Nat)
  | erasing (op : EngineOp) (elapsed suspends : Nat)
  | eraseSuspended (op : EngineOp) (elapsed suspends : Nat)
deriving DecidableEq, Repr

/-- A read (R55). `orphan`: its port has been released while it was in progress (R61). -/
structure Read where
  port : Port
  orphan : Bool
  key : Key
  seq : Seq
  sector : Sector
  offset : Nat
  length : Nat
  getOffset : Nat
  maxLength : Nat
deriving DecidableEq, Repr

/-- The read port and read queue of a bank (R57). -/
structure ReadPath where
  current : Option Read
  queue : List Read
deriving DecidableEq, Repr

/-- The four requesters of the engine (R51). -/
inductive Requester where
  | job (p : Port)
  | reclaim
deriving DecidableEq, Repr

/-! ## What the holder of the engine has in hand -/

/-- Where the placing and programming of one entry stands (R33, R66, R67): the program now issued. -/
inductive PlaceStage where
  /-- the full mark of the ACTIVE sector -/
  | close (x : Sector)
  /-- the header of the sector being opened -/
  | openHeader (x : Sector)
  /-- its opened mark -/
  | openMark (x : Sector)
  /-- step 1: header fields from key to count -/
  | header (x : Sector) (o : Nat)
  /-- step 2: the written mark -/
  | written (x : Sector) (o : Nat)
  /-- step 3: payload and CRC-32 -/
  | payload (x : Sector) (o : Nat)
  /-- step 4: the complete mark -/
  | complete (x : Sector) (o : Nat)
deriving DecidableEq, Repr

/-- Which entry of a commit job is being placed (R35, R38). -/
inductive JobEntry where
  | member (i : Nat)
  | endMarker
  | settleCopy (i : Nat) (second : Bool)
deriving DecidableEq, Repr

/-- What a RUNNING job's issued operation is for. -/
inductive JobWork where
  /-- an entry is placed and programmed (R33) -/
  | place (what : JobEntry) (img : EntryImage) (st : PlaceStage)
  /-- the settled mark of member i (R35) -/
  | settle (i : Nat)
  /-- the close after a failed attempt (R36, step 2) -/
  | failClose (x : Sector)
  /-- the close after a failed settle copy (R38) -/
  | settleClose (i : Nat) (second : Bool) (x : Sector)
  /-- the open of a new attempt (R36, step 7) -/
  | restartOpen (x : Sector) (mark : Bool)
  /-- the open of a successor before the job ends with this status (R69); `last`: the only ERASED sector -/
  | successor (x : Sector) (mark last : Bool) (st : Status)
  /-- FORMAT: the header read of R104 -/
  | formatRead (x : Sector) (rest : List Sector)
  /-- FORMAT: the withdrawal of R104 -/
  | formatWithdraw (x : Sector) (rest : List Sector)
  /-- FORMAT: waiting for every pin to drop (R105) -/
  | formatPins (withdrawn : Option Sector)
  /-- FORMAT: an erase of R106 -/
  | formatErase (x : Sector) (rest : List Sector)
  /-- FORMAT: the retired mark after a failed erase (R106) -/
  | formatRetire (x : Sector) (rest : List Sector)
  /-- FORMAT: the open of R107, with the number of usable sectors -/
  | formatOpen (x : Sector) (mark : Bool) (usable : Nat)
deriving DecidableEq, Repr

/-- What the copying of one entry out of a victim is doing (R78, R80, R81). -/
inductive CopyWork where
  /-- step read of the header at the cursor -/
  | header
  /-- step read of the whole entry that the slot names -/
  | entry (slot : DirSlot)
  /-- the copy is placed and programmed -/
  | place (slot : DirSlot) (second : Bool) (img : EntryImage) (st : PlaceStage)
  /-- the close after a failed try -/
  | close (slot : DirSlot) (second : Bool) (img : EntryImage) (x : Sector)
deriving DecidableEq, Repr

/-- What a reclaim step's issued operation is for (R77 to R82). -/
inductive ReclaimWork where
  | marking (x : Sector)
  | copy (x : Sector) (pos : CopyPos) (w : CopyWork)
  | erase (x : Sector)
  | retire (x : Sector)
deriving DecidableEq, Repr

/-- What the scan makes of an entry (R91, R92). -/
inductive EntryCheck where
  /-- written and not complete -/
  | torn
  /-- complete and not well formed: corrupt -/
  | malformed
  /-- well formed, CRC-32 differs: corrupt but named -/
  | damaged
  | good
deriving DecidableEq, Repr

/-- An entry of the scan list (R91). `policyBytes` is the payload of a good entry of a system key, from which R101 adopts
(log 16); empty for every other entry. -/
structure ScanEntry where
  sector : Sector
  offset : Nat
  kind : EntryKind
  key : Key
  length : Nat
  seq : Seq
  owner : Byte
  access : Byte
  flags : Byte
  count : Byte
  complete : Bool
  settled : Bool
  check : EntryCheck
  policyBytes : List Byte
deriving DecidableEq, Repr

/-- What the settle copy of a mount is doing (R99, R100). -/
inductive SettleWork where
  | read
  | place (second : Bool) (img : EntryImage) (st : PlaceStage)
  | close (second : Bool) (img : EntryImage) (x : Sector)
deriving DecidableEq, Repr

/-- Why a mount makes a settle copy: before the erase of a SOURCE sector (R99), or in phase 11 (R100); with what comes
after it. -/
inductive SettleFor where
  | beforeErase (x : Sector) (rest : List Sector) (more : List ScanEntry)
  | final (more : List ScanEntry)
deriving DecidableEq, Repr

/-- What the mount's issued operation is for (R87). -/
inductive MountWork where
  /-- phase 1: the header of a sector; `found` holds the classes of the sectors below it -/
  | header (x : Sector) (found : List HeaderClass)
  /-- phase 1: the rest of a sector whose header reads FFh -/
  | blank (x : Sector) (found : List HeaderClass)
  /-- phase 4: an entry header -/
  | scanHeader (x : Sector) (o : Nat) (rest : List Sector)
  /-- phase 4: a whole entry -/
  | scanEntry (x : Sector) (o : Nat) (rest : List Sector)
  /-- phase 4: the full mark of a candidate whose rest is unusable -/
  | scanClose (x : Sector) (rest : List Sector)
  /-- phase 7: the settled mark of a member -/
  | settle (m : ScanEntry) (rest : List ScanEntry)
  /-- phase 8: the erase of an UNCLEAN sector -/
  | unclean (x : Sector) (rest : List Sector)
  /-- phase 8: its retired mark -/
  | uncleanRetire (x : Sector) (rest : List Sector)
  /-- phase 9: the full mark of a candidate that is not the head -/
  | headClose (x : Sector) (rest : List Sector)
  /-- phase 10: copying out of a SOURCE sector -/
  | source (x : Sector) (rest : List Sector) (pos : CopyPos) (w : CopyWork)
  /-- phase 10: the erase of a SOURCE sector -/
  | sourceErase (x : Sector) (rest : List Sector)
  /-- phase 10: its retired mark -/
  | sourceRetire (x : Sector) (rest : List Sector)
  /-- phase 11: the open of a head -/
  | head (x : Sector) (mark : Bool)
  /-- phases 10 and 11: a settle copy -/
  | settleCopy (why : SettleFor) (m : ScanEntry) (w : SettleWork)
deriving DecidableEq, Repr

/-- Who holds the engine (R48, R53), and what its work in hand is. -/
inductive Holder where
  | free
  | job (p : Port) (w : JobWork)
  | reclaim (w : ReclaimWork)
  | mount (w : MountWork)
deriving DecidableEq, Repr

/-- What a mount collects while it runs (R91 to R101). -/
structure MountData where
  /-- the list of the scan, in scan order -/
  scan : List ScanEntry
  /-- ACTIVE candidates with their end offsets -/
  candidates : List (Sector × Nat)
  /-- members that owe a settle copy (R96) -/
  owed : List ScanEntry
  /-- something counts toward the FAULT of R101 -/
  fault : Bool
  overflow : Bool
  /-- a copy of R99 could not be programmed -/
  copyFailed : Bool
  /-- a settle copy of R99 or R100 could not be made -/
  settleFailed : Bool
deriving DecidableEq, Repr

/-! ## Store controller -/

/-- Store states (R84). -/
inductive StoreState where
  | mounting | unformatted | ready | readOnly | formatting
deriving DecidableEq, Repr

/-- The policy in force (R169). A quota of 0 means unlimited. -/
structure Policy where
  trigger : Nat
  lowSpace : Nat
  quotas : PerPort Nat
deriving DecidableEq, Repr

/-! ## The whole -/

/-- Everything in the part but the array: all of it is lost in a reset. -/
structure Block where
  /-- the part is in reset (R180) -/
  inReset : Bool
  storeState : StoreState
  generation : BitVec 16
  admin : Option Port
  addrStraps : BitVec 2
  policy : Policy
  corruptCount : BitVec 32
  retryCount : BitVec 32
  mount : MountData
  /-- occupied slots in ascending key order (R8) -/
  dir : List DirSlot
  usage : PerPort Nat
  storeSeq : Seq
  sectors : Vector SectorRow 64
  spaceLow : Bool
  cycle : Cycle
  engine : EngineState
  /-- the operation issued and not yet started (R48) -/
  issued : Option EngineOp
  holder : Holder
  reclaimFlag : Bool
  lastGranted : Requester
  banks : PerBank ReadPath
  ports : PerPort PortState
  select : PerSel SelectFraming
  wire : WireFraming
deriving DecidableEq, Repr

/-- The state of the machine: the nonvolatile array, as a sparse list of cells that do not read FFh; the rest of the part;
and the queue of commands that wait, first in, first out. -/
structure State where
  array : List Host.Cell
  block : Block
  pending : List Instr
deriving DecidableEq, Repr

/-- The ways a command can stop the model. -/
inductive Fault where
  /-- Raised by ENGINE_OP_START and READ_START when the run of the operation or read leaves its sector. The manual says that
  no such operation is issued (R42, R48), so the model stops where no run comes: safe. -/
  | outsideSector
deriving DecidableEq, Repr

/-- The ways the model can refuse a command. -/
inductive Refusal where
  /-- Raised by `exec` for a command that has no meaning yet. No arm answers it: safe. -/
  | notModelled (mnemonic : String)
deriving DecidableEq, Repr

/-! ## Reset -/

/-- A port after reset: slot EMPTY, no cause, default mask, release enabled, batch CLOSED, nothing watched or noted
(R19, R109, R121, R130, R133, R138). -/
def PortState.reset : PortState :=
  { slot := .empty, fetchProgress := 0, sticky := 0, mask := Config.defaultMask, releaseEnable := true, stretchLimit := 0
    releaseSpent := false, batch := .closed, job := none, watches := [], notes := [] }

/-- A select port's framing after reset in this state (R145). -/
def SelectFraming.reset (st : SelectState) : SelectFraming :=
  { state := st, mode3 := false, bytesComplete := 0, frameType := .none, showedAnswered := false, requestBytes := []
    overLength := false, sdo := none, driven := false }

/-- Port 2's framing with every field cleared, in this state (R156). -/
def WireFraming.cleared (st : WireState) : WireFraming :=
  { state := st, address := none, requestBytes := [], overLength := false, showedAnswered := false, nakSeen := false
    stretchTime := 0, sending := none, bytesSent := 0, ackOut := none }

/-- A row before phase 1 has looked at its sector (log 24). -/
def SectorRow.unread : SectorRow :=
  { state := .unclean, eraseCount := none, openSeq := none, generation := none, writeOffset := none }

def MountData.empty : MountData :=
  { scan := [], candidates := [], owed := [], fault := false, overflow := false, copyFailed := false, settleFailed := false }

/-- The default policy (R84). -/
def Policy.default : Policy :=
  { trigger := Config.defaultTrigger, lowSpace := Config.defaultLowSpace, quotas := PerPort.all 0 }

/-- The first step read of a mount: the header of sector 0 (R88). -/
def firstMountRead : EngineOp := { kind := .stepRead 32, sector := 0, offset := 0 }

/-- The part as reset ends, with these straps and framing states: every block at the value its own rule gives for power-on and
RESET_n, the store MOUNTING, the store controller holding the engine for the mount (R87, R180). -/
def Block.reset (admin : Option Port) (addrStraps : BitVec 2) (s0 s1 : SelectState) : Block :=
  { inReset := false, storeState := .mounting, generation := 0, admin := admin, addrStraps := addrStraps
    policy := Policy.default, corruptCount := 0, retryCount := 0, mount := MountData.empty, dir := []
    usage := PerPort.all 0, storeSeq := 0, sectors := Vector.replicate 64 SectorRow.unread, spaceLow := false
    cycle := .idle, engine := .idle, issued := some firstMountRead, holder := .mount (.header 0 [])
    reclaimFlag := false, lastGranted := .reclaim
    banks := { b0 := { current := none, queue := [] }, b1 := { current := none, queue := [] } }
    ports := PerPort.all PortState.reset
    select := { s0 := SelectFraming.reset s0, s1 := SelectFraming.reset s1 }
    wire := WireFraming.cleared .ignoring }

/-- The machine right after reset: straps left unconnected, so port 0 is the administrator and port 2's address is 58h (R180),
select inputs high, the array erased (log 1, 2), nothing waiting. -/
def State.reset : State :=
  { array := [], block := Block.reset (some .p0) 0 .idle .idle, pending := [] }

end Sys2Proof.Machine
end

