-- ==== Sys2Proof/Machine/Flags.lean ====
section
/-! DEFINITION. Causes, ATTN and the status byte (R138, R139, R142, R176). -/

namespace Sys2Proof.Machine

/-! ## Positions of the cause set (R138, R176) -/

def causeResp : BitVec 16 := 0x0001
def causeNote : BitVec 16 := 0x0002
def causeNoteLost : BitVec 16 := 0x0004
def causeRespLost : BitVec 16 := 0x0008
def causeRefused : BitVec 16 := 0x0010
def causeFrameErr : BitVec 16 := 0x0020
def causeReleased : BitVec 16 := 0x0040
def causeFault : BitVec 16 := 0x0080
def causeLowSpace : BitVec 16 := 0x0100
def causeFormatted : BitVec 16 := 0x0200

def slotAnswered : ReqSlot → Bool
  | .answered _ => true
  | .empty | .working _ _ => false

def slotWorking : ReqSlot → Bool
  | .working _ _ => true
  | .empty | .answered _ => false

/-- The cause set of a port: its sticky causes, RESP exactly while the slot is ANSWERED and NOTE exactly while the
notification queue holds a note (R138, R139). -/
def causeSet (q : PortState) : BitVec 16 :=
  q.sticky ||| (if slotAnswered q.slot then causeResp else 0) ||| (if q.notes.isEmpty then 0 else causeNote)

/-- Port p's ATTN output is asserted: outside reset, while cause set and mask share a position (R142, R180). -/
def attn (b : Block) (p : Port) : Bool :=
  !b.inReset && (causeSet (b.ports.get p) &&& (b.ports.get p).mask) != 0

/-! ## The status byte (R176) -/

def slotCode : ReqSlot → BitVec 2
  | .empty => 0
  | .working _ _ => 1
  | .answered _ => 2

def storeCode : StoreState → BitVec 3
  | .mounting => 0
  | .ready => 1
  | .readOnly => 2
  | .unformatted => 3
  | .formatting => 4

/-- OPEN or COMMITTING (R19). -/
def batchOpen : BatchContext → Bool
  | .closed => false
  | .opened _ | .committing => true

/-- The status byte as port p would capture it now: slot state in bits 7 to 6, store state in 5 to 3, ATTN in 2, notes
pending in 1, batch open in 0 (R176). -/
def statusByte (b : Block) (p : Port) : Byte :=
  slotCode (b.ports.get p).slot ++ storeCode b.storeState ++ BitVec.ofBool (attn b p) ++
    BitVec.ofBool (!(b.ports.get p).notes.isEmpty) ++ BitVec.ofBool (batchOpen (b.ports.get p).batch)

end Sys2Proof.Machine
end

