-- ==== Sys2Proof/Machine/Operands.lean ====
section
/-! DEFINITION. Operand forms: ranges of request parameters (R114), sizes of operations (R22, R30), access sets (R2, R11),
payloads of system records (R167, R168). -/

namespace Sys2Proof.Machine

/-! ## Ports in sets -/

/-- The set that holds one port (R174). -/
def portBit : Port → PortSet
  | .p0 => 1
  | .p1 => 2
  | .p2 => 4

def ownerBit : Option Port → PortSet
  | some p => portBit p
  | none => 0

def inSet (p : Port) (s : PortSet) : Bool := (s &&& portBit p) != 0

/-- Ports 0, 1 and 2. -/
def allPortsSet : PortSet := 7

/-! ## Request parameters -/

/-- LIST's max count is 1 to 32 (R114). -/
def listCountOk (n : Byte) : Bool := 1 ≤ n.toNat && n.toNat ≤ 32

/-- NOTES' max count is 1 to 16 (R114). -/
def notesCountOk (n : Byte) : Bool := 1 ≤ n.toNat && n.toNat ≤ 16

/-- CONFIGURE's release enable is 00h or 01h (R114). -/
def releaseEnableOk (x : Byte) : Bool := x == 0 || x == 1

/-! ## Write operations -/

/-- Payload bytes an operation counts in a staging list: a delete counts 0 (R23). -/
def opBytes (op : WriteOp) : Nat :=
  match op.kind with
  | .put _ payload => payload.length
  | .delete => 0

def opPayload (op : WriteOp) : List Byte :=
  match op.kind with
  | .put _ payload => payload
  | .delete => []

def opIsPut (op : WriteOp) : Bool :=
  match op.kind with
  | .put _ _ => true
  | .delete => false

/-- The total footprint F of a job: its entries, and 20 for the end marker of a batch of two or more (R30, R71). -/
def jobFootprint (ops : List WriteOp) : Nat :=
  (ops.map fun op => footprint (opBytes op)).sum + if 2 ≤ ops.length then 20 else 0

/-- A staging list after an operation joins it: an earlier one for its key is removed, the new one goes to the end (R23). -/
def restage (ops : List WriteOp) (op : WriteOp) : List WriteOp := ops.filter (·.key != op.key) ++ [op]

/-- At most 8 operations and 2048 payload bytes (R22). -/
def stagingFits (ops : List WriteOp) : Bool :=
  ops.length ≤ Config.maxBatchOps && (ops.map opBytes).sum ≤ Config.maxStagedBytes

/-! ## System records -/

/-- The port a quota record limits: FF01h, FF02h, FF03h for ports 0, 1, 2 (R168). -/
def quotaPort (k : Key) : Option Port :=
  if k = 0xFF01 then some .p0 else if k = 0xFF02 then some .p1 else if k = 0xFF03 then some .p2 else none

/-- The system-value check of a payload (R167, R168). -/
def systemValueOk (k : Key) (payload : List Byte) : Bool :=
  if k = 0xFF00 then
    payload.length == 5 && 2 ≤ (byteAt payload 0).toNat && (byteAt payload 0).toNat ≤ 16 &&
      (word32At payload 1).toNat ≤ 262144
  else payload.length == 4

/-- The policy after a system record with this payload is adopted (R170). -/
def adoptRecord (k : Key) (payload : List Byte) (y : Policy) : Policy :=
  if k = 0xFF00 then { y with trigger := (byteAt payload 0).toNat, lowSpace := (word32At payload 1).toNat }
  else
    match quotaPort k with
    | some q => { y with quotas := y.quotas.set q (word32At payload 0).toNat }
    | none => y

/-- The policy after the defaults of a system key are restored (R171). -/
def restoreDefault (k : Key) (y : Policy) : Policy :=
  if k = 0xFF00 then { y with trigger := Config.defaultTrigger, lowSpace := Config.defaultLowSpace }
  else
    match quotaPort k with
    | some q => { y with quotas := y.quotas.set q 0 }
    | none => y

/-! ## Places -/

/-- The bank of a sector: its number divided by 32 (R42). -/
def bankOf (x : Sector) : Bank := if x.val < 32 then .b0 else .b1

/-- The array address of an offset in a sector (R42). -/
def address (x : Sector) (o : Nat) : Nat := x.val * Config.sectorBytes + o

/-- Sectors 0 to 63, ascending. -/
def allSectors : List Sector := (List.range 64).map (Fin.ofNat 64)

end Sys2Proof.Machine
end

