-- ==== Sys2Proof/Machine/Ops.lean ====
section
/-! DEFINITION. The named operations over the array, the directory, the ports and the read path, which the meanings share. A
block has no exception to take: what a processor's exception entry would be is here the raising of a cause (R138, R141). -/

namespace Sys2Proof.Machine

/-! ## The array (R42 to R45) -/

/-- What an address that is not listed reads as: FFh, erased (log 1). -/
def unlisted : Byte := 0xFF

/-- The byte at an address. -/
def readByte : List Host.Cell → Nat → Byte
  | [], _ => unlisted
  | (a, v) :: rest, x => if a = x then v else readByte rest x

/-- The canonical list after one address holds a value. -/
def putCell : List Host.Cell → Nat → Byte → List Host.Cell
  | [], x, v => if v = unlisted then [] else [(x, v)]
  | (a, w) :: rest, x, v =>
    if x < a then (if v = unlisted then (a, w) :: rest else (x, v) :: (a, w) :: rest)
    else if x = a then (if v = unlisted then rest else (x, v) :: rest)
    else (a, w) :: putCell rest x v

/-- The array after one byte of a sector holds a value; an offset outside the sector names no byte (R42). -/
def writeByte (m : List Host.Cell) (x : Sector) (o : Nat) (v : Byte) : List Host.Cell :=
  if o < Config.sectorBytes then putCell m (address x o) v else m

/-- The bytes of a run. -/
def readRun (m : List Host.Cell) (x : Sector) (o : Nat) : Nat → List Byte
  | 0 => []
  | n + 1 => readByte m (address x o) :: readRun m x (o + 1) n

/-- A byte after a program: the AND of its old value and the requested one, but for the bits that did not take (R43). -/
def programmed (old requested miss : Byte) : Byte := old &&& (requested ||| miss)

/-- The array after a program of a run; `miss` gives, byte by byte, bits driven to 0 that did not take, none where it is
shorter than the run (R43, R45). -/
def programRun (m : List Host.Cell) (x : Sector) (o : Nat) : List Byte → List Byte → List Host.Cell
  | [], _ => m
  | v :: vs, miss =>
    programRun (writeByte m x o (programmed (readByte m (address x o)) v (miss.headD 0))) x (o + 1) vs miss.tail

/-- The readback of a program: every byte of the run matches (R43). -/
def readbackOk (m : List Host.Cell) (x : Sector) (o : Nat) (bytes : List Byte) : Bool :=
  readRun m x o bytes.length == bytes

/-- Whether an address lies in a sector. -/
def inSector (x : Sector) (a : Nat) : Bool :=
  x.val * Config.sectorBytes ≤ a && a < (x.val + 1) * Config.sectorBytes

/-- The bytes that an erase left other than FFh. -/
def writeResidue (m : List Host.Cell) (x : Sector) : List (Nat × Byte) → List Host.Cell
  | [] => m
  | (o, v) :: rest => writeResidue (writeByte m x o v) x rest

/-- The array after an erase of a sector: FFh everywhere but where `residue` says otherwise (R44, R45). -/
def eraseRun (m : List Host.Cell) (x : Sector) (residue : List (Nat × Byte)) : List Host.Cell :=
  writeResidue (m.filter fun c => !inSector x c.1) x residue

/-- The verify of an erase: all 4096 bytes read FFh (R44). -/
def verifyOk (m : List Host.Cell) (x : Sector) : Bool :=
  m.all fun c => !inSector x c.1 || c.2 == 0xFF

/-- The canonical form: addresses strictly rising. -/
def cellsRising : List Host.Cell → Bool
  | [] => true
  | [_] => true
  | (a, _) :: (a', v') :: rest => a < a' && cellsRising ((a', v') :: rest)

/-- The array is in its canonical form: addresses strictly rising, no cell equal to what an unlisted address reads as, every
address inside the array. -/
def Memory.wf (m : List Host.Cell) : Bool :=
  cellsRising m && m.all fun c => c.2 != unlisted && c.1 < Config.arrayBytes

/-! ## Ports -/

def modPort (b : Block) (p : Port) (f : PortState → PortState) : Block :=
  { b with ports := b.ports.set p (f (b.ports.get p)) }

def setSlot (b : Block) (p : Port) (q : ReqSlot) : Block := modPort b p fun s => { s with slot := q }

def setBatch (b : Block) (p : Port) (c : BatchContext) : Block := modPort b p fun s => { s with batch := c }

def setJob (b : Block) (p : Port) (j : Option Job) : Block := modPort b p fun s => { s with job := j }

/-- Raises sticky causes in one port (R138, R140). -/
def raiseCause (b : Block) (p : Port) (c : BitVec 16) : Block := modPort b p fun s => { s with sticky := s.sticky ||| c }

/-- Raises a store-wide cause in all three ports (R141). -/
def raiseAll (b : Block) (c : BitVec 16) : Block :=
  { b with ports := b.ports.map fun s => { s with sticky := s.sticky ||| c } }

/-- A failure that raises FAULT (R141); while the store is MOUNTING it counts toward the FAULT of R101. -/
def raiseFault (b : Block) : Block :=
  match b.storeState with
  | .mounting => { b with mount := { b.mount with fault := true } }
  | .unformatted | .ready | .readOnly | .formatting => raiseAll b causeFault

/-- A 32-bit count that stops at FFFFFFFFh (R84). -/
def satInc (n : BitVec 32) : BitVec 32 := if n = 0xFFFFFFFF then n else n + 1

/-- Places a response in a port's buffer: the slot becomes ANSWERED and the fetch progress 0 (R117). -/
def placeResponse (b : Block) (p : Port) (bytes : List Byte) : Block :=
  modPort b p fun s => { s with slot := .answered bytes, fetchProgress := 0 }

/-- Answers a request in its take event (R115, R117). -/
def answer (b : Block) (p : Port) (tag : Byte) (st : Status) (body : List Byte) : Block :=
  placeResponse b p (response st tag body)

/-- The tag of the WORKING request of a port, if its slot is WORKING. -/
def workingTag (b : Block) (p : Port) : Option Byte :=
  match (b.ports.get p).slot with
  | .working tag _ => some tag
  | .empty | .answered _ => none

/-- Ends the pending work of a WORKING slot with a response (R116). A slot that is not WORKING is left. -/
def endWork (b : Block) (p : Port) (st : Status) (body : List Byte) : Block :=
  match workingTag b p with
  | some tag => answer b p tag st body
  | none => b

/-! ## The directory (R8, R9) -/

/-- The slot of a key, if it is occupied. -/
def dirFind (k : Key) : List DirSlot → Option DirSlot
  | [] => none
  | d :: rest => if d.key = k then some d else dirFind k rest

/-- The directory with a slot filled or replaced, in ascending key order. -/
def dirPut (d : DirSlot) : List DirSlot → List DirSlot
  | [] => [d]
  | e :: rest =>
    if d.key < e.key then d :: e :: rest
    else if d.key = e.key then d :: rest
    else e :: dirPut d rest

/-- The directory with a slot made FREE. -/
def dirRemove (k : Key) (dir : List DirSlot) : List DirSlot := dir.filter (·.key != k)

/-- The canonical form of the directory: keys strictly ascending, so each key stands at most once (R8). -/
def dirSorted : List DirSlot → Bool
  | [] => true
  | [_] => true
  | d :: e :: rest => d.key < e.key && dirSorted (e :: rest)

/-- The slot that names this place, if any (R78). -/
def dirAt (x : Sector) (o : Nat) (dir : List DirSlot) : Option DirSlot :=
  dir.find? fun d => d.sector == x && d.offset == o

/-- The slot with the lower offset; the first where they are equal. -/
def lowerSlot (a : Option DirSlot) (d : DirSlot) : Option DirSlot :=
  match a with
  | none => some d
  | some e => if d.offset < e.offset then some d else some e

/-- The slot that names a sector at the lowest offset (R78, sweep). -/
def dirLowest (x : Sector) (dir : List DirSlot) : Option DirSlot :=
  (dir.filter (·.sector == x)).foldl lowerSlot none

/-- LIVE or DAMAGED (R12). -/
def slotPresent : SlotState → Bool
  | .live | .damaged => true
  | .tombstone => false

/-- The slot of a key when it is present: LIVE or DAMAGED (R12). -/
def presentSlot (k : Key) (dir : List DirSlot) : Option DirSlot :=
  (dirFind k dir).filter fun d => slotPresent d.state

/-- A port may read a record when it is in the read set, or when the key is a system key (R11). -/
def mayRead (p : Port) (d : DirSlot) : Bool := inSet p d.readSet || isSystemKey d.key

/-- The answers of a lookup made for a reading request (R11). -/
inductive Lookup where
  | absent
  | notReadable
  | present (d : DirSlot)
  | damaged (d : DirSlot)
deriving DecidableEq, Repr

def lookup (dir : List DirSlot) (p : Port) (k : Key) : Lookup :=
  match dirFind k dir with
  | none => .absent
  | some d =>
    match d.state with
    | .tombstone => .absent
    | .live => if mayRead p d then .present d else .notReadable
    | .damaged => if mayRead p d then .damaged d else .notReadable

/-! ## Usage (R18) -/

/-- The bytes a slot counts, and the port it counts them for: LIVE and DAMAGED records of user owners. -/
def usageOf (p : Port) (d : DirSlot) : Nat :=
  if slotPresent d.state && d.owner == some p then d.length else 0

/-- The sum over the directory that a usage counter equals (R18). -/
def usageSum (dir : List DirSlot) (p : Port) : Nat := (dir.map (usageOf p)).sum

def usageSums (dir : List DirSlot) : PerPort Nat :=
  { p0 := usageSum dir .p0, p1 := usageSum dir .p1, p2 := usageSum dir .p2 }

/-! ## Notes (R133 to R136) -/

def noteHas (k : Key) (l : List Note) : Bool := l.any (·.key == k)

/-- Folds a posting into the note of its key: sequence, kind and by-port are the posting's; the merged count rises by one and
stops at 255 (R134). -/
def foldNote (n old : Note) : Note :=
  { n with merged := if old.merged < 255 then old.merged + 1 else old.merged }

/-- Posts a note to one port (R134): a new note starts with merged count 0. -/
def postNote (n : Note) (s : PortState) : PortState :=
  if noteHas n.key s.notes then
    { s with notes := s.notes.map fun old => if old.key == n.key then foldNote n old else old }
  else if s.notes.length < Config.maxNotes then { s with notes := s.notes ++ [{ n with merged := 0 }] }
  else { s with sticky := s.sticky ||| causeNoteLost }

/-- The DAMAGED note of a key to every port that watches it and may read it (R136). -/
def postDamage (d : DirSlot) (b : Block) : Block :=
  let note : Note := { key := d.key, seq := d.seq, kind := .damaged, byPort := none, merged := 0 }
  allPorts.foldl (fun b p =>
    if (b.ports.get p).watches.contains d.key && mayRead p d then modPort b p (postNote note) else b) b

/-- A damage report (R17): FAULT and the count of corrupt entries in every case; a slot that is LIVE, carries the sequence and
points at the place becomes DAMAGED, with notes to its watchers. -/
def damageReport (b : Block) (k : Key) (seq : Seq) (x : Sector) (o : Nat) : Block :=
  let b := raiseFault { b with corruptCount := satInc b.corruptCount }
  match dirFind k b.dir with
  | some d =>
    if d.state == .live && d.seq == seq && d.sector == x && d.offset == o then
      postDamage d { b with dir := dirPut { d with state := .damaged } b.dir }
    else b
  | none => b

/-! ## The read path (R55 to R59) -/

/-- Reads of a bank that have not finished. -/
def bankReads (k : ReadPath) : List Read := k.current.toList ++ k.queue

/-- The pin count of a sector: the reads that name it and have not finished (R56, log 8, 9). -/
def pinCount (b : Block) (x : Sector) : Nat :=
  ((bankReads b.banks.b0 ++ bankReads b.banks.b1).filter (·.sector == x)).length

/-- No sector is pinned. -/
def noPins (b : Block) : Bool := (bankReads b.banks.b0 ++ bankReads b.banks.b1).isEmpty

/-- The bank that the engine occupies (R47). -/
def occupied (e : EngineState) : Option Bank :=
  match e with
  | .programming op _ => some (bankOf op.sector)
  | .erasing op _ _ => some (bankOf op.sector)
  | .idle | .eraseSuspended _ _ _ => none

/-- A bank is clear: no read in progress and an empty queue (R48). -/
def bankClear (b : Block) (k : Bank) : Bool :=
  (b.banks.get k).current.isNone && (b.banks.get k).queue.isEmpty

/-- A suspended erase resumes when its bank's read port is free and its queue empty; the suspend count rises (R59). -/
def resumeErase (b : Block) : Block :=
  match b.engine with
  | .eraseSuspended op t n =>
    if bankClear b (bankOf op.sector) then { b with engine := .erasing op t (n + 1) } else b
  | .idle | .programming _ _ | .erasing _ _ _ => b

/-- A read that arrives at a bank whose erase is ERASING suspends it, up to 16 times (R59). -/
def suspendErase (b : Block) (k : Bank) : Block :=
  match b.engine with
  | .erasing op t n =>
    if bankOf op.sector = k ∧ n < Config.maxSuspends then { b with engine := .eraseSuspended op t n } else b
  | .idle | .programming _ _ | .eraseSuspended _ _ _ => b

/-- A created read starts at once when its bank's read port is free, its bank not occupied and no read waits; otherwise it
joins the queue (R57, log 29). -/
def joinBank (b : Block) (r : Read) : Block :=
  let k := bankOf r.sector
  let path := b.banks.get k
  if bankClear b k ∧ occupied b.engine ≠ some k then
    { b with banks := b.banks.set k { path with current := some r } }
  else { b with banks := b.banks.set k { path with queue := path.queue ++ [r] } }

/-- The creation of a read at its lookup (R55), which may suspend an erase (R59). -/
def createRead (b : Block) (r : Read) : Block := joinBank (suspendErase b (bankOf r.sector)) r

/-! ## Issuing engine operations (R48) -/

def issueProgram (b : Block) (x : Sector) (o : Nat) (bytes : List Byte) : Block :=
  { b with issued := some { kind := .program bytes, sector := x, offset := o } }

def issueErase (b : Block) (x : Sector) : Block :=
  { b with issued := some { kind := .erase, sector := x, offset := 0 } }

def issueRead (b : Block) (x : Sector) (o n : Nat) : Block :=
  { b with issued := some { kind := .stepRead n, sector := x, offset := o } }

/-- Sets a mark: one byte to 00h (R177, R178). -/
def issueMark (b : Block) (x : Sector) (o : Nat) : Block := issueProgram b x o [0x00]

/-- The run of an operation lies within its sector (R42, R48). -/
def runInSector (op : EngineOp) : Bool :=
  match op.kind with
  | .program bytes => op.offset + bytes.length ≤ Config.sectorBytes
  | .erase => true
  | .stepRead n => op.offset + n ≤ Config.sectorBytes

end Sys2Proof.Machine
end

