-- ==== Sys2Proof/Machine/Space.lean ====
section
/-! DEFINITION. The space manager: the sector table, the head, free and reclaimable bytes, admission, the reclaim cycle's start
and end, and the placing and programming of one entry (R33, R63 to R75, R83, R86). -/

namespace Sys2Proof.Machine

/-! ## The sector table (R63 to R65) -/

def row (b : Block) (x : Sector) : SectorRow := b.sectors.get x

def setRow (b : Block) (x : Sector) (r : SectorRow) : Block := { b with sectors := b.sectors.set x r }

def inState (b : Block) (st : SectorState) : List Sector := allSectors.filter fun x => (row b x).state == st

def countState (b : Block) (st : SectorState) : Nat := (inState b st).length

def erasedCount (b : Block) : Nat := countState b .erased

/-- Sectors that are not RETIRED. -/
def usableCount (b : Block) : Nat := 64 - countState b .retired

/-- Live bytes: the footprints of the entries that directory slots name in the sector (R65). -/
def liveBytes (b : Block) (x : Sector) : Nat :=
  ((b.dir.filter (·.sector == x)).map fun d => footprint d.length).sum

/-- Unwritten bytes (R65). -/
def unwrittenBytes (r : SectorRow) : Nat :=
  match r.state with
  | .active => Config.sectorBytes - r.writeOffset.getD Config.sectorBytes
  | .erased => Config.usableBytes
  | .full | .source | .oldgen | .unclean | .retired => 0

/-- Stale bytes (R65). -/
def staleBytes (b : Block) (x : Sector) : Nat :=
  match (row b x).state with
  | .active | .full | .source | .oldgen => Config.usableBytes - liveBytes b x - unwrittenBytes (row b x)
  | .erased | .unclean | .retired => 0

/-- The head: the ACTIVE sector and its write offset (R66). -/
def head (b : Block) : Option (Sector × Nat) :=
  match inState b .active with
  | x :: _ => (row b x).writeOffset.map fun o => (x, o)
  | [] => none

/-- The ACTIVE sector's remainder, 0 with no ACTIVE sector (R70). -/
def headRemainder (b : Block) : Nat :=
  match head b with
  | some (_, o) => Config.sectorBytes - o
  | none => 0

/-- Free bytes (R70): the reserve is never counted; 0 while the store is MOUNTING. -/
def freeBytes (b : Block) : Nat :=
  if b.storeState = .mounting then 0 else headRemainder b + Config.usableBytes * (erasedCount b - 1)

/-- Reclaimable bytes (R70): 0 while the store is MOUNTING. -/
def reclaimableBytes (b : Block) : Nat :=
  if b.storeState = .mounting then 0
  else ((inState b .full ++ inState b .oldgen ++ inState b .source).map (staleBytes b)).sum

/-! ## The space-low condition (R72) -/

/-- Evaluates the space-low condition after a change of the free bytes or the threshold; its onset raises LOW_SPACE. It is not
evaluated while MOUNTING or FORMATTING, whose ends evaluate it. -/
def evalSpaceLow (b : Block) : Block :=
  match b.storeState with
  | .mounting | .formatting => b
  | .unformatted | .ready | .readOnly =>
    let low := decide (freeBytes b < b.policy.lowSpace)
    let b' := { b with spaceLow := low }
    if low && !b.spaceLow then raiseAll b' causeLowSpace else b'

/-! ## Erase counts (R63, R67) -/

/-- The known erase counts. -/
def knownCounts (b : Block) : List Nat :=
  allSectors.filterMap fun x => (row b x).eraseCount.map BitVec.toNat

/-- The mean of the known erase counts rounded up, 0 when none is known (R63, R99). -/
def meanCount (b : Block) : BitVec 32 :=
  let l := knownCounts b
  BitVec.ofNat 32 (if l.isEmpty then 0 else (l.sum + l.length - 1) / l.length)

/-- A row's erase count, an unknown one taken as the mean (R99). -/
def countOf (b : Block) (x : Sector) : BitVec 32 := (row b x).eraseCount.getD (meanCount b)

/-- The erase count that an open writes: the row's plus 1 (R67); after FFFFFFFFh a free value (log 10). -/
def nextCount (c : BitVec 32) : BitVec 32 := if c = 0xFFFFFFFF then Config.eraseCountAfterMax else c + 1

/-- Every unknown erase count becomes the mean (R63, R100, R106). -/
def fillCounts (b : Block) : Block :=
  let m := meanCount b
  { b with sectors := b.sectors.map fun r => { r with eraseCount := some (r.eraseCount.getD m) } }

/-! ## Reclaim cycles: victims and triggers (R74, R75) -/

/-- Whether sector x is a better victim than y: more stale bytes, then the lower erase count; y, the lower index, otherwise
(R75). -/
def betterVictim (b : Block) (x y : Sector) : Bool :=
  staleBytes b y < staleBytes b x ||
    (staleBytes b x == staleBytes b y && (countOf b x).toNat < (countOf b y).toNat)

/-- FULL and OLDGEN sectors with stale bytes above 0, ascending (R74). -/
def candidates (b : Block) : List Sector :=
  allSectors.filter fun x =>
    ((row b x).state == .full || (row b x).state == .oldgen) && 0 < staleBytes b x

def pickVictim (b : Block) (best : Option Sector) (x : Sector) : Option Sector :=
  match best with
  | none => some x
  | some y => if betterVictim b x y then some x else some y

/-- The victim of R75, when there is one. -/
def victim (b : Block) : Option Sector := (candidates b).foldl (pickVictim b) none

/-- Starts a cycle (R75): the victim's row becomes SOURCE, the cycle MARKING, the reclaim flag is raised. -/
def startCycle (b : Block) (x : Sector) : Block :=
  { setRow b x { row b x with state := .source } with cycle := .marking x, reclaimFlag := true }

/-- Some port's job is in WAIT_SPACE. -/
def anyWaiting (b : Block) : Bool :=
  allPorts.any fun p => ((b.ports.get p).job.map fun j => j.state == .waitSpace).getD false

/-- Triggers 1 and 2 for this victim (R74). Trigger 1 needs a sector of 1016 stale bytes, so it can look at the victim, which
has the most. -/
def triggered (b : Block) (x : Sector) : Bool :=
  (erasedCount b ≤ b.policy.trigger && Config.triggerStale ≤ staleBytes b x) || anyWaiting b

/-- Evaluates triggers 1 and 2, in READY and with the cycle IDLE (R74). -/
def evalTriggers (b : Block) : Block :=
  if b.storeState == .ready && b.cycle == .idle then
    match victim b with
    | some x => if triggered b x then startCycle b x else b
    | none => b
  else b

/-! ## Jobs that wait for space, the end of a cycle, READ_ONLY (R30, R83, R86) -/

def requeueJob (j : Job) : Job :=
  match j.state with
  | .waitSpace => { j with state := .queued }
  | .queued | .running => j

/-- Every WAIT_SPACE job of every port returns to QUEUED (R30). -/
def requeueAll (b : Block) : Block :=
  { b with ports := b.ports.map fun s => { s with job := s.job.map requeueJob } }

/-- The cycle state goes to IDLE and the reclaim flag is withdrawn (R83). -/
def clearCycle (b : Block) : Block := { b with cycle := .idle, reclaimFlag := false }

/-- A running cycle is abandoned as the store leaves READY (R83): its end returns every WAIT_SPACE job to QUEUED. With no cycle
running nothing changes. -/
def abandonCycle (b : Block) : Block := if b.cycle = .idle then b else requeueAll (clearCycle b)

/-- The store moves from READY to READ_ONLY (R85, R86): waiting jobs return to QUEUED and a running cycle is abandoned. In any
other state nothing moves. -/
def enterReadOnly (b : Block) : Block :=
  if b.storeState == .ready then clearCycle (requeueAll { b with storeState := .readOnly }) else b

/-- The end of a cycle (R83); `failedCopy`: abandoned for a copy that could not be programmed (R81). -/
def endCycle (failedCopy : Bool) (b : Block) : Block :=
  let b := requeueAll (clearCycle b)
  if b.storeState == .ready then
    if failedCopy || erasedCount b == 0 || usableCount b < Config.minUsableSectors then enterReadOnly b
    else evalTriggers b
  else b

/-! ## Opening and closing sectors (R67 to R69) -/

def betterOpen (b : Block) (x y : Sector) : Bool := (countOf b x).toNat < (countOf b y).toNat

def pickOpen (b : Block) (best : Option Sector) (x : Sector) : Option Sector :=
  match best with
  | none => some x
  | some y => if betterOpen b x y then some x else some y

/-- The ERASED sector with the lowest erase count, the lowest index among equals (R67). -/
def openChoice (b : Block) : Option Sector := (inState b .erased).foldl (pickOpen b) none

/-- Whether a sector may be opened: for a commit while two or more are ERASED, for a reclaim copy while one is (R69). -/
def mayOpen (forCopy : Bool) (b : Block) : Bool :=
  if forCopy then 1 ≤ erasedCount b else 2 ≤ erasedCount b

/-- Issues the header program of an open (R67). -/
def issueOpen (b : Block) (x : Sector) : Block :=
  issueProgram b x 0 (sectorHeader b.generation (nextCount (countOf b x)) b.storeSeq)

/-- The row of a sector whose open has ended: with the erase count, generation and open sequence it was given (R67). -/
def openedRow (b : Block) (x : Sector) (st : SectorState) (offset : Option Nat) : SectorRow :=
  { state := st, eraseCount := some (nextCount (countOf b x)), openSeq := some b.storeSeq
    generation := some b.generation, writeOffset := offset }

/-- An open whose two programs succeeded: the row becomes ACTIVE (R67). -/
def openDone (b : Block) (x : Sector) : Block :=
  evalTriggers (evalSpaceLow (setRow b x (openedRow b x .active (some Config.firstOffset))))

/-- An open one of whose programs failed: FAULT, and the row becomes FULL (R67). -/
def openFailed (b : Block) (x : Sector) : Block :=
  evalTriggers (evalSpaceLow (setRow (raiseFault b) x (openedRow b x .full none)))

/-- A close has ended: FULL in either case, FAULT when the full mark failed (R68). -/
def closeDone (b : Block) (x : Sector) (ok : Bool) : Block :=
  let b := if ok then b else raiseFault b
  evalTriggers (evalSpaceLow (setRow b x { row b x with state := .full, writeOffset := none }))

def issueClose (b : Block) (x : Sector) : Block := issueMark b x fullMarkOffset

/-- The write offset advances by an entry's footprint (R66). -/
def advance (b : Block) (x : Sector) (o : Nat) : Block :=
  evalSpaceLow (setRow b x { row b x with writeOffset := some o })

/-- The row after an erase (R82, R97, R106): ERASED when verified, RETIRED when not; the erase count stays. -/
def erasedRow (b : Block) (x : Sector) (ok : Bool) : SectorRow :=
  { state := if ok then .erased else .retired, eraseCount := (row b x).eraseCount, openSeq := none, generation := none
    writeOffset := none }

/-- The sector table after an erase; a failed verify raises FAULT (R44, R82). -/
def eraseDone (b : Block) (x : Sector) (ok : Bool) : Block :=
  evalSpaceLow (setRow (if ok then b else raiseFault b) x (erasedRow b x ok))

/-! ## Placing and programming one entry (R33, R66) -/

/-- What placing an entry came to: a program issued, the entry programmed at a location, a program or open that failed, or no
sector that may be opened. -/
inductive Placed where
  | go (b : Block) (st : PlaceStage)
  | done (b : Block) (at_ : Loc)
  | failed (b : Block)
  | noSector (b : Block)

/-- The run of step 1 of an entry's program: bytes 0 to 12, and the three marks at FFh, which its readback checks too (R33, R178). -/
def headerRun (img : EntryImage) : List Byte := img.header ++ [0xFF, 0xFF, 0xFF]

/-- Issues the first program of an entry: its header (R33). -/
def placeHeader (b : Block) (img : EntryImage) (x : Sector) (o : Nat) : Placed :=
  .go (issueProgram b x o (headerRun img)) (.header x o)

/-- Issues the open of the ERASED sector of R67. -/
def placeOpen (b : Block) : Placed :=
  match openChoice b with
  | some y => .go (issueOpen b y) (.openHeader y)
  | none => .noSector b

/-- A location for an entry (R66): at the head when it fits; else after a close and an open, when the holder may open a sector;
else none. -/
def placeStart (forCopy : Bool) (b : Block) (img : EntryImage) : Placed :=
  match head b with
  | some (x, o) =>
    if img.footprint ≤ Config.sectorBytes - o then placeHeader b img x o
    else if mayOpen forCopy b then .go (issueClose b x) (.close x)
    else .noSector b
  | none => if mayOpen forCopy b then placeOpen b else .noSector b

/-- What follows the program that has just ended, `ok` or not (R33, R66, R67, R68). A full mark that fails in a close made to place an
entry fails no attempt: the open goes on (log 33). -/
def placeNext (b : Block) (img : EntryImage) (st : PlaceStage) (ok : Bool) : Placed :=
  match st with
  | .close x => placeOpen (closeDone b x ok)
  | .openHeader x =>
    if ok then .go (issueMark b x openedMarkOffset) (.openMark x) else .failed (openFailed b x)
  | .openMark x =>
    if ok then placeHeader (openDone b x) img x Config.firstOffset else .failed (openFailed b x)
  | .header x o => if ok then .go (issueMark b x (o + 13)) (.written x o) else .failed b
  | .written x o => if ok then .go (issueProgram b x (o + 16) img.body) (.payload x o) else .failed b
  | .payload x o => if ok then .go (issueMark b x (o + 14)) (.complete x o) else .failed b
  | .complete x o =>
    if ok then .done (advance b x (o + img.footprint)) { sector := x, offset := o } else .failed b

/-- Whether a failure in this stage has already raised FAULT: an open raises it itself (R67). -/
def stageIsOpen : PlaceStage → Bool
  | .openHeader _ | .openMark _ => true
  | .close _ | .header _ _ | .written _ _ | .payload _ _ | .complete _ _ => false

/-! ## Admission (R71) -/

/-- The answers of the space check (R30). -/
inductive SpaceAnswer where
  | run | wait | full
deriving DecidableEq, Repr

/-- The need of a job of total footprint F: F, plus 1044 when it does not fit the ACTIVE sector's remainder (R71). -/
def spaceNeed (b : Block) (total : Nat) : Nat :=
  total + if total ≤ headRemainder b then 0 else Config.crossingAllowance

/-- The space check (R71). -/
def spaceCheck (b : Block) (total : Nat) : SpaceAnswer :=
  if spaceNeed b total ≤ freeBytes b then .run
  else if spaceNeed b total ≤ freeBytes b + reclaimableBytes b then .wait
  else .full

end Sys2Proof.Machine
end

