-- ==== Sys2Proof/Machine/Commit.lean ====
section
/-! DEFINITION. The commit unit: jobs, the take and its checks, attempts, settling, completion (R14, R18, R19 to R41), with what
a completion hands to RC, NU and SC (R134, R135, R170, R171). -/

namespace Sys2Proof.Machine

def jobOf (b : Block) (p : Port) : Option Job := (b.ports.get p).job

def modJob (b : Block) (p : Port) (f : Job → Job) : Block := modPort b p fun s => { s with job := s.job.map f }

/-- The holder is the job of port p, with this work in hand. -/
def setWork (b : Block) (p : Port) (w : JobWork) : Block := { b with holder := .job p w }

/-! ## Creating jobs (R24, R25, R26, R102) -/

/-- A new job, QUEUED (R26). -/
def newJob (ops : List WriteOp) (batch format : Bool) : Job :=
  { ops := ops, batch := batch, format := format, state := .queued, attempt := 0, seq := none, detached := false
    locs := [] }

/-- The port's slot is WORKING for the job it now has (R26). -/
def createJob (b : Block) (p : Port) (tag : Byte) (j : Job) : Block :=
  modPort b p fun s => { s with job := some j, slot := .working tag .job }

/-- The request waits for the end of the port's detached job (R26). -/
def holdRequest (b : Block) (p : Port) (tag : Byte) (h : Held) : Block := setSlot b p (.working tag (.held h))

/-- A single PUT or DELETE after the length test (R25). -/
def submitWrite (b : Block) (p : Port) (tag : Byte) (op : WriteOp) : Block :=
  if b.storeState == .ready then
    if (jobOf b p).isSome then holdRequest b p tag (.write op)
    else createJob b p tag (newJob [op] false false)
  else answer b p tag .state (writeBody 0 0xFF)

/-- COMMIT (R24). A context in COMMITTING is not reached (R20): nothing changes. -/
def submitCommit (b : Block) (p : Port) (tag : Byte) : Block :=
  match (b.ports.get p).batch with
  | .closed => answer b p tag .noBatch (writeBody 0 0xFF)
  | .committing => b
  | .opened ops =>
    if b.storeState == .ready then
      if ops.isEmpty then answer (setBatch b p .closed) p tag .ok (writeBody 0 0xFF)
      else if (jobOf b p).isSome then holdRequest b p tag .commit
      else setBatch (createJob b p tag (newJob ops true false)) p .committing
    else answer b p tag .state (writeBody 0 0xFF)

/-- FORMAT (R102). In FORMATTING it comes from the administrator only while its earlier FORMAT job is detached (R113). -/
def submitFormat (b : Block) (p : Port) (tag : Byte) : Block :=
  if b.admin == some p then
    if (jobOf b p).isSome then holdRequest b p tag .format
    else
      match b.storeState with
      | .ready | .readOnly | .unformatted => createJob b p tag (newJob [] false true)
      | .mounting | .formatting => answer b p tag .state (writeBody 0 0xFF)
  else answer b p tag .notAdmin (writeBody 0 0xFF)

/-- A held request when the detached job has ended: as R24, R25 or R102 would act had it come then (R26). -/
def serveHeld (b : Block) (p : Port) : Block :=
  match (b.ports.get p).slot with
  | .working tag (.held h) =>
    match h with
    | .write op => submitWrite b p tag op
    | .commit => submitCommit b p tag
    | .format => submitFormat b p tag
  | .working _ .read | .working _ .job | .empty | .answered _ => b

/-! ## The end of a job (R39, R40) -/

/-- What the end of a job brings its port: nothing when detached; otherwise the response, and CLOSED for a batch job. -/
def jobAnswer (b : Block) (p : Port) (j : Job) (st : Status) (seq : Seq) (index : Byte) : Block :=
  if j.detached then b
  else if j.batch then setBatch (endWork b p st (writeBody seq index)) p .closed
  else endWork b p st (writeBody seq index)

/-- The job of port p ends (R39, R40): its port is answered, the job removed, the engine given back; SM evaluates its triggers
(R74); a request held for the job is served (R26). -/
def finishJob (b : Block) (p : Port) (st : Status) (seq : Seq) (index : Byte) : Block :=
  match jobOf b p with
  | some j => serveHeld (evalTriggers { setJob (jobAnswer b p j st seq index) p none with holder := .free }) p
  | none => b

/-! ## What a commit makes of a slot (R2, R3, R4, R6, R14) -/

/-- Access sets and write-once of a user record put with these attributes by this owner: the owner is added to both sets; the
defaults are all ports, the owner alone, 0 (R2). -/
def createdAttrs (owner : Port) (attrs : Option Attrs) : Attrs :=
  match attrs with
  | some a => { a with readSet := a.readSet ||| portBit owner, writeSet := a.writeSet ||| portBit owner }
  | none => { readSet := allPortsSet, writeSet := portBit owner, writeOnce := false }

/-- The slot that a PUT leaves (R14). -/
def slotAfterPut (b : Block) (p : Port) (k : Key) (attrs : Option Attrs) (length : Nat) (loc : Loc) (seq : Seq) :
    DirSlot :=
  let base : DirSlot :=
    { key := k, state := .live, sector := loc.sector, offset := loc.offset, length := length, seq := seq, owner := none
      readSet := allPortsSet, writeSet := 0, writeOnce := false }
  if isSystemKey k then base
  else
    match presentSlot k b.dir with
    | none =>
      let a := createdAttrs p attrs
      { base with owner := some p, readSet := a.readSet, writeSet := a.writeSet, writeOnce := a.writeOnce }
    | some d =>
      match attrs with
      | some a =>
        { base with owner := d.owner, readSet := a.readSet ||| ownerBit d.owner, writeSet := a.writeSet ||| ownerBit d.owner
                    writeOnce := a.writeOnce }
      | none =>
        { base with owner := d.owner, readSet := d.readSet, writeSet := d.writeSet, writeOnce := d.writeOnce }

/-- The slot that an operation of port p's job leaves, its entry lying at `loc` (R14). None for a DELETE of an absent key,
which the take refuses. -/
def slotAfter (b : Block) (p : Port) (op : WriteOp) (loc : Loc) (seq : Seq) : Option DirSlot :=
  match op.kind with
  | .put attrs payload => some (slotAfterPut b p op.key attrs payload.length loc seq)
  | .delete =>
    (presentSlot op.key b.dir).map fun d =>
      { d with state := .tombstone, sector := loc.sector, offset := loc.offset, length := 0, seq := seq, writeOnce := false }

/-! ## The take-time checks (R15, R18, R28, R29, R30) -/

/-- The next sequence would be FFFFFF00h or more (R31). -/
def seqLimitReached (b : Block) : Bool := Config.seqLimit ≤ b.storeSeq.toNat + 1

/-- The current sequence of a key: the slot's when present, 0 when absent (R12). -/
def currentSeq (b : Block) (k : Key) : Seq := ((presentSlot k b.dir).map (·.seq)).getD 0

/-- The write is permitted to the port (R4, R12). System keys have passed the administrator check. -/
def writePermitted (b : Block) (p : Port) (op : WriteOp) : Bool :=
  if isSystemKey op.key then true
  else
    match presentSlot op.key b.dir with
    | none => true
    | some d =>
      inSet p d.writeSet &&
        match op.kind with
        | .put (some _) _ => d.owner == some p
        | .put none _ | .delete => true

/-- Checks 3a to 3g of R28 for one operation, in their order. -/
def opCheck (b : Block) (p : Port) (op : WriteOp) : Option Status :=
  if !isKey op.key then some .badKey
  else if isSystemKey op.key && b.admin != some p then some .notAdmin
  else if isSystemKey op.key && opIsPut op && !systemValueOk op.key (opPayload op) then some .badValue
  else if !writePermitted b p op then some .denied
  else if ((presentSlot op.key b.dir).map (·.writeOnce)).getD false then some .writeOnce
  else if (op.expected.map fun e => e != currentSeq b op.key).getD false then some .conflict
  else if !opIsPut op && (presentSlot op.key b.dir).isNone then some .notFound
  else none

/-- The first operation that fails a check, with its index (R28). -/
def opsCheck (b : Block) (p : Port) : Nat → List WriteOp → Option (Status × Nat)
  | _, [] => none
  | i, op :: rest =>
    match opCheck b p op with
    | some st => some (st, i)
    | none => opsCheck b p (i + 1) rest

/-- PUT operations whose keys have FREE slots (R15). -/
def newSlots (b : Block) (ops : List WriteOp) : Nat :=
  (ops.filter fun op => opIsPut op && (dirFind op.key b.dir).isNone).length

/-- Bytes an operation adds to and takes from a port's usage (R18, R172). -/
def usageChange (b : Block) (p q : Port) (op : WriteOp) : Nat × Nat :=
  if isSystemKey op.key then (0, 0)
  else
    match presentSlot op.key b.dir with
    | none => if opIsPut op && p == q then (opBytes op, 0) else (0, 0)
    | some d => if d.owner == some q then (opBytes op, d.length) else (0, 0)

/-- The projected usage of port q after the job of port p (R18). -/
def projectedUsage (b : Block) (p q : Port) (ops : List WriteOp) : Nat :=
  b.usage.get q + (ops.map fun op => (usageChange b p q op).1).sum - (ops.map fun op => (usageChange b p q op).2).sum

/-- The quota check fails for port q (R18, R172). -/
def overQuota (b : Block) (p q : Port) (ops : List WriteOp) : Bool :=
  b.policy.quotas.get q != 0 && b.usage.get q < projectedUsage b p q ops &&
    b.policy.quotas.get q < projectedUsage b p q ops

/-- How a take ends (R27). -/
inductive TakeResult where
  | refuse (st : Status) (index : Byte)
  | wait
  | run
deriving DecidableEq, Repr

/-- Checks 4 to 6 of R28. -/
def jobChecks (b : Block) (p : Port) (ops : List WriteOp) : TakeResult :=
  if Config.directorySlots < b.dir.length + newSlots b ops then .refuse .dirFull 0xFF
  else if allPorts.any fun q => overQuota b p q ops then .refuse .quota 0xFF
  else
    match spaceCheck b (jobFootprint ops) with
    | .run => .run
    | .wait => .wait
    | .full => .refuse .full 0xFF

/-- All checks of R28 in their order. -/
def takeChecks (b : Block) (p : Port) (ops : List WriteOp) : TakeResult :=
  if b.storeState != .ready then .refuse .state 0xFF
  else if seqLimitReached b then .refuse .seqLimit 0xFF
  else
    match opsCheck b p 0 ops with
    | some (st, i) => .refuse st (byteNat i)
    | none => jobChecks b p ops

/-! ## The entries of a job (R32) -/

/-- The kind of an operation's entry: a member in a batch of two or more (R34, R35). -/
def opKind (op : WriteOp) (member : Bool) : EntryKind :=
  match opIsPut op, member with
  | true, false => .record
  | false, false => .tombstone
  | true, true => .memberRecord
  | false, true => .memberTombstone

/-- The header and payload of an operation's entry (R32): owner, access and write-once as the slot will hold them. -/
def opImage (b : Block) (p : Port) (op : WriteOp) (seq : Seq) (member : Bool) (count : Nat) : EntryImage :=
  let header :=
    match slotAfter b p op { sector := 0, offset := 0 } seq with
    | some d =>
      entryHeader op.key (opBytes op) seq (opKind op member) (portCode d.owner) (accessByte d.readSet d.writeSet)
        (boolByte d.writeOnce) count
    | none => entryHeader op.key (opBytes op) seq (opKind op member) 3 0 0 count
  entryImage header (padded (opPayload op)) true

/-- The end marker of a batch (R32). -/
def endMarkerImage (p : Port) (seq : Seq) (count : Nat) : EntryImage :=
  entryImage (entryHeader 0 0 seq .endMarker (portCode (some p)) 0 0 count) [] true

/-- A job of two or more operations is programmed as members and an end marker (R35). -/
def isMulti (j : Job) : Bool := 2 ≤ j.ops.length

/-- The image of one of a job's entries (R32, R38). -/
def jobImage (b : Block) (p : Port) (j : Job) (what : JobEntry) : Option EntryImage :=
  let seq := j.seq.getD 0
  match what with
  | .member i => j.ops[i]?.map fun op => opImage b p op seq (isMulti j) (if isMulti j then j.ops.length else 0)
  | .endMarker => some (endMarkerImage p seq j.ops.length)
  | .settleCopy i _ => j.ops[i]?.map fun op => opImage b p op seq false 0

/-! ## Completion (R14, R18, R39, R135, R170, R171) -/

/-- The usage counters when a slot changes from `old` to `new` (R18). -/
def shiftUsage (u : PerPort Nat) (old : Option DirSlot) (new : DirSlot) : PerPort Nat :=
  let shift (q : Port) : Nat := u.get q + usageOf q new - (old.map (usageOf q)).getD 0
  { p0 := shift .p0, p1 := shift .p1, p2 := shift .p2 }

/-- The switch of one operation (R14, R18). -/
def switchOp (p : Port) (seq : Seq) (b : Block) (e : WriteOp × Loc) : Block :=
  match slotAfter b p e.1 e.2 seq with
  | some d => { b with dir := dirPut d b.dir, usage := shiftUsage b.usage (dirFind d.key b.dir) d }
  | none => b

/-- Adoption of a put system record, or restoration of the defaults of a deleted one (R170, R171). -/
def adoptOp (y : Policy) (op : WriteOp) : Policy :=
  if isSystemKey op.key then
    match op.kind with
    | .put _ payload => adoptRecord op.key payload y
    | .delete => restoreDefault op.key y
  else y

/-- SC takes the policy of the job's system records into force; a change makes SM evaluate the space-low condition (R72,
R170). -/
def adoptPolicy (b : Block) (ops : List WriteOp) : Block :=
  let y := ops.foldl adoptOp b.policy
  if y = b.policy then b else evalSpaceLow { b with policy := y }

/-- The note of an operation for a watching port that may read the key or not (R135). -/
def completionNote (p : Port) (seq : Seq) (op : WriteOp) (readable : Bool) : Note :=
  { key := op.key
    seq := if readable then seq else 0
    kind := if readable then (if opIsPut op then .written else .deleted) else .withdrawn
    byPort := some p
    merged := 0 }

/-- The posting of one operation to one port (R135): to every watching port but the requesting one. -/
def postCompletionTo (p : Port) (seq : Seq) (op : WriteOp) (b : Block) (q : Port) : Block :=
  if q != p && (b.ports.get q).watches.contains op.key then
    let readable := ((dirFind op.key b.dir).map (mayRead q)).getD false
    modPort b q (postNote (completionNote p seq op readable))
  else b

def postCompletion (p : Port) (seq : Seq) (b : Block) (op : WriteOp) : Block :=
  allPorts.foldl (postCompletionTo p seq op) b

/-- The switch, the policy and the notes of a completion, in this order (R39). -/
def commitEffects (b : Block) (p : Port) (j : Job) (seq : Seq) : Block :=
  let b := (j.ops.zip j.locs).foldl (switchOp p seq) b
  let b := adoptPolicy b j.ops
  j.ops.foldl (postCompletion p seq) b

/-- The completion of a job that has passed its commit point (R39). -/
def completeJob (b : Block) (p : Port) : Block :=
  match jobOf b p with
  | some j => finishJob (commitEffects b p j (j.seq.getD 0)) p .ok (j.seq.getD 0) 0xFF
  | none => b

/-! ## Settling (R35, R38) -/

/-- Programs the settled mark of member i, or completes the job when every member is done (R35). -/
def settleNext (b : Block) (p : Port) (i : Nat) : Block :=
  match (jobOf b p).bind fun j => j.locs[i]? with
  | some loc => setWork (issueMark b loc.sector (loc.offset + 15)) p (.settle i)
  | none => completeJob b p

/-- No settle copy of member i could be made (R38): READ_ONLY, and the job goes on. -/
def settleGiveUp (b : Block) (p : Port) (i : Nat) : Block := settleNext (enterReadOnly b) p (i + 1)

/-- The second try of a settle copy, in a newly opened sector (R38). -/
def settleSecond (b : Block) (p : Port) (i : Nat) : Block :=
  match (jobOf b p).bind fun j => jobImage b p j (.settleCopy i true) with
  | some img =>
    match placeStart false b img with
    | .go b' st => setWork b' p (.place (.settleCopy i true) img st)
    | .done b' _ | .failed b' | .noSector b' => settleGiveUp b' p i
  | none => settleGiveUp b p i

/-- After the close that follows a failed settle copy (R38). -/
def settleClosed (b : Block) (p : Port) (i : Nat) (second : Bool) : Block :=
  if second then settleGiveUp b p i else settleSecond b p i

/-- A settle copy failed, or found no sector (R38): the ACTIVE sector is closed, when there is one. -/
def settleCopyFailed (b : Block) (p : Port) (i : Nat) (second : Bool) : Block :=
  match head b with
  | some (x, _) => setWork (issueClose b x) p (.settleClose i second x)
  | none => settleClosed b p i second

/-- A settled mark failed to program: FAULT, one commit retry counted, and a settle copy (R38). -/
def settleFailed (b : Block) (p : Port) (i : Nat) : Block :=
  let b := raiseFault { b with retryCount := satInc b.retryCount }
  match (jobOf b p).bind fun j => jobImage b p j (.settleCopy i false) with
  | some img =>
    match placeStart false b img with
    | .go b' st => setWork b' p (.place (.settleCopy i false) img st)
    | .done b' _ | .failed b' | .noSector b' => settleCopyFailed b' p i false
  | none => settleNext b p (i + 1)

/-! ## Failure of an attempt (R36, R37, R69) -/

/-- Opens a successor for a job that ends with no ACTIVE sector in READY (R69), and then ends it without a commit point (R37,
R40). -/
def endWithout (b : Block) (p : Port) (st : Status) : Block :=
  if b.storeState == .ready && (head b).isNone then
    match openChoice b with
    | some y => setWork (issueOpen b y) p (.successor y false (erasedCount b == 1) st)
    | none => finishJob (enterReadOnly b) p st 0 0xFF
  else finishJob b p st 0 0xFF

/-- The next sequence is taken (R31). -/
def takeSeq (b : Block) : Block := { b with storeSeq := b.storeSeq + 1 }

/-- Steps 3 to 7 of R36. -/
def afterFail (b : Block) (p : Port) : Block :=
  let b := raiseFault { b with retryCount := satInc b.retryCount }
  match jobOf b p with
  | none => b
  | some j =>
    if 3 ≤ j.attempt then endWithout b p .media
    else if !mayOpen false b then endWithout (enterReadOnly b) p .media
    else if seqLimitReached b then endWithout b p .seqLimit
    else
      let b := takeSeq b
      let b := modJob b p fun j => { j with attempt := j.attempt + 1, seq := some b.storeSeq, locs := [] }
      match openChoice b with
      | some y => setWork (issueOpen b y) p (.restartOpen y false)
      | none => endWithout b p .media

/-- An attempt has failed before its commit point: step 2 of R36 closes the ACTIVE sector, when there is one. -/
def attemptFailed (b : Block) (p : Port) : Block :=
  match head b with
  | some (x, _) => setWork (issueClose b x) p (.failClose x)
  | none => afterFail b p

/-! ## Programming a job (R33 to R35) -/

/-- Places the entry `what` of the job (R33). -/
def startEntry (b : Block) (p : Port) (what : JobEntry) : Block :=
  match (jobOf b p).bind fun j => jobImage b p j what with
  | some img =>
    match placeStart false b img with
    | .go b' st => setWork b' p (.place what img st)
    | .done b' _ | .failed b' | .noSector b' => attemptFailed b' p
  | none => attemptFailed b p

/-- What follows an entry whose complete mark has read back set (R33 to R35, R38). -/
def entryDone (b : Block) (p : Port) (what : JobEntry) (loc : Loc) : Block :=
  match what with
  | .member i =>
    let b := modJob b p fun j => { j with locs := j.locs ++ [loc] }
    match jobOf b p with
    | some j =>
      if i + 1 < j.ops.length then startEntry b p (.member (i + 1))
      else if isMulti j then startEntry b p .endMarker
      else completeJob b p
    | none => b
  | .endMarker => settleNext b p 0
  | .settleCopy i _ => settleNext (modJob b p fun j => { j with locs := j.locs.set i loc }) p (i + 1)

/-- What follows a placing or a program of an entry that failed (R36, R38). -/
def entryFailed (b : Block) (p : Port) (what : JobEntry) : Block :=
  match what with
  | .member _ | .endMarker => attemptFailed b p
  | .settleCopy i second => settleCopyFailed (raiseFault b) p i second

/-- The successor's open has ended well (R69): with no sector ERASED any more SM starts a cycle at once, and the job ends. -/
def successorDone (b : Block) (p : Port) (x : Sector) (last : Bool) (st : Status) : Block :=
  let b := openDone b x
  let b :=
    if last && b.cycle == .idle then
      match victim b with
      | some v => startCycle b v
      | none => b
    else b
  finishJob b p st 0 0xFF

/-- What a RUNNING commit job does when its operation has ended, `ok` or not. -/
def commitStep (b : Block) (p : Port) (w : JobWork) (ok : Bool) : Block :=
  match w with
  | .place what img st =>
    match placeNext b img st ok with
    | .go b' st' => setWork b' p (.place what img st')
    | .done b' loc => entryDone b' p what loc
    | .failed b' => entryFailed b' p what
    | .noSector b' => entryFailed b' p what
  | .settle i => if ok then settleNext b p (i + 1) else settleFailed b p i
  | .failClose x => afterFail (closeDone b x ok) p
  | .settleClose i second x => settleClosed (closeDone b x ok) p i second
  | .restartOpen x mark =>
    if ok then
      if mark then startEntry (openDone b x) p (.member 0)
      else setWork (issueMark b x openedMarkOffset) p (.restartOpen x true)
    else afterFail (openFailed b x) p
  | .successor x mark last st =>
    if ok then
      if mark then successorDone b p x last st
      else setWork (issueMark b x openedMarkOffset) p (.successor x true last st)
    else endWithout (openFailed b x) p st
  | .formatRead _ _ | .formatWithdraw _ _ | .formatPins _ | .formatErase _ _ | .formatRetire _ _
  | .formatOpen _ _ _ => b

/-! ## The take (R27) -/

/-- The take of a commit job that is no FORMAT (R27, R28): it ends, waits for space, or runs with attempt 1 and its sequence. -/
def takeJob (b : Block) (p : Port) (j : Job) : Block :=
  match takeChecks b p j.ops with
  | .refuse st index => finishJob b p st 0 index
  | .wait => evalTriggers (modJob b p fun j => { j with state := .waitSpace })
  | .run =>
    let b := takeSeq b
    let b := modJob b p fun j => { j with state := .running, attempt := 1, seq := some b.storeSeq, locs := [] }
    startEntry b p (.member 0)

end Sys2Proof.Machine
end

