-- ==== Sys2Proof/Machine/FormatJob.lean ====
section
/-! DEFINITION. The FORMAT job (R103 to R108). -/

namespace Sys2Proof.Machine

/-! ## The end of the job (R107, R108) -/

/-- The notification queues of all ports are emptied (R108). -/
def emptyNotes (b : Block) : Block := { b with ports := b.ports.map fun s => { s with notes := [] } }

/-- The completion of a FORMAT that passed its commit point, in one event (R108). -/
def formatComplete (b : Block) (p : Port) (st : StoreState) (answer : Status) : Block :=
  let b := { b with storeState := st, corruptCount := 0, retryCount := 0 }
  let b := evalSpaceLow (requeueAll (emptyNotes (raiseAll b causeFormatted)))
  finishJob b p answer 0 0xFF

/-- The store state of R107: by the number of usable sectors; READ_ONLY when no sector is ACTIVE. -/
def formatState (b : Block) (usable : Nat) : StoreState :=
  if (head b).isNone then .readOnly else if 8 ≤ usable then .ready else .readOnly

/-- Opens the first sector of the new store, or completes when no sector is ERASED any more (R107). -/
def formatOpenNext (b : Block) (p : Port) (usable : Nat) : Block :=
  match openChoice b with
  | some y => setWork (issueOpen b y) p (.formatOpen y false usable)
  | none => formatComplete b p (formatState b usable) .ok

/-- The erases are done: unknown erase counts become the mean, the generation rises by 1, and the number of usable sectors
decides (R106, R107). -/
def formatErased (b : Block) (p : Port) : Block :=
  let b := fillCounts b
  if 3 ≤ erasedCount b then formatOpenNext { b with generation := b.generation + 1 } p (erasedCount b)
  else formatComplete { b with generation := 0 } p .unformatted .media

/-- The next erase, or the end of the erases (R106). -/
def formatErases (b : Block) (p : Port) : List Sector → Block
  | [] => formatErased b p
  | x :: rest => setWork (issueErase b x) p (.formatErase x rest)

/-! ## The commit point and the emptying (R104, R105) -/

/-- The sectors in the order of their erases (R106): those not RETIRED, then those RETIRED, and last the one whose header was
withdrawn. Each is erased once, by its state before the first erase (log 34). -/
def formatOrder (b : Block) (withdrawn : Option Sector) : List Sector :=
  let others := allSectors.filter fun x => some x != withdrawn
  (others.filter fun x => (row b x).state != .retired) ++ (others.filter fun x => (row b x).state == .retired) ++
    withdrawn.toList

/-- The last pin has dropped: directory and usage are emptied, the store sequence is 0, the policy is the default, and the
erases begin (R105, R106). -/
def formatEmpty (b : Block) (p : Port) (withdrawn : Option Sector) : Block :=
  let b := { b with dir := [], usage := PerPort.all 0, storeSeq := 0, policy := Policy.default }
  formatErases b p (formatOrder b withdrawn)

/-- The commit point is passed: the job waits until every pin count is 0 (R105). -/
def formatCommitted (b : Block) (p : Port) (withdrawn : Option Sector) : Block :=
  if noPins b then formatEmpty b p withdrawn else setWork b p (.formatPins withdrawn)

/-- Pins have dropped while a FORMAT job waits for them (R105). -/
def formatUnpinned (b : Block) : Block :=
  match b.holder with
  | .job p (.formatPins withdrawn) => if noPins b then formatEmpty b p withdrawn else b
  | .job _ (.place _ _ _) | .job _ (.settle _) | .job _ (.failClose _) | .job _ (.settleClose _ _ _)
  | .job _ (.restartOpen _ _) | .job _ (.successor _ _ _ _) | .job _ (.formatRead _ _)
  | .job _ (.formatWithdraw _ _) | .job _ (.formatErase _ _) | .job _ (.formatRetire _ _)
  | .job _ (.formatOpen _ _ _) | .free | .reclaim _ | .mount _ => b

/-- No withdrawal succeeded (R104): READ_ONLY, waiting jobs return to QUEUED, MEDIA; the space-low condition is evaluated
again. -/
def formatLost (b : Block) (p : Port) : Block :=
  finishJob (evalSpaceLow (requeueAll { b with storeState := .readOnly })) p .media 0 0xFF

/-- Reads the header of the next sector of the current generation, or ends with MEDIA (R104). -/
def formatSeek (b : Block) (p : Port) : List Sector → Block
  | [] => formatLost b p
  | x :: rest => setWork (issueRead b x 0 32) p (.formatRead x rest)

/-- The rows that hold the current generation, in ascending order of index (R104). -/
def currentSectors (b : Block) : List Sector :=
  allSectors.filter fun x => (row b x).generation == some b.generation

/-- What a FORMAT job does when its operation has ended (R104, R106, R107). -/
def formatStep (b : Block) (p : Port) (w : JobWork) (ok : Bool) (bytes : List Byte) : Block :=
  match w with
  | .formatRead x rest =>
    if passesValid bytes then setWork (issueProgram b x 0 (be32 0)) p (.formatWithdraw x rest)
    else formatSeek b p rest
  | .formatWithdraw x rest => if ok then formatCommitted b p (some x) else formatSeek (raiseFault b) p rest
  | .formatErase x rest =>
    let b := eraseDone b x ok
    if ok then formatErases b p rest else setWork (issueMark b x retiredMarkOffset) p (.formatRetire x rest)
  | .formatRetire _ rest => formatErases b p rest
  | .formatOpen x mark usable =>
    if ok then
      if mark then
        let b := openDone b x
        formatComplete b p (formatState b usable) .ok
      else setWork (issueMark b x openedMarkOffset) p (.formatOpen x true usable)
    else formatOpenNext (openFailed b x) p usable
  | .formatPins _ | .place _ _ _ | .settle _ | .failClose _ | .settleClose _ _ _ | .restartOpen _ _
  | .successor _ _ _ _ => b

/-! ## The take (R103) -/

/-- The take of a FORMAT job (R103): BAD_VALUE at generation 65535; otherwise FORMATTING, a running cycle abandoned, space-low
not holding; then the withdrawal, or the commit point at once in a store that was UNFORMATTED (R104). The end of a running cycle
returns jobs in WAIT_SPACE to QUEUED (R83); with none running they stay there (R103, log 14). -/
def takeFormat (b : Block) (p : Port) : Block :=
  if b.generation = 0xFFFF then finishJob b p .badValue 0 0xFF
  else
    let fresh := b.storeState == .unformatted
    let b := abandonCycle { b with storeState := .formatting, spaceLow := false }
    let b := modJob b p fun j => { j with state := .running, attempt := 1 }
    if fresh then formatCommitted b p none else formatSeek b p (currentSectors b)

end Sys2Proof.Machine
end

