-- ==== Sys2Proof/Machine/MountEnd.lean ====
section
/-! DEFINITION. Phases 10 to 12 of a mount: the settle copies it owes, the head it ensures, its end (R99 to R101). The copying of
a SOURCE sector itself stands in Reclaim.lean. -/

namespace Sys2Proof.Machine

/-- The holder is the mount, with this work in hand. -/
def setMount (b : Block) (w : MountWork) : Block := { b with holder := .mount w }

def modMount (b : Block) (f : MountData → MountData) : Block := { b with mount := f b.mount }

/-! ## Phase 12 (R101) -/

/-- The payload that the scan read for the good record of a system key (R101, log 16). -/
def policyBytes (b : Block) (d : DirSlot) : List Byte :=
  ((b.mount.scan.find? fun e =>
      e.key == d.key && e.seq == d.seq && e.check == .good && kindIsRecord e.kind).map (·.policyBytes)).getD []

/-- The policy after one system key's slot is taken: a LIVE slot gives the values of its record, every other the defaults
(R101, R171). A record whose payload would not pass the system-value check gives the defaults (log 16). -/
def adoptSlot (b : Block) (y : Policy) (k : Key) : Policy :=
  match dirFind k b.dir with
  | some d =>
    if d.state == .live && systemValueOk k (policyBytes b d) then adoptRecord k (policyBytes b d) y else y
  | none => y

/-- The policy at the end of a mount (R101). -/
def mountedPolicy (b : Block) : Policy := [0xFF00, 0xFF01, 0xFF02, 0xFF03].foldl (adoptSlot b) Policy.default

/-- A complete entry that is not good (R92). -/
def isCorrupt (e : ScanEntry) : Bool := e.check == .malformed || e.check == .damaged

/-- The store state at the end of a mount that found a store (R101). -/
def mountedState (b : Block) : StoreState :=
  if b.mount.overflow || b.mount.copyFailed || b.mount.settleFailed then .readOnly
  else if usableCount b < Config.minUsableSectors then .readOnly
  else if (head b).isNone || erasedCount b == 0 then .readOnly
  else .ready

/-- Phase 12, in one event (R101); `found`: a store was found (R89). -/
def mountEnd (found : Bool) (b : Block) : Block :=
  let b := fillCounts b
  let fault := b.mount.fault || b.mount.overflow
  let b :=
    { b with
        policy := mountedPolicy b
        usage := usageSums b.dir
        corruptCount := BitVec.ofNat 32 (b.mount.scan.filter isCorrupt).length
        storeState := if found then mountedState b else .unformatted
        holder := .free
        mount := MountData.empty }
  let b := if fault then raiseAll b causeFault else b
  evalTriggers (evalSpaceLow b)

/-! ## Settle copies of a mount (R99, R100) -/

/-- The directory still names the member's own place. -/
def stillNamed (b : Block) (m : ScanEntry) : Bool :=
  match dirFind m.key b.dir with
  | some d => d.seq == m.seq && d.sector == m.sector && d.offset == m.offset
  | none => false

/-- The settle copy of a member: a single entry with the member's key, sequence, owner, access, flags, length and payload, as a
reclaim copy of it would be (R38, R80). `bytes` is the whole member as read; `d` the slot that names it. -/
def mountSettleImage (d : DirSlot) (bytes : List Byte) : EntryImage :=
  let tombstone := d.state == .tombstone
  entryImage
    (entryHeader d.key d.length d.seq (if tombstone then .tombstone else .record) (portCode d.owner)
      (accessByte d.readSet d.writeSet) (boolByte d.writeOnce) 0)
    ((bytes.drop 16).take (roundUp4 d.length))
    (tombstone || (d.state == .live && entryCrcOk bytes d.length))

/-- The slot of a member comes to name its settle copy. -/
def renameTo (b : Block) (k : Key) (loc : Loc) : Block :=
  match dirFind k b.dir with
  | some d => { b with dir := dirPut { d with sector := loc.sector, offset := loc.offset } b.dir }
  | none => b

/-- Reads the member for its settle copy (R100). -/
def startSettleCopy (b : Block) (why : SettleFor) (m : ScanEntry) : Block :=
  setMount (issueRead b m.sector m.offset (footprint m.length)) (.settleCopy why m .read)

/-- The members noted by R96 whose slot still names them, in the order noted, which is scan order: their settle copies are made in this
order (R99, R100, log 35). -/
def owedNow (b : Block) : List ScanEntry := b.mount.owed.filter (stillNamed b)

/-- The next settle copy of phase 11, or phase 12 (R100). -/
def finalSettle (b : Block) : List ScanEntry → Block
  | [] => mountEnd true b
  | m :: more => startSettleCopy b (.final more) m

/-! ## Phase 11 (R100) -/

/-- Opens a head when no sector is ACTIVE, until one is or none is ERASED; then makes the settle copies (R100). -/
def phase11 (b : Block) : Block :=
  match head b with
  | some _ => finalSettle b (owedNow b)
  | none =>
    match openChoice b with
    | some y => setMount (issueOpen b y) (.head y false)
    | none => finalSettle b (owedNow b)

/-- What follows a program of the open of a head (R67, R100). -/
def headStep (b : Block) (x : Sector) (mark ok : Bool) : Block :=
  if ok then
    if mark then phase11 (openDone b x) else setMount (issueMark b x openedMarkOffset) (.head x true)
  else phase11 (openFailed b x)

/-! ## Phase 10: one SOURCE sector after the other (R99) -/

/-- Begins the next SOURCE sector, or phase 11. The walk begins at offset 32 (R78). -/
def nextSource (b : Block) : List Sector → Block
  | [] => phase11 b
  | x :: rest => setMount (issueRead b x Config.firstOffset 16) (.source x rest (.walk Config.firstOffset) .header)

/-- Owed members whose end marker lies in this sector (R99). -/
def owedIn (b : Block) (x : Sector) : List ScanEntry :=
  (owedNow b).filter fun m =>
    b.mount.scan.any fun e =>
      e.kind == .endMarker && e.check == .good && e.seq == m.seq && e.sector == x

/-- Makes the settle copies that must come before the erase of a SOURCE sector, then erases it (R99). -/
def settleThenErase (b : Block) (x : Sector) (rest : List Sector) : List ScanEntry → Block
  | [] => setMount (issueErase b x) (.sourceErase x rest)
  | m :: more => startSettleCopy b (.beforeErase x rest more) m

/-- No slot names the SOURCE sector any longer (R99). -/
def sourceEmptied (b : Block) (x : Sector) (rest : List Sector) : Block := settleThenErase b x rest (owedIn b x)

/-- After a settle copy has been made. -/
def settleMade (b : Block) (why : SettleFor) : Block :=
  match why with
  | .beforeErase x rest more => settleThenErase b x rest more
  | .final more => finalSettle b more

/-- After a settle copy could not be made: the mount will end READ_ONLY; a SOURCE sector whose erase waited for it stays
(R99, R100). That its other owed members then wait for phase 11, and phase 10 goes on with the next SOURCE sector, is the model's choice
(log 36). -/
def settleLost (b : Block) (why : SettleFor) : Block :=
  let b := modMount b fun m => { m with settleFailed := true }
  match why with
  | .beforeErase _ rest _ => nextSource b rest
  | .final more => finalSettle b more

/-- The second try of a mount's settle copy, in a newly opened sector (R38, R100). -/
def mountSettleSecond (b : Block) (why : SettleFor) (m : ScanEntry) (img : EntryImage) : Block :=
  match placeStart true b img with
  | .go b' st => setMount b' (.settleCopy why m (.place true img st))
  | .done b' _ | .failed b' | .noSector b' => settleLost b' why

/-- After the close that follows a failed settle copy (R38). -/
def mountSettleClosed (b : Block) (why : SettleFor) (m : ScanEntry) (img : EntryImage) (second : Bool) : Block :=
  if second then settleLost b why else mountSettleSecond b why m img

/-- A settle copy failed, or found no sector: the ACTIVE sector is closed, when there is one (R38, R100). -/
def mountSettleFailed (b : Block) (why : SettleFor) (m : ScanEntry) (img : EntryImage) (second : Bool) : Block :=
  match head b with
  | some (x, _) => setMount (issueClose b x) (.settleCopy why m (.close second img x))
  | none => mountSettleClosed b why m img second

/-- What a mount's settle copy does when its operation has ended (R38, R99, R100). -/
def mountSettleStep (b : Block) (why : SettleFor) (m : ScanEntry) (w : SettleWork) (ok : Bool) (bytes : List Byte) : Block :=
  match w with
  | .read =>
    match dirFind m.key b.dir with
    | some d =>
      let img := mountSettleImage d bytes
      match placeStart true b img with
      | .go b' st => setMount b' (.settleCopy why m (.place false img st))
      | .done b' _ | .failed b' | .noSector b' => mountSettleFailed b' why m img false
    | none => settleMade b why
  | .place second img st =>
    match placeNext b img st ok with
    | .go b' st' => setMount b' (.settleCopy why m (.place second img st'))
    | .done b' loc => settleMade (renameTo b' m.key loc) why
    | .failed b' | .noSector b' => mountSettleFailed (raiseFault b') why m img second
  | .close second img x => mountSettleClosed (closeDone b x ok) why m img second

end Sys2Proof.Machine
end

