-- ==== Sys2Proof/Machine/Reclaim.lean ====
section
/-! DEFINITION. Reclaim: the steps of a cycle, and the copying of one entry out of a victim, which a mount uses too (R16, R77 to
R82, R99). -/

namespace Sys2Proof.Machine

/-- For whom entries are copied: a reclaim step, or phase 10 of a mount with the SOURCE sectors still to come. -/
inductive CopyFor where
  | reclaim
  | mount (rest : List Sector)
deriving DecidableEq, Repr

/-! ## The steps of a cycle (R53, R73, R82) -/

/-- A reclaim step ends with work still to do: the engine is given back and the flag raised again (R53, R77). -/
def stepEnd (b : Block) : Block := { b with holder := .free, reclaimFlag := true }

/-- When the victim of an ERASING cycle is unpinned and no step of it runs, SM raises the reclaim flag (R82). -/
def victimUnpinned (b : Block) : Block :=
  match b.cycle, b.holder with
  | .erasing _, .reclaim _ => b
  | .erasing x, _ => if pinCount b x == 0 then { b with reclaimFlag := true } else b
  | .idle, _ | .marking _, _ | .copying _ _, _ => b

/-- The cycle moves to ERASING and the step ends; AE reports the pin count at once when it is 0 (R82). -/
def enterErasing (b : Block) (x : Sector) : Block :=
  victimUnpinned { b with holder := .free, cycle := .erasing x }

/-- The step that ends the cycle gives the engine back (R53, R83). -/
def cycleStepEnd (failedCopy : Bool) (b : Block) : Block := endCycle failedCopy { b with holder := .free }

/-! ## Copying (R78 to R81) -/

/-- Position and work of the copying, in the cycle state or in the mount's work. -/
def setCopy (b : Block) (who : CopyFor) (x : Sector) (pos : CopyPos) (w : CopyWork) : Block :=
  match who with
  | .reclaim => { b with cycle := .copying x pos, holder := .reclaim (.copy x pos w) }
  | .mount rest => { b with holder := .mount (.source x rest pos w) }

/-- No slot names the sector any longer (R78, R99). -/
def copyFinished (b : Block) (who : CopyFor) (x : Sector) : Block :=
  match who with
  | .reclaim => enterErasing b x
  | .mount rest => sourceEmptied b x rest

/-- A copy could not be programmed: the cycle is abandoned (R81), or phase 10 stops (R99). -/
def copyAbandon (b : Block) (who : CopyFor) : Block :=
  match who with
  | .reclaim => cycleStepEnd true b
  | .mount _ => phase11 (modMount b fun m => { m with copyFailed := true, fault := true })

/-- Reads the whole entry that a slot names (R80, step 1). -/
def copyEntry (b : Block) (who : CopyFor) (x : Sector) (pos : CopyPos) (d : DirSlot) : Block :=
  setCopy (issueRead b x d.offset (footprint d.length)) who x pos (.entry d)

/-- The sweep phase (R78): the slot that names the victim at the lowest offset, or the end of the copying. -/
def copySweep (b : Block) (who : CopyFor) (x : Sector) : Block :=
  match dirLowest x b.dir with
  | some d => copyEntry b who x .sweep d
  | none => copyFinished b who x

/-- Goes on copying from a position (R78): a header read in the walk phase, unless the cursor is above 4076. -/
def copyFrom (b : Block) (who : CopyFor) (x : Sector) (pos : CopyPos) : Block :=
  match pos with
  | .walk c =>
    if Config.lastOffset < c then copySweep b who x
    else setCopy (issueRead b x c 16) who x (.walk c) .header
  | .sweep => copySweep b who x

/-- One entry has been copied: a reclaim step ends; a mount goes on (R78, R99). -/
def copyDone (b : Block) (who : CopyFor) (x : Sector) (pos : CopyPos) : Block :=
  match who with
  | .reclaim => stepEnd { b with cycle := .copying x pos }
  | .mount _ => copyFrom b who x pos

/-- A tombstone of sequence t is kept while some sector other than the victim, neither ERASED nor RETIRED, has a lower open
sequence (R79). -/
def tombstoneKept (b : Block) (x : Sector) (t : Seq) : Bool :=
  allSectors.any fun y =>
    y != x && (row b y).state != .erased && (row b y).state != .retired &&
      (((row b y).openSeq.map fun o => decide (o < t)).getD false)

/-- A drop (R16): the slot becomes FREE when it is a TOMBSTONE of this sequence at this place. -/
def dropTombstone (b : Block) (k : Key) (t : Seq) (x : Sector) (o : Nat) : Block :=
  match dirFind k b.dir with
  | some d =>
    if d.state == .tombstone && d.seq == t && d.sector == x && d.offset == o then
      { b with dir := dirRemove k b.dir }
    else b
  | none => b

/-- A relocation (R16): the slot's place is replaced when it carries this sequence and points at the old place. -/
def relocate (b : Block) (k : Key) (seq : Seq) (x : Sector) (o : Nat) (loc : Loc) : Block :=
  match dirFind k b.dir with
  | some d =>
    if d.seq == seq && d.sector == x && d.offset == o then
      { b with dir := dirPut { d with sector := loc.sector, offset := loc.offset } b.dir }
    else b
  | none => b

/-- A header at which the walk ends: all FFh, no kind, a length above 1024, a footprint past offset 4096, or the written mark
not set (R78). -/
def walkEnds (o : Nat) (bytes : List Byte) : Bool :=
  let h := parseEntryHeader bytes
  allFF bytes || (kindOf h.kind).isNone || Config.maxPayload < h.length ||
    Config.sectorBytes < o + footprint h.length || !h.written

/-- Copies the entry at the cursor when a slot names it, and passes it over otherwise (R78). -/
def copyNamed (b : Block) (who : CopyFor) (x : Sector) (o next : Nat) : Block :=
  match dirAt x o b.dir with
  | some d => copyEntry b who x (.walk next) d
  | none => copyFrom b who x (.walk next)

/-- What the walk does with the header it has read at offset o (R78, R79). -/
def walkHeader (b : Block) (who : CopyFor) (x : Sector) (o : Nat) (bytes : List Byte) : Block :=
  let h := parseEntryHeader bytes
  let next := o + footprint h.length
  if walkEnds o bytes then copySweep b who x
  else if !h.complete then copyFrom b who x (.walk next)
  else
    match kindOf h.kind with
    | some .record | some .memberRecord => copyNamed b who x o next
    | some .tombstone | some .memberTombstone =>
      if tombstoneKept b x h.seq then copyNamed b who x o next
      else copyFrom (dropTombstone b h.key h.seq x o) who x (.walk next)
    | some .endMarker | none => copyFrom b who x (.walk next)

/-- The check of an entry about to be copied, against the slot that names it (R60, R80). -/
def copyCheck (d : DirSlot) (bytes : List Byte) : Bool :=
  let h := parseEntryHeader bytes
  h.complete &&
    ((kindOf h.kind).map fun k => if d.state == .tombstone then kindIsTombstone k else kindIsRecord k).getD false &&
    h.key == d.key && h.seq == d.seq && h.length == d.length && entryCrcOk bytes d.length

/-- The copy (R80): a single entry with the slot's fields. The CRC-32 is complemented for a DAMAGED slot and for a LIVE slot
whose entry fails its check. -/
def copyImage (d : DirSlot) (bytes : List Byte) : EntryImage :=
  let tombstone := d.state == .tombstone
  entryImage
    (entryHeader d.key d.length d.seq (if tombstone then .tombstone else .record) (portCode d.owner)
      (accessByte d.readSet d.writeSet) (boolByte d.writeOnce) 0)
    (if tombstone then [] else (bytes.drop 16).take (roundUp4 d.length))
    (tombstone || (d.state == .live && copyCheck d bytes))

/-- The damage report of a failed check: for a LIVE or TOMBSTONE slot (R80). -/
def copyReport (b : Block) (d : DirSlot) (bytes : List Byte) : Block :=
  if d.state != .damaged && !copyCheck d bytes then damageReport b d.key d.seq d.sector d.offset else b

/-- The slot that an entry is copied for, as it stands now: a GET may have marked it DAMAGED since its step read was issued (R17,
R80). -/
def copySlot (b : Block) (x : Sector) (d : DirSlot) : DirSlot := (dirAt x d.offset b.dir).getD d

/-- The whole entry has been read: the copy is placed, by the slot as it stands (R80). With no sector to open the copying is abandoned (R81). -/
def entryRead (b : Block) (who : CopyFor) (x : Sector) (pos : CopyPos) (d : DirSlot) (bytes : List Byte) : Block :=
  let d := copySlot b x d
  let img := copyImage d bytes
  match placeStart true (copyReport b d bytes) img with
  | .go b' st => setCopy b' who x pos (.place d false img st)
  | .done b' _ | .failed b' | .noSector b' => copyAbandon b' who

/-- The second try, in a newly opened sector (R81, step 2). -/
def copySecond (b : Block) (who : CopyFor) (x : Sector) (pos : CopyPos) (d : DirSlot) (img : EntryImage) : Block :=
  match placeStart true b img with
  | .go b' st => setCopy b' who x pos (.place d true img st)
  | .done b' _ | .failed b' | .noSector b' => copyAbandon b' who

/-- After the close that follows a failed copy (R81). -/
def copyClosed (b : Block) (who : CopyFor) (x : Sector) (pos : CopyPos) (d : DirSlot) (second : Bool) (img : EntryImage) :
    Block :=
  if second then copyAbandon b who else copySecond b who x pos d img

/-- A program of a copy, or the open made to place it, has failed: FAULT, and the ACTIVE sector is closed, when there is one
(R66, R81, log 12). -/
def copyFailed (b : Block) (who : CopyFor) (x : Sector) (pos : CopyPos) (d : DirSlot) (second : Bool) (img : EntryImage) :
    Block :=
  let b := raiseFault b
  match head b with
  | some (y, _) => setCopy (issueClose b y) who x pos (.close d second img y)
  | none => copyClosed b who x pos d second img

/-- What the copying does when its operation has ended (R78 to R81). -/
def copyStep (b : Block) (who : CopyFor) (x : Sector) (pos : CopyPos) (w : CopyWork) (ok : Bool) (bytes : List Byte) :
    Block :=
  match w with
  | .header =>
    match pos with
    | .walk c => walkHeader b who x c bytes
    | .sweep => copySweep b who x
  | .entry d => entryRead b who x pos d bytes
  | .place d second img st =>
    match placeNext b img st ok with
    | .go b' st' => setCopy b' who x pos (.place d second img st')
    | .done b' loc => copyDone (relocate b' d.key d.seq x d.offset loc) who x pos
    | .failed b' => copyFailed b' who x pos d second img
    | .noSector b' => copyAbandon b' who
  | .close d second img y => copyClosed (closeDone b y ok) who x pos d second img

/-! ## Reclaim steps (R77, R82) -/

/-- The victim was OLDGEN: its header is not of the current generation (R64, R77). -/
def victimOldgen (b : Block) (x : Sector) : Bool := (row b x).generation != some b.generation

/-- The marking step has ended (R77). -/
def markingDone (b : Block) (x : Sector) (ok : Bool) : Block :=
  let b := if ok then b else raiseFault b
  if victimOldgen b x then enterErasing b x
  else stepEnd { b with cycle := .copying x (.walk Config.firstOffset) }

/-- What a reclaim step does when its operation has ended. -/
def reclaimStep (b : Block) (w : ReclaimWork) (ok : Bool) (bytes : List Byte) : Block :=
  match w with
  | .marking x => markingDone b x ok
  | .copy x pos w => copyStep b .reclaim x pos w ok bytes
  | .erase x =>
    let b := eraseDone b x ok
    if ok then cycleStepEnd false b else { issueMark b x retiredMarkOffset with holder := .reclaim (.retire x) }
  | .retire _ => cycleStepEnd false b

/-- The first operation of a reclaim grant (R77, R78, R82). -/
def reclaimGrant (b : Block) : Block :=
  match b.cycle with
  | .idle => b
  | .marking x => { issueMark b x reclaimMarkOffset with holder := .reclaim (.marking x) }
  | .copying x pos => copyFrom b .reclaim x pos
  | .erasing x => { issueErase b x with holder := .reclaim (.erase x) }

end Sys2Proof.Machine
end

