-- ==== Sys2Proof/Machine/Mount.lean ====
section
/-! DEFINITION. Phases 1 to 9 of a mount, and what the mount does when its operation has ended (R87 to R99). The phases stand
from the last to the first, each calling the one after it. -/

namespace Sys2Proof.Machine

/-! ## Ascending orders -/

/-- Inserts an element before the first it is less than. -/
def insertBy {α : Type} (lt : α → α → Bool) (a : α) : List α → List α
  | [] => [a]
  | c :: rest => if lt a c then a :: c :: rest else c :: insertBy lt a rest

/-- Sorts a list, equal elements in their order. -/
def sortBy {α : Type} (lt : α → α → Bool) (l : List α) : List α := l.foldl (fun acc a => insertBy lt a acc) []

/-- The open sequence of a sector's row, 0 where absent. -/
def openSeqOf (b : Block) (x : Sector) : Seq := (row b x).openSeq.getD 0

/-- Sectors in ascending order of open sequence, equal ones in ascending order of index (R91, R99, log 17). The list comes in
ascending order of index. -/
def byOpenSeq (b : Block) (l : List Sector) : List Sector :=
  sortBy (fun x y => decide (openSeqOf b x < openSeqOf b y)) l

/-! ## Phase 10 begins (R99) -/

def phase10 (b : Block) : Block := nextSource b (byOpenSeq b (inState b .source))

/-! ## Phase 9 (R98) -/

/-- The candidates that share the highest open sequence. -/
def topCandidates (b : Block) : List (Sector × Nat) :=
  b.mount.candidates.filter fun c => b.mount.candidates.all fun d => decide (openSeqOf b d.1 ≤ openSeqOf b c.1)

/-- Programs the full mark of the next candidate that is not the head, or goes to phase 10 (R98). -/
def headCloses (b : Block) : List Sector → Block
  | [] => phase10 b
  | x :: rest => setMount (issueClose b x) (.headClose x rest)

/-- Chooses the head: the one candidate with the highest open sequence becomes ACTIVE at its end offset; where two or more
share it, none does. The others are closed in ascending order of index (R98). -/
def phase9 (b : Block) : Block :=
  match topCandidates b with
  | [(x, o)] =>
    headCloses (setRow b x { row b x with state := .active, writeOffset := some o })
      ((b.mount.candidates.map (·.1)).filter (· != x))
  | _ => headCloses b (b.mount.candidates.map (·.1))

/-! ## Phase 8 (R97) -/

/-- Erases the next UNCLEAN sector, or goes to phase 9. -/
def uncleanErases (b : Block) : List Sector → Block
  | [] => phase9 b
  | x :: rest => setMount (issueErase b x) (.unclean x rest)

def phase8 (b : Block) : Block := uncleanErases b (inState b .unclean)

/-! ## Phase 7 (R96) -/

/-- Programs the settled mark of the next confirmed member, or goes to phase 8. -/
def mountSettles (b : Block) : List ScanEntry → Block
  | [] => phase8 b
  | m :: rest => setMount (issueMark b m.sector (m.offset + 15)) (.settle m rest)

/-! ## Phase 5 (R94) -/

/-- A complete entry that is good or corrupt but named (R92). -/
def isNamed (e : ScanEntry) : Bool := e.check == .good || e.check == .damaged

/-- The complete members of a sequence on the list. -/
def membersOf (scan : List ScanEntry) (seq : Seq) : List ScanEntry :=
  scan.filter fun e => kindIsMember e.kind && isNamed e && e.seq == seq

/-- A member is confirmed by a complete, good end marker of its sequence whose count is the number of complete members (R94). -/
def confirmed (scan : List ScanEntry) (m : ScanEntry) : Bool :=
  scan.any fun e =>
    e.kind == .endMarker && e.check == .good && e.seq == m.seq && e.count.toNat == (membersOf scan m.seq).length

/-- Committed entries (R94): complete singles, and members that are settled or confirmed. -/
def committed (scan : List ScanEntry) (e : ScanEntry) : Bool :=
  isNamed e &&
    match e.kind with
    | .record | .tombstone => true
    | .memberRecord | .memberTombstone => e.settled || confirmed scan e
    | .endMarker => false

/-- Members that phase 7 settles: confirmed and not settled (R94, R96). -/
def unsettled (scan : List ScanEntry) : List ScanEntry :=
  scan.filter fun e => kindIsMember e.kind && isNamed e && !e.settled && confirmed scan e

/-! ## Phase 6 (R95) -/

/-- Compares by a rank: 1 when a wins, 2 when c does, 0 when they tie. -/
def rankBy (a c : Nat) : Nat := if c < a then 1 else if a < c then 2 else 0

/-- The preferences of R95 in their order, as ranks: the higher sequence; a good entry; one outside a SOURCE sector; the higher
open sequence; the higher index; the higher offset. -/
def ranks (b : Block) (e : ScanEntry) : List Nat :=
  [e.seq.toNat, if e.check == .good then 1 else 0, if (row b e.sector).state == .source then 0 else 1,
    (openSeqOf b e.sector).toNat, e.sector.val, e.offset]

/-- The first rank that differs decides; the earlier entry stands when none does. -/
def beats : List Nat → List Nat → Bool
  | a :: as, c :: cs => if rankBy a c = 1 then true else if rankBy a c = 2 then false else beats as cs
  | [], _ => false
  | _ :: _, [] => false

def pickEntry (b : Block) (best : Option ScanEntry) (e : ScanEntry) : Option ScanEntry :=
  match best with
  | none => some e
  | some c => if beats (ranks b e) (ranks b c) then some e else some c

/-- The version of a key that becomes current (R95). -/
def chosen (b : Block) (k : Key) : Option ScanEntry :=
  (b.mount.scan.filter fun e => committed b.mount.scan e && e.key == k).foldl (pickEntry b) none

/-- The port of an owner byte; 3 is a system record (R178). -/
def ownerOf (o : Byte) : Option Port :=
  if o = 0 then some .p0 else if o = 1 then some .p1 else if o = 2 then some .p2 else none

/-- The slot that a chosen entry fills (R95). -/
def slotOf (e : ScanEntry) : DirSlot :=
  let state : SlotState :=
    if kindIsTombstone e.kind then .tombstone else if e.check == .good then .live else .damaged
  if isSystemKey e.key then
    { key := e.key, state := state, sector := e.sector, offset := e.offset, length := e.length, seq := e.seq, owner := none
      readSet := allPortsSet, writeSet := 0, writeOnce := false }
  else
    { key := e.key, state := state, sector := e.sector, offset := e.offset, length := e.length, seq := e.seq
      owner := ownerOf e.owner, readSet := accessReadSet e.access, writeSet := accessWriteSet e.access
      writeOnce := e.flags.getLsbD 0 }

/-- Puts one committed entry's key into the directory, if it is not there yet. -/
def fillKey (b : Block) (dir : List DirSlot) (e : ScanEntry) : List DirSlot :=
  if (dirFind e.key dir).isSome then dir
  else
    match chosen b e.key with
    | some c => dirPut (slotOf c) dir
    | none => dir

/-- The directory over all keys, before the limit of 512 (R95). -/
def allSlots (b : Block) : List DirSlot :=
  (b.mount.scan.filter (committed b.mount.scan)).foldl (fillKey b) []

/-- Phases 5 to 7 begin (R94 to R96): the directory takes the 512 lowest keys, the confirmed members are settled. -/
def phase5 (b : Block) : Block :=
  let slots := allSlots b
  let b :=
    { b with
        dir := slots.take Config.directorySlots
        mount := { b.mount with overflow := decide (Config.directorySlots < slots.length) } }
  mountSettles b (unsettled b.mount.scan)

/-! ## The end of phase 4: the store sequence (R93) -/

/-- A sequence in the range that R93 takes up. -/
def seqInRange (s : Seq) : Bool := 1 ≤ s.toNat && s.toNat < Config.seqLimit

/-- The open sequences of the sectors of the current generation. -/
def openSeqs (b : Block) : List Nat :=
  allSectors.filterMap fun x =>
    if (row b x).generation == some b.generation then (row b x).openSeq.map BitVec.toNat else none

/-- The store sequence that a mount recovers (R93). -/
def recoveredSeq (b : Block) : Seq :=
  BitVec.ofNat 32
    ((((b.mount.scan.filter fun e => seqInRange e.seq).map fun e => e.seq.toNat) ++ openSeqs b).foldl max 0)

/-- The scan is over: the store sequence is set, and what it found counts toward FAULT (R93, R101). -/
def scanOver (b : Block) : Block :=
  let bad := b.mount.scan.any fun e => e.check != .good
  phase5 { b with storeSeq := recoveredSeq b, mount := { b.mount with fault := b.mount.fault || bad } }

/-! ## Phase 4: the scan (R91, R92) -/

/-- Begins the next sector of the scan, or ends it. -/
def scanNext (b : Block) : List Sector → Block
  | [] => scanOver b
  | x :: rest => setMount (issueRead b x Config.firstOffset 16) (.scanHeader x Config.firstOffset rest)

/-- The scan of a sector ends at its end offset (R91). -/
def scanEnds (b : Block) (x : Sector) (o : Nat) (rest : List Sector) : Block :=
  scanNext
    (modMount b fun m => { m with candidates := m.candidates.map fun c => if c.1 == x then (x, o) else c }) rest

/-- The rest of a sector is unusable: an ACTIVE candidate is closed, and is none any longer (R91). -/
def scanUnusable (b : Block) (x : Sector) (rest : List Sector) : Block :=
  let b' := modMount b fun m => { m with fault := true, candidates := m.candidates.filter (·.1 != x) }
  if b.mount.candidates.any (·.1 == x) then setMount (issueClose b' x) (.scanClose x rest) else scanNext b' rest

/-- Reads on at an offset, or ends the sector's scan there when it is above 4076 (R91). -/
def scanAt (b : Block) (x : Sector) (o : Nat) (rest : List Sector) : Block :=
  if Config.lastOffset < o then scanEnds b x o rest
  else setMount (issueRead b x o 16) (.scanHeader x o rest)

/-- The scan list's line for an entry (R91). -/
def scanLine (x : Sector) (o : Nat) (k : EntryKind) (h : EntryHeader) (check : EntryCheck) (payload : List Byte) :
    ScanEntry :=
  { sector := x, offset := o, kind := k, key := h.key, length := h.length, seq := h.seq, owner := h.owner
    access := h.access, flags := h.flags, count := h.count, complete := h.complete, settled := h.settled, check := check
    policyBytes := if isSystemKey h.key && check == .good then payload else [] }

def noteEntry (b : Block) (e : ScanEntry) : Block := modMount b fun m => { m with scan := m.scan ++ [e] }

/-- What the scan does with a header (R91): the first line of the table that applies. -/
def scanHeaderRead (b : Block) (x : Sector) (o : Nat) (rest : List Sector) (bytes : List Byte) : Block :=
  let h := parseEntryHeader bytes
  if allFF bytes then scanEnds b x o rest
  else
    match kindOf h.kind with
    | none => scanUnusable b x rest
    | some k =>
      if Config.maxPayload < h.length || Config.sectorBytes < o + footprint h.length then scanUnusable b x rest
      else if !h.written then scanUnusable b x rest
      else if !h.complete then
        scanAt (noteEntry b (scanLine x o k h .torn [])) x (o + footprint h.length) rest
      else setMount (issueRead b x o (footprint h.length)) (.scanEntry x o rest)

/-- A complete entry is well formed (R92). -/
def wellFormed (k : EntryKind) (h : EntryHeader) : Bool :=
  (match k with
    | .endMarker => h.key == 0
    | .record | .tombstone | .memberRecord | .memberTombstone => isKey h.key) &&
  seqInRange h.seq && h.owner.toNat ≤ 3 &&
  (match k with
    | .record | .tombstone => h.count == 0
    | .memberRecord | .memberTombstone | .endMarker => 2 ≤ h.count.toNat && h.count.toNat ≤ 8) &&
  (match k with
    | .tombstone | .memberTombstone | .endMarker => h.length == 0
    | .record | .memberRecord => true)

/-- The check of a complete entry (R92). -/
def entryCheck (k : EntryKind) (h : EntryHeader) (bytes : List Byte) : EntryCheck :=
  if !wellFormed k h then .malformed
  else if entryCrcOk bytes h.length then .good
  else .damaged

/-- The whole entry has been read: it is checked, noted and passed (R91, R92). -/
def scanEntryRead (b : Block) (x : Sector) (o : Nat) (rest : List Sector) (bytes : List Byte) : Block :=
  let h := parseEntryHeader bytes
  match kindOf h.kind with
  | some k =>
    scanAt (noteEntry b (scanLine x o k h (entryCheck k h bytes) ((bytes.drop 16).take h.length))) x
      (o + footprint h.length) rest
  | none => scanUnusable b x rest

/-! ## Phases 2 and 3 (R89, R90) -/

/-- The generation after another; after 65535 a free value (R89, log 11). -/
def nextGeneration (g : BitVec 16) : BitVec 16 := if g = 0xFFFF then Config.generationAfterMax else g + 1

/-- The higher of two generations. -/
def maxGen (a c : BitVec 16) : BitVec 16 := if a < c then c else a

/-- The current generation that a header calls for (R89). -/
def classGen : HeaderClass → BitVec 16
  | .valid g _ _ _ _ _ => g
  | .withdrawn g _ _ => nextGeneration g
  | .retired _ | .erased | .unclean => 0

/-- A valid or withdrawn header (R89). -/
def isStoreHeader : HeaderClass → Bool
  | .valid _ _ _ _ _ _ | .withdrawn _ _ _ => true
  | .retired _ | .erased | .unclean => false

def emptyRow (st : SectorState) (count : Option (BitVec 32)) : SectorRow :=
  { state := st, eraseCount := count, openSeq := none, generation := none, writeOffset := none }

def openRow (st : SectorState) (g : BitVec 16) (count : BitVec 32) (openSeq : Seq) : SectorRow :=
  { state := st, eraseCount := some count, openSeq := some openSeq, generation := some g, writeOffset := none }

/-- The row of a sector after phases 2 and 3 (R89, R90). An ACTIVE candidate stands as FULL until phase 9 has chosen. -/
def classRow (gen : BitVec 16) : HeaderClass → SectorRow
  | .retired c => emptyRow .retired c
  | .erased => emptyRow .erased none
  | .unclean => emptyRow .unclean none
  | .withdrawn g c o => openRow .oldgen g c o
  | .valid g c o opened _ reclaim =>
    if g != gen then openRow .oldgen g c o
    else if opened && reclaim then openRow .source g c o
    else openRow .full g c o

/-- A sector of the current generation that phase 4 scans: its opened mark is set (R90). -/
def isScanned (gen : BitVec 16) : HeaderClass → Bool
  | .valid g _ _ opened _ _ => g == gen && opened
  | .retired _ | .withdrawn _ _ _ | .erased | .unclean => false

/-- An ACTIVE candidate: opened, neither reclaim nor full mark set (R90). -/
def isCandidate (gen : BitVec 16) : HeaderClass → Bool
  | .valid g _ _ opened full reclaim => g == gen && opened && !full && !reclaim
  | .retired _ | .withdrawn _ _ _ | .erased | .unclean => false

/-- The class that phase 1 found for a sector. -/
def classAt (found : List HeaderClass) (x : Sector) : HeaderClass := found.getD x.val .unclean

/-- The sector table after phases 2 and 3. -/
def classTable (gen : BitVec 16) (found : List HeaderClass) : Vector SectorRow 64 :=
  allSectors.foldl (fun v (x : Sector) => v.set x (classRow gen (classAt found x))) (Vector.replicate 64 SectorRow.unread)

/-- Phase 1 is over: phases 2 and 3, and the scan begins; or, with no store found, phase 12 (R89, R90). UNCLEAN sectors count
toward FAULT (R88). -/
def phase2 (b : Block) (found : List HeaderClass) : Block :=
  let unclean := found.any (· == .unclean)
  let b := modMount b fun m => { m with fault := m.fault || unclean }
  if found.any isStoreHeader then
    let gen := (found.map classGen).foldl maxGen 0
    let b := { b with generation := gen, sectors := classTable gen found }
    let b := modMount b fun m =>
      { m with candidates := (allSectors.filter fun x => isCandidate gen (classAt found x)).map fun x => (x, 32) }
    scanNext b (byOpenSeq b (allSectors.filter fun x => isScanned gen (classAt found x)))
  else mountEnd false { b with sectors := classTable 0 found }

/-! ## Phase 1 (R88) -/

/-- Notes a sector's class; the next header, or phase 2. -/
def noteClass (b : Block) (x : Sector) (found : List HeaderClass) (c : HeaderClass) : Block :=
  let found := found ++ [c]
  if x.val + 1 < 64 then
    let y : Sector := Fin.ofNat 64 (x.val + 1)
    setMount (issueRead b y 0 32) (.header y found)
  else phase2 b found

/-- A sector header has been read (R88). -/
def headerRead (b : Block) (x : Sector) (found : List HeaderClass) (bytes : List Byte) : Block :=
  match classifyHeader bytes with
  | some c => noteClass b x found c
  | none => setMount (issueRead b x Config.firstOffset Config.usableBytes) (.blank x found)

/-! ## The mount's operations -/

/-- What the mount does when its operation has ended (R87 to R100). -/
def mountStep (b : Block) (w : MountWork) (ok : Bool) (bytes : List Byte) : Block :=
  match w with
  | .header x found => headerRead b x found bytes
  | .blank x found => noteClass b x found (if allFF bytes then .erased else .unclean)
  | .scanHeader x o rest => scanHeaderRead b x o rest bytes
  | .scanEntry x o rest => scanEntryRead b x o rest bytes
  | .scanClose x rest => scanNext (closeDone b x ok) rest
  | .settle m rest =>
    if ok then mountSettles b rest
    else mountSettles (modMount b fun d => { d with fault := true, owed := d.owed ++ [m] }) rest
  | .unclean x rest =>
    let b := eraseDone b x ok
    if ok then uncleanErases b rest else setMount (issueMark b x retiredMarkOffset) (.uncleanRetire x rest)
  | .uncleanRetire _ rest => uncleanErases b rest
  | .headClose x rest => headCloses (closeDone b x ok) rest
  | .source x rest pos w => copyStep b (.mount rest) x pos w ok bytes
  | .sourceErase x rest =>
    let b := eraseDone b x ok
    if ok then nextSource b rest else setMount (issueMark b x retiredMarkOffset) (.sourceRetire x rest)
  | .sourceRetire _ rest => nextSource b rest
  | .head x mark => headStep b x mark ok
  | .settleCopy why m w => mountSettleStep b why m w ok bytes

end Sys2Proof.Machine
end

