-- ==== Sys2Proof/Machine/Engine.lean ====
section
/-! DEFINITION. The engine's events and the read path's (R43 to R62): READ_START, READ_FINISH, ENGINE_GRANT, ENGINE_OP_START,
PROGRAM_COMPLETE, PROGRAM_TIMEOUT, ERASE_COMPLETE, ERASE_TIMEOUT, STEP_READ_COMPLETE. An event whose condition does not hold
does not take place: the state is left (log 3). -/

namespace Sys2Proof.Machine

abbrev Out := Host.Outcome State Fault Refusal

/-- The command's effect on the block alone; nothing happens while the part is in reset (R180). -/
def outsideReset (s : State) (f : Block → Block) : Out :=
  .next (if s.block.inReset then s else { s with block := f s.block })

/-! ## The end of an event -/

/-- Port 2 captures the status byte and sends it next (R160, R161, R176). -/
def captureWire (b : Block) : Block :=
  let st := statusByte b .p2
  { b with
      wire :=
        { b.wire with
            state := .addressedRead
            showedAnswered := slotAnswered (b.ports.get .p2).slot
            nakSeen := false
            sending := some st
            bytesSent := 0 } }

/-- A stretch ends when port 2's slot has become ANSWERED; the byte shows the port as the event leaves it (R161). -/
def endStretch (b : Block) : Block :=
  if b.wire.state == .stretching && slotAnswered (b.ports.get .p2).slot then captureWire b else b

/-- What dropped pins let happen: the reclaim flag for an unpinned victim (R82), the emptying of a FORMAT (R105), the resumption
of an erase (R59). -/
def pinsDropped (b : Block) : Block := resumeErase (formatUnpinned (victimUnpinned b))

/-! ## Operation results -/

/-- The holder takes the result of its operation and goes on (R48): `ok` for a program or erase, `bytes` for a step read. -/
def holderNext (b : Block) (ok : Bool) (bytes : List Byte) : Block :=
  match b.holder with
  | .free => b
  | .job p w =>
    match w with
    | .place _ _ _ | .settle _ | .failClose _ | .settleClose _ _ _ | .restartOpen _ _ | .successor _ _ _ _ =>
      commitStep b p w ok
    | .formatRead _ _ | .formatWithdraw _ _ | .formatPins _ | .formatErase _ _ | .formatRetire _ _
    | .formatOpen _ _ _ => formatStep b p w ok bytes
  | .reclaim w => reclaimStep b w ok bytes
  | .mount w => mountStep b w ok bytes

/-- The engine returns to IDLE and the holder gets the result (R48). -/
def opEnded (b : Block) (ok : Bool) (bytes : List Byte) : Block :=
  endStretch (holderNext { b with engine := .idle } ok bytes)

/-- The program in progress, if there is one. -/
def currentProgram (e : EngineState) : Option (EngineOp × List Byte) :=
  match e with
  | .programming op _ =>
    match op.kind with
    | .program bytes => some (op, bytes)
    | .erase | .stepRead _ => none
  | .idle | .erasing _ _ _ | .eraseSuspended _ _ _ => none

/-- The step read in progress, if there is one. -/
def currentStepRead (e : EngineState) : Option (EngineOp × Nat) :=
  match e with
  | .programming op _ =>
    match op.kind with
    | .stepRead n => some (op, n)
    | .erase | .program _ => none
  | .idle | .erasing _ _ _ | .eraseSuspended _ _ _ => none

/-- The sector of the erase in ERASING, if there is one. -/
def currentErase (e : EngineState) : Option Sector :=
  match e with
  | .erasing op _ _ => some op.sector
  | .idle | .programming _ _ | .eraseSuspended _ _ _ => none

/-- The end of a program: its bytes, and success when it was not timed out and the readback matches (R43, R46). -/
def endProgram (s : State) (miss : List Byte) (inTime : Bool) : State :=
  match currentProgram s.block.engine with
  | some (op, bytes) =>
    let array := programRun s.array op.sector op.offset bytes miss
    { s with array := array, block := opEnded s.block (inTime && readbackOk array op.sector op.offset bytes) [] }
  | none => s

/-- The end of an erase: its bytes, and success when it was not timed out and the verify passes (R44, R46). -/
def endErase (s : State) (residue : List (Nat × Byte)) (inTime : Bool) : State :=
  match currentErase s.block.engine with
  | some x =>
    let array := eraseRun s.array x residue
    { s with array := array, block := opEnded s.block (inTime && verifyOk array x) [] }
  | none => s

/-! ## PROGRAM_COMPLETE, PROGRAM_TIMEOUT, ERASE_COMPLETE, ERASE_TIMEOUT, STEP_READ_COMPLETE -/

/-- PROGRAM_COMPLETE (R43). -/
def execProgramComplete (miss : List Byte) (s : State) : Out := .next (if s.block.inReset then s else endProgram s miss true)

/-- PROGRAM_TIMEOUT (R46): the program is reported as failed whatever its bytes are. -/
def execProgramTimeout (miss : List Byte) (s : State) : Out := .next (if s.block.inReset then s else endProgram s miss false)

/-- ERASE_COMPLETE (R44). -/
def execEraseComplete (residue : List (Nat × Byte)) (s : State) : Out :=
  .next (if s.block.inReset then s else endErase s residue true)

/-- ERASE_TIMEOUT (R46): only an erase in ERASING spends erase time. -/
def execEraseTimeout (residue : List (Nat × Byte)) (s : State) : Out :=
  .next (if s.block.inReset then s else endErase s residue false)

/-- STEP_READ_COMPLETE (R49): the bytes as the array holds them. -/
def execStepReadComplete (s : State) : Out :=
  outsideReset s fun b =>
    match currentStepRead b.engine with
    | some (op, n) => opEnded b true (readRun s.array op.sector op.offset n)
    | none => b

/-! ## ENGINE_OP_START (R48, R50) -/

/-- The state the engine enters with an operation (R47). -/
def startedEngine (op : EngineOp) : EngineState :=
  match op.kind with
  | .program _ | .stepRead _ => .programming op 0
  | .erase => .erasing op 0 0

/-- The issued operation can start: the engine is IDLE, its bank is clear, and an erase's sector is unpinned (R48, R50). -/
def canStart (b : Block) (op : EngineOp) : Bool :=
  b.engine == .idle && bankClear b (bankOf op.sector) && (op.kind != .erase || pinCount b op.sector == 0)

/-- ENGINE_OP_START (R48). A run that leaves its sector is a fault (log 23). -/
def execEngineOpStart (s : State) : Out :=
  match s.block.issued with
  | some op =>
    if s.block.inReset || !canStart s.block op then .next s
    else if !runInSector op then .fault .outsideSector
    else .next { s with block := { s.block with engine := startedEngine op, issued := none } }
  | none => .next s

/-! ## ENGINE_GRANT (R51 to R54) -/

/-- The request flag of a port's job: up while the job is QUEUED (R51). -/
def jobFlag (b : Block) (p : Port) : Bool :=
  match jobOf b p with
  | some j => j.state == .queued
  | none => false

def flagUp (b : Block) (r : Requester) : Bool :=
  match r with
  | .job p => jobFlag b p
  | .reclaim => b.reclaimFlag

/-- The ring order, starting with the requester after the one granted last (R52). -/
def ringAfter : Requester → List Requester
  | .job .p0 => [.job .p1, .job .p2, .reclaim, .job .p0]
  | .job .p1 => [.job .p2, .reclaim, .job .p0, .job .p1]
  | .job .p2 => [.reclaim, .job .p0, .job .p1, .job .p2]
  | .reclaim => [.job .p0, .job .p1, .job .p2, .reclaim]

/-- The requester that the arbiter grants (R52): reclaim when its flag is up and some job is in WAIT_SPACE; otherwise the first
in ring order whose flag is up. -/
def grantee (b : Block) : Option Requester :=
  if b.reclaimFlag && anyWaiting b then some .reclaim else (ringAfter b.lastGranted).find? (flagUp b)

/-- A grant to the job of port p is its take (R27). -/
def takePort (b : Block) (p : Port) : Block :=
  match jobOf b p with
  | some j => if j.format then takeFormat b p else takeJob b p j
  | none => b

/-- A grant (R52, R53): recorded as the last, its flag lowered. -/
def grant (b : Block) (r : Requester) : Block :=
  match r with
  | .job p => takePort { b with lastGranted := .job p } p
  | .reclaim => reclaimGrant { b with lastGranted := .reclaim, reclaimFlag := false }

/-- ENGINE_GRANT (R52): while the engine is free and a flag is up. A mount holds the engine, so nothing is granted in it. -/
def execEngineGrant (s : State) : Out :=
  outsideReset s fun b =>
    if b.holder == .free then
      match grantee b with
      | some r => endStretch (grant b r)
      | none => b
    else b

/-! ## READ_START, READ_FINISH (R57, R60) -/

/-- The bytes of a read: the whole entry (R60). -/
def readBytes (m : List Host.Cell) (r : Read) : List Byte := readRun m r.sector r.offset (footprint r.length)

/-- The read's entry lies within its sector (R42). -/
def readInSector (r : Read) : Bool := r.offset + footprint r.length ≤ Config.sectorBytes

/-- READ_START (R57): the oldest queued read starts when the bank's read port is free and the bank is not occupied. A read that
would leave its sector is a fault (log 23). -/
def execReadStart (k : Bank) (s : State) : Out :=
  let path := s.block.banks.get k
  match path.queue with
  | r :: rest =>
    if s.block.inReset || path.current.isSome || occupied s.block.engine == some k then .next s
    else if !readInSector r then .fault .outsideSector
    else
      .next
        { s with
            block := { s.block with banks := s.block.banks.set k { current := some r, queue := rest } } }
  | [] => .next s

/-- The check of a read (R60). -/
def readCheck (r : Read) (bytes : List Byte) : Bool :=
  let h := parseEntryHeader bytes
  h.complete && ((kindOf h.kind).map kindIsRecord).getD false && h.key == r.key && h.seq == r.seq &&
    h.length == r.length && entryCrcOk bytes r.length

/-- The payload bytes a GET returns: from its offset, at most max length (R60, R124). -/
def returned (r : Read) (bytes : List Byte) : List Byte :=
  (((bytes.drop 16).take r.length).drop r.getOffset).take r.maxLength

/-- The body of a GET answered OK (R125). -/
def getBody (r : Read) (bytes : List Byte) : List Byte := be32 r.seq ++ be16Nat r.length ++ returned r bytes

/-- The pending read of a WORKING slot ends with this response (R116, R125); a released port has none waiting (R61). -/
def answerRead (b : Block) (r : Read) (st : Status) (body : List Byte) : Block :=
  match (b.ports.get r.port).slot with
  | .working tag .read => if r.orphan then b else answer b r.port tag st body
  | .working _ .job | .working _ (.held _) | .empty | .answered _ => b

/-- The outcome of a read (R60, R61, R125): a good one is answered OK; a damaged one is reported, and answered CORRUPT. -/
def readOutcome (b : Block) (r : Read) (bytes : List Byte) : Block :=
  if readCheck r bytes then answerRead b r .ok (getBody r bytes)
  else answerRead (damageReport b r.key r.seq r.sector r.offset) r .corrupt []

/-- READ_FINISH (R60): the outcome, the pin dropped, the read port free. -/
def execReadFinish (k : Bank) (s : State) : Out :=
  outsideReset s fun b =>
    let path := b.banks.get k
    match path.current with
    | some r =>
      let b := { b with banks := b.banks.set k { path with current := none } }
      endStretch (pinsDropped (readOutcome b r (readBytes s.array r)))
    | none => b

/-! ## Time on an empty queue (log 4) -/

/-- The elapsed time of an operation after one more millisecond (R46, R47): suspended time does not count. -/
def tickEngine (e : EngineState) : EngineState :=
  match e with
  | .programming op t => .programming op (min (t + 1) Config.programLimitMs)
  | .erasing op t n => .erasing op (min (t + 1) Config.eraseLimitMs) n
  | .idle => .idle
  | .eraseSuspended op t n => .eraseSuspended op t n

/-- The stretch time after one more millisecond, up to the stretch limit (R161). -/
def tickWire (limit : Byte) (w : WireFraming) : WireFraming :=
  match w.state with
  | .stretching => { w with stretchTime := min (w.stretchTime + 1) limit.toNat }
  | .idle | .addressedWrite | .addressedRead | .ignoring => w

/-- What one millisecond does to the time fields while no command waits. -/
def idleTick (s : State) : State :=
  if s.block.inReset then s
  else
    { s with
        block :=
          { s.block with
              engine := tickEngine s.block.engine
              wire := tickWire (s.block.ports.get .p2).stretchLimit s.block.wire } }

end Sys2Proof.Machine
end

