-- ==== Sys2Proof/Machine/ResetRelease.lean ====
section
/-! DEFINITION. Reset and release: RESET_ASSERT, RESET_END, RELEASE, RELEASE_INPUT_HIGH (R41, R45, R61, R127, R128, R153, R164, R180,
R181). -/

namespace Sys2Proof.Machine

/-! ## Reset (R45, R180) -/

/-- The array when reset stops the engine (R45): a program has taken some, all or none of its zeros; an erase, suspended or not, leaves
its sector with any bytes. -/
def interrupted (s : State) (miss : List Byte) (residue : List (Nat × Byte)) : List Host.Cell :=
  match s.block.engine with
  | .idle => s.array
  | .programming op _ =>
    match op.kind with
    | .program bytes => programRun s.array op.sector op.offset bytes miss
    | .erase | .stepRead _ => s.array
  | .erasing op _ _ | .eraseSuspended op _ _ => eraseRun s.array op.sector residue

/-- The part while it is in reset: every block at its values for RESET_n, nothing driven, nobody holding the engine (R47, R180, log
20). -/
def Block.inResetValues (b : Block) : Block :=
  { Block.reset b.admin b.addrStraps .idle .idle with inReset := true, issued := none, holder := .free }

/-- RESET_ASSERT (R180): the part goes into reset, and the engine stops where it stands. -/
def execResetAssert (miss : List Byte) (residue : List (Nat × Byte)) (s : State) : Out :=
  .next { s with array := interrupted s miss residue, block := s.block.inResetValues }

/-- The administrator port that ADM1..ADM0 name: 3 names none (R166). -/
def adminOf (adm : BitVec 2) : Option Port :=
  if adm = 0 then some .p0 else if adm = 1 then some .p1 else if adm = 2 then some .p2 else none

/-- A select port starts IDLE when its select input is high as reset ends, DISCARDING when it is low (R145). -/
def selectStart (high : Bool) : SelectState := if high then .idle else .discarding

/-- RESET_END (R180): straps sampled, framing states set, and the mount begins. -/
def execResetEnd (adm adr : BitVec 2) (sel0High sel1High : Bool) (s : State) : Out :=
  .next
    (if s.block.inReset then
      { s with block := Block.reset (adminOf adm) adr (selectStart sel0High) (selectStart sel1High) }
    else s)

/-! ## Release (R127, R128) -/

/-- A release can be accepted: the enable is on and this low level has not given its release yet (R127). -/
def releaseOpen (q : PortState) : Bool := q.releaseEnable && !q.releaseSpent

/-- The port's job after a release: removed when QUEUED or WAIT_SPACE, detached when RUNNING (R41). -/
def releasedJob (j : Job) : Option Job :=
  match j.state with
  | .queued | .waitSpace => none
  | .running => some { j with detached := true }

/-- The port after a release (R41, R128): slot EMPTY, RELEASED raised, batch CLOSED. -/
def releasedPort (q : PortState) : PortState :=
  { q with
      slot := .empty
      fetchProgress := 0
      sticky := q.sticky ||| causeReleased
      batch := .closed
      job := q.job.bind releasedJob
      releaseSpent := true }

/-- A read of the released port that is in progress goes on with nobody to answer (R61). -/
def orphaned (p : Port) (r : Read) : Read := if r.port = p then { r with orphan := true } else r

/-- A bank's reads after a release (R61): waiting reads of the port are removed. -/
def releasedPath (p : Port) (k : ReadPath) : ReadPath :=
  { current := k.current.map (orphaned p), queue := k.queue.filter (·.port != p) }

/-- The reads of both banks after a release (R61). -/
def releaseReads (b : Block) (p : Port) : Block :=
  { b with banks := { b0 := releasedPath p b.banks.b0, b1 := releasedPath p b.banks.b1 } }

/-- A select port's framing after a release (R153). The fields that R153 does not name are cleared too (log 19). -/
def discardFrame (f : SelectFraming) : SelectFraming :=
  match f.state with
  | .frame => SelectFraming.reset .discarding
  | .idle | .discarding => f

/-- Port 2's framing after a release (R164). The fields that R164 does not name are cleared too (log 19). -/
def discardTransaction (w : WireFraming) : WireFraming :=
  match w.state with
  | .idle => if w.address.isSome then WireFraming.cleared .ignoring else w
  | .addressedWrite | .addressedRead | .stretching => WireFraming.cleared .ignoring
  | .ignoring => w

/-- The framing block of the released port (R153, R164). -/
def releaseFraming (b : Block) (p : Port) : Block :=
  match p with
  | .p0 => { b with select := b.select.set .s0 (discardFrame (b.select.get .s0)) }
  | .p1 => { b with select := b.select.set .s1 (discardFrame (b.select.get .s1)) }
  | .p2 => { b with wire := discardTransaction b.wire }

/-- What a release does, in one event (R41, R61, R128, R153, R164). -/
def released (b : Block) (p : Port) : Block :=
  pinsDropped (releaseReads (releaseFraming (modPort b p releasedPort) p) p)

/-- RELEASE (R127, R128). -/
def execRelease (p : Port) (s : State) : Out :=
  outsideReset s fun b => if releaseOpen (b.ports.get p) then released b p else b

/-- RELEASE_INPUT_HIGH (R127): a later low level can be accepted. -/
def execReleaseInputHigh (p : Port) (s : State) : Out :=
  outsideReset s fun b => modPort b p fun q => { q with releaseSpent := false }

end Sys2Proof.Machine
end

