-- ==== Sys2Proof/Machine/Slot.lean ====
section
/-! DEFINITION. The request slot: what a request does when it reaches it, and the tests every request passes (R110, R111, R113). -/

namespace Sys2Proof.Machine

/-- The slot of an ANSWERED port is emptied for a new request, and RESP_LOST is raised (R110). -/
def dropResponse (b : Block) (p : Port) : Block :=
  raiseCause (modPort b p fun s => { s with slot := .empty, fetchProgress := 0 }) p causeRespLost

/-- A request reaches the slot of port p (R110): refused on a WORKING slot; taken, by `take`, on an EMPTY one, and on an ANSWERED
one after its response is dropped. -/
def reachSlot (b : Block) (p : Port) (take : Block → Block) : Block :=
  match (b.ports.get p).slot with
  | .working _ _ => raiseCause b p causeRefused
  | .answered _ => take (dropResponse b p)
  | .empty => take b

/-- Every request but IDENTIFY is answered STATE, with an empty body, while the store is MOUNTING (R111). -/
def afterMount (b : Block) (p : Port) (tag : Byte) (take : Block → Block) : Block :=
  if b.storeState == .mounting then answer b p tag .state [] else take b

/-- GET, STAT and LIST are answered STATE while FORMATTING too (R113). -/
def whenReadable (b : Block) (p : Port) (tag : Byte) (take : Block → Block) : Block :=
  if b.storeState == .mounting || b.storeState == .formatting then answer b p tag .state [] else take b

/-- A request command: the request reaches the slot of its port, outside reset (log 6). -/
def request (s : State) (p : Port) (take : Block → Block) : Out := outsideReset s fun b => reachSlot b p take

end Sys2Proof.Machine
end

