-- ==== Sys2Proof/Machine/Immediate.lean ====
section
/-! DEFINITION. The requests that read the part: IDENTIFY, STORE_INFO, CONFIGURE, STAT, LIST and GET (R119 to R124). -/

namespace Sys2Proof.Machine

/-! ## IDENTIFY (R119) -/

/-- The 29 bytes of IDENTIFY (R119). -/
def identifyBody (p : Port) : List Byte :=
  [0x2D, 0x47, 0x04, 0x18, 0x01, byteNat p.num] ++ be32Nat Config.arrayBytes ++ be16Nat Config.sectorBytes ++
    [64, 2] ++ be16Nat Config.usableBytes ++ be16Nat Config.maxPayload ++ be16Nat Config.directorySlots ++
    [byteNat Config.maxBatchOps] ++ be16Nat Config.maxStagedBytes ++ [byteNat Config.maxWatches, byteNat Config.maxNotes] ++
    be16Nat 1040 ++ be16Nat Config.maxRequestBytes

/-- IDENTIFY at its take: OK in every store state (R119). -/
def takeIdentify (p : Port) (tag : Byte) (b : Block) : Block := answer b p tag .ok (identifyBody p)

/-- IDENTIFY (R119). -/
def execIdentify (p : Port) (tag : Byte) (s : State) : Out := request s p (takeIdentify p tag)

/-! ## STORE_INFO (R120) -/

/-- The cycle state's code (R120). -/
def cycleCode : Cycle → Byte
  | .idle => 0
  | .marking _ => 1
  | .copying _ _ => 2
  | .erasing _ => 3

/-- Usage and quota of a port (R120, R173). -/
def usageBytes (b : Block) (p : Port) : List Byte := be32Nat (b.usage.get p) ++ be32Nat (b.policy.quotas.get p)

/-- The 63 bytes of STORE_INFO (R120). -/
def storeInfoBody (b : Block) : List Byte :=
  [(storeCode b.storeState).zeroExtend 8] ++ be16 b.generation ++ [portCode b.admin] ++ be32 b.storeSeq ++
    [byteNat (countState b .erased), byteNat (countState b .active), byteNat (countState b .full),
      byteNat (countState b .source), byteNat (countState b .oldgen), byteNat (countState b .unclean),
      byteNat (countState b .retired)] ++
    be32Nat (freeBytes b) ++ be32Nat (reclaimableBytes b) ++ be16Nat b.dir.length ++
    [cycleCode b.cycle, byteNat b.policy.trigger] ++ be32Nat b.policy.lowSpace ++
    usageBytes b .p0 ++ usageBytes b .p1 ++ usageBytes b .p2 ++ be32 b.corruptCount ++ be32 b.retryCount

/-- STORE_INFO at its take (R120). -/
def takeStoreInfo (p : Port) (tag : Byte) (b : Block) : Block :=
  afterMount b p tag fun b => answer b p tag .ok (storeInfoBody b)

/-- STORE_INFO (R120). -/
def execStoreInfo (p : Port) (tag : Byte) (s : State) : Out := request s p (takeStoreInfo p tag)

/-! ## CONFIGURE (R121) -/

/-- The port with its three values replaced (R121): mask positions 10 to 15 stay 0; the stretch limit is held on port 2 alone. -/
def configured (p : Port) (mask : BitVec 16) (rel stretch : Byte) (s : PortState) : PortState :=
  { s with
      mask := mask &&& Config.usedCauses
      releaseEnable := rel == 1
      stretchLimit := if p = .p2 then stretch else 0 }

/-- The three values as the port holds them, laid out as the parameters (R121). -/
def configureBody (s : PortState) : List Byte := be16 s.mask ++ [boolByte s.releaseEnable, s.stretchLimit]

/-- CONFIGURE at its take (R114, R121). -/
def takeConfigure (p : Port) (tag : Byte) (mask : BitVec 16) (rel stretch : Byte) (b : Block) : Block :=
  afterMount b p tag fun b =>
    if !releaseEnableOk rel then answer b p tag .badValue []
    else
      let b := modPort b p (configured p mask rel stretch)
      answer b p tag .ok (configureBody (b.ports.get p))

/-- CONFIGURE (R121). -/
def execConfigure (p : Port) (tag : Byte) (mask : BitVec 16) (rel stretch : Byte) (s : State) : Out :=
  request s p (takeConfigure p tag mask rel stretch)

/-! ## STAT (R122) -/

/-- The state byte of STAT and LIST: 1 LIVE, 2 DAMAGED (R122). A tombstone is not reported. -/
def slotStateByte : SlotState → Byte
  | .live => 1
  | .damaged => 2
  | .tombstone => 0

/-- The 11 bytes of STAT (R122). -/
def statBody (d : DirSlot) : List Byte :=
  [slotStateByte d.state] ++ be16Nat d.length ++ be32 d.seq ++
    [portCode d.owner, portSetByte d.readSet, portSetByte d.writeSet, boolByte d.writeOnce]

/-- STAT at its take (R122). -/
def takeStat (p : Port) (tag : Byte) (key : Key) (b : Block) : Block :=
  whenReadable b p tag fun b =>
    if !isKey key then answer b p tag .badKey []
    else
      match lookup b.dir p key with
      | .absent => answer b p tag .notFound []
      | .notReadable => answer b p tag .denied []
      | .present d | .damaged d => answer b p tag .ok (statBody d)

/-- STAT (R122). -/
def execStat (p : Port) (tag : Byte) (key : Key) (s : State) : Out := request s p (takeStat p tag key)

/-! ## LIST (R13, R123) -/

/-- A slot that LIST returns: LIVE or DAMAGED, readable by the port, above the after-key (R13). -/
def listed (p : Port) (afterKey : Key) (d : DirSlot) : Bool := afterKey < d.key && slotPresent d.state && mayRead p d

/-- The items of a walk: the first max count of them in ascending key order (R13). -/
def listItems (dir : List DirSlot) (p : Port) (afterKey : Key) (n : Nat) : List DirSlot :=
  (dir.filter (listed p afterKey)).take n

/-- The 10 bytes of an item (R123). -/
def itemBytes (d : DirSlot) : List Byte :=
  be16 d.key ++ be16Nat d.length ++ be32 d.seq ++ [portCode d.owner, slotStateByte d.state]

def listBody (items : List DirSlot) : List Byte := byteNat items.length :: items.flatMap itemBytes

/-- LIST at its take (R114, R123). -/
def takeList (p : Port) (tag : Byte) (afterKey : Key) (maxCount : Byte) (b : Block) : Block :=
  whenReadable b p tag fun b =>
    if !listCountOk maxCount then answer b p tag .badValue []
    else answer b p tag .ok (listBody (listItems b.dir p afterKey maxCount.toNat))

/-- LIST (R123). -/
def execList (p : Port) (tag : Byte) (afterKey : Key) (maxCount : Byte) (s : State) : Out :=
  request s p (takeList p tag afterKey maxCount)

/-! ## GET (R124) -/

/-- The read that a GET's lookup creates (R55). -/
def readFor (p : Port) (d : DirSlot) (offset maxLength : BitVec 16) : Read :=
  { port := p, orphan := false, key := d.key, seq := d.seq, sector := d.sector, offset := d.offset, length := d.length
    getOffset := offset.toNat, maxLength := maxLength.toNat }

/-- GET at its take (R124). -/
def takeGet (p : Port) (tag : Byte) (key : Key) (offset maxLength : BitVec 16) (b : Block) : Block :=
  whenReadable b p tag fun b =>
    if !isKey key then answer b p tag .badKey []
    else
      match lookup b.dir p key with
      | .absent => answer b p tag .notFound []
      | .notReadable => answer b p tag .denied []
      | .damaged _ => answer b p tag .corrupt []
      | .present d =>
        if d.length < offset.toNat then answer b p tag .tooLong []
        else createRead (setSlot b p (.working tag .read)) (readFor p d offset maxLength)

/-- GET (R124). -/
def execGet (p : Port) (tag : Byte) (key : Key) (offset maxLength : BitVec 16) (s : State) : Out :=
  request s p (takeGet p tag key offset maxLength)

end Sys2Proof.Machine
end

