-- ==== Sys2Proof/Machine/Watching.lean ====
section
/-! DEFINITION. WATCH, UNWATCH, NOTES, EVENTS and RECLAIM (R76, R131, R132, R137, R143). -/

namespace Sys2Proof.Machine

/-! ## WATCH and UNWATCH (R131, R132) -/

def setWatches (b : Block) (p : Port) (l : List Key) : Block := modPort b p fun s => { s with watches := l }

/-- The table after a WATCH, or the status that refuses it; the checks of R131 in their order. -/
def watchTable (b : Block) (p : Port) (key : Key) : Except Status (List Key) :=
  let table := (b.ports.get p).watches
  if !isKey key then .error .badKey
  else if lookup b.dir p key = .notReadable then .error .denied
  else if table.contains key then .ok table
  else if Config.maxWatches ≤ table.length then .error .watchFull
  else .ok (table ++ [key])

/-- The table after an UNWATCH, or the status that refuses it (R132). -/
def unwatchTable (b : Block) (p : Port) (key : Key) : Except Status (List Key) :=
  let table := (b.ports.get p).watches
  if !isKey key then .error .badKey
  else if table.contains key then .ok (table.filter (· != key))
  else .error .notFound

/-- The answer of WATCH and UNWATCH: the count of keys in the new table (R131, R132). -/
def answerTable (b : Block) (p : Port) (tag : Byte) (r : Except Status (List Key)) : Block :=
  match r with
  | .ok l => answer (setWatches b p l) p tag .ok [byteNat l.length]
  | .error st => answer b p tag st []

/-- WATCH at its take (R131). -/
def takeWatch (p : Port) (tag : Byte) (key : Key) (b : Block) : Block :=
  afterMount b p tag fun b => answerTable b p tag (watchTable b p key)

/-- WATCH (R131). -/
def execWatch (p : Port) (tag : Byte) (key : Key) (s : State) : Out := request s p (takeWatch p tag key)

/-- UNWATCH at its take (R132). -/
def takeUnwatch (p : Port) (tag : Byte) (key : Key) (b : Block) : Block :=
  afterMount b p tag fun b => answerTable b p tag (unwatchTable b p key)

/-- UNWATCH (R132). -/
def execUnwatch (p : Port) (tag : Byte) (key : Key) (s : State) : Out := request s p (takeUnwatch p tag key)

/-! ## NOTES (R137) -/

/-- Note kind codes (R137). -/
def noteCode : NoteKind → Byte
  | .written => 1
  | .deleted => 2
  | .withdrawn => 3
  | .damaged => 4

/-- The 9 bytes of a note (R137). -/
def noteBytes (n : Note) : List Byte := be16 n.key ++ be32 n.seq ++ [noteCode n.kind, portCode n.byPort, byteNat n.merged]

def notesBody (l : List Note) : List Byte := byteNat l.length :: l.flatMap noteBytes

/-- NOTES at its take (R114, R137): the oldest notes leave the queue. -/
def takeNotes (p : Port) (tag : Byte) (maxCount : Byte) (b : Block) : Block :=
  afterMount b p tag fun b =>
    if !notesCountOk maxCount then answer b p tag .badValue []
    else
      answer (modPort b p fun s => { s with notes := s.notes.drop maxCount.toNat }) p tag .ok
        (notesBody ((b.ports.get p).notes.take maxCount.toNat))

/-- NOTES (R137). -/
def execNotes (p : Port) (tag : Byte) (maxCount : Byte) (s : State) : Out := request s p (takeNotes p tag maxCount)

/-! ## EVENTS (R143) -/

/-- EVENTS at its take (R143): the copy of the cause set, then the named sticky causes cleared. Level causes are not stored, so the
mask cannot clear them. -/
def takeEvents (p : Port) (tag : Byte) (clear : BitVec 16) (b : Block) : Block :=
  afterMount b p tag fun b =>
    answer (modPort b p fun s => { s with sticky := s.sticky &&& ~~~clear }) p tag .ok (be16 (causeSet (b.ports.get p)))

/-- EVENTS (R143). -/
def execEvents (p : Port) (tag : Byte) (clear : BitVec 16) (s : State) : Out := request s p (takeEvents p tag clear)

/-! ## RECLAIM (R76) -/

/-- RECLAIM at its take (R76): 01h started, 02h running, 03h nothing to do (R175). -/
def takeReclaim (p : Port) (tag : Byte) (b : Block) : Block :=
  afterMount b p tag fun b =>
    if b.storeState == .ready then
      if b.cycle == .idle then
        match victim b with
        | some x => answer (startCycle b x) p tag .ok [0x01]
        | none => answer b p tag .ok [0x03]
      else answer b p tag .ok [0x02]
    else answer b p tag .state []

/-- RECLAIM (R76). -/
def execReclaim (p : Port) (tag : Byte) (s : State) : Out := request s p (takeReclaim p tag)

end Sys2Proof.Machine
end

