-- ==== Sys2Proof/Machine/Writes.lean ====
section
/-! DEFINITION. The write requests and FORMAT: PUT, DELETE, BEGIN, COMMIT, ABANDON, FORMAT (R20 to R25, R102). -/

namespace Sys2Proof.Machine

/-- The body of a write request answered at once: sequence 0 and index FFh (R40). -/
def noVersion : List Byte := writeBody 0 0xFF

/-! ## Staging (R22, R23) -/

/-- The checks of R22 in their order: key, payload length, batch limits. -/
def stageCheck (ops : List WriteOp) (op : WriteOp) : Option Status :=
  if !isKey op.key then some .badKey
  else if Config.maxPayload < opBytes op then some .tooLong
  else if !stagingFits (restage ops op) then some .batchFull
  else none

/-- A PUT or DELETE in an OPEN context (R22, R23). -/
def stage (b : Block) (p : Port) (tag : Byte) (ops : List WriteOp) (op : WriteOp) : Block :=
  match stageCheck ops op with
  | some st => answer b p tag st noVersion
  | none => answer (setBatch b p (.opened (restage ops op))) p tag .ok noVersion

/-! ## PUT and DELETE (R22, R25) -/

/-- A PUT or DELETE with the context CLOSED (R25): TOO_LONG before the store-state test. -/
def single (b : Block) (p : Port) (tag : Byte) (op : WriteOp) : Block :=
  if Config.maxPayload < opBytes op then answer b p tag .tooLong noVersion else submitWrite b p tag op

/-- A write operation by the port's batch context. COMMITTING is not reached (R20, log 30). -/
def write (b : Block) (p : Port) (tag : Byte) (op : WriteOp) : Block :=
  match (b.ports.get p).batch with
  | .opened ops => stage b p tag ops op
  | .closed => single b p tag op
  | .committing => b

def putOp (key : Key) (expected : Option Seq) (attrs : Option Attrs) (payload : List Byte) : WriteOp :=
  { key := key, expected := expected, kind := .put attrs payload }

def deleteOp (key : Key) (expected : Option Seq) : WriteOp := { key := key, expected := expected, kind := .delete }

/-- PUT at its take (R22, R25). -/
def takePut (p : Port) (tag : Byte) (key : Key) (expected : Option Seq) (attrs : Option Attrs) (payload : List Byte)
    (b : Block) : Block :=
  afterMount b p tag fun b => write b p tag (putOp key expected attrs payload)

/-- PUT (R25). -/
def execPut (p : Port) (tag : Byte) (key : Key) (expected : Option Seq) (attrs : Option Attrs) (payload : List Byte)
    (s : State) : Out :=
  request s p (takePut p tag key expected attrs payload)

/-- DELETE at its take (R22, R25). -/
def takeDelete (p : Port) (tag : Byte) (key : Key) (expected : Option Seq) (b : Block) : Block :=
  afterMount b p tag fun b => write b p tag (deleteOp key expected)

/-- DELETE (R25). -/
def execDelete (p : Port) (tag : Byte) (key : Key) (expected : Option Seq) (s : State) : Out :=
  request s p (takeDelete p tag key expected)

/-! ## BEGIN, COMMIT, ABANDON (R20, R21, R24) -/

/-- BEGIN at its take (R20). COMMITTING is not reached. -/
def takeBegin (p : Port) (tag : Byte) (b : Block) : Block :=
  afterMount b p tag fun b =>
    match (b.ports.get p).batch with
    | .closed => answer (setBatch b p (.opened [])) p tag .ok noVersion
    | .opened _ => answer b p tag .batchOpen noVersion
    | .committing => b

/-- BEGIN (R20). -/
def execBegin (p : Port) (tag : Byte) (s : State) : Out := request s p (takeBegin p tag)

/-- COMMIT at its take (R24). -/
def takeCommit (p : Port) (tag : Byte) (b : Block) : Block := afterMount b p tag fun b => submitCommit b p tag

/-- COMMIT (R24). -/
def execCommit (p : Port) (tag : Byte) (s : State) : Out := request s p (takeCommit p tag)

/-- ABANDON at its take (R21). COMMITTING is not reached. -/
def takeAbandon (p : Port) (tag : Byte) (b : Block) : Block :=
  afterMount b p tag fun b =>
    match (b.ports.get p).batch with
    | .opened _ => answer (setBatch b p .closed) p tag .ok noVersion
    | .closed => answer b p tag .noBatch noVersion
    | .committing => b

/-- ABANDON (R21). -/
def execAbandon (p : Port) (tag : Byte) (s : State) : Out := request s p (takeAbandon p tag)

/-! ## FORMAT (R102) -/

/-- FORMAT at its take (R102). -/
def takeFormatRequest (p : Port) (tag : Byte) (b : Block) : Block :=
  afterMount b p tag fun b => submitFormat b p tag

/-- FORMAT (R102). -/
def execFormat (p : Port) (tag : Byte) (s : State) : Out := request s p (takeFormatRequest p tag)

end Sys2Proof.Machine
end

