-- ==== Sys2Proof/Machine/Frames.lean ====
section
/-! DEFINITION. REQUEST_FRAME_END: a request frame of any bytes reaches the slot (R110, R111). -/

namespace Sys2Proof.Machine

/-- The take of a request that passed the common checks (R115). -/
def takeRequest (p : Port) (tag : Byte) (r : Request) (b : Block) : Block :=
  match r with
  | .identify => takeIdentify p tag b
  | .storeInfo => takeStoreInfo p tag b
  | .configure mask rel stretch => takeConfigure p tag mask rel stretch b
  | .events clear => takeEvents p tag clear b
  | .get key offset maxLength => takeGet p tag key offset maxLength b
  | .stat key => takeStat p tag key b
  | .list afterKey maxCount => takeList p tag afterKey maxCount b
  | .put key expected attrs payload => takePut p tag key expected attrs payload b
  | .delete key expected => takeDelete p tag key expected b
  | .beginBatch => takeBegin p tag b
  | .commit => takeCommit p tag b
  | .abandon => takeAbandon p tag b
  | .watch key => takeWatch p tag key b
  | .unwatch key => takeUnwatch p tag key b
  | .notes maxCount => takeNotes p tag maxCount b
  | .reclaim => takeReclaim p tag b
  | .format => takeFormatRequest p tag b

/-- The take of a frame (R111): refused by a common check with an empty body, or its request taken. -/
def takeFrame (p : Port) (frame : List Byte) (b : Block) : Block :=
  match Decode.commonChecks (b.storeState == .mounting) frame with
  | .refused st => answer b p (Decode.frameTag frame) st []
  | .request r => takeRequest p (Decode.frameTag frame) r b

/-- A request frame of these bytes ends (R110). A frame of no byte is not a request; a longer one than 1046 bytes does not reach the
slot (log 18). -/
def frameEnds (p : Port) (frame : List Byte) (b : Block) : Block :=
  if frame.isEmpty || Config.maxRequestBytes < frame.length then b else reachSlot b p (takeFrame p frame)

/-- REQUEST_FRAME_END (R110). -/
def execRequestFrameEnd (p : Port) (frame : List Byte) (s : State) : Out := outsideReset s (frameEnds p frame)

end Sys2Proof.Machine
end

