-- ==== Sys2Proof/Machine/SelectPorts.lean ====
section
/-! DEFINITION. The select ports' framing: SELECT_FALL, SELECT_BYTE_COMPLETE, REQUEST_FRAME_SELECT_END, FETCH_FRAME_END,
OTHER_FRAME_END, DISCARDING_END (R118, R144 to R154). -/

namespace Sys2Proof.Machine

def modSelect (b : Block) (p : SelPort) (f : SelectFraming → SelectFraming) : Block :=
  { b with select := b.select.set p (f (b.select.get p)) }

/-! ## The beginning of a frame (R146) -/

/-- The framing as a frame begins with this status byte captured (R146). SDOp is driven at once in mode 0, and at the first falling
clock edge in mode 3 (R144). -/
def frameBegun (clockHigh answered : Bool) (status : Byte) : SelectFraming :=
  { state := .frame, mode3 := clockHigh, bytesComplete := 0, frameType := .none, showedAnswered := answered
    requestBytes := [], overLength := false, sdo := some status, driven := !clockHigh }

/-- SELECT_FALL (R146): in IDLE a frame begins. -/
def execSelectFall (p : SelPort) (clockHigh : Bool) (s : State) : Out :=
  outsideReset s fun b =>
    match (b.select.get p).state with
    | .idle =>
      modSelect b p fun _ => frameBegun clockHigh (slotAnswered (b.ports.get p.port).slot) (statusByte b p.port)
    | .frame | .discarding => b

/-! ## Bytes of a frame (R147 to R150) -/

/-- The frame type of byte 0 (R147). -/
def frameTypeOf (x : Byte) : FrameType :=
  if x = 0x5A then .poll else if x = 0xA5 then .request else if x = 0xC3 then .fetch else .unknown

/-- The response in the port's buffer; none unless ANSWERED. -/
def bufferOf (q : PortState) : List Byte :=
  match q.slot with
  | .answered r => r
  | .empty | .working _ _ => []

/-- The byte a fetch sends at a response position: filler FFh past the response, or when the status byte did not show ANSWERED (R118,
R150, R162). -/
def fetchByte (answered : Bool) (q : PortState) (i : Nat) : Byte := if answered then (bufferOf q).getD i 0xFF else 0xFF

/-- The byte on SDOp after a byte of this frame type is complete (R147, R148, R150). -/
def nextSdo (b : Block) (p : SelPort) (ty : FrameType) (answered : Bool) : Byte :=
  match ty with
  | .poll => statusByte b p.port
  | .fetch => fetchByte answered (b.ports.get p.port) (b.ports.get p.port).fetchProgress
  | .none | .request | .unknown => 0xFF

/-- One more request byte: kept while there are fewer than 1046, else over-length (R149). -/
def appendRequest (x : Byte) (f : SelectFraming) : SelectFraming :=
  if f.overLength then f
  else if f.requestBytes.length < Config.maxRequestBytes then { f with requestBytes := f.requestBytes ++ [x] }
  else { f with overLength := true }

/-- One more response byte has gone out of port p, if one was going: the fetch progress rises by one, up to the response length (R118,
R150, R162). -/
def countFetched (b : Block) (p : Port) (answered : Bool) : Block :=
  modPort b p fun q =>
    if answered && q.fetchProgress < (bufferOf q).length then { q with fetchProgress := q.fetchProgress + 1 } else q

/-- A byte after byte 0 is complete (R148 to R150). -/
def laterByte (b : Block) (p : SelPort) (f : SelectFraming) (sdi : Byte) : Block :=
  match f.frameType with
  | .request => modSelect b p (appendRequest sdi)
  | .fetch => countFetched b p.port f.showedAnswered
  | .none | .poll | .unknown => b

/-- Byte 0 sets the frame type; a later byte acts by it (R147). -/
def frameByte (b : Block) (p : SelPort) (sdi : Byte) : Block :=
  if (b.select.get p).bytesComplete = 0 then modSelect b p fun f => { f with frameType := frameTypeOf sdi }
  else laterByte b p (b.select.get p) sdi

/-- The byte is counted, and the next one comes onto SDOp, which is driven in either mode by then (R144, R147, R148, R150). -/
def byteCounted (b : Block) (p : SelPort) : Block :=
  modSelect b p fun f =>
    { f with
        bytesComplete := f.bytesComplete + 1, sdo := some (nextSdo b p f.frameType f.showedAnswered), driven := true }

/-- SELECT_BYTE_COMPLETE (R147, R149): in FRAME, a byte has been received and one sent. -/
def execSelectByteComplete (p : SelPort) (sdi : Byte) (s : State) : Out :=
  outsideReset s fun b =>
    match (b.select.get p).state with
    | .frame => byteCounted (frameByte b p sdi) p
    | .idle | .discarding => b

/-! ## The end of a fetch (R118) -/

/-- The slot acts on the end of a fetch (R118): `clean` when the frame ended so that it may release. The response is released when it
all went out; otherwise the progress returns to 0. A slot that is not ANSWERED acts on nothing (R152, R163). -/
def fetchEnds (b : Block) (p : Port) (clean : Bool) : Block :=
  modPort b p fun q =>
    match q.slot with
    | .answered r =>
      if clean && q.fetchProgress == r.length then { q with slot := .empty, fetchProgress := 0 }
      else { q with fetchProgress := 0 }
    | .empty | .working _ _ => q

/-! ## The end of a frame (R151, R152, R154) -/

/-- The framing goes back to IDLE, its fields cleared (log 19). -/
def frameOver (b : Block) (p : SelPort) : Block := modSelect b p fun _ => SelectFraming.reset .idle

/-- What a REQUEST frame's end brings the slot (R151). -/
def requestFrameOver (b : Block) (p : Port) (bytes : List Byte) (bad : Bool) : Block :=
  if bad then raiseCause b p causeFrameErr else frameEnds p bytes b

/-- REQUEST_FRAME_SELECT_END (R151). -/
def execRequestFrameSelectEnd (p : SelPort) (onBoundary : Bool) (s : State) : Out :=
  outsideReset s fun b =>
    let f := b.select.get p
    if f.state = .frame ∧ f.frameType = .request then
      requestFrameOver (frameOver b p) p.port f.requestBytes (f.overLength || !onBoundary)
    else b

/-- FETCH_FRAME_END (R152). -/
def execFetchFrameEnd (p : SelPort) (onBoundary : Bool) (s : State) : Out :=
  outsideReset s fun b =>
    let f := b.select.get p
    if f.state = .frame ∧ f.frameType = .fetch then
      fetchEnds (frameOver b p) p.port (onBoundary && f.showedAnswered)
    else b

/-- OTHER_FRAME_END (R152): an untyped, POLL or unknown frame ends, on a byte boundary or off one; an unknown one raises FRAME_ERR. -/
def execOtherFrameEnd (p : SelPort) (_onBoundary : Bool) (s : State) : Out :=
  outsideReset s fun b =>
    let f := b.select.get p
    match f.state, f.frameType with
    | .frame, .none | .frame, .poll => frameOver b p
    | .frame, .unknown => raiseCause (frameOver b p) p.port causeFrameErr
    | .frame, .request | .frame, .fetch | .idle, _ | .discarding, _ => b

/-- DISCARDING_END (R154). -/
def execDiscardingEnd (p : SelPort) (s : State) : Out :=
  outsideReset s fun b =>
    match (b.select.get p).state with
    | .discarding => frameOver b p
    | .idle | .frame => b

end Sys2Proof.Machine
end

