-- ==== Sys2Proof/Machine/TwoWire.lean ====
section
/-! DEFINITION. Port 2's framing: BUS_START, BUS_STOP, ADDRESS_BYTE, TWO_WIRE_REQUEST_BYTE, READ_BYTE_ACKNOWLEDGE,
STRETCH_LIMIT_EXPIRY (R155 to R163). -/

namespace Sys2Proof.Machine

def setWire (b : Block) (w : WireFraming) : Block := { b with wire := w }

/-! ## The end of a transaction (R157, R159, R163) -/

/-- What the end of the transaction in progress brings the slot: a write by R159, a read by R163; none where there is none. -/
def transactionEnds (b : Block) (w : WireFraming) (incomplete : Bool) : Block :=
  match w.state with
  | .addressedWrite => requestFrameOver b .p2 w.requestBytes (w.overLength || incomplete)
  | .addressedRead => fetchEnds b .p2 (w.nakSeen && w.showedAnswered)
  | .idle | .stretching | .ignoring => b

/-- The framing in IDLE (R157): after a START with an address byte in reception, none of its bits received yet. -/
def wireIdle (started : Bool) : WireFraming :=
  { WireFraming.cleared .idle with address := if started then some [] else none }

/-- The end of the transaction, and IDLE after it. While SCL is held no START or STOP arrives (R161). -/
def busCondition (b : Block) (incomplete started : Bool) : Block :=
  match b.wire.state with
  | .stretching => b
  | .idle | .addressedWrite | .addressedRead | .ignoring =>
    transactionEnds (setWire b (wireIdle started)) b.wire incomplete

/-- BUS_START (R157): START or repeated START. -/
def execBusStart (incomplete : Bool) (s : State) : Out := outsideReset s fun b => busCondition b incomplete true

/-- BUS_STOP (R157). -/
def execBusStop (incomplete : Bool) (s : State) : Out := outsideReset s fun b => busCondition b incomplete false

/-! ## Addressing (R155, R157, R160) -/

/-- The port's address: 58h plus the straps (R155). -/
def wireAddress (b : Block) : BitVec 7 := 0x58 + b.addrStraps.zeroExtend 7

/-- The address byte of this direction: 1 for a read (R157). -/
def addressByte (b : Block) (isRead : Bool) : Byte := wireAddress b ++ BitVec.ofBool isRead

/-- The port's read address is acknowledged (R160): it stretches while the slot is WORKING and the limit is not 0, and captures the
status byte otherwise. -/
def readAddressed (b : Block) : Block :=
  let b := setWire b { WireFraming.cleared .addressedRead with ackOut := some true }
  if slotWorking (b.ports.get .p2).slot && (b.ports.get .p2).stretchLimit != 0 then
    setWire b { b.wire with state := .stretching }
  else captureWire b

/-- ADDRESS_BYTE (R157). -/
def execAddressByte (x : Byte) (s : State) : Out :=
  outsideReset s fun b =>
    if b.wire.state = .idle ∧ b.wire.address.isSome then
      if x = addressByte b false then setWire b { WireFraming.cleared .addressedWrite with ackOut := some true }
      else if x = addressByte b true then readAddressed b
      else setWire b { WireFraming.cleared .ignoring with ackOut := some false }
    else b

/-! ## Writes (R158) -/

/-- A request byte at its acknowledge bit: ACK and kept while there are fewer than 1046; NAK and over-length after (R158). -/
def wireByte (x : Byte) (w : WireFraming) : WireFraming :=
  if w.requestBytes.length < Config.maxRequestBytes ∧ !w.overLength then
    { w with requestBytes := w.requestBytes ++ [x], ackOut := some true }
  else { w with overLength := true, ackOut := some false }

/-- TWO_WIRE_REQUEST_BYTE (R158). -/
def execTwoWireRequestByte (x : Byte) (s : State) : Out :=
  outsideReset s fun b =>
    match b.wire.state with
    | .addressedWrite => setWire b (wireByte x b.wire)
    | .idle | .addressedRead | .stretching | .ignoring => b

/-! ## Reads (R161, R162) -/

/-- STRETCH_LIMIT_EXPIRY (R161): the stretch time reaches the limit; the status byte is captured and SCL released. -/
def execStretchLimitExpiry (s : State) : Out :=
  outsideReset s fun b =>
    match b.wire.state with
    | .stretching => captureWire (setWire b { b.wire with stretchTime := (b.ports.get .p2).stretchLimit.toNat })
    | .idle | .addressedWrite | .addressedRead | .ignoring => b

/-- A sent byte's acknowledge bit counts (R162): a response byte raises the fetch progress; ACK begins the next byte, NAK ends the
sending. -/
def acknowledged (b : Block) (ack : Bool) : Block :=
  let w := b.wire
  let b := if 0 < w.bytesSent then countFetched b .p2 w.showedAnswered else b
  if ack then
    setWire b
      { w with
          bytesSent := w.bytesSent + 1
          sending := some (fetchByte w.showedAnswered (b.ports.get .p2) (b.ports.get .p2).fetchProgress) }
  else setWire b { w with bytesSent := w.bytesSent + 1, nakSeen := true, sending := none }

/-- READ_BYTE_ACKNOWLEDGE (R162): after a NAK nothing counts. -/
def execReadByteAcknowledge (ack : Bool) (s : State) : Out :=
  outsideReset s fun b =>
    if b.wire.state = .addressedRead ∧ !b.wire.nakSeen then acknowledged b ack else b

end Sys2Proof.Machine
end

