-- ==== Sys2Proof/Machine/Dispatch.lean ====
section
/-! DEFINITION. One arm for each command. -/

namespace Sys2Proof.Machine

def exec (i : Instr) (s : State) : Host.Outcome State Fault Refusal :=
  match i with
  | .identify p tag => Sys2Proof.Machine.execIdentify p tag s
  | .storeInfo p tag => Sys2Proof.Machine.execStoreInfo p tag s
  | .configure p tag mask rel stretch => Sys2Proof.Machine.execConfigure p tag mask rel stretch s
  | .events p tag clear => Sys2Proof.Machine.execEvents p tag clear s
  | .get p tag key offset maxLength => Sys2Proof.Machine.execGet p tag key offset maxLength s
  | .stat p tag key => Sys2Proof.Machine.execStat p tag key s
  | .list p tag afterKey maxCount => Sys2Proof.Machine.execList p tag afterKey maxCount s
  | .put p tag key expected attrs payload => Sys2Proof.Machine.execPut p tag key expected attrs payload s
  | .delete p tag key expected => Sys2Proof.Machine.execDelete p tag key expected s
  | .beginBatch p tag => Sys2Proof.Machine.execBegin p tag s
  | .commit p tag => Sys2Proof.Machine.execCommit p tag s
  | .abandon p tag => Sys2Proof.Machine.execAbandon p tag s
  | .watch p tag key => Sys2Proof.Machine.execWatch p tag key s
  | .unwatch p tag key => Sys2Proof.Machine.execUnwatch p tag key s
  | .notes p tag maxCount => Sys2Proof.Machine.execNotes p tag maxCount s
  | .reclaim p tag => Sys2Proof.Machine.execReclaim p tag s
  | .format p tag => Sys2Proof.Machine.execFormat p tag s
  | .requestFrameEnd p bytes => Sys2Proof.Machine.execRequestFrameEnd p bytes s
  | .readStart k => Sys2Proof.Machine.execReadStart k s
  | .readFinish k => Sys2Proof.Machine.execReadFinish k s
  | .engineGrant => Sys2Proof.Machine.execEngineGrant s
  | .engineOpStart => Sys2Proof.Machine.execEngineOpStart s
  | .programComplete miss => Sys2Proof.Machine.execProgramComplete miss s
  | .programTimeout miss => Sys2Proof.Machine.execProgramTimeout miss s
  | .eraseComplete residue => Sys2Proof.Machine.execEraseComplete residue s
  | .eraseTimeout residue => Sys2Proof.Machine.execEraseTimeout residue s
  | .stepReadComplete => Sys2Proof.Machine.execStepReadComplete s
  | .resetAssert miss residue => Sys2Proof.Machine.execResetAssert miss residue s
  | .resetEnd adm adr sel0High sel1High => Sys2Proof.Machine.execResetEnd adm adr sel0High sel1High s
  | .release p => Sys2Proof.Machine.execRelease p s
  | .selectFall p clockHigh => Sys2Proof.Machine.execSelectFall p clockHigh s
  | .requestFrameSelectEnd p onBoundary => Sys2Proof.Machine.execRequestFrameSelectEnd p onBoundary s
  | .fetchFrameEnd p onBoundary => Sys2Proof.Machine.execFetchFrameEnd p onBoundary s
  | .otherFrameEnd p onBoundary => Sys2Proof.Machine.execOtherFrameEnd p onBoundary s
  | .discardingEnd p => Sys2Proof.Machine.execDiscardingEnd p s
  | .busStart incomplete => Sys2Proof.Machine.execBusStart incomplete s
  | .busStop incomplete => Sys2Proof.Machine.execBusStop incomplete s
  | .addressByte x => Sys2Proof.Machine.execAddressByte x s
  | .stretchLimitExpiry => Sys2Proof.Machine.execStretchLimitExpiry s
  | .selectByteComplete p sdi => Sys2Proof.Machine.execSelectByteComplete p sdi s
  | .twoWireRequestByte x => Sys2Proof.Machine.execTwoWireRequestByte x s
  | .readByteAcknowledge ack => Sys2Proof.Machine.execReadByteAcknowledge ack s
  | .releaseInputHigh p => Sys2Proof.Machine.execReleaseInputHigh p s

end Sys2Proof.Machine
end

