-- ==== Sys2Proof/Safety.lean ====
section
/-! DEFINITION. What a safe state and a safe run are, and the words that statements about the machine use. -/

namespace Sys2Proof.Safety

open Machine

/-! ## Invariants -/

/-- A port's registers: positions 10 to 15 of cause set and mask empty (R121, R138), level causes not stored (log 8), the stretch limit
held on port 2 alone (R121). -/
def portOk (b : Block) (p : Port) : Bool :=
  ((b.ports.get p).sticky &&& ~~~0x03FC) == 0 && ((b.ports.get p).mask &&& ~~~Config.usedCauses) == 0 &&
    (p == .p2 || (b.ports.get p).stretchLimit == 0)

/-- Every port's registers. -/
def portsOk (b : Block) : Bool := allPorts.all (portOk b)

/-- A staging list: at most 8 operations and 2048 payload bytes, one operation for each key (R22, R23). -/
def stagingOk (ops : List WriteOp) : Prop := stagingFits ops = true ∧ (ops.map (·.key)).Nodup

/-- A port's tables: at most 8 watched keys, each once (R130); at most 16 notes, one for each key, with merged counts up to 255 (R133);
an open staging list within its limits (R22, R23). -/
def tablesOk (q : PortState) : Prop :=
  q.watches.length ≤ 8 ∧ q.watches.Nodup ∧ q.notes.length ≤ 16 ∧ (q.notes.map (·.key)).Nodup ∧
    (∀ n ∈ q.notes, n.merged ≤ 255) ∧ ∀ ops, q.batch = .opened ops → stagingOk ops

/-- The usage counters equal the sums over the directory, but while a mount holds the engine (R10, R18); the directory is in ascending
key order. -/
def usageOk (b : Block) : Prop :=
  dirSorted b.dir = true ∧ ((∃ w, b.holder = .mount w) ∨ ∀ p, b.usage.get p = usageSum b.dir p)

/-- A state in which the canonical forms hold. -/
def ok (s : State) : Bool := Memory.wf s.array && dirSorted s.block.dir && portsOk s.block

/-! ## Runs -/

/-- The states that n steps reach from a state, in order; the list ends where a step does not answer next. -/
def run : Nat → State → List State
  | 0, s => [s]
  | n + 1, s =>
    match step s with
    | .next t => s :: run n t
    | .fault _ | .refused _ => [s]

/-- Every state of a run of n steps is safe. -/
def runOk (n : Nat) (s : State) : Bool := (run n s).all ok

/-! ## Words about requests -/

/-- The state with the registers of port p changed, and nothing else. -/
def onPort (s : State) (p : Port) (f : PortState → PortState) : State := { s with block := modPort s.block p f }

/-- The state with the block changed, and nothing else. -/
def onBlock (s : State) (f : Block → Block) : State := { s with block := f s.block }

/-- A port whose slot has been answered: ANSWERED with this response, fetch progress 0 (R117). -/
def responded (tag : Byte) (st : Status) (body : List Byte) (q : PortState) : PortState :=
  { q with slot := .answered (response st tag body), fetchProgress := 0 }

/-- The body of the write requests: a sequence and an operation index (R40). -/
def seqIndex (seq : Seq) (index : Byte) : List Byte := be32 seq ++ [index]

/-- A port that loses the response it holds to a new request: EMPTY, and RESP_LOST raised (R110). -/
def lost (q : PortState) : PortState :=
  { q with slot := .empty, fetchProgress := 0, sticky := q.sticky ||| 0x0008 }

/-- The state a request of port p is taken in: as it stands from an EMPTY slot, after the loss of the response from an ANSWERED one
(R110). -/
def atTake (s : State) (p : Port) : State :=
  match (s.block.ports.get p).slot with
  | .answered _ => onPort s p lost
  | .empty | .working _ _ => s

/-- A request of port p can be taken: the part is not in reset, and the slot is not WORKING (R110). -/
def canTake (s : State) (p : Port) : Prop :=
  s.block.inReset = false ∧ slotWorking (s.block.ports.get p).slot = false

/-- The store is not MOUNTING (R111). -/
def mounted (s : State) : Prop := s.block.storeState ≠ .mounting

/-- The store serves lookups: it is neither MOUNTING nor FORMATTING (R113). -/
def readable (s : State) : Prop := s.block.storeState ≠ .mounting ∧ s.block.storeState ≠ .formatting

/-- The command of a request. -/
def command (p : Port) (tag : Byte) : Request → Instr
  | .identify => .identify p tag
  | .storeInfo => .storeInfo p tag
  | .configure mask rel stretch => .configure p tag mask rel stretch
  | .events clear => .events p tag clear
  | .get key offset maxLength => .get p tag key offset maxLength
  | .stat key => .stat p tag key
  | .list afterKey maxCount => .list p tag afterKey maxCount
  | .put key expected attrs payload => .put p tag key expected attrs payload
  | .delete key expected => .delete p tag key expected
  | .beginBatch => .beginBatch p tag
  | .commit => .commit p tag
  | .abandon => .abandon p tag
  | .watch key => .watch p tag key
  | .unwatch key => .unwatch p tag key
  | .notes maxCount => .notes p tag maxCount
  | .reclaim => .reclaim p tag
  | .format => .format p tag

/-- The PUT or DELETE that carries a write operation (R22, R25). -/
def writeCommand (p : Port) (tag : Byte) (op : WriteOp) : Instr :=
  match op.kind with
  | .put attrs payload => .put p tag op.key op.expected attrs payload
  | .delete => .delete p tag op.key op.expected

/-- The commands that change the array: the ends of programs and erases, and a reset that interrupts one (R43 to R46). -/
def changesArray : Instr → Bool
  | .programComplete _ | .programTimeout _ | .eraseComplete _ | .eraseTimeout _ | .resetAssert _ _ => true
  | .identify _ _ | .storeInfo _ _ | .configure _ _ _ _ _ | .events _ _ _ | .get _ _ _ _ _ | .stat _ _ _
  | .list _ _ _ _ | .put _ _ _ _ _ _ | .delete _ _ _ _ | .beginBatch _ _ | .commit _ _ | .abandon _ _ | .watch _ _ _
  | .unwatch _ _ _ | .notes _ _ _ | .reclaim _ _ | .format _ _ | .requestFrameEnd _ _ | .readStart _ | .readFinish _
  | .engineGrant | .engineOpStart | .stepReadComplete | .resetEnd _ _ _ _ | .release _ | .selectFall _ _
  | .requestFrameSelectEnd _ _ | .fetchFrameEnd _ _ | .otherFrameEnd _ _ | .discardingEnd _ | .busStart _
  | .busStop _ | .addressByte _ | .stretchLimitExpiry | .selectByteComplete _ _ | .twoWireRequestByte _
  | .readByteAcknowledge _ | .releaseInputHigh _ => false

/-- The commands of reset itself (R180). -/
def isReset : Instr → Bool
  | .resetAssert _ _ | .resetEnd _ _ _ _ => true
  | .identify _ _ | .storeInfo _ _ | .configure _ _ _ _ _ | .events _ _ _ | .get _ _ _ _ _ | .stat _ _ _
  | .list _ _ _ _ | .put _ _ _ _ _ _ | .delete _ _ _ _ | .beginBatch _ _ | .commit _ _ | .abandon _ _ | .watch _ _ _
  | .unwatch _ _ _ | .notes _ _ _ | .reclaim _ _ | .format _ _ | .requestFrameEnd _ _ | .readStart _ | .readFinish _
  | .engineGrant | .engineOpStart | .programComplete _ | .programTimeout _ | .eraseComplete _ | .eraseTimeout _
  | .stepReadComplete | .release _ | .selectFall _ _ | .requestFrameSelectEnd _ _ | .fetchFrameEnd _ _
  | .otherFrameEnd _ _ | .discardingEnd _ | .busStart _ | .busStop _ | .addressByte _ | .stretchLimitExpiry
  | .selectByteComplete _ _ | .twoWireRequestByte _ | .readByteAcknowledge _ | .releaseInputHigh _ => false

/-! ## Words about the arbiter and the space manager -/

/-- A requester's place in the ring: job 0, job 1, job 2, reclaim (R52). -/
def ringPlace : Requester → Nat
  | .job p => p.num
  | .reclaim => 3

/-- How many requesters stand before r in a pass of the ring that starts after the last granted (R52). -/
def ringWait (last r : Requester) : Nat := (ringPlace r + 7 - ringPlace last) % 4

/-- A FULL or OLDGEN sector with stale bytes above 0 (R74, R75). -/
def reclaimable (b : Block) (x : Sector) : Prop :=
  ((row b x).state = .full ∨ (row b x).state = .oldgen) ∧ 0 < staleBytes b x

/-- x goes before y as a victim: more stale bytes, then the lower erase count, then the lower index (R75). -/
def victimBefore (b : Block) (x y : Sector) : Prop :=
  staleBytes b y < staleBytes b x ∨
    (staleBytes b x = staleBytes b y ∧
      ((countOf b x).toNat < (countOf b y).toNat ∨ (countOf b x = countOf b y ∧ x ≤ y)))

/-- The victim of R75. -/
def isVictim (b : Block) (x : Sector) : Prop := reclaimable b x ∧ ∀ y, reclaimable b y → victimBefore b x y

/-- x goes before y as the sector to open: the lower erase count, then the lower index (R67). -/
def openBefore (b : Block) (x y : Sector) : Prop :=
  (countOf b x).toNat < (countOf b y).toNat ∨ (countOf b x = countOf b y ∧ x ≤ y)

/-- y is the sector to open: ERASED, and before every ERASED sector (R67). -/
def isOpenChoice (b : Block) (y : Sector) : Prop :=
  (row b y).state = .erased ∧ ∀ z, (row b z).state = .erased → openBefore b y z

/-! ## Words about a running job -/

/-- The programs of a job before its commit point: the placing of its members, its single entry and its end marker, and what a failed
attempt makes (R34 to R37, R69). -/
def beforeCommit : JobWork → Bool
  | .place (.member _) _ _ | .place .endMarker _ _ | .failClose _ | .restartOpen _ _ | .successor _ _ _ _ => true
  | .place (.settleCopy _ _) _ _ | .settle _ | .settleClose _ _ _ | .formatRead _ _ | .formatWithdraw _ _ | .formatPins _
  | .formatErase _ _ | .formatRetire _ _ | .formatOpen _ _ _ => false

/-! ## Words about a completion -/

/-- d is the slot that an operation of port p's job leaves, its entry at `loc`, where `old` is the slot of its key if that was LIVE or
DAMAGED: the table of R14, with the attributes of R2 and R4, and those of R6 for a system key. -/
def isSwitched (p : Port) (op : WriteOp) (loc : Loc) (seq : Seq) (old : Option DirSlot) (d : DirSlot) : Prop :=
  d.key = op.key ∧ d.sector = loc.sector ∧ d.offset = loc.offset ∧ d.seq = seq ∧
    match op.kind with
    | .put attrs payload =>
      d.state = .live ∧ d.length = payload.length ∧
        if isSystemKey op.key = true then d.owner = none ∧ d.readSet = 7 ∧ d.writeSet = 0 ∧ d.writeOnce = false
        else
          (d.owner = match old with
            | some e => e.owner
            | none => some p) ∧
            match attrs, old with
            | some a, _ =>
              d.readSet = a.readSet ||| ownerBit d.owner ∧ d.writeSet = a.writeSet ||| ownerBit d.owner ∧
                d.writeOnce = a.writeOnce
            | none, some e => d.readSet = e.readSet ∧ d.writeSet = e.writeSet ∧ d.writeOnce = e.writeOnce
            | none, none => d.readSet = 7 ∧ d.writeSet = portBit p ∧ d.writeOnce = false
    | .delete =>
      d.state = .tombstone ∧ d.length = 0 ∧ d.writeOnce = false ∧
        ∃ e, old = some e ∧ d.owner = e.owner ∧ d.readSet = e.readSet ∧ d.writeSet = e.writeSet

/-- The policy after the completion of an operation: a put system record is adopted, a deleted one gives the defaults back (R167, R168,
R170, R171). -/
def policyAfter (y : Policy) (op : WriteOp) : Policy :=
  let quota :=
    match op.kind with
    | .put _ payload => (word32At payload 0).toNat
    | .delete => 0
  if op.key = 0xFF00 then
    match op.kind with
    | .put _ payload => { y with trigger := (byteAt payload 0).toNat, lowSpace := (word32At payload 1).toNat }
    | .delete => { y with trigger := 3, lowSpace := 8128 }
  else if op.key = 0xFF01 then { y with quotas := { y.quotas with p0 := quota } }
  else if op.key = 0xFF02 then { y with quotas := { y.quotas with p1 := quota } }
  else if op.key = 0xFF03 then { y with quotas := { y.quotas with p2 := quota } }
  else y

/-- The note of an operation of port p's job for a port that may read the key, or may not (R135). -/
def noteOf (p : Port) (seq : Seq) (op : WriteOp) (readable : Bool) : Note :=
  if readable then
    { key := op.key, seq := seq, kind := if opIsPut op then .written else .deleted, byPort := some p, merged := 0 }
  else { key := op.key, seq := 0, kind := .withdrawn, byPort := some p, merged := 0 }

/-- Port q's registers after the notes of these operations of port p's job, `dir` being the directory after the switch: one for each
operation whose key q watches, in their order, and none for the requesting port (R135). -/
def notified (p : Port) (seq : Seq) (dir : List DirSlot) (ops : List WriteOp) (q : Port) (r : PortState) : PortState :=
  if q = p then r
  else
    ops.foldl
      (fun r op => if op.key ∈ r.watches then postNote (noteOf p seq op ((dirFind op.key dir).any (mayRead q))) r else r) r

/-! ## The table of the take-time checks -/

/-- The write is permitted to port p as R12 defines it. -/
def permitted (b : Block) (p : Port) (op : WriteOp) : Bool :=
  isSystemKey op.key ||
    match presentSlot op.key b.dir with
    | none => true
    | some d => inSet p d.writeSet && (!opIsPut op || d.owner == some p || op.kind == .put none (opPayload op))

/-- The projected usage of port q after a job of the one operation op of port p (R18, R172). -/
def projected (b : Block) (p q : Port) (op : WriteOp) : Nat :=
  if isSystemKey op.key then b.usage.get q
  else
    match presentSlot op.key b.dir with
    | none => b.usage.get q + if q = p ∧ opIsPut op then opBytes op else 0
    | some d => if d.owner = some q then b.usage.get q + opBytes op - d.length else b.usage.get q

/-- The job-wide quota check fails for port q (R18, R172). -/
def quotaFails (b : Block) (p q : Port) (op : WriteOp) : Bool :=
  b.policy.quotas.get q != 0 && b.usage.get q < projected b p q op && b.policy.quotas.get q < projected b p q op

/-- The need of a job of one operation (R30, R71). -/
def needOf (b : Block) (op : WriteOp) : Nat :=
  footprint (opBytes op) + if footprint (opBytes op) ≤ headRemainder b then 0 else 1044

/-- The checks of R28 for a job of one operation, in their order: when each fails, its status and its index. -/
def checkTable (b : Block) (p : Port) (op : WriteOp) : List (Bool × Status × Byte) :=
  [ (b.storeState != .ready, .state, 0xFF)
  , (0xFFFFFF00 ≤ b.storeSeq.toNat + 1, .seqLimit, 0xFF)
  , (!isKey op.key, .badKey, 0)
  , (isSystemKey op.key && b.admin != some p, .notAdmin, 0)
  , (isSystemKey op.key && opIsPut op && !systemValueOk op.key (opPayload op), .badValue, 0)
  , (!permitted b p op, .denied, 0)
  , (((presentSlot op.key b.dir).map (·.writeOnce)) == some true, .writeOnce, 0)
  , (op.expected != none && op.expected != some (((presentSlot op.key b.dir).map (·.seq)).getD 0), .conflict, 0)
  , (!opIsPut op && presentSlot op.key b.dir == none, .notFound, 0)
  , (512 < b.dir.length + (if opIsPut op && dirFind op.key b.dir == none then 1 else 0), .dirFull, 0xFF)
  , (quotaFails b p .p0 op || quotaFails b p .p1 op || quotaFails b p .p2 op, .quota, 0xFF)
  , (freeBytes b + reclaimableBytes b < needOf b op, .full, 0xFF) ]

end Sys2Proof.Safety
end

