-- ==== Sys2Proof/Certificates/Slice0/Obligations.lean ====
section
/-! DEFINITION. The statements about the JV-418. -/

open Sys2Proof Sys2Proof.Machine Sys2Proof.Safety

/-! ## The whole machine -/

/-- A step runs the command at the front of the queue on the state with the rest of the queue (98, the queue is the model's). -/
def Obligations.StepRunsTheFrontCommand : Prop :=
  ∀ (i : Instr) (rest : List Instr) (s : State), s.pending = i :: rest → step s = exec i { s with pending := rest }

/-- The model's choice (log 4): a step on an empty queue lets one millisecond pass. Only the elapsed time of a program, step read or
erase in ERASING (R46, R47) and the stretch time (R161) move, each up to its limit. -/
def Obligations.EmptyQueueLetsOneMillisecondPass : Prop :=
  ∀ s : State, s.pending = [] →
    (s.block.inReset = true → step s = .next s) ∧
      (s.block.inReset = false →
        step s = .next (onBlock s fun b =>
          { b with
              engine :=
                match b.engine with
                | .idle => .idle
                | .programming op t => .programming op (min (t + 1) 3)
                | .erasing op t n => .erasing op (min (t + 1) 300) n
                | .eraseSuspended op t n => .eraseSuspended op t n
              wire :=
                if b.wire.state = .stretching then
                  { b.wire with stretchTime := min (b.wire.stretchTime + 1) (b.ports.get .p2).stretchLimit.toNat }
                else b.wire }))

/-- While the part is in reset, every command but those of reset itself changes nothing (R180). -/
def Obligations.NothingHappensInReset : Prop :=
  ∀ (i : Instr) (s : State), s.block.inReset = true → isReset i = false → exec i s = .next s

/-- A next state has the queue it was given; its array differs only after the end of a program or erase, or after a reset that
interrupted one (R43 to R46). -/
def Obligations.FewCommandsChangeTheArray : Prop :=
  ∀ (i : Instr) (s t : State), exec i s = .next t →
    t.pending = s.pending ∧ (changesArray i = false → ∀ a, readByte t.array a = readByte s.array a)

/-- The frame of the requests. A request touches the registers of no port but its own; a GET may change the read path and suspend an
erase; a RECLAIM may start a cycle. Everything else in the part is as before (R110 to R115). -/
def Obligations.RequestsLeaveTheStore : Prop :=
  ∀ (p : Port) (tag : Byte) (r : Request) (s t : State), exec (command p tag r) s = .next t →
    t.array = s.array ∧ (∀ q, q ≠ p → t.block.ports.get q = s.block.ports.get q) ∧ t.block.dir = s.block.dir ∧
      t.block.usage = s.block.usage ∧
      t.block.storeSeq = s.block.storeSeq ∧ t.block.policy = s.block.policy ∧
      t.block.storeState = s.block.storeState ∧ t.block.generation = s.block.generation ∧
      t.block.admin = s.block.admin ∧ t.block.corruptCount = s.block.corruptCount ∧
      t.block.retryCount = s.block.retryCount ∧ t.block.holder = s.block.holder ∧ t.block.issued = s.block.issued ∧
      t.block.lastGranted = s.block.lastGranted ∧ t.block.spaceLow = s.block.spaceLow ∧
      t.block.select = s.block.select ∧ t.block.wire = s.block.wire ∧ t.block.inReset = s.block.inReset ∧
      t.block.addrStraps = s.block.addrStraps ∧ t.block.mount = s.block.mount ∧
      ((∀ key offset maxLength, r ≠ .get key offset maxLength) →
        t.block.banks = s.block.banks ∧ t.block.engine = s.block.engine) ∧
      (r ≠ .reclaim →
        t.block.sectors = s.block.sectors ∧ t.block.cycle = s.block.cycle ∧ t.block.reclaimFlag = s.block.reclaimFlag)

/-! ## Requests and the slot -/

/-- What keeps a request from its take: a WORKING slot discards it, and a frame of 1 to 1046 bytes, with REFUSED raised and nothing else
changed (R110); while the store is MOUNTING every request but IDENTIFY that is taken is answered STATE with an empty body (R111, check
4). -/
def Obligations.SlotAndMountGateRequests : Prop :=
  ∀ (p : Port) (tag : Byte) (r : Request) (frame : List Byte) (i : Instr) (s : State),
    (i = command p tag r ∨ (i = .requestFrameEnd p frame ∧ frame ≠ [] ∧ frame.length ≤ 1046) →
        s.block.inReset = false → slotWorking (s.block.ports.get p).slot = true →
        exec i s = .next (onPort s p fun q => { q with sticky := q.sticky ||| 0x0010 })) ∧
      (r ≠ .identify → canTake s p → s.block.storeState = .mounting →
        exec (command p tag r) s = .next (onPort (atTake s p) p (responded tag .state [])))

/-- The common checks of a frame that spells no request (R111): too short, or of another length than it says, MALFORMED; a wrong
CRC-16, MALFORMED; an unknown code, UNKNOWN, in every store state; a known code but that of IDENTIFY while the store is MOUNTING, STATE;
parameters without the structure of the code, MALFORMED, for IDENTIFY in every store state. The body is empty, and the tag is byte 1,
00h in a frame of one byte. -/
def Obligations.BadFramesAreAnsweredInOrder : Prop :=
  ∀ (p : Port) (frame : List Byte) (s : State), canTake s p → frame ≠ [] → frame.length ≤ 1046 →
    let answer := fun st => Host.Outcome.next (onPort (atTake s p) p (responded (frame.getD 1 0) st []))
    let n := (word16 (frame.getD 2 0) (frame.getD 3 0)).toNat
    let checked := frame.take (frame.length - 2)
    let sent := word16 (frame.getD (frame.length - 2) 0) (frame.getD (frame.length - 1) 0)
    let known := [0x01, 0x02, 0x03, 0x04, 0x10, 0x11, 0x12, 0x20, 0x21, 0x22, 0x23, 0x24, 0x30, 0x31, 0x32, 0x40, 0x41]
    (frame.length < 6 ∨ frame.length ≠ 6 + n → exec (.requestFrameEnd p frame) s = answer .malformed) ∧
      (6 ≤ frame.length ∧ frame.length = 6 + n →
        (crc16 checked ≠ sent → exec (.requestFrameEnd p frame) s = answer .malformed) ∧
          (crc16 checked = sent →
            (frame.getD 0 0 ∉ known → exec (.requestFrameEnd p frame) s = answer .unknown) ∧
              (frame.getD 0 0 ∈ known → frame.getD 0 0 ≠ 0x01 → s.block.storeState = .mounting →
                exec (.requestFrameEnd p frame) s = answer .state) ∧
              (frame.getD 0 0 ∈ known → frame.getD 0 0 = 0x01 ∨ mounted s →
                Decode.parse (frame.getD 0 0) ((frame.drop 4).take n) = none →
                exec (.requestFrameEnd p frame) s = answer .malformed)))

/-- A request frame spells its request: for every request that fits a frame, the frame that carries it with a tag passes the common
checks and gives that request and that tag back, and no bit of it is lost (R111, R112, R174). -/
def Obligations.EncodedRequestsDecode : Prop :=
  ∀ (tag : Byte) (r : Request), r.wf = true →
    Decode.commonChecks false (Decode.encode tag r) = .request r ∧ Decode.frameTag (Decode.encode tag r) = tag ∧
      6 ≤ (Decode.encode tag r).length ∧ (Decode.encode tag r).length ≤ 1046

/-- A frame does what its request does: the end of the frame that carries a request has the same effect as the request's own command, in
every state of the part (R110 to R115). -/
def Obligations.FramesActAsTheirRequests : Prop :=
  ∀ (p : Port) (tag : Byte) (r : Request) (s : State), r.wf = true →
    ∃ t, exec (.requestFrameEnd p (Decode.encode tag r)) s = .next t ∧ exec (command p tag r) s = .next t

/-! ## The immediate requests -/

/-- IDENTIFY is answered OK in every store state with the 29 bytes of R119. -/
def Obligations.IdentifyAnswersTheDescription : Prop :=
  ∀ (p : Port) (tag : Byte) (s : State), canTake s p →
    exec (.identify p tag) s =
      .next (onPort (atTake s p) p (responded tag .ok
        [0x2D, 0x47, 0x04, 0x18, 0x01, BitVec.ofNat 8 p.num, 0x00, 0x04, 0x00, 0x00, 0x10, 0x00, 0x40, 0x02, 0x0F, 0xE0,
          0x04, 0x00, 0x02, 0x00, 0x08, 0x08, 0x00, 0x08, 0x10, 0x04, 0x10, 0x04, 0x16]))

/-- STORE_INFO is answered OK with the fields of R120 in their order, 63 bytes. -/
def Obligations.StoreInfoAnswersTheFields : Prop :=
  ∀ (p : Port) (tag : Byte) (s : State), canTake s p → mounted s →
    let b := s.block
    let count := fun st => BitVec.ofNat 8 (countState b st)
    let storeByte : Byte :=
      match b.storeState with
      | .mounting => 0
      | .ready => 1
      | .readOnly => 2
      | .unformatted => 3
      | .formatting => 4
    let adminByte : Byte :=
      match b.admin with
      | some .p0 => 0
      | some .p1 => 1
      | some .p2 => 2
      | none => 3
    let cycleByte : Byte :=
      match b.cycle with
      | .idle => 0
      | .marking _ => 1
      | .copying _ _ => 2
      | .erasing _ => 3
    let body :=
      [storeByte] ++ be16 b.generation ++ [adminByte] ++ be32 b.storeSeq ++
        [count .erased, count .active, count .full, count .source, count .oldgen, count .unclean, count .retired] ++
        be32Nat (freeBytes b) ++ be32Nat (reclaimableBytes b) ++ be16Nat b.dir.length ++
        [cycleByte, BitVec.ofNat 8 b.policy.trigger] ++ be32Nat b.policy.lowSpace ++
        be32Nat b.usage.p0 ++ be32Nat b.policy.quotas.p0 ++ be32Nat b.usage.p1 ++ be32Nat b.policy.quotas.p1 ++
        be32Nat b.usage.p2 ++ be32Nat b.policy.quotas.p2 ++ be32 b.corruptCount ++ be32 b.retryCount
    body.length = 63 ∧ exec (.storeInfo p tag) s = .next (onPort (atTake s p) p (responded tag .ok body))

/-- CONFIGURE replaces the mask, the release enable and, on port 2, the stretch limit, and answers what the port then holds; a release
enable above 01h is answered BAD_VALUE and changes nothing else (R114, R121). -/
def Obligations.ConfigureSetsThreeValues : Prop :=
  ∀ (p : Port) (tag : Byte) (mask : BitVec 16) (rel stretch : Byte) (s : State), canTake s p → mounted s →
    let limit := if p = .p2 then stretch else 0
    (rel = 0 ∨ rel = 1 →
        exec (.configure p tag mask rel stretch) s =
          .next (onPort (atTake s p) p fun q =>
            responded tag .ok (be16 (mask &&& 0x03FF) ++ [rel, limit])
              { q with mask := mask &&& 0x03FF, releaseEnable := rel == 1, stretchLimit := limit })) ∧
      (rel ≠ 0 ∧ rel ≠ 1 →
        exec (.configure p tag mask rel stretch) s = .next (onPort (atTake s p) p (responded tag .badValue [])))

/-- EVENTS answers a copy of the port's cause set, taken from the EMPTY slot with RESP therefore out of it, and clears the sticky causes
named in the clear mask; NOTE, a level cause, and the causes not named stay (R138, R139, R143). -/
def Obligations.EventsCopiesThenClears : Prop :=
  ∀ (p : Port) (tag : Byte) (clear : BitVec 16) (s : State), canTake s p → mounted s →
    let before := (atTake s p).block.ports.get p
    let copy := before.sticky ||| (if before.notes.isEmpty then 0 else 0x0002)
    exec (.events p tag clear) s =
      .next (onPort (atTake s p) p fun q =>
        responded tag .ok (be16 copy) { q with sticky := q.sticky &&& ~~~clear })

/-- STAT answers by the key and its slot: BAD_KEY, NOT_FOUND for a key with no present record, DENIED for a record that the port may not
read, else OK with the 11 bytes of R122; STATE while FORMATTING (R11, R113, R122). -/
def Obligations.StatAnswersFromTheDirectory : Prop :=
  ∀ (p : Port) (tag : Byte) (key : Key) (s : State), canTake s p →
    let answer := fun st body => Host.Outcome.next (onPort (atTake s p) p (responded tag st body))
    (s.block.storeState = .formatting → exec (.stat p tag key) s = answer .state []) ∧
      (readable s →
        (isKey key = false → exec (.stat p tag key) s = answer .badKey []) ∧
          (isKey key = true →
            match presentSlot key s.block.dir with
            | none => exec (.stat p tag key) s = answer .notFound []
            | some d =>
              if inSet p d.readSet || isSystemKey d.key then
                exec (.stat p tag key) s =
                  answer .ok
                    ([if d.state = .live then 1 else 2] ++ be16Nat d.length ++ be32 d.seq ++
                      [portCode d.owner, portSetByte d.readSet, portSetByte d.writeSet, boolByte d.writeOnce])
              else exec (.stat p tag key) s = answer .denied []))

/-- LIST answers the first max count slots, in directory order, that are present, readable by the port and above the after-key, 10 bytes
for each after their count; BAD_VALUE for a max count that is not 1 to 32; STATE while FORMATTING (R13, R114, R123). -/
def Obligations.ListAnswersTheWalk : Prop :=
  ∀ (p : Port) (tag : Byte) (afterKey : Key) (maxCount : Byte) (s : State), canTake s p →
    let answer := fun st body => Host.Outcome.next (onPort (atTake s p) p (responded tag st body))
    let shown := fun d : DirSlot =>
      decide (afterKey < d.key) && d.state != .tombstone && (inSet p d.readSet || isSystemKey d.key)
    let items := (s.block.dir.filter shown).take maxCount.toNat
    let item := fun d : DirSlot =>
      be16 d.key ++ be16Nat d.length ++ be32 d.seq ++ [portCode d.owner, if d.state = .live then 1 else 2]
    (s.block.storeState = .formatting → exec (.list p tag afterKey maxCount) s = answer .state []) ∧
      (readable s →
        (maxCount.toNat < 1 ∨ 32 < maxCount.toNat → exec (.list p tag afterKey maxCount) s = answer .badValue []) ∧
          (1 ≤ maxCount.toNat ∧ maxCount.toNat ≤ 32 →
            exec (.list p tag afterKey maxCount) s =
              answer .ok (BitVec.ofNat 8 items.length :: (items.map item).flatten)))

/-! ## GET and the read path -/

/-- GET is answered without the array when the key is out of range, absent, not readable, damaged, or shorter than the offset; STATE
while FORMATTING (R113, R124). -/
def Obligations.GetAnswersWithoutTheArray : Prop :=
  ∀ (p : Port) (tag : Byte) (key : Key) (offset maxLength : BitVec 16) (s : State), canTake s p →
    let run := exec (.get p tag key offset maxLength) s
    let answer := fun st => Host.Outcome.next (onPort (atTake s p) p (responded tag st []))
    (s.block.storeState = .formatting → run = answer .state) ∧
      (readable s →
        (isKey key = false → run = answer .badKey) ∧
          (isKey key = true → presentSlot key s.block.dir = none → run = answer .notFound) ∧
          ∀ d, isKey key = true → presentSlot key s.block.dir = some d →
            (mayRead p d = false → run = answer .denied) ∧
              (mayRead p d = true → d.state = .damaged → run = answer .corrupt) ∧
              (mayRead p d = true → d.state = .live → d.length < offset.toNat → run = answer .tooLong))

/-- A GET of a readable LIVE record with an offset within its length creates a read (R55, R57, R59, R124): the slot is WORKING; an erase
in ERASING in the read's bank is suspended while its suspend count is below 16; the read starts when its bank's read port is free, no
read waits there and the engine does not occupy the bank, and joins the bank's queue otherwise. That a read which waits there keeps the
new one from starting at once is the model's choice (log 29): R57 names only the read port and the bank. -/
def Obligations.GetCreatesARead : Prop :=
  ∀ (p : Port) (tag : Byte) (key : Key) (offset maxLength : BitVec 16) (d : DirSlot) (s : State), canTake s p →
    readable s → isKey key = true → presentSlot key s.block.dir = some d → d.state = .live → mayRead p d = true →
    offset.toNat ≤ d.length →
    let k := bankOf d.sector
    let r : Read :=
      { port := p, orphan := false, key := key, seq := d.seq, sector := d.sector, offset := d.offset, length := d.length
        getOffset := offset.toNat, maxLength := maxLength.toNat }
    let engine' :=
      match s.block.engine with
      | .erasing op t n => if bankOf op.sector = k ∧ n < 16 then EngineState.eraseSuspended op t n else .erasing op t n
      | e => e
    let path := s.block.banks.get k
    let path' : ReadPath :=
      if path.current = none ∧ path.queue = [] ∧ occupied engine' ≠ some k then { path with current := some r }
      else { path with queue := path.queue ++ [r] }
    exec (.get p tag key offset maxLength) s =
      .next (onBlock (onPort (atTake s p) p fun q => { q with slot := .working tag .read }) fun b =>
        { b with engine := engine', banks := b.banks.set k path' })

/-- READ_START: the oldest waiting read of the bank starts when its read port is free and the bank is not occupied; otherwise nothing
happens (log 3); a read that would leave its sector, which no rule creates, is the model's fault (R57; log 23). -/
def Obligations.ReadStartTakesTheOldest : Prop :=
  ∀ (k : Bank) (s : State), s.block.inReset = false →
    let path := s.block.banks.get k
    (path.queue = [] ∨ path.current ≠ none ∨ occupied s.block.engine = some k → exec (.readStart k) s = .next s) ∧
      ∀ r rest, path.queue = r :: rest → path.current = none → occupied s.block.engine ≠ some k →
        (r.offset + footprint r.length ≤ 4096 →
            exec (.readStart k) s =
              .next (onBlock s fun b => { b with banks := b.banks.set k { current := some r, queue := rest } })) ∧
          (4096 < r.offset + footprint r.length → exec (.readStart k) s = .fault .outsideSector)

/-- READ_FINISH of a good read (R60, R61, R125): the read port is free, the queue as it was, no cause is raised, and directory and usage
change only where a FORMAT waited for this pin (R105). When its port waits for it, the slot is ANSWERED with OK, the sequence and length
of the lookup and the bytes from the offset, at most max length of them; the read of a port released since reaches no slot. -/
def Obligations.GoodReadAnswersTheGet : Prop :=
  ∀ (k : Bank) (r : Read) (s : State), s.block.inReset = false → (s.block.banks.get k).current = some r →
    readCheck r (readBytes s.array r) = true →
    ∃ t, exec (.readFinish k) s = .next t ∧
      (∀ tag, (s.block.ports.get r.port).slot = .working tag .read → r.orphan = false →
        (t.block.ports.get r.port).slot =
            .answered (response .ok tag (be32 r.seq ++ be16Nat r.length ++
              ((((readBytes s.array r).drop 16).take r.length).drop r.getOffset).take r.maxLength)) ∧
          (t.block.ports.get r.port).fetchProgress = 0) ∧
      (∀ q, q ≠ r.port ∨ r.orphan = true → (t.block.ports.get q).slot = (s.block.ports.get q).slot) ∧
      (∀ q, (t.block.ports.get q).sticky = (s.block.ports.get q).sticky) ∧
      (t.block.banks.get k).current = none ∧ (t.block.banks.get k).queue = (s.block.banks.get k).queue ∧
      ((∀ q w, s.block.holder ≠ .job q (.formatPins w)) →
        t.block.dir = s.block.dir ∧ t.block.usage = s.block.usage) ∧
      t.array = s.array

/-- READ_FINISH of a read that fails its check while the store is not MOUNTING (R17, R60, R61, R125, R136, R141), the read of a port that
was released since included: FAULT is raised in all three ports, the count of corrupt entries grows, the read port is free; a slot that
is LIVE and still names the read's entry becomes DAMAGED with its other fields kept, and DAMAGED is posted to every port that watches
the key and may read the record; any other slot and queue stays, unless a FORMAT waited for this pin. The port that waits for the read
is answered CORRUPT; the read of a port released since reaches no request slot. -/
def Obligations.DamagedReadMarksTheSlot : Prop :=
  ∀ (k : Bank) (r : Read) (s : State), s.block.inReset = false → (s.block.banks.get k).current = some r →
    readCheck r (readBytes s.array r) = false → mounted s → dirSorted s.block.dir = true →
    (∀ q w, s.block.holder ≠ .job q (.formatPins w)) →
    let hit := fun d : DirSlot =>
      d.state = .live ∧ d.seq = r.seq ∧ d.sector = r.sector ∧ d.offset = r.offset
    let note : Note := { key := r.key, seq := r.seq, kind := .damaged, byPort := none, merged := 0 }
    ∃ t, exec (.readFinish k) s = .next t ∧
      (∀ tag, (s.block.ports.get r.port).slot = .working tag .read → r.orphan = false →
        (t.block.ports.get r.port).slot = .answered (response .corrupt tag [])) ∧
      (∀ q, q ≠ r.port ∨ r.orphan = true → (t.block.ports.get q).slot = (s.block.ports.get q).slot) ∧
      (∀ q, (t.block.ports.get q).sticky &&& 0x0080 = 0x0080) ∧
      t.block.corruptCount = (if s.block.corruptCount = 0xFFFFFFFF then 0xFFFFFFFF else s.block.corruptCount + 1) ∧
      (t.block.banks.get k).current = none ∧ t.block.usage = s.block.usage ∧
      (∀ key,
        dirFind key t.block.dir =
          (dirFind key s.block.dir).map fun d => if key = r.key ∧ hit d then { d with state := .damaged } else d) ∧
      ∀ q,
        ((∃ d, dirFind r.key s.block.dir = some d ∧ hit d ∧ mayRead q d = true) ∧
            r.key ∈ (s.block.ports.get q).watches →
          (t.block.ports.get q).notes = (postNote note (s.block.ports.get q)).notes) ∧
        (¬((∃ d, dirFind r.key s.block.dir = some d ∧ hit d ∧ mayRead q d = true) ∧
            r.key ∈ (s.block.ports.get q).watches) →
          (t.block.ports.get q).notes = (s.block.ports.get q).notes)

/-! ## Write requests -/

/-- PUT and DELETE in an OPEN context are staged, after the checks of R22 in their order, whatever the store state but MOUNTING; the
operation goes to the end of the list, and an earlier one for its key is removed (R22, R23). -/
def Obligations.OpenBatchStagesWrites : Prop :=
  ∀ (p : Port) (tag : Byte) (op : WriteOp) (ops : List WriteOp) (s : State), canTake s p → mounted s →
    (s.block.ports.get p).batch = .opened ops →
    let list := ops.filter (fun o => o.key != op.key) ++ [op]
    let run := exec (writeCommand p tag op) s
    let answer := fun st f =>
      Host.Outcome.next (onPort (atTake s p) p fun q => responded tag st (seqIndex 0 0xFF) (f q))
    (isKey op.key = false → run = answer .badKey id) ∧
      (isKey op.key = true → 1024 < opBytes op → run = answer .tooLong id) ∧
      (isKey op.key = true → opBytes op ≤ 1024 → 8 < list.length ∨ 2048 < (list.map opBytes).sum →
        run = answer .batchFull id) ∧
      (isKey op.key = true → opBytes op ≤ 1024 → list.length ≤ 8 → (list.map opBytes).sum ≤ 2048 →
        run = answer .ok fun q => { q with batch := .opened list })

/-- A PUT or DELETE in a CLOSED context is a single operation (R25, R26): TOO_LONG above 1024 bytes in every store state; STATE outside READY;
in READY a QUEUED job of that operation, the slot WORKING; held, the slot WORKING, while the port still has a job, which is then
detached. -/
def Obligations.SingleWritesCreateAJob : Prop :=
  ∀ (p : Port) (tag : Byte) (op : WriteOp) (s : State), canTake s p → mounted s →
    (s.block.ports.get p).batch = .closed →
    let run := exec (writeCommand p tag op) s
    let refuse := fun st => Host.Outcome.next (onPort (atTake s p) p (responded tag st (seqIndex 0 0xFF)))
    (1024 < opBytes op → run = refuse .tooLong) ∧
      (opBytes op ≤ 1024 → s.block.storeState ≠ .ready → run = refuse .state) ∧
      (opBytes op ≤ 1024 → s.block.storeState = .ready →
        ((s.block.ports.get p).job = none →
            run = .next (onPort (atTake s p) p fun q =>
              { q with
                  slot := .working tag .job
                  job := some
                    { ops := [op], batch := false, format := false, state := .queued, attempt := 0, seq := none
                      detached := false, locs := [] } })) ∧
          ((s.block.ports.get p).job ≠ none →
            run = .next (onPort (atTake s p) p fun q => { q with slot := .working tag (.held (.write op)) })))

/-- COMMIT acts by the table of R24; held while the port still has a job, which is then detached (R26). -/
def Obligations.CommitActsByTheContext : Prop :=
  ∀ (p : Port) (tag : Byte) (s : State), canTake s p → mounted s →
    let run := exec (.commit p tag) s
    let answer := fun st f =>
      Host.Outcome.next (onPort (atTake s p) p fun q => responded tag st (seqIndex 0 0xFF) (f q))
    ((s.block.ports.get p).batch = .closed → run = answer .noBatch id) ∧
      ∀ ops, (s.block.ports.get p).batch = .opened ops →
        (s.block.storeState ≠ .ready → run = answer .state id) ∧
          (s.block.storeState = .ready → ops = [] → run = answer .ok fun q => { q with batch := .closed }) ∧
          (s.block.storeState = .ready → ops ≠ [] →
            ((s.block.ports.get p).job = none →
                run = .next (onPort (atTake s p) p fun q =>
                  { q with
                      slot := .working tag .job
                      batch := .committing
                      job := some
                        { ops := ops, batch := true, format := false, state := .queued, attempt := 0, seq := none
                          detached := false, locs := [] } })) ∧
              ((s.block.ports.get p).job ≠ none →
                run = .next (onPort (atTake s p) p fun q => { q with slot := .working tag (.held .commit) })))

/-- BEGIN and ABANDON (R20, R21): BEGIN opens a CLOSED context with an empty list and answers BATCH_OPEN in an OPEN one; ABANDON closes an
OPEN context, with its list, and answers NO_BATCH in a CLOSED one. -/
def Obligations.BeginAndAbandonMoveTheContext : Prop :=
  ∀ (p : Port) (tag : Byte) (s : State), canTake s p → mounted s →
    let answer := fun st f =>
      Host.Outcome.next (onPort (atTake s p) p fun q => responded tag st (seqIndex 0 0xFF) (f q))
    ((s.block.ports.get p).batch = .closed →
        exec (.beginBatch p tag) s = answer .ok (fun q => { q with batch := .opened [] }) ∧
          exec (.abandon p tag) s = answer .noBatch id) ∧
      ∀ ops, (s.block.ports.get p).batch = .opened ops →
        exec (.beginBatch p tag) s = answer .batchOpen id ∧
          exec (.abandon p tag) s = answer .ok fun q => { q with batch := .closed }

/-- FORMAT: NOT_ADMIN from a port that is not the administrator; from the administrator in READY, READ_ONLY and UNFORMATTED a QUEUED
FORMAT job, the batch context left as it is; held while the port still has a job (R26, R102). -/
def Obligations.FormatCreatesAJob : Prop :=
  ∀ (p : Port) (tag : Byte) (s : State), canTake s p → mounted s →
    let run := exec (.format p tag) s
    (s.block.admin ≠ some p →
        run = .next (onPort (atTake s p) p (responded tag .notAdmin (seqIndex 0 0xFF)))) ∧
      (s.block.admin = some p →
        ((s.block.ports.get p).job ≠ none →
            run = .next (onPort (atTake s p) p fun q => { q with slot := .working tag (.held .format) })) ∧
          ((s.block.ports.get p).job = none → s.block.storeState ≠ .formatting →
            run = .next (onPort (atTake s p) p fun q =>
              { q with
                  slot := .working tag .job
                  job := some
                    { ops := [], batch := false, format := true, state := .queued, attempt := 0, seq := none
                      detached := false, locs := [] } })))

/-! ## Watches, notes, RECLAIM -/

/-- WATCH: its checks in the order of R131; an OK answer gives the count of keys in the table after the request. -/
def Obligations.WatchAddsAKey : Prop :=
  ∀ (p : Port) (tag : Byte) (key : Key) (s : State), canTake s p → mounted s →
    let run := exec (.watch p tag key) s
    let table := (s.block.ports.get p).watches
    let refuse := fun st => Host.Outcome.next (onPort (atTake s p) p (responded tag st []))
    let hidden := ∃ d, presentSlot key s.block.dir = some d ∧ mayRead p d = false
    (isKey key = false → run = refuse .badKey) ∧
      (isKey key = true → hidden → run = refuse .denied) ∧
      (isKey key = true → ¬hidden → key ∈ table →
        run = .next (onPort (atTake s p) p (responded tag .ok [BitVec.ofNat 8 table.length]))) ∧
      (isKey key = true → ¬hidden → key ∉ table → 8 ≤ table.length → run = refuse .watchFull) ∧
      (isKey key = true → ¬hidden → key ∉ table → table.length < 8 →
        run = .next (onPort (atTake s p) p fun q =>
          responded tag .ok [BitVec.ofNat 8 (table.length + 1)] { q with watches := table ++ [key] }))

/-- UNWATCH: BAD_KEY out of range; NOT_FOUND for a key that is not in the table; otherwise the key is removed, the other keys and the
notes stay, and the answer gives the count of keys left (R132). -/
def Obligations.UnwatchRemovesAKey : Prop :=
  ∀ (p : Port) (tag : Byte) (key : Key) (s : State), canTake s p → mounted s →
    let run := exec (.unwatch p tag key) s
    let table := (s.block.ports.get p).watches
    let left := table.filter fun k => k != key
    (isKey key = false → run = .next (onPort (atTake s p) p (responded tag .badKey []))) ∧
      (isKey key = true → key ∉ table → run = .next (onPort (atTake s p) p (responded tag .notFound []))) ∧
      (isKey key = true → key ∈ table →
        run = .next (onPort (atTake s p) p fun q =>
          responded tag .ok [BitVec.ofNat 8 left.length] { q with watches := left }))

/-- NOTES returns the oldest notes, at most max count, 9 bytes for each after their count, and leaves the rest in their order; BAD_VALUE
for a max count that is not 1 to 16 (R114, R137). -/
def Obligations.NotesReturnsTheOldest : Prop :=
  ∀ (p : Port) (tag : Byte) (maxCount : Byte) (s : State), canTake s p → mounted s →
    let run := exec (.notes p tag maxCount) s
    let queue := (s.block.ports.get p).notes
    let given := queue.take maxCount.toNat
    let bytes := fun n : Note =>
      be16 n.key ++ be32 n.seq ++
        [match n.kind with
          | .written => 1
          | .deleted => 2
          | .withdrawn => 3
          | .damaged => 4,
          portCode n.byPort, BitVec.ofNat 8 n.merged]
    (maxCount.toNat < 1 ∨ 16 < maxCount.toNat →
        run = .next (onPort (atTake s p) p (responded tag .badValue []))) ∧
      (1 ≤ maxCount.toNat ∧ maxCount.toNat ≤ 16 →
        run = .next (onPort (atTake s p) p fun q =>
          responded tag .ok (BitVec.ofNat 8 given.length :: (given.map bytes).flatten)
            { q with notes := queue.drop maxCount.toNat }))

/-- A posting to a port's notification queue (R134): folded into the note of its key, which keeps its place; appended with merged count 0
when the key has none and fewer than 16 notes wait; dropped with NOTE_LOST otherwise. Nothing else of the port changes. -/
def Obligations.PostingFoldsAppendsOrDrops : Prop :=
  ∀ (n : Note) (q : PortState),
    ((∃ old ∈ q.notes, old.key = n.key) →
        postNote n q =
          { q with
              notes := q.notes.map fun old =>
                if old.key = n.key then
                  { key := n.key, seq := n.seq, kind := n.kind, byPort := n.byPort
                    merged := if old.merged < 255 then old.merged + 1 else old.merged }
                else old }) ∧
      ((∀ old ∈ q.notes, old.key ≠ n.key) → q.notes.length < 16 →
        postNote n q = { q with notes := q.notes ++ [{ n with merged := 0 }] }) ∧
      ((∀ old ∈ q.notes, old.key ≠ n.key) → 16 ≤ q.notes.length →
        postNote n q = { q with sticky := q.sticky ||| 0x0004 })

/-- RECLAIM answers by the table of R76: running, started with the victim of R75, nothing to do, or STATE outside READY. Where
an erase count is unknown, which R63 leaves in no mounted store, that the victim is chosen by the mean of the known ones is the model's
choice (log 26). -/
def Obligations.ReclaimAnswersByTheCycle : Prop :=
  ∀ (p : Port) (tag : Byte) (s : State), canTake s p → mounted s →
    let run := exec (.reclaim p tag) s
    let b := s.block
    (b.storeState ≠ .ready → run = .next (onPort (atTake s p) p (responded tag .state []))) ∧
      (b.storeState = .ready → b.cycle ≠ .idle →
        run = .next (onPort (atTake s p) p (responded tag .ok [0x02]))) ∧
      (b.storeState = .ready → b.cycle = .idle → (∀ x, ¬reclaimable b x) →
        run = .next (onPort (atTake s p) p (responded tag .ok [0x03]))) ∧
      (b.storeState = .ready → b.cycle = .idle → (∃ x, reclaimable b x) →
        ∃ x, isVictim b x ∧
          run = .next (onBlock (onPort (atTake s p) p (responded tag .ok [0x01])) fun c =>
            { setRow c x { row b x with state := .source } with cycle := .marking x, reclaimFlag := true }))

/-- The space-low condition (R72, R141), evaluated while the store is neither MOUNTING nor FORMATTING: it holds while the free bytes are
below the threshold; its onset raises LOW_SPACE in all three ports; its end clears no cause; with a threshold of 0 it does not hold. -/
def Obligations.SpaceLowFollowsTheFreeBytes : Prop :=
  ∀ b : Block, b.storeState ≠ .mounting → b.storeState ≠ .formatting →
    ((evalSpaceLow b).spaceLow = true ↔ freeBytes b < b.policy.lowSpace) ∧
      (∀ p,
        (evalSpaceLow b).ports.get p =
          if freeBytes b < b.policy.lowSpace ∧ b.spaceLow = false then
            { b.ports.get p with sticky := (b.ports.get p).sticky ||| 0x0100 }
          else b.ports.get p) ∧
      (b.policy.lowSpace = 0 → (evalSpaceLow b).spaceLow = false)

/-! ## The arbiter, the take and the engine -/

/-- ENGINE_GRANT: when the engine is free and a flag is up, reclaim is granted if its flag is up and a job waits for space; otherwise the
first requester in ring order after the last granted whose flag is up. The grant is recorded (R52). With no flag up, or while the
engine is held, nothing happens. -/
def Obligations.GrantFollowsTheRing : Prop :=
  ∀ s : State, s.block.inReset = false →
    (s.block.holder ≠ .free ∨ (∀ r, flagUp s.block r = false) → exec .engineGrant s = .next s) ∧
      (s.block.holder = .free → (∃ r, flagUp s.block r = true) →
        ∃ r t, exec .engineGrant s = .next t ∧ t.block.lastGranted = r ∧ flagUp s.block r = true ∧
          (s.block.reclaimFlag = true →
            (∃ p j, (s.block.ports.get p).job = some j ∧ j.state = .waitSpace) → r = .reclaim) ∧
          (s.block.reclaimFlag = false ∨
              (∀ p j, (s.block.ports.get p).job = some j → j.state ≠ .waitSpace) →
            ∀ r', flagUp s.block r' = true → ringWait s.block.lastGranted r ≤ ringWait s.block.lastGranted r'))

/-- The take-time checks of a job of one operation are those of the table of R28, in its order: the first that fails decides; when none
does, the job runs if its need fits the free bytes, and waits for space otherwise. -/
def Obligations.FirstFailingCheckDecides : Prop :=
  ∀ (b : Block) (p : Port) (op : WriteOp),
    takeChecks b p [op] =
      match (checkTable b p op).find? (·.1) with
      | some (_, st, index) => .refuse st index
      | none => if needOf b op ≤ freeBytes b then .run else .wait

/-- A job that fails a check at its take ends there (R27, R28, R40): its port is answered with the check's status, sequence 0 and the
index, it is removed, a batch is CLOSED, the engine is free again, and directory, usage, store sequence, policy and array are as they
were. -/
def Obligations.RefusedTakeChangesNothing : Prop :=
  ∀ (p : Port) (tag : Byte) (j : Job) (st : Status) (index : Byte) (s : State), s.block.inReset = false →
    s.block.holder = .free → grantee s.block = some (.job p) → (s.block.ports.get p).job = some j → j.format = false →
    j.detached = false → (s.block.ports.get p).slot = .working tag .job →
    takeChecks s.block p j.ops = .refuse st index →
    ∃ t, exec .engineGrant s = .next t ∧
      (t.block.ports.get p).slot = .answered (response st tag (seqIndex 0 index)) ∧
      (t.block.ports.get p).job = none ∧
      (t.block.ports.get p).batch = (if j.batch then .closed else (s.block.ports.get p).batch) ∧
      (∀ q, q ≠ p → t.block.ports.get q = s.block.ports.get q) ∧ t.block.holder = .free ∧ t.block.dir = s.block.dir ∧
      t.block.usage = s.block.usage ∧ t.block.storeSeq = s.block.storeSeq ∧ t.block.policy = s.block.policy ∧
      t.block.issued = s.block.issued ∧ t.array = s.array

/-- The take of a single PUT of an absent user key that passes every check and fits at the head (R2, R27, R31, R32, R33): the job runs with
attempt 1 and the next sequence, and the program of its entry's header is issued at the head: key, payload length, sequence, kind 01h,
the port as owner, read set of all ports and write set of the owner, flags and count 0, and the three marks at FFh (R178). -/
def Obligations.TakeStartsASinglePut : Prop :=
  ∀ (p : Port) (j : Job) (key : Key) (expected : Option Seq) (payload : List Byte) (x : Sector) (o : Nat) (s : State),
    s.block.inReset = false → s.block.holder = .free → grantee s.block = some (.job p) →
    (s.block.ports.get p).job = some j → j.format = false →
    j.ops = [{ key := key, expected := expected, kind := .put none payload }] → isUserKey key = true →
    presentSlot key s.block.dir = none → takeChecks s.block p j.ops = .run → head s.block = some (x, o) →
    footprint payload.length ≤ 4096 - o →
    s.block.wire.state ≠ .stretching →
    let seq := s.block.storeSeq + 1
    ∃ img, img.header =
        be16 key ++ be16Nat payload.length ++ be32 seq ++
          [0x01, BitVec.ofNat 8 p.num, (0x07 : Byte) ||| (0x10 <<< p.num), 0x00, 0x00] ∧
      exec .engineGrant s =
        .next (onBlock s fun b =>
          { modPort b p fun q =>
              { q with job := some { j with state := .running, attempt := 1, seq := some seq, locs := [] } } with
            lastGranted := .job p
            storeSeq := seq
            issued := some { kind := .program (img.header ++ [0xFF, 0xFF, 0xFF]), sector := x, offset := o }
            holder := .job p (.place (.member 0) img (.header x o)) })

/-- ENGINE_OP_START: an issued operation starts when the engine is IDLE, its bank is clear and, for an erase, its sector unpinned;
otherwise nothing happens; an operation whose run leaves its sector, which no rule issues, is the model's fault (R47, R48, R50; log 23). -/
def Obligations.IssuedOperationStartsWhenClear : Prop :=
  ∀ (op : EngineOp) (s : State), s.block.inReset = false → s.block.issued = some op →
    let path := s.block.banks.get (bankOf op.sector)
    let clear :=
      s.block.engine = .idle ∧ path.current = none ∧ path.queue = [] ∧
        (op.kind = .erase → pinCount s.block op.sector = 0)
    (¬clear → exec .engineOpStart s = .next s) ∧
      (clear → runInSector op = true →
        exec .engineOpStart s =
          .next (onBlock s fun b =>
            { b with
                issued := none
                engine := if op.kind = .erase then .erasing op 0 0 else .programming op 0 })) ∧
      (clear → runInSector op = false → exec .engineOpStart s = .fault .outsideSector)

/-- The bytes of a program (R43, R45, R46): PROGRAM_COMPLETE and PROGRAM_TIMEOUT leave each byte of the run at the AND of its old value and
the requested one, but for the bits that the command says did not take, and every other byte as it was. -/
def Obligations.ProgramAndsTheRun : Prop :=
  ∀ (i : Instr) (op : EngineOp) (elapsed : Nat) (bytes miss : List Byte) (s : State),
    i = .programComplete miss ∨ i = .programTimeout miss → s.block.inReset = false → Memory.wf s.array = true →
    s.block.engine = .programming op elapsed → op.kind = .program bytes → op.offset + bytes.length ≤ 4096 →
    ∃ t, exec i s = .next t ∧
      (∀ n, n < bytes.length →
        readByte t.array (address op.sector (op.offset + n)) =
          readByte s.array (address op.sector (op.offset + n)) &&& (bytes.getD n 0 ||| miss.getD n 0)) ∧
      ∀ a, a < address op.sector op.offset ∨ address op.sector op.offset + bytes.length ≤ a →
        readByte t.array a = readByte s.array a

/-- The bytes of an erase (R44, R45, R46): ERASE_COMPLETE and ERASE_TIMEOUT leave every byte outside the sector as it was, and with no
residue set every byte of the sector to FFh. -/
def Obligations.EraseSetsTheSector : Prop :=
  ∀ (i : Instr) (op : EngineOp) (elapsed suspends : Nat) (residue : List (Nat × Byte)) (s : State),
    i = .eraseComplete residue ∨ i = .eraseTimeout residue → s.block.inReset = false → Memory.wf s.array = true →
    s.block.engine = .erasing op elapsed suspends →
    ∃ t, exec i s = .next t ∧
      (∀ a, a < address op.sector 0 ∨ address op.sector 4096 ≤ a → readByte t.array a = readByte s.array a) ∧
      (residue = [] → ∀ a, address op.sector 0 ≤ a → a < address op.sector 4096 → readByte t.array a = 0xFF)

/-- The completion of a single PUT or DELETE (R14, R34, R39): when its complete mark has read back set, the key's slot is what R14 gives
with the attributes of R2, R4 and R6, at the entry's place with the job's sequence; every other slot is as before; each port's usage
gains the new length if it owns the slot and loses the old length if it owned the record (R18); every port but the requesting one that
watches the key gets the note of R135, and no other note is posted; the policy takes a put system record and gives back the defaults of
a deleted one (R170, R171); the port is answered OK with the sequence and index FFh; the job is gone and the engine free. -/
def Obligations.CompleteMarkCommitsASingleWrite : Prop :=
  ∀ (p : Port) (tag : Byte) (j : Job) (op : WriteOp) (seq : Seq) (img : EntryImage) (x : Sector) (o elapsed : Nat) (s : State),
    s.block.inReset = false →
    s.block.engine = .programming { kind := .program [0x00], sector := x, offset := o + 14 } elapsed → o + 14 < 4096 →
    Memory.wf s.array = true → dirSorted s.block.dir = true →
    s.block.holder = .job p (.place (.member 0) img (.complete x o)) → (s.block.ports.get p).job = some j →
    j.ops = [op] → (op.kind = .delete → presentSlot op.key s.block.dir ≠ none) →
    j.seq = some seq → j.detached = false → j.locs = [] → j.batch = false →
    (s.block.ports.get p).slot = .working tag .job →
    let old := presentSlot op.key s.block.dir
    ∃ t d, exec (.programComplete []) s = .next t ∧
      (∀ k, dirFind k t.block.dir = if k = op.key then some d else dirFind k s.block.dir) ∧
      isSwitched p op { sector := x, offset := o } seq old d ∧
      (∀ q, t.block.usage.get q =
        s.block.usage.get q + (if d.owner = some q then d.length else 0) -
          match old with
          | some e => if e.owner = some q then e.length else 0
          | none => 0) ∧
      (∀ q,
        (q ≠ p ∧ op.key ∈ (s.block.ports.get q).watches →
          (t.block.ports.get q).notes = (postNote (noteOf p seq op (mayRead q d)) (s.block.ports.get q)).notes) ∧
        (¬(q ≠ p ∧ op.key ∈ (s.block.ports.get q).watches) →
          (t.block.ports.get q).notes = (s.block.ports.get q).notes)) ∧
      t.block.policy = policyAfter s.block.policy op ∧
      (t.block.ports.get p).slot = .answered (response .ok tag (seqIndex seq 0xFF)) ∧
      (t.block.ports.get p).job = none ∧ t.block.holder = .free ∧ t.block.engine = .idle ∧
      t.block.storeSeq = s.block.storeSeq

/-- A batch of two to eight operations commits at the complete mark of its end marker (R14, R35, R39). When that mark has read back set,
the settled mark of the first member is programmed, and nothing that a master can read has changed. When the last settled mark has
read back set, every put key's slot is LIVE at its member's place with the payload's length and every deleted key's slot is a TOMBSTONE
there with length 0, with the attributes of R2, R4 and R6, all with the one sequence of the job; every other slot is as before; the
policy and the other ports' notes are what R170, R171 and R135 make of the operations in staging order; the port is answered OK with
that sequence and index FFh; its batch is CLOSED, the job is gone and the engine free. -/
def Obligations.EndMarkerCommitsTheBatch : Prop :=
  ∀ (p : Port) (tag : Byte) (j : Job) (seq : Seq) (first : Loc) (img : EntryImage) (x : Sector) (o elapsed : Nat) (s : State),
    s.block.inReset = false → Memory.wf s.array = true → dirSorted s.block.dir = true →
    (s.block.ports.get p).job = some j → 2 ≤ j.ops.length → j.ops.length ≤ 8 → (j.ops.map (·.key)).Nodup →
    j.locs.length = j.ops.length → j.locs[0]? = some first → j.seq = some seq → j.batch = true → j.detached = false →
    (s.block.ports.get p).slot = .working tag .job → o < 4096 →
    s.block.engine = .programming { kind := .program [0x00], sector := x, offset := o } elapsed →
    (s.block.holder = .job p (.place .endMarker img (.complete x (o - 14))) → 14 ≤ o →
        ∃ t, exec (.programComplete []) s = .next t ∧
          t.block.issued = some { kind := .program [0x00], sector := first.sector, offset := first.offset + 15 } ∧
          t.block.holder = .job p (.settle 0) ∧ t.block.engine = .idle ∧ t.block.dir = s.block.dir ∧
          t.block.usage = s.block.usage ∧ t.block.policy = s.block.policy ∧
          (t.block.ports.get p).job = some j ∧
          ∀ q, (t.block.ports.get q).slot = (s.block.ports.get q).slot ∧
            (t.block.ports.get q).notes = (s.block.ports.get q).notes) ∧
      (s.block.holder = .job p (.settle (j.ops.length - 1)) →
        ∃ t, exec (.programComplete []) s = .next t ∧
          (∀ (i : Nat) (op : WriteOp) (loc : Loc), j.ops[i]? = some op → j.locs[i]? = some loc →
            (op.kind = .delete → presentSlot op.key s.block.dir ≠ none) →
            ∃ d, dirFind op.key t.block.dir = some d ∧ isSwitched p op loc seq (presentSlot op.key s.block.dir) d) ∧
          (∀ key, key ∉ j.ops.map (·.key) → dirFind key t.block.dir = dirFind key s.block.dir) ∧
          t.block.policy = j.ops.foldl policyAfter s.block.policy ∧
          (∀ q, (t.block.ports.get q).notes = (notified p seq t.block.dir j.ops q (s.block.ports.get q)).notes) ∧
          (t.block.ports.get p).slot = .answered (response .ok tag (seqIndex seq 0xFF)) ∧
          (t.block.ports.get p).job = none ∧ (t.block.ports.get p).batch = .closed ∧ t.block.holder = .free ∧
          t.block.engine = .idle ∧ t.block.storeSeq = s.block.storeSeq)

/-- Attempts that fail before the commit point (R36, R37, R40, R69). A program of one that times out changes no record, usage counter,
policy or note, and when it is a program of an entry the ACTIVE sector is closed. When that close has ended, well or not, FAULT is
raised in all three ports and one commit retry counted; then the next attempt takes a fresh sequence and opens a sector; or, after the
third attempt or at the sequence limit, a successor sector is opened; or, with no sector to open, the job ends MEDIA and the store is
READ_ONLY. The sector opened is the ERASED one with the lowest erase count, the lowest index among equals, and its header program holds
the generation, the count plus 1 and the store sequence (R67); that an unknown count is taken as the mean of the known ones and that the
count after FFFFFFFFh is free are the model's choice (log 26, log 10). When the successor's opened mark has read back set, that sector
is ACTIVE and the job ends: status MEDIA or SEQ_LIMIT, sequence 0, index FFh, the batch CLOSED, the engine free, and no record, usage
counter, policy or note changed. -/
def Obligations.FailedAttemptsEndWithoutEffect : Prop :=
  ∀ (p : Port) (tag : Byte) (j : Job) (bytes miss : List Byte) (x : Sector) (o elapsed : Nat) (s : State),
    s.block.inReset = false → Memory.wf s.array = true → s.block.storeState = .ready → (s.block.ports.get p).job = some j →
    j.detached = false → (s.block.ports.get p).slot = .working tag .job → o < 4096 →
    s.block.engine = .programming { kind := .program bytes, sector := x, offset := o } elapsed →
    let b := s.block
    let recordsKept := fun t : State =>
      t.block.dir = b.dir ∧ t.block.usage = b.usage ∧ t.block.policy = b.policy ∧
        ∀ q, (t.block.ports.get q).notes = (b.ports.get q).notes
    let ended := fun (t : State) (st : Status) =>
      (t.block.ports.get p).slot = .answered (response st tag (seqIndex 0 0xFF)) ∧ (t.block.ports.get p).job = none ∧
        (t.block.ports.get p).batch = (if j.batch then .closed else (b.ports.get p).batch) ∧ t.block.holder = .free ∧
        t.block.storeSeq = b.storeSeq
    let retryCounted := fun t : State =>
      t.block.retryCount = (if b.retryCount = 0xFFFFFFFF then 0xFFFFFFFF else b.retryCount + 1) ∧
        ∀ q, (t.block.ports.get q).sticky &&& 0x0080 = 0x0080
    let lastActive := (row b x).state = .active ∧ ∀ z, (row b z).state = .active → z = x
    let limit := 0xFFFFFF00 ≤ b.storeSeq.toNat + 1
    let opened := fun (y : Sector) (seq : Seq) => sectorHeader b.generation (nextCount (countOf b y)) seq
    (∀ w, b.holder = .job p w → beforeCommit w = true →
        ∃ t, exec (.programTimeout miss) s = .next t ∧ recordsKept t ∧
          ∀ (what : JobEntry) (img : EntryImage) (st : PlaceStage) (a : Sector) (n : Nat), w = .place what img st →
            st = .header x n ∨ st = .written x n ∨ st = .payload x n ∨ st = .complete x n → head b = some (a, n) →
            t.block.issued = some { kind := .program [0x00], sector := a, offset := 19 } ∧
              t.block.holder = .job p (.failClose a)) ∧
      (∀ i : Instr, i = .programComplete miss ∨ i = .programTimeout miss → b.holder = .job p (.failClose x) → lastActive →
        ∃ t, exec i s = .next t ∧ recordsKept t ∧ retryCounted t ∧
          (j.attempt < 3 → 2 ≤ erasedCount b → ¬limit →
            ∃ y, isOpenChoice b y ∧
              t.block.issued =
                some { kind := .program (opened y (b.storeSeq + 1)), sector := y, offset := 0 } ∧
              t.block.holder = .job p (.restartOpen y false) ∧ t.block.storeSeq = b.storeSeq + 1 ∧
              (t.block.ports.get p).job =
                some { j with attempt := j.attempt + 1, seq := some (b.storeSeq + 1), locs := [] }) ∧
          (∀ st, 1 ≤ erasedCount b →
            3 ≤ j.attempt ∧ st = .media ∨ j.attempt < 3 ∧ 2 ≤ erasedCount b ∧ limit ∧ st = .seqLimit →
            ∃ y, isOpenChoice b y ∧
              t.block.issued = some { kind := .program (opened y b.storeSeq), sector := y, offset := 0 } ∧
              t.block.holder = .job p (.successor y false (decide (erasedCount b = 1)) st) ∧
              t.block.storeSeq = b.storeSeq ∧ (t.block.ports.get p).job = some j) ∧
          (j.attempt < 3 ∧ erasedCount b < 2 ∨ 3 ≤ j.attempt ∧ erasedCount b = 0 →
            ended t .media ∧ t.block.storeState = .readOnly)) ∧
      ∀ last st, b.holder = .job p (.successor x true last st) → bytes = [0x00] →
        ∃ t, exec (.programComplete []) s = .next t ∧ recordsKept t ∧ ended t st ∧ (row t.block x).state = .active

/-- The erase step of a cycle (R30, R44, R46, R82, R83). When its verify passes, the victim's row is ERASED with its erase count kept, the
engine is free, and no job waits for space. When it is ended at its time limit, the victim's row is RETIRED, FAULT is raised in all
three ports, and its retired mark is programmed within the same grant. -/
def Obligations.EraseStepEndsByItsVerify : Prop :=
  ∀ (x : Sector) (elapsed suspends : Nat) (residue : List (Nat × Byte)) (s : State), s.block.inReset = false →
    s.block.engine = .erasing { kind := .erase, sector := x, offset := 0 } elapsed suspends →
    s.block.holder = .reclaim (.erase x) → mounted s →
    (∃ t, exec (.eraseComplete []) s = .next t ∧ (row t.block x).state = .erased ∧
        (row t.block x).eraseCount = (row s.block x).eraseCount ∧ t.block.holder = .free ∧ t.block.engine = .idle ∧
        ∀ p j, (t.block.ports.get p).job = some j → j.state ≠ .waitSpace) ∧
      ∃ t, exec (.eraseTimeout residue) s = .next t ∧ (row t.block x).state = .retired ∧
        (∀ p, (t.block.ports.get p).sticky &&& 0x0080 = 0x0080) ∧
        t.block.issued = some { kind := .program [0x00], sector := x, offset := 21 } ∧
        t.block.holder = .reclaim (.retire x) ∧ t.block.engine = .idle

/-- Phase 1 of a mount (R49, R88): when the step read of a sector's header returns and the header alone decides the class, the class is
noted, the engine is IDLE, and the header of the next sector is read. -/
def Obligations.MountReadsTheHeadersInOrder : Prop :=
  ∀ (x y : Sector) (found : List HeaderClass) (c : HeaderClass) (elapsed : Nat) (s : State), s.block.inReset = false →
    s.block.engine = .programming { kind := .stepRead 32, sector := x, offset := 0 } elapsed →
    s.block.holder = .mount (.header x found) → y.val = x.val + 1 →
    classifyHeader (readRun s.array x 0 32) = some c → s.block.wire.state ≠ .stretching →
    exec .stepReadComplete s =
      .next (onBlock s fun b =>
        { b with
            engine := .idle
            issued := some { kind := .stepRead 32, sector := y, offset := 0 }
            holder := .mount (.header y (found ++ [c])) })

/-! ## Reset and release -/

/-- RESET_ASSERT: the part is in reset with every output undriven, ATTN released, SDO0 and SDO1 at high impedance, SCL not held low and
SDA with neither byte nor acknowledge bit, and the array keeps every byte outside the run or sector of a program or erase in progress,
and all of it when a step read or nothing is in progress (R45, R156, R180). That the ports hold their values for RESET_n, the directory is
empty and the engine IDLE from RESET_ASSERT on is the model's choice (log 20): R180 gives these values for when reset ends. -/
def Obligations.ResetAssertStopsThePart : Prop :=
  ∀ (miss : List Byte) (residue : List (Nat × Byte)) (s : State), Memory.wf s.array = true →
    ∃ t, exec (.resetAssert miss residue) s = .next t ∧ t.block.inReset = true ∧ t.block.engine = .idle ∧
      (∀ p, attn t.block p = false ∧ t.block.ports.get p = PortState.reset) ∧
      (∀ p, (t.block.select.get p).sdo = none ∧ (t.block.select.get p).driven = false) ∧
      t.block.wire.state ≠ .stretching ∧ t.block.wire.sending = none ∧ t.block.wire.ackOut = none ∧ t.block.dir = [] ∧
      (s.block.engine = .idle → t.array = s.array) ∧
      (∀ op elapsed n, s.block.engine = .programming op elapsed → op.kind = .stepRead n → t.array = s.array) ∧
      (∀ op elapsed bytes, s.block.engine = .programming op elapsed → op.kind = .program bytes →
        ∀ a, a < address op.sector op.offset ∨ address op.sector op.offset + bytes.length ≤ a →
          readByte t.array a = readByte s.array a) ∧
      ∀ op elapsed suspends,
        s.block.engine = .erasing op elapsed suspends ∨ s.block.engine = .eraseSuspended op elapsed suspends →
        ∀ a, a < address op.sector 0 ∨ address op.sector 4096 ≤ a → readByte t.array a = readByte s.array a

/-- RESET_END samples the straps and starts the mount with every block at its values for RESET_n (R10, R19, R31, R47, R84, R87, R88, R109,
R121, R130, R133, R138, R145, R155, R156, R166, R180, R181). That the mount's first step read is issued in RESET_END's own event is the
model's choice (log 2, log 20): R87 and R88 give the mount, and no row of its own for its beginning. -/
def Obligations.ResetEndStartsTheMount : Prop :=
  ∀ (adm adr : BitVec 2) (sel0High sel1High : Bool) (s : State), s.block.inReset = true →
    ∃ t, exec (.resetEnd adm adr sel0High sel1High) s = .next t ∧ t.array = s.array ∧ t.block.inReset = false ∧
      t.block.storeState = .mounting ∧ t.block.generation = 0 ∧
      (t.block.admin =
        if adm = 0 then some .p0 else if adm = 1 then some .p1 else if adm = 2 then some .p2 else none) ∧
      t.block.addrStraps = adr ∧
      t.block.policy = { trigger := 3, lowSpace := 8128, quotas := { p0 := 0, p1 := 0, p2 := 0 } } ∧
      t.block.corruptCount = 0 ∧ t.block.retryCount = 0 ∧ t.block.dir = [] ∧
      t.block.usage = { p0 := 0, p1 := 0, p2 := 0 } ∧ t.block.storeSeq = 0 ∧ t.block.spaceLow = false ∧
      t.block.cycle = .idle ∧ t.block.engine = .idle ∧ t.block.lastGranted = .reclaim ∧ t.block.reclaimFlag = false ∧
      (∀ k, t.block.banks.get k = { current := none, queue := [] }) ∧ (∀ x, pinCount t.block x = 0) ∧
      (∀ p,
        t.block.ports.get p =
          { slot := .empty, fetchProgress := 0, sticky := 0, mask := 0x03FE, releaseEnable := true, stretchLimit := 0
            releaseSpent := false, batch := .closed, job := none, watches := [], notes := [] }) ∧
      (∀ p,
        t.block.select.get p =
          { state := if (match p with | .s0 => sel0High | .s1 => sel1High) then .idle else .discarding
            mode3 := false, bytesComplete := 0, frameType := .none, showedAnswered := false, requestBytes := []
            overLength := false, sdo := none, driven := false }) ∧
      t.block.wire =
        { state := .ignoring, address := none, requestBytes := [], overLength := false, showedAnswered := false
          nakSeen := false, stretchTime := 0, sending := none, bytesSent := 0, ackOut := none } ∧
      (∃ w, t.block.holder = .mount w) ∧
      t.block.issued = some { kind := .stepRead 32, sector := 0, offset := 0 }

/-- RELEASE of a port whose release enable is on, once for each low level (R41, R61, R127, R128): slot EMPTY, fetch progress 0, RELEASED
raised, batch CLOSED, a QUEUED or waiting job removed and a RUNNING one detached, waiting reads of the port removed; configuration,
watches and notes kept; no other port touched. A select port's FRAME becomes DISCARDING with nothing driven (R153); port 2 goes to
IGNORING with nothing driven from every state but IDLE with no address byte in reception (R164). That every field of the framing is
cleared then, those that R153 and R164 do not name included, is the model's choice (log 19). With the enable off, or the low level
already used, nothing happens; the return of the input to high lets the next low level be accepted. -/
def Obligations.ReleaseClearsThePort : Prop :=
  ∀ (p : Port) (s : State), s.block.inReset = false →
    let q := s.block.ports.get p
    exec (.releaseInputHigh p) s = .next (onPort s p fun q => { q with releaseSpent := false }) ∧
      (q.releaseEnable = false ∨ q.releaseSpent = true → exec (.release p) s = .next s) ∧
      (q.releaseEnable = true → q.releaseSpent = false →
        ∃ t, exec (.release p) s = .next t ∧
          (∀ o, o ≠ p → t.block.ports.get o = s.block.ports.get o) ∧
          t.block.ports.get p =
            { q with
                slot := .empty
                fetchProgress := 0
                sticky := q.sticky ||| 0x0040
                batch := .closed
                releaseSpent := true
                job :=
                  match q.job with
                  | some j => if j.state = .running then some { j with detached := true } else none
                  | none => none } ∧
          (∀ k, (t.block.banks.get k).queue = (s.block.banks.get k).queue.filter fun r => r.port != p) ∧
          (∀ k, (t.block.banks.get k).current =
            (s.block.banks.get k).current.map fun r => if r.port = p then { r with orphan := true } else r) ∧
          (∀ x : SelPort,
            t.block.select.get x =
              if x.port = p ∧ (s.block.select.get x).state = .frame then SelectFraming.reset .discarding
              else s.block.select.get x) ∧
          t.block.wire =
            (if p = .p2 ∧ s.block.wire.state ≠ .ignoring ∧
                (s.block.wire.state = .idle → s.block.wire.address ≠ none) then WireFraming.cleared .ignoring
              else s.block.wire) ∧
          t.array = s.array)

/-! ## Framing of the select ports -/

/-- The beginning of a frame. SELECT_FALL in IDLE (R144, R146): the clock mode fixed, no byte complete, no type, no request bytes, not
over-length, the status byte captured, and driven on SDOp at once in mode 0, where mode 3 drives nothing before its first falling
clock edge. That nothing happens in any other framing state, where R146 says that no such fall occurs, is the model's choice (log 3).
SELECT_BYTE_COMPLETE for byte 0 (R147, R148, R150): it sets the frame type, 5Ah POLL, A5h REQUEST, C3h FETCH, any other unknown; the
next byte on SDOp is a fresh status byte, the first response byte of a fetch that showed ANSWERED, or FFh. -/
def Obligations.SelectFallAndByteZeroBeginAFrame : Prop :=
  ∀ (p : SelPort) (clockHigh : Bool) (sdi : Byte) (s : State), s.block.inReset = false →
    let f := s.block.select.get p
    let q := s.block.ports.get p.port
    (f.state = .idle →
        exec (.selectFall p clockHigh) s =
          .next (onBlock s fun b =>
            { b with
                select := b.select.set p
                  { state := .frame, mode3 := clockHigh, bytesComplete := 0, frameType := .none
                    showedAnswered := slotAnswered (b.ports.get p.port).slot, requestBytes := [], overLength := false
                    sdo := some (statusByte b p.port), driven := !clockHigh } })) ∧
      (f.state ≠ .idle → exec (.selectFall p clockHigh) s = .next s) ∧
      (f.state = .frame → f.bytesComplete = 0 →
        exec (.selectByteComplete p sdi) s =
          .next (onBlock s fun b =>
            { b with
                select := b.select.set p
                  { f with
                      bytesComplete := 1
                      frameType :=
                        if sdi = 0x5A then .poll else if sdi = 0xA5 then .request else if sdi = 0xC3 then .fetch else .unknown
                      sdo :=
                        if sdi = 0x5A then some (statusByte b p.port)
                        else if sdi = 0xC3 then
                          match q.slot, f.showedAnswered with
                          | .answered r, true => some (r.getD q.fetchProgress 0xFF)
                          | _, _ => some 0xFF
                        else some 0xFF
                      driven := true } }))

/-- The status byte (R176): slot state, store state, ATTN, notes pending, batch open, from bit 7 down; it never reads FFh. -/
def Obligations.StatusByteShowsThePort : Prop :=
  ∀ (b : Block) (p : Port),
    let q := b.ports.get p
    let v := statusByte b p
    v.toNat =
        (match q.slot with
          | .empty => 0
          | .working _ _ => 1
          | .answered _ => 2) * 64 +
        (match b.storeState with
          | .mounting => 0
          | .ready => 1
          | .readOnly => 2
          | .unformatted => 3
          | .formatting => 4) * 8 +
        (if attn b p then 4 else 0) + (if q.notes = [] then 0 else 2) +
        (if q.batch = .closed then 0 else 1) ∧ v ≠ 0xFF

/-- A later byte of a frame (R148, R149, R150): in REQUEST it is kept while fewer than 1046 are, and over-length is set after; in FETCH that
showed ANSWERED it counts a response byte while one is left; in POLL the status byte is captured anew; the slot itself does not change. -/
def Obligations.LaterBytesActByTheType : Prop :=
  ∀ (p : SelPort) (sdi : Byte) (s : State), s.block.inReset = false →
    let f := s.block.select.get p
    let q := s.block.ports.get p.port
    f.state = .frame → f.bytesComplete ≠ 0 →
    let setFrame := fun (t : State) (g : SelectFraming) =>
      onBlock t fun b => { b with select := b.select.set p { g with bytesComplete := f.bytesComplete + 1, driven := true } }
    (f.frameType = .request →
        exec (.selectByteComplete p sdi) s =
          .next (setFrame s
            { f with
                requestBytes :=
                  if f.overLength = false ∧ f.requestBytes.length < 1046 then f.requestBytes ++ [sdi] else f.requestBytes
                overLength := f.overLength || decide (1046 ≤ f.requestBytes.length)
                sdo := some 0xFF })) ∧
      (f.frameType = .poll →
        exec (.selectByteComplete p sdi) s = .next (setFrame s { f with sdo := some (statusByte s.block p.port) })) ∧
      (f.frameType = .unknown → exec (.selectByteComplete p sdi) s = .next (setFrame s { f with sdo := some 0xFF })) ∧
      (f.frameType = .fetch → f.showedAnswered = false →
        exec (.selectByteComplete p sdi) s = .next (setFrame s { f with sdo := some 0xFF })) ∧
      ∀ r, f.frameType = .fetch → f.showedAnswered = true → q.slot = .answered r →
        let n := if q.fetchProgress < r.length then q.fetchProgress + 1 else q.fetchProgress
        exec (.selectByteComplete p sdi) s =
          .next (setFrame (onPort s p.port fun q => { q with fetchProgress := n }) { f with sdo := some (r.getD n 0xFF) })

/-- The end of a REQUEST frame and of the frames that are neither REQUEST nor FETCH (R148, R151, R152, R154). REQUEST_FRAME_SELECT_END:
over-length or off a byte boundary the frame is discarded with FRAME_ERR, and the slot not touched; with no request byte nothing happens
at the slot; otherwise the request frame ends with its bytes. OTHER_FRAME_END: an untyped or POLL frame brings nothing, an unknown one
FRAME_ERR. DISCARDING_END hands the slot nothing and raises no cause. The framing is IDLE after each; that its fields are cleared with it is
the model's choice (log 19): R151 and R152 give the state alone. -/
def Obligations.SelectRiseEndsFramesByType : Prop :=
  ∀ (p : SelPort) (onBoundary : Bool) (s : State), s.block.inReset = false →
    let f := s.block.select.get p
    let ended := onBlock s fun b => { b with select := b.select.set p (SelectFraming.reset .idle) }
    let frameErr := onPort ended p.port fun q => { q with sticky := q.sticky ||| 0x0020 }
    let run := exec (.requestFrameSelectEnd p onBoundary) s
    (f.state = .frame → f.frameType = .request →
        (f.overLength = true ∨ onBoundary = false → run = .next frameErr) ∧
          (f.overLength = false → onBoundary = true → f.requestBytes = [] → run = .next ended) ∧
          (f.overLength = false → onBoundary = true → f.requestBytes ≠ [] →
            ∃ t, run = .next t ∧ exec (.requestFrameEnd p.port f.requestBytes) ended = .next t)) ∧
      (f.state = .frame → f.frameType = .none ∨ f.frameType = .poll →
        exec (.otherFrameEnd p onBoundary) s = .next ended) ∧
      (f.state = .frame → f.frameType = .unknown → exec (.otherFrameEnd p onBoundary) s = .next frameErr) ∧
      (f.state = .discarding → exec (.discardingEnd p) s = .next ended)

/-- FETCH_FRAME_END (R118, R152): the response is released, the slot EMPTY, when the frame ended on a byte boundary, its status byte showed
ANSWERED and every response byte had gone out; otherwise the response stays and the fetch progress returns to 0. A slot that is EMPTY or
WORKING acts on nothing. The framing is IDLE; that its fields are cleared with it is the model's choice (log 19). -/
def Obligations.FetchFrameReleasesWhenWhole : Prop :=
  ∀ (p : SelPort) (onBoundary : Bool) (s : State), s.block.inReset = false →
    let f := s.block.select.get p
    let q := s.block.ports.get p.port
    f.state = .frame → f.frameType = .fetch →
    let ended := onBlock s fun b => { b with select := b.select.set p (SelectFraming.reset .idle) }
    let run := exec (.fetchFrameEnd p onBoundary) s
    (slotAnswered q.slot = false → run = .next ended) ∧
      ∀ r, q.slot = .answered r →
        (onBoundary = true ∧ f.showedAnswered = true ∧ q.fetchProgress = r.length →
            run = .next (onPort ended p.port fun q => { q with slot := .empty, fetchProgress := 0 })) ∧
          (¬(onBoundary = true ∧ f.showedAnswered = true ∧ q.fetchProgress = r.length) →
            run = .next (onPort ended p.port fun q => { q with fetchProgress := 0 }))

/-! ## Framing of the two-wire port -/

/-- BUS_START and BUS_STOP (R157, R159, R161, R163): a write transaction ends as a request frame, or is discarded with FRAME_ERR when
over-length or in an incomplete byte; a read transaction ends as a fetch that releases a whole response only after a NAK, and brings a
slot that is EMPTY or WORKING nothing; the framing is then IDLE, with an address byte in reception after a START alone. Two clauses
are the model's choice: that the fields R159 and R163 do not name are cleared with the state (log 19), and that neither condition does
anything while SCL is held, when R161 says that none arrives (log 3). -/
def Obligations.BusConditionsEndTransactions : Prop :=
  ∀ (start incomplete : Bool) (s : State), s.block.inReset = false →
    let run := if start then exec (.busStart incomplete) s else exec (.busStop incomplete) s
    let w := s.block.wire
    let q := s.block.ports.get .p2
    let ended := onBlock s fun b => { b with wire := { WireFraming.cleared .idle with address := if start then some [] else none } }
    (w.state = .stretching → run = .next s) ∧
      (w.state = .idle ∨ w.state = .ignoring → run = .next ended) ∧
      (w.state = .addressedWrite →
        (w.overLength = true ∨ incomplete = true →
            run = .next (onPort ended .p2 fun q => { q with sticky := q.sticky ||| 0x0020 })) ∧
          (w.overLength = false → incomplete = false → w.requestBytes = [] → run = .next ended) ∧
          (w.overLength = false → incomplete = false → w.requestBytes ≠ [] →
            ∃ t, run = .next t ∧ exec (.requestFrameEnd .p2 w.requestBytes) ended = .next t)) ∧
      (w.state = .addressedRead → slotAnswered q.slot = false → run = .next ended) ∧
      (w.state = .addressedRead →
        ∀ r, q.slot = .answered r →
          (w.nakSeen = true ∧ w.showedAnswered = true ∧ q.fetchProgress = r.length →
              run = .next (onPort ended .p2 fun q => { q with slot := .empty, fetchProgress := 0 })) ∧
            (¬(w.nakSeen = true ∧ w.showedAnswered = true ∧ q.fetchProgress = r.length) →
              run = .next (onPort ended .p2 fun q => { q with fetchProgress := 0 })))

/-- ADDRESS_BYTE (R155, R157, R160): the port's write address is acknowledged and begins a write; its read address is acknowledged and
captures the status byte, or stretches while the slot is WORKING and the stretch limit is not 0; any other address, the general call
included, is refused and ignored. STRETCH_LIMIT_EXPIRY (R161): the stretch ends with the status byte as the port then stands, and SCL is
released. That nothing happens with no address byte in reception, and at an expiry in any other framing state, where no such event
occurs, is the model's choice (log 3). -/
def Obligations.AddressAndExpiryBeginTheTransfer : Prop :=
  ∀ (x : Byte) (s : State), s.block.inReset = false →
    let w := s.block.wire
    let q := s.block.ports.get .p2
    let base := 2 * (0x58 + s.block.addrStraps.toNat)
    let clear := WireFraming.cleared
    let set := fun w' => Host.Outcome.next (onBlock s fun b => { b with wire := w' })
    (¬(w.state = .idle ∧ w.address ≠ none) → exec (.addressByte x) s = .next s) ∧
      (w.state = .idle ∧ w.address ≠ none →
        (x.toNat = base → exec (.addressByte x) s = set { clear .addressedWrite with ackOut := some true }) ∧
          (x.toNat = base + 1 → slotWorking q.slot = true ∧ q.stretchLimit ≠ 0 →
            exec (.addressByte x) s = set { clear .stretching with ackOut := some true }) ∧
          (x.toNat = base + 1 → ¬(slotWorking q.slot = true ∧ q.stretchLimit ≠ 0) →
            exec (.addressByte x) s =
              set { clear .addressedRead with
                ackOut := some true
                showedAnswered := slotAnswered q.slot
                sending := some (statusByte s.block .p2) }) ∧
          (x.toNat ≠ base → x.toNat ≠ base + 1 →
            exec (.addressByte x) s = set { clear .ignoring with ackOut := some false })) ∧
      (w.state ≠ .stretching → exec .stretchLimitExpiry s = .next s) ∧
      (w.state = .stretching →
        exec .stretchLimitExpiry s =
          set { w with
            state := .addressedRead
            showedAnswered := slotAnswered q.slot
            nakSeen := false
            stretchTime := q.stretchLimit.toNat
            sending := some (statusByte s.block .p2)
            bytesSent := 0 })

/-- The bytes of a transaction on port 2 (R158, R162). TWO_WIRE_REQUEST_BYTE: in ADDRESSED-WRITE a byte is acknowledged and kept while fewer
than 1046 are; after that it is refused and over-length set, for every later byte too. READ_BYTE_ACKNOWLEDGE: in ADDRESSED-READ before a
NAK a sent byte counts; a response byte raises the fetch progress; after ACK the next byte is the next response byte or FFh, after NAK
nothing more is sent. That nothing happens in any other framing state, where no such event occurs, is the model's choice (log 3). -/
def Obligations.TransactionBytesCount : Prop :=
  ∀ (x : Byte) (ack : Bool) (s : State), s.block.inReset = false →
    let w := s.block.wire
    let q := s.block.ports.get .p2
    let set := fun w' => Host.Outcome.next (onBlock s fun b => { b with wire := w' })
    let sent := fun (t : State) (next : Byte) =>
      Host.Outcome.next (onBlock t fun b =>
        { b with
            wire :=
              if ack then { w with bytesSent := w.bytesSent + 1, sending := some next }
              else { w with bytesSent := w.bytesSent + 1, nakSeen := true, sending := none } })
    (w.state ≠ .addressedWrite → exec (.twoWireRequestByte x) s = .next s) ∧
      (w.state = .addressedWrite →
        (w.requestBytes.length < 1046 → w.overLength = false →
            exec (.twoWireRequestByte x) s = set { w with requestBytes := w.requestBytes ++ [x], ackOut := some true }) ∧
          (1046 ≤ w.requestBytes.length ∨ w.overLength = true →
            exec (.twoWireRequestByte x) s = set { w with overLength := true, ackOut := some false })) ∧
      (w.state ≠ .addressedRead ∨ w.nakSeen = true → exec (.readByteAcknowledge ack) s = .next s) ∧
      (w.state = .addressedRead → w.nakSeen = false →
        (w.showedAnswered = false → exec (.readByteAcknowledge ack) s = sent s 0xFF) ∧
          ∀ r, w.showedAnswered = true → q.slot = .answered r →
            (w.bytesSent = 0 → exec (.readByteAcknowledge ack) s = sent s (r.getD q.fetchProgress 0xFF)) ∧
              (w.bytesSent ≠ 0 →
                let n := if q.fetchProgress < r.length then q.fetchProgress + 1 else q.fetchProgress
                exec (.readByteAcknowledge ack) s =
                  sent (onPort s .p2 fun q => { q with fetchProgress := n }) (r.getD n 0xFF)))

/-! ## Invariants -/

/-- Every step keeps the array in its canonical form: addresses rising, none of the erased bytes listed, none outside the 262,144
(R42 to R45). -/
def Obligations.ArrayStaysCanonical : Prop :=
  ∀ s t : State, Memory.wf s.array = true → step s = .next t → Memory.wf t.array = true

/-- Every step keeps the directory a map: keys strictly ascending, so that each stands at most once (R8). -/
def Obligations.DirectoryStaysAMap : Prop :=
  ∀ s t : State, dirSorted s.block.dir = true → step s = .next t → dirSorted t.block.dir = true

/-- Every step keeps the reserved positions of cause sets and masks empty, and the stretch limit 0 on ports 0 and 1 (R121, R138, R142). -/
def Obligations.ReservedPositionsStayEmpty : Prop :=
  ∀ s t : State, portsOk s.block = true → step s = .next t → portsOk t.block = true

/-- Every step keeps each port's tables within their limits: 8 watched keys, each once; 16 notes, one for each key; 8 staged operations
and 2048 bytes, one for each key (R22, R23, R130, R133). -/
def Obligations.TablesStayWithinLimits : Prop :=
  ∀ s t : State, (∀ p, tablesOk (s.block.ports.get p)) → step s = .next t → ∀ p, tablesOk (t.block.ports.get p)

/-- Every step keeps each usage counter equal to the bytes of the present records that its port owns, but while a mount holds the engine
and fills the directory (R10, R18). -/
def Obligations.UsageMatchesTheDirectory : Prop :=
  ∀ s t : State, usageOk s.block → step s = .next t → usageOk t.block

/-- The state after reset meets all the invariants, and (the model's choice, log 1 and log 2) it is the state that RESET_END leaves with
straps 0 and selects high, from an erased array and an empty queue. -/
def Obligations.ResetMeetsTheInvariants : Prop :=
  Memory.wf State.reset.array = true ∧ dirSorted State.reset.block.dir = true ∧ portsOk State.reset.block = true ∧
    (∀ p, tablesOk (State.reset.block.ports.get p)) ∧ usageOk State.reset.block ∧
    ∀ s : State, s.block.inReset = true → s.array = [] → s.pending = [] →
      exec (.resetEnd 0 0 true true) s = .next State.reset
end

