-- ==== Sys2Proof/Laws/State.lean ====
section
/-! SUPPORT. One lemma for each field and each update of the state, so that no proof unfolds a record update. -/

namespace Sys2Proof

/-! ## One value for each port, select port and bank -/

@[simp] theorem PerPort.get_set_same {α : Type} (v : PerPort α) (p : Port) (a : α) : (v.set p a).get p = a := by
  cases p <;> rfl

theorem PerPort.get_set_other {α : Type} (v : PerPort α) {p q : Port} (a : α) (h : q ≠ p) : (v.set p a).get q = v.get q := by
  cases p <;> cases q <;> first | rfl | exact absurd rfl h

theorem PerPort.get_set {α : Type} (v : PerPort α) (p q : Port) (a : α) :
    (v.set p a).get q = if q = p then a else v.get q := by
  cases p <;> cases q <;> rfl

@[simp] theorem PerPort.get_map {α β : Type} (f : α → β) (v : PerPort α) (p : Port) : (v.map f).get p = f (v.get p) := by
  cases p <;> rfl

@[simp] theorem PerPort.get_all {α : Type} (a : α) (p : Port) : (PerPort.all a).get p = a := by cases p <;> rfl

@[simp] theorem PerPort.set_set {α : Type} (v : PerPort α) (p : Port) (a c : α) : (v.set p a).set p c = v.set p c := by
  cases p <;> rfl

@[simp] theorem PerPort.set_get {α : Type} (v : PerPort α) (p : Port) : v.set p (v.get p) = v := by cases p <;> rfl

theorem PerPort.ext_get {α : Type} {v w : PerPort α} (h : ∀ p, v.get p = w.get p) : v = w := by
  obtain ⟨a, b, c⟩ := v
  obtain ⟨a', b', c'⟩ := w
  have h0 := h .p0
  have h1 := h .p1
  have h2 := h .p2
  simp only [PerPort.get] at h0 h1 h2
  rw [h0, h1, h2]

@[simp] theorem PerSel.get_set_same {α : Type} (v : PerSel α) (p : SelPort) (a : α) : (v.set p a).get p = a := by
  cases p <;> rfl

theorem PerSel.get_set {α : Type} (v : PerSel α) (p q : SelPort) (a : α) :
    (v.set p a).get q = if q = p then a else v.get q := by
  cases p <;> cases q <;> rfl

@[simp] theorem PerSel.set_set {α : Type} (v : PerSel α) (p : SelPort) (a c : α) : (v.set p a).set p c = v.set p c := by
  cases p <;> rfl

@[simp] theorem PerBank.get_set_same {α : Type} (v : PerBank α) (k : Bank) (a : α) : (v.set k a).get k = a := by
  cases k <;> rfl

theorem PerBank.get_set {α : Type} (v : PerBank α) (k l : Bank) (a : α) :
    (v.set k a).get l = if l = k then a else v.get l := by
  cases k <;> cases l <;> rfl

@[simp] theorem PerBank.set_get {α : Type} (v : PerBank α) (k : Bank) : v.set k (v.get k) = v := by cases k <;> rfl

namespace Machine

/-! ## Updates of one port -/

@[simp] theorem modPort_get (b : Block) (p : Port) (f : PortState → PortState) :
    (modPort b p f).ports.get p = f (b.ports.get p) := PerPort.get_set_same _ _ _

theorem modPort_get_other (b : Block) {p q : Port} (f : PortState → PortState) (h : q ≠ p) :
    (modPort b p f).ports.get q = b.ports.get q := PerPort.get_set_other _ _ h

@[simp] theorem modPort_modPort (b : Block) (p : Port) (f g : PortState → PortState) :
    modPort (modPort b p f) p g = modPort b p fun q => g (f q) := by
  simp [modPort]

@[simp] theorem modPort_inReset (b : Block) (p : Port) (f : PortState → PortState) : (modPort b p f).inReset = b.inReset := rfl
@[simp] theorem modPort_storeState (b : Block) (p : Port) (f : PortState → PortState) : (modPort b p f).storeState = b.storeState := rfl
@[simp] theorem modPort_generation (b : Block) (p : Port) (f : PortState → PortState) : (modPort b p f).generation = b.generation := rfl
@[simp] theorem modPort_admin (b : Block) (p : Port) (f : PortState → PortState) : (modPort b p f).admin = b.admin := rfl
@[simp] theorem modPort_addrStraps (b : Block) (p : Port) (f : PortState → PortState) : (modPort b p f).addrStraps = b.addrStraps := rfl
@[simp] theorem modPort_policy (b : Block) (p : Port) (f : PortState → PortState) : (modPort b p f).policy = b.policy := rfl
@[simp] theorem modPort_corruptCount (b : Block) (p : Port) (f : PortState → PortState) : (modPort b p f).corruptCount = b.corruptCount := rfl
@[simp] theorem modPort_retryCount (b : Block) (p : Port) (f : PortState → PortState) : (modPort b p f).retryCount = b.retryCount := rfl
@[simp] theorem modPort_mount (b : Block) (p : Port) (f : PortState → PortState) : (modPort b p f).mount = b.mount := rfl
@[simp] theorem modPort_dir (b : Block) (p : Port) (f : PortState → PortState) : (modPort b p f).dir = b.dir := rfl
@[simp] theorem modPort_usage (b : Block) (p : Port) (f : PortState → PortState) : (modPort b p f).usage = b.usage := rfl
@[simp] theorem modPort_storeSeq (b : Block) (p : Port) (f : PortState → PortState) : (modPort b p f).storeSeq = b.storeSeq := rfl
@[simp] theorem modPort_sectors (b : Block) (p : Port) (f : PortState → PortState) : (modPort b p f).sectors = b.sectors := rfl
@[simp] theorem modPort_spaceLow (b : Block) (p : Port) (f : PortState → PortState) : (modPort b p f).spaceLow = b.spaceLow := rfl
@[simp] theorem modPort_cycle (b : Block) (p : Port) (f : PortState → PortState) : (modPort b p f).cycle = b.cycle := rfl
@[simp] theorem modPort_engine (b : Block) (p : Port) (f : PortState → PortState) : (modPort b p f).engine = b.engine := rfl
@[simp] theorem modPort_issued (b : Block) (p : Port) (f : PortState → PortState) : (modPort b p f).issued = b.issued := rfl
@[simp] theorem modPort_holder (b : Block) (p : Port) (f : PortState → PortState) : (modPort b p f).holder = b.holder := rfl
@[simp] theorem modPort_reclaimFlag (b : Block) (p : Port) (f : PortState → PortState) : (modPort b p f).reclaimFlag = b.reclaimFlag := rfl
@[simp] theorem modPort_lastGranted (b : Block) (p : Port) (f : PortState → PortState) : (modPort b p f).lastGranted = b.lastGranted := rfl
@[simp] theorem modPort_banks (b : Block) (p : Port) (f : PortState → PortState) : (modPort b p f).banks = b.banks := rfl
@[simp] theorem modPort_select (b : Block) (p : Port) (f : PortState → PortState) : (modPort b p f).select = b.select := rfl
@[simp] theorem modPort_wire (b : Block) (p : Port) (f : PortState → PortState) : (modPort b p f).wire = b.wire := rfl

/-! ## Causes raised in every port -/

@[simp] theorem raiseAll_get (b : Block) (c : BitVec 16) (p : Port) :
    (raiseAll b c).ports.get p = { b.ports.get p with sticky := (b.ports.get p).sticky ||| c } := PerPort.get_map _ _ _

@[simp] theorem raiseAll_inReset (b : Block) (c : BitVec 16) : (raiseAll b c).inReset = b.inReset := rfl
@[simp] theorem raiseAll_storeState (b : Block) (c : BitVec 16) : (raiseAll b c).storeState = b.storeState := rfl
@[simp] theorem raiseAll_generation (b : Block) (c : BitVec 16) : (raiseAll b c).generation = b.generation := rfl
@[simp] theorem raiseAll_admin (b : Block) (c : BitVec 16) : (raiseAll b c).admin = b.admin := rfl
@[simp] theorem raiseAll_addrStraps (b : Block) (c : BitVec 16) : (raiseAll b c).addrStraps = b.addrStraps := rfl
@[simp] theorem raiseAll_policy (b : Block) (c : BitVec 16) : (raiseAll b c).policy = b.policy := rfl
@[simp] theorem raiseAll_corruptCount (b : Block) (c : BitVec 16) : (raiseAll b c).corruptCount = b.corruptCount := rfl
@[simp] theorem raiseAll_retryCount (b : Block) (c : BitVec 16) : (raiseAll b c).retryCount = b.retryCount := rfl
@[simp] theorem raiseAll_mount (b : Block) (c : BitVec 16) : (raiseAll b c).mount = b.mount := rfl
@[simp] theorem raiseAll_dir (b : Block) (c : BitVec 16) : (raiseAll b c).dir = b.dir := rfl
@[simp] theorem raiseAll_usage (b : Block) (c : BitVec 16) : (raiseAll b c).usage = b.usage := rfl
@[simp] theorem raiseAll_storeSeq (b : Block) (c : BitVec 16) : (raiseAll b c).storeSeq = b.storeSeq := rfl
@[simp] theorem raiseAll_sectors (b : Block) (c : BitVec 16) : (raiseAll b c).sectors = b.sectors := rfl
@[simp] theorem raiseAll_spaceLow (b : Block) (c : BitVec 16) : (raiseAll b c).spaceLow = b.spaceLow := rfl
@[simp] theorem raiseAll_cycle (b : Block) (c : BitVec 16) : (raiseAll b c).cycle = b.cycle := rfl
@[simp] theorem raiseAll_engine (b : Block) (c : BitVec 16) : (raiseAll b c).engine = b.engine := rfl
@[simp] theorem raiseAll_issued (b : Block) (c : BitVec 16) : (raiseAll b c).issued = b.issued := rfl
@[simp] theorem raiseAll_holder (b : Block) (c : BitVec 16) : (raiseAll b c).holder = b.holder := rfl
@[simp] theorem raiseAll_reclaimFlag (b : Block) (c : BitVec 16) : (raiseAll b c).reclaimFlag = b.reclaimFlag := rfl
@[simp] theorem raiseAll_lastGranted (b : Block) (c : BitVec 16) : (raiseAll b c).lastGranted = b.lastGranted := rfl
@[simp] theorem raiseAll_banks (b : Block) (c : BitVec 16) : (raiseAll b c).banks = b.banks := rfl
@[simp] theorem raiseAll_select (b : Block) (c : BitVec 16) : (raiseAll b c).select = b.select := rfl
@[simp] theorem raiseAll_wire (b : Block) (c : BitVec 16) : (raiseAll b c).wire = b.wire := rfl

/-! ## Rows of the sector table -/

@[simp] theorem row_setRow_same (b : Block) (x : Sector) (r : SectorRow) : row (setRow b x r) x = r := by
  show (b.sectors.set x r)[x.val] = r
  simp

theorem row_setRow_other (b : Block) {x y : Sector} (r : SectorRow) (h : y ≠ x) : row (setRow b x r) y = row b y := by
  have hv : x.val ≠ y.val := fun e => h (Fin.ext e.symm)
  show (b.sectors.set x r)[y.val] = b.sectors[y.val]
  rw [Vector.getElem_set_ne x.isLt y.isLt hv]

@[simp] theorem setRow_inReset (b : Block) (x : Sector) (r : SectorRow) : (setRow b x r).inReset = b.inReset := rfl
@[simp] theorem setRow_storeState (b : Block) (x : Sector) (r : SectorRow) : (setRow b x r).storeState = b.storeState := rfl
@[simp] theorem setRow_generation (b : Block) (x : Sector) (r : SectorRow) : (setRow b x r).generation = b.generation := rfl
@[simp] theorem setRow_admin (b : Block) (x : Sector) (r : SectorRow) : (setRow b x r).admin = b.admin := rfl
@[simp] theorem setRow_addrStraps (b : Block) (x : Sector) (r : SectorRow) : (setRow b x r).addrStraps = b.addrStraps := rfl
@[simp] theorem setRow_policy (b : Block) (x : Sector) (r : SectorRow) : (setRow b x r).policy = b.policy := rfl
@[simp] theorem setRow_corruptCount (b : Block) (x : Sector) (r : SectorRow) : (setRow b x r).corruptCount = b.corruptCount := rfl
@[simp] theorem setRow_retryCount (b : Block) (x : Sector) (r : SectorRow) : (setRow b x r).retryCount = b.retryCount := rfl
@[simp] theorem setRow_mount (b : Block) (x : Sector) (r : SectorRow) : (setRow b x r).mount = b.mount := rfl
@[simp] theorem setRow_dir (b : Block) (x : Sector) (r : SectorRow) : (setRow b x r).dir = b.dir := rfl
@[simp] theorem setRow_usage (b : Block) (x : Sector) (r : SectorRow) : (setRow b x r).usage = b.usage := rfl
@[simp] theorem setRow_storeSeq (b : Block) (x : Sector) (r : SectorRow) : (setRow b x r).storeSeq = b.storeSeq := rfl
@[simp] theorem setRow_spaceLow (b : Block) (x : Sector) (r : SectorRow) : (setRow b x r).spaceLow = b.spaceLow := rfl
@[simp] theorem setRow_cycle (b : Block) (x : Sector) (r : SectorRow) : (setRow b x r).cycle = b.cycle := rfl
@[simp] theorem setRow_engine (b : Block) (x : Sector) (r : SectorRow) : (setRow b x r).engine = b.engine := rfl
@[simp] theorem setRow_issued (b : Block) (x : Sector) (r : SectorRow) : (setRow b x r).issued = b.issued := rfl
@[simp] theorem setRow_holder (b : Block) (x : Sector) (r : SectorRow) : (setRow b x r).holder = b.holder := rfl
@[simp] theorem setRow_reclaimFlag (b : Block) (x : Sector) (r : SectorRow) : (setRow b x r).reclaimFlag = b.reclaimFlag := rfl
@[simp] theorem setRow_lastGranted (b : Block) (x : Sector) (r : SectorRow) : (setRow b x r).lastGranted = b.lastGranted := rfl
@[simp] theorem setRow_banks (b : Block) (x : Sector) (r : SectorRow) : (setRow b x r).banks = b.banks := rfl
@[simp] theorem setRow_select (b : Block) (x : Sector) (r : SectorRow) : (setRow b x r).select = b.select := rfl
@[simp] theorem setRow_wire (b : Block) (x : Sector) (r : SectorRow) : (setRow b x r).wire = b.wire := rfl
@[simp] theorem setRow_ports (b : Block) (x : Sector) (r : SectorRow) : (setRow b x r).ports = b.ports := rfl

/-! ## Work in hand, operations issued, framing -/

@[simp] theorem setMount_inReset (b : Block) (w : MountWork) : (setMount b w).inReset = b.inReset := rfl
@[simp] theorem setMount_storeState (b : Block) (w : MountWork) : (setMount b w).storeState = b.storeState := rfl
@[simp] theorem setMount_generation (b : Block) (w : MountWork) : (setMount b w).generation = b.generation := rfl
@[simp] theorem setMount_admin (b : Block) (w : MountWork) : (setMount b w).admin = b.admin := rfl
@[simp] theorem setMount_addrStraps (b : Block) (w : MountWork) : (setMount b w).addrStraps = b.addrStraps := rfl
@[simp] theorem setMount_policy (b : Block) (w : MountWork) : (setMount b w).policy = b.policy := rfl
@[simp] theorem setMount_corruptCount (b : Block) (w : MountWork) : (setMount b w).corruptCount = b.corruptCount := rfl
@[simp] theorem setMount_retryCount (b : Block) (w : MountWork) : (setMount b w).retryCount = b.retryCount := rfl
@[simp] theorem setMount_mount (b : Block) (w : MountWork) : (setMount b w).mount = b.mount := rfl
@[simp] theorem setMount_dir (b : Block) (w : MountWork) : (setMount b w).dir = b.dir := rfl
@[simp] theorem setMount_usage (b : Block) (w : MountWork) : (setMount b w).usage = b.usage := rfl
@[simp] theorem setMount_storeSeq (b : Block) (w : MountWork) : (setMount b w).storeSeq = b.storeSeq := rfl
@[simp] theorem setMount_sectors (b : Block) (w : MountWork) : (setMount b w).sectors = b.sectors := rfl
@[simp] theorem setMount_spaceLow (b : Block) (w : MountWork) : (setMount b w).spaceLow = b.spaceLow := rfl
@[simp] theorem setMount_cycle (b : Block) (w : MountWork) : (setMount b w).cycle = b.cycle := rfl
@[simp] theorem setMount_engine (b : Block) (w : MountWork) : (setMount b w).engine = b.engine := rfl
@[simp] theorem setMount_issued (b : Block) (w : MountWork) : (setMount b w).issued = b.issued := rfl
@[simp] theorem setMount_reclaimFlag (b : Block) (w : MountWork) : (setMount b w).reclaimFlag = b.reclaimFlag := rfl
@[simp] theorem setMount_lastGranted (b : Block) (w : MountWork) : (setMount b w).lastGranted = b.lastGranted := rfl
@[simp] theorem setMount_banks (b : Block) (w : MountWork) : (setMount b w).banks = b.banks := rfl
@[simp] theorem setMount_select (b : Block) (w : MountWork) : (setMount b w).select = b.select := rfl
@[simp] theorem setMount_wire (b : Block) (w : MountWork) : (setMount b w).wire = b.wire := rfl
@[simp] theorem setMount_ports (b : Block) (w : MountWork) : (setMount b w).ports = b.ports := rfl
@[simp] theorem setWork_inReset (b : Block) (p : Port) (w : JobWork) : (setWork b p w).inReset = b.inReset := rfl
@[simp] theorem setWork_storeState (b : Block) (p : Port) (w : JobWork) : (setWork b p w).storeState = b.storeState := rfl
@[simp] theorem setWork_generation (b : Block) (p : Port) (w : JobWork) : (setWork b p w).generation = b.generation := rfl
@[simp] theorem setWork_admin (b : Block) (p : Port) (w : JobWork) : (setWork b p w).admin = b.admin := rfl
@[simp] theorem setWork_addrStraps (b : Block) (p : Port) (w : JobWork) : (setWork b p w).addrStraps = b.addrStraps := rfl
@[simp] theorem setWork_policy (b : Block) (p : Port) (w : JobWork) : (setWork b p w).policy = b.policy := rfl
@[simp] theorem setWork_corruptCount (b : Block) (p : Port) (w : JobWork) : (setWork b p w).corruptCount = b.corruptCount := rfl
@[simp] theorem setWork_retryCount (b : Block) (p : Port) (w : JobWork) : (setWork b p w).retryCount = b.retryCount := rfl
@[simp] theorem setWork_mount (b : Block) (p : Port) (w : JobWork) : (setWork b p w).mount = b.mount := rfl
@[simp] theorem setWork_dir (b : Block) (p : Port) (w : JobWork) : (setWork b p w).dir = b.dir := rfl
@[simp] theorem setWork_usage (b : Block) (p : Port) (w : JobWork) : (setWork b p w).usage = b.usage := rfl
@[simp] theorem setWork_storeSeq (b : Block) (p : Port) (w : JobWork) : (setWork b p w).storeSeq = b.storeSeq := rfl
@[simp] theorem setWork_sectors (b : Block) (p : Port) (w : JobWork) : (setWork b p w).sectors = b.sectors := rfl
@[simp] theorem setWork_spaceLow (b : Block) (p : Port) (w : JobWork) : (setWork b p w).spaceLow = b.spaceLow := rfl
@[simp] theorem setWork_cycle (b : Block) (p : Port) (w : JobWork) : (setWork b p w).cycle = b.cycle := rfl
@[simp] theorem setWork_engine (b : Block) (p : Port) (w : JobWork) : (setWork b p w).engine = b.engine := rfl
@[simp] theorem setWork_issued (b : Block) (p : Port) (w : JobWork) : (setWork b p w).issued = b.issued := rfl
@[simp] theorem setWork_reclaimFlag (b : Block) (p : Port) (w : JobWork) : (setWork b p w).reclaimFlag = b.reclaimFlag := rfl
@[simp] theorem setWork_lastGranted (b : Block) (p : Port) (w : JobWork) : (setWork b p w).lastGranted = b.lastGranted := rfl
@[simp] theorem setWork_banks (b : Block) (p : Port) (w : JobWork) : (setWork b p w).banks = b.banks := rfl
@[simp] theorem setWork_select (b : Block) (p : Port) (w : JobWork) : (setWork b p w).select = b.select := rfl
@[simp] theorem setWork_wire (b : Block) (p : Port) (w : JobWork) : (setWork b p w).wire = b.wire := rfl
@[simp] theorem setWork_ports (b : Block) (p : Port) (w : JobWork) : (setWork b p w).ports = b.ports := rfl

@[simp] theorem setMount_holder (b : Block) (w : MountWork) : (setMount b w).holder = .mount w := rfl

@[simp] theorem setWork_holder (b : Block) (p : Port) (w : JobWork) : (setWork b p w).holder = .job p w := rfl

@[simp] theorem modSelect_get (b : Block) (p : SelPort) (f : SelectFraming → SelectFraming) :
    (modSelect b p f).select.get p = f (b.select.get p) := PerSel.get_set_same _ _ _

@[simp] theorem modSelect_ports (b : Block) (p : SelPort) (f : SelectFraming → SelectFraming) :
    (modSelect b p f).ports = b.ports := rfl

@[simp] theorem modSelect_modSelect (b : Block) (p : SelPort) (f g : SelectFraming → SelectFraming) :
    modSelect (modSelect b p f) p g = modSelect b p fun q => g (f q) := by
  simp [modSelect]

@[simp] theorem setWire_wire (b : Block) (w : WireFraming) : (setWire b w).wire = w := rfl

@[simp] theorem setWire_ports (b : Block) (w : WireFraming) : (setWire b w).ports = b.ports := rfl

end Machine

end Sys2Proof
end

