-- ==== Sys2Proof/Laws/Memory.lean ====
section
/-! SUPPORT. The array: reading after writing, what a program and an erase leave, and the canonical form that every operation keeps. -/

namespace Sys2Proof.Machine

/-! ## The canonical form, cell by cell -/

theorem cellsRising_cons (c : Host.Cell) (rest : List Host.Cell) :
    cellsRising (c :: rest) = true ↔ (∀ d ∈ rest, c.1 < d.1) ∧ cellsRising rest = true := by
  induction rest generalizing c with
  | nil => simp [cellsRising]
  | cons d rest ih =>
    obtain ⟨a, v⟩ := c
    obtain ⟨a', v'⟩ := d
    simp only [cellsRising, Bool.and_eq_true, decide_eq_true_eq, List.mem_cons, forall_eq_or_imp]
    constructor
    · rintro ⟨h1, h2⟩
      exact ⟨⟨h1, fun d hd => lt_trans h1 (((ih _).1 h2).1 d hd)⟩, h2⟩
    · rintro ⟨⟨h1, -⟩, h2⟩
      exact ⟨h1, h2⟩

/-- What the canonical form says. -/
theorem Memory.wf_iff (m : List Host.Cell) :
    Memory.wf m = true ↔ cellsRising m = true ∧ ∀ c ∈ m, c.2 ≠ unlisted ∧ c.1 < Config.arrayBytes := by
  simp [Memory.wf]

theorem readByte_of_below {m : List Host.Cell} {x : Nat} (h : ∀ d ∈ m, x < d.1) : readByte m x = unlisted := by
  induction m with
  | nil => rfl
  | cons c rest ih =>
    obtain ⟨a, v⟩ := c
    have hx : x < a := h (a, v) (by simp)
    simp only [readByte]
    rw [if_neg (by omega)]
    exact ih fun d hd => h d (by simp [hd])

theorem mem_putCell {m : List Host.Cell} {x : Nat} {v : Byte} {c : Host.Cell} (h : c ∈ putCell m x v) :
    c ∈ m ∨ (c = (x, v) ∧ v ≠ unlisted) := by
  induction m with
  | nil =>
    simp only [putCell] at h
    split at h <;> simp_all
  | cons d rest ih =>
    obtain ⟨a, w⟩ := d
    simp only [putCell] at h
    split at h
    · split at h
      · exact .inl h
      · rename_i hv
        rcases List.mem_cons.1 h with h | h
        · exact .inr ⟨h, hv⟩
        · exact .inl h
    · split at h
      · split at h
        · exact .inl (List.mem_cons_of_mem _ h)
        · rename_i hv
          rcases List.mem_cons.1 h with h | h
          · exact .inr ⟨h, hv⟩
          · exact .inl (List.mem_cons_of_mem _ h)
      · simp only [List.mem_cons] at h ⊢
        rcases h with h | h
        · exact .inl (.inl h)
        · rcases ih h with h | h
          · exact .inl (.inr h)
          · exact .inr h

theorem putCell_rising {m : List Host.Cell} (x : Nat) (v : Byte) (h : cellsRising m = true) :
    cellsRising (putCell m x v) = true := by
  induction m with
  | nil => simp only [putCell]; split <;> simp [cellsRising]
  | cons c rest ih =>
    obtain ⟨a, w⟩ := c
    obtain ⟨h1, h2⟩ := (cellsRising_cons _ _).1 h
    simp only [putCell]
    split
    · rename_i hx
      split
      · exact h
      · exact (cellsRising_cons _ _).2 ⟨fun d hd => by
          rcases List.mem_cons.1 hd with rfl | hd
          · exact hx
          · exact lt_trans hx (h1 d hd), h⟩
    · split
      · rename_i hx
        split
        · exact h2
        · exact (cellsRising_cons _ _).2 ⟨fun d hd => by have := h1 d hd; simp only at this ⊢; omega, h2⟩
      · rename_i hx hne
        refine (cellsRising_cons _ _).2 ⟨fun d hd => ?_, ih h2⟩
        rcases mem_putCell hd with hd | ⟨rfl, -⟩
        · exact h1 d hd
        · simp only; omega

/-- Reading after a write: the value written there, and everything else as before. -/
theorem readByte_putCell {m : List Host.Cell} (h : cellsRising m = true) (x : Nat) (v : Byte) (a : Nat) :
    readByte (putCell m x v) a = if a = x then v else readByte m a := by
  induction m with
  | nil =>
    simp only [putCell]
    split
    · rename_i hv; simp [readByte, hv]
    · simp only [readByte, eq_comm]
  | cons c rest ih =>
    obtain ⟨b, w⟩ := c
    obtain ⟨h1, h2⟩ := (cellsRising_cons _ _).1 h
    simp only [putCell]
    split
    · rename_i hx
      have hb : readByte ((b, w) :: rest) x = unlisted :=
        readByte_of_below fun d hd => by
          rcases List.mem_cons.1 hd with rfl | hd
          · exact hx
          · exact lt_trans hx (h1 d hd)
      split
      · rename_i hv
        split
        · rename_i ha; rw [ha, hb, hv]
        · rfl
      · simp only [readByte, eq_comm]
    · split
      · rename_i hx
        subst hx
        have hb : readByte rest x = unlisted := readByte_of_below h1
        split
        · rename_i hv
          split
          · rename_i ha; rw [ha, hb, hv]
          · rename_i ha; simp only [readByte]; rw [if_neg (fun e => ha e.symm)]
        · simp only [readByte]
          by_cases ha : x = a
          · subst ha; simp
          · rw [if_neg ha, if_neg ha, if_neg (fun e => ha e.symm)]
      · rename_i hx hne
        simp only [readByte, ih h2]
        by_cases ha : b = a
        · subst ha; rw [if_pos rfl, if_neg (fun e => hne e.symm), if_pos rfl]
        · rw [if_neg ha, if_neg ha]

theorem putCell_wf {m : List Host.Cell} {x : Nat} (v : Byte) (hx : x < Config.arrayBytes) (h : Memory.wf m = true) :
    Memory.wf (putCell m x v) = true := by
  obtain ⟨h1, h2⟩ := (Memory.wf_iff m).1 h
  refine (Memory.wf_iff _).2 ⟨putCell_rising x v h1, fun c hc => ?_⟩
  rcases mem_putCell hc with hc | ⟨rfl, hv⟩
  · exact h2 c hc
  · exact ⟨hv, hx⟩

/-! ## One byte of a sector -/

theorem address_lt (x : Sector) {o : Nat} (h : o < Config.sectorBytes) : address x o < Config.arrayBytes := by
  have := x.isLt
  simp only [address, Config.sectorBytes, Config.arrayBytes] at *
  omega

theorem writeByte_wf {m : List Host.Cell} (x : Sector) (o : Nat) (v : Byte) (h : Memory.wf m = true) :
    Memory.wf (writeByte m x o v) = true := by
  unfold writeByte
  split
  · rename_i ho; exact putCell_wf v (address_lt x ho) h
  · exact h

theorem readByte_writeByte {m : List Host.Cell} (h : Memory.wf m = true) (x : Sector) {o : Nat} (ho : o < Config.sectorBytes)
    (v : Byte) (a : Nat) : readByte (writeByte m x o v) a = if a = address x o then v else readByte m a := by
  unfold writeByte
  rw [if_pos ho]
  exact readByte_putCell ((Memory.wf_iff m).1 h).1 _ _ _

/-! ## Programs (R43) -/

theorem programRun_wf {m : List Host.Cell} (x : Sector) (o : Nat) (bytes miss : List Byte) (h : Memory.wf m = true) :
    Memory.wf (programRun m x o bytes miss) = true := by
  induction bytes generalizing m o miss with
  | nil => exact h
  | cons v vs ih => exact ih _ _ (writeByte_wf _ _ _ h)

/-- Bytes outside the run are as before. -/
theorem readByte_programRun_outside {m : List Host.Cell} (h : Memory.wf m = true) (x : Sector) (o : Nat)
    (bytes miss : List Byte) (a : Nat) (ha : a < address x o ∨ address x o + bytes.length ≤ a) :
    readByte (programRun m x o bytes miss) a = readByte m a := by
  induction bytes generalizing m o miss with
  | nil => rfl
  | cons v vs ih =>
    simp only [List.length_cons] at ha
    have e : address x (o + 1) = address x o + 1 := by simp only [address]; omega
    simp only [programRun]
    rw [ih (writeByte_wf _ _ _ h) _ _ (by rw [e]; omega)]
    by_cases ho : o < Config.sectorBytes
    · rw [readByte_writeByte h x ho, if_neg (by omega)]
    · unfold writeByte; rw [if_neg ho]

/-- Each byte of the run is the AND of its old value and the requested one, but for the bits that did not take. -/
theorem readByte_programRun_inside {m : List Host.Cell} (h : Memory.wf m = true) (x : Sector) (o : Nat)
    (bytes miss : List Byte) (hrun : o + bytes.length ≤ Config.sectorBytes) (i : Nat) (hi : i < bytes.length) :
    readByte (programRun m x o bytes miss) (address x (o + i)) =
      programmed (readByte m (address x (o + i))) (bytes.getD i 0) (miss.getD i 0) := by
  induction bytes generalizing m o miss i with
  | nil => simp at hi
  | cons v vs ih =>
    simp only [List.length_cons] at hrun hi
    have ho : o < Config.sectorBytes := by omega
    simp only [programRun]
    cases i with
    | zero =>
      rw [readByte_programRun_outside (writeByte_wf _ _ _ h) _ _ _ _ _ (by simp only [address]; omega),
        Nat.add_zero, readByte_writeByte h x ho, if_pos rfl]
      cases miss <;> simp
    | succ i =>
      have e : o + (i + 1) = (o + 1) + i := by omega
      rw [e, ih (writeByte_wf _ _ _ h) _ _ (by omega) i (by omega), readByte_writeByte h x ho,
        if_neg (by simp only [address]; omega)]
      cases miss <;> simp

/-! ## Erases (R44) -/

theorem filter_rising {m : List Host.Cell} (f : Host.Cell → Bool) (h : cellsRising m = true) :
    cellsRising (m.filter f) = true := by
  induction m with
  | nil => rfl
  | cons c rest ih =>
    obtain ⟨h1, h2⟩ := (cellsRising_cons _ _).1 h
    simp only [List.filter_cons]
    split
    · exact (cellsRising_cons _ _).2 ⟨fun d hd => h1 d (List.mem_of_mem_filter hd), ih h2⟩
    · exact ih h2

theorem filter_wf {m : List Host.Cell} (f : Host.Cell → Bool) (h : Memory.wf m = true) :
    Memory.wf (m.filter f) = true := by
  obtain ⟨h1, h2⟩ := (Memory.wf_iff m).1 h
  exact (Memory.wf_iff _).2 ⟨filter_rising f h1, fun c hc => h2 c (List.mem_of_mem_filter hc)⟩

theorem readByte_filter {m : List Host.Cell} (f : Nat → Bool) (a : Nat) :
    readByte (m.filter fun c => f c.1) a = if f a then readByte m a else unlisted := by
  induction m with
  | nil => simp [readByte]
  | cons c rest ih =>
    obtain ⟨b, w⟩ := c
    simp only [List.filter_cons]
    by_cases hf : f b
    · rw [if_pos hf]
      simp only [readByte, ih]
      by_cases hb : b = a
      · subst hb; simp [hf]
      · rw [if_neg hb, if_neg hb]
    · rw [if_neg hf, ih]
      simp only [readByte]
      by_cases hb : b = a
      · subst hb; simp [hf]
      · rw [if_neg hb]

theorem writeResidue_wf {m : List Host.Cell} (x : Sector) (residue : List (Nat × Byte)) (h : Memory.wf m = true) :
    Memory.wf (writeResidue m x residue) = true := by
  induction residue generalizing m with
  | nil => exact h
  | cons c rest ih => exact ih (writeByte_wf _ _ _ h)

theorem eraseRun_wf {m : List Host.Cell} (x : Sector) (residue : List (Nat × Byte)) (h : Memory.wf m = true) :
    Memory.wf (eraseRun m x residue) = true := writeResidue_wf _ _ (filter_wf _ h)

theorem readByte_writeResidue_outside {m : List Host.Cell} (h : Memory.wf m = true) (x : Sector)
    (residue : List (Nat × Byte)) (a : Nat) (ha : inSector x a = false) :
    readByte (writeResidue m x residue) a = readByte m a := by
  induction residue generalizing m with
  | nil => rfl
  | cons c rest ih =>
    obtain ⟨o, v⟩ := c
    simp only [writeResidue]
    rw [ih (writeByte_wf _ _ _ h)]
    by_cases ho : o < Config.sectorBytes
    · rw [readByte_writeByte h x ho, if_neg]
      intro e
      subst e
      have hin : inSector x (address x o) = true := by
        simp only [inSector, address, Config.sectorBytes, Bool.and_eq_true] at ho ⊢
        exact ⟨decide_eq_true (by omega), decide_eq_true (by omega)⟩
      rw [hin] at ha
      exact Bool.noConfusion ha
    · unfold writeByte; rw [if_neg ho]

/-- An erase leaves every byte outside its sector. -/
theorem readByte_eraseRun_outside {m : List Host.Cell} (h : Memory.wf m = true) (x : Sector)
    (residue : List (Nat × Byte)) (a : Nat) (ha : inSector x a = false) :
    readByte (eraseRun m x residue) a = readByte m a := by
  unfold eraseRun
  rw [readByte_writeResidue_outside (filter_wf _ h) _ _ _ ha, readByte_filter (fun a => !inSector x a)]
  simp [ha]

/-- An erase that leaves nothing behind sets every byte of its sector to FFh. -/
theorem readByte_eraseRun_inside (m : List Host.Cell) (x : Sector) (a : Nat) (ha : inSector x a = true) :
    readByte (eraseRun m x []) a = 0xFF := by
  unfold eraseRun
  simp only [writeResidue]
  rw [readByte_filter (fun a => !inSector x a)]
  simp [ha, unlisted]

/-- Such an erase verifies (R44). -/
theorem verifyOk_eraseRun (m : List Host.Cell) (x : Sector) : verifyOk (eraseRun m x []) x = true := by
  simp only [verifyOk, eraseRun, writeResidue, List.all_eq_true, List.mem_filter]
  rintro c ⟨-, hc⟩
  simp_all

/-! ## Runs -/

theorem readRun_length (m : List Host.Cell) (x : Sector) (o n : Nat) : (readRun m x o n).length = n := by
  induction n generalizing o with
  | zero => rfl
  | succ n ih => simp [readRun, ih]

theorem readRun_getD (m : List Host.Cell) (x : Sector) (o n i : Nat) (hi : i < n) (d : Byte) :
    (readRun m x o n).getD i d = readByte m (address x (o + i)) := by
  induction n generalizing o i with
  | zero => omega
  | succ n ih =>
    cases i with
    | zero => simp [readRun]
    | succ i =>
      have e : o + (i + 1) = (o + 1) + i := by omega
      have := ih (o + 1) i (by omega)
      rw [e, ← this]
      simp [readRun]

/-- A mark that takes reads back set (R43). -/
theorem readbackOk_mark {m : List Host.Cell} (h : Memory.wf m = true) (x : Sector) {o : Nat} (ho : o < Config.sectorBytes) :
    readbackOk (programRun m x o [0x00] []) x o [0x00] = true := by
  have := readByte_programRun_inside h x o [0x00] [] ho 0 (by simp)
  rw [Nat.add_zero] at this
  simp only [readbackOk, List.length_cons, List.length_nil, readRun, beq_iff_eq, List.cons.injEq, and_true]
  rw [this]
  simp [programmed]

/-- After a reset the array is in its canonical form. -/
theorem reset_array_wf : Memory.wf State.reset.array = true := by decide

end Sys2Proof.Machine
end

