-- ==== Sys2Proof/Laws/Directory.lean ====
section
/-! SUPPORT. The directory: finding, filling and freeing slots, its ascending order, and what these do to the usage sums. -/

namespace Sys2Proof.Machine

/-! ## Ascending keys -/

theorem key_lt_of_not (a b : Key) (h1 : ¬a < b) (h2 : ¬a = b) : b < a := by
  rw [BitVec.lt_def] at h1 ⊢
  have : a.toNat ≠ b.toNat := fun e => h2 (BitVec.eq_of_toNat_eq e)
  omega

theorem key_ne_of_lt {a b : Key} (h : a < b) : a ≠ b := by
  rintro rfl
  rw [BitVec.lt_def] at h
  omega

theorem key_lt_trans {a b c : Key} (h : a < b) (h' : b < c) : a < c := by
  rw [BitVec.lt_def] at *
  omega

theorem dirSorted_cons (d : DirSlot) (rest : List DirSlot) :
    dirSorted (d :: rest) = true ↔ (∀ e ∈ rest, d.key < e.key) ∧ dirSorted rest = true := by
  induction rest generalizing d with
  | nil => simp [dirSorted]
  | cons e rest ih =>
    simp only [dirSorted, Bool.and_eq_true, decide_eq_true_eq, List.mem_cons, forall_eq_or_imp]
    constructor
    · rintro ⟨h1, h2⟩
      exact ⟨⟨h1, fun f hf => key_lt_trans h1 (((ih _).1 h2).1 f hf)⟩, h2⟩
    · rintro ⟨⟨h1, -⟩, h2⟩
      exact ⟨h1, h2⟩

theorem mem_dirPut {d e : DirSlot} {dir : List DirSlot} (h : e ∈ dirPut d dir) : e = d ∨ e ∈ dir := by
  induction dir with
  | nil => simp [dirPut] at h; exact .inl h
  | cons c rest ih =>
    simp only [dirPut] at h
    split at h
    · rcases List.mem_cons.1 h with h | h
      · exact .inl h
      · exact .inr h
    · split at h
      · rcases List.mem_cons.1 h with h | h
        · exact .inl h
        · exact .inr (List.mem_cons_of_mem _ h)
      · rcases List.mem_cons.1 h with h | h
        · exact .inr (h ▸ List.mem_cons_self)
        · rcases ih h with h | h
          · exact .inl h
          · exact .inr (List.mem_cons_of_mem _ h)

/-- Filling a slot keeps the order. -/
theorem dirPut_sorted (d : DirSlot) {dir : List DirSlot} (h : dirSorted dir = true) : dirSorted (dirPut d dir) = true := by
  induction dir with
  | nil => simp [dirPut, dirSorted]
  | cons c rest ih =>
    obtain ⟨h1, h2⟩ := (dirSorted_cons _ _).1 h
    simp only [dirPut]
    split
    · rename_i hlt
      exact (dirSorted_cons _ _).2 ⟨fun e he => by
        rcases List.mem_cons.1 he with rfl | he
        · exact hlt
        · exact key_lt_trans hlt (h1 e he), h⟩
    · split
      · rename_i heq
        exact (dirSorted_cons _ _).2 ⟨fun e he => by rw [heq]; exact h1 e he, h2⟩
      · rename_i hlt heq
        refine (dirSorted_cons _ _).2 ⟨fun e he => ?_, ih h2⟩
        rcases mem_dirPut he with rfl | he
        · exact key_lt_of_not _ _ hlt heq
        · exact h1 e he

theorem filter_sorted (f : DirSlot → Bool) {dir : List DirSlot} (h : dirSorted dir = true) :
    dirSorted (dir.filter f) = true := by
  induction dir with
  | nil => rfl
  | cons c rest ih =>
    obtain ⟨h1, h2⟩ := (dirSorted_cons _ _).1 h
    simp only [List.filter_cons]
    split
    · exact (dirSorted_cons _ _).2 ⟨fun e he => h1 e (List.mem_of_mem_filter he), ih h2⟩
    · exact ih h2

/-- Freeing a slot keeps the order. -/
theorem dirRemove_sorted (k : Key) {dir : List DirSlot} (h : dirSorted dir = true) : dirSorted (dirRemove k dir) = true :=
  filter_sorted _ h

theorem take_sorted (n : Nat) {dir : List DirSlot} (h : dirSorted dir = true) : dirSorted (dir.take n) = true := by
  induction dir generalizing n with
  | nil => simp [dirSorted]
  | cons c rest ih =>
    obtain ⟨h1, h2⟩ := (dirSorted_cons _ _).1 h
    cases n with
    | zero => rfl
    | succ n => exact (dirSorted_cons _ _).2 ⟨fun e he => h1 e (List.mem_of_mem_take he), ih n h2⟩

/-! ## Finding a slot -/

theorem dirFind_key {k : Key} {dir : List DirSlot} {d : DirSlot} (h : dirFind k dir = some d) : d.key = k := by
  induction dir with
  | nil => simp [dirFind] at h
  | cons c rest ih =>
    simp only [dirFind] at h
    split at h
    · rename_i hk; cases h; exact hk
    · exact ih h

theorem dirFind_mem {k : Key} {dir : List DirSlot} {d : DirSlot} (h : dirFind k dir = some d) : d ∈ dir := by
  induction dir with
  | nil => simp [dirFind] at h
  | cons c rest ih =>
    simp only [dirFind] at h
    split at h
    · cases h; exact List.mem_cons_self
    · exact List.mem_cons_of_mem _ (ih h)

theorem dirFind_none_of_below {k : Key} {dir : List DirSlot} (h : ∀ e ∈ dir, k < e.key) : dirFind k dir = none := by
  induction dir with
  | nil => rfl
  | cons c rest ih =>
    simp only [dirFind]
    rw [if_neg (fun e => key_ne_of_lt (h c List.mem_cons_self) e.symm)]
    exact ih fun e he => h e (List.mem_cons_of_mem _ he)

/-- After a slot is filled: its key finds it, and every other key finds what it found. -/
theorem dirFind_dirPut (d : DirSlot) {dir : List DirSlot} (h : dirSorted dir = true) (k : Key) :
    dirFind k (dirPut d dir) = if k = d.key then some d else dirFind k dir := by
  induction dir with
  | nil => simp only [dirPut, dirFind, eq_comm]
  | cons c rest ih =>
    obtain ⟨h1, h2⟩ := (dirSorted_cons _ _).1 h
    simp only [dirPut]
    split
    · simp only [dirFind, eq_comm]
    · split
      · rename_i heq
        simp only [dirFind]
        by_cases hk : k = d.key
        · rw [if_pos hk.symm, if_pos hk]
        · rw [if_neg (Ne.symm hk), if_neg hk, if_neg (fun e => hk (e.symm.trans heq.symm))]
      · rename_i hlt heq
        simp only [dirFind, ih h2]
        by_cases hc : c.key = k
        · rw [if_pos hc, if_neg (fun e => heq (e.symm.trans hc.symm)), if_pos hc]
        · rw [if_neg hc, if_neg hc]

/-! ## Usage sums (R18) -/

theorem usageSum_cons (d : DirSlot) (rest : List DirSlot) (p : Port) :
    usageSum (d :: rest) p = usageOf p d + usageSum rest p := by
  simp [usageSum]

theorem usageOf_le_of_find {k : Key} {dir : List DirSlot} {d : DirSlot} (p : Port) (h : dirFind k dir = some d) :
    usageOf p d ≤ usageSum dir p := by
  induction dir with
  | nil => simp [dirFind] at h
  | cons c rest ih =>
    rw [usageSum_cons]
    simp only [dirFind] at h
    split at h
    · cases h; omega
    · have := ih h; omega

/-- Filling a slot adds what it counts and takes what the slot counted before. -/
theorem usageSum_dirPut (d : DirSlot) {dir : List DirSlot} (h : dirSorted dir = true) (p : Port) :
    usageSum (dirPut d dir) p =
      usageSum dir p + usageOf p d - ((dirFind d.key dir).map (usageOf p)).getD 0 := by
  induction dir with
  | nil => simp [dirPut, usageSum, dirFind]
  | cons c rest ih =>
    obtain ⟨h1, h2⟩ := (dirSorted_cons _ _).1 h
    simp only [dirPut]
    split
    · rename_i hlt
      rw [dirFind_none_of_below (fun e he => by
        rcases List.mem_cons.1 he with rfl | he
        · exact hlt
        · exact key_lt_trans hlt (h1 e he))]
      simp only [usageSum_cons, Option.map_none, Option.getD_none]
      omega
    · split
      · rename_i heq
        simp only [dirFind, heq, if_pos, usageSum_cons, Option.map_some, Option.getD_some]
        omega
      · rename_i hlt heq
        simp only [dirFind, if_neg (Ne.symm heq), usageSum_cons, ih h2]
        cases hf : dirFind d.key rest with
        | none => simp only [Option.map_none, Option.getD_none]; omega
        | some e =>
          have := usageOf_le_of_find p hf
          simp only [Option.map_some, Option.getD_some]
          omega

/-- Filling a slot with one that counts the same leaves the sums. -/
theorem usageSum_dirPut_same {d e : DirSlot} {dir : List DirSlot} (h : dirSorted dir = true) (p : Port)
    (hf : dirFind d.key dir = some e) (hu : usageOf p d = usageOf p e) : usageSum (dirPut d dir) p = usageSum dir p := by
  have := usageOf_le_of_find p hf
  rw [usageSum_dirPut d h p, hf]
  simp only [Option.map_some, Option.getD_some]
  omega

/-- Freeing the slot of a tombstone leaves the sums. -/
theorem usageSum_dirRemove {k : Key} {d : DirSlot} {dir : List DirSlot} (h : dirSorted dir = true) (p : Port)
    (hf : dirFind k dir = some d) (hu : usageOf p d = 0) : usageSum (dirRemove k dir) p = usageSum dir p := by
  induction dir with
  | nil => rfl
  | cons c rest ih =>
    obtain ⟨h1, h2⟩ := (dirSorted_cons _ _).1 h
    simp only [dirFind] at hf
    unfold dirRemove at ih ⊢
    split at hf
    · rename_i hk
      cases hf
      have hrest : rest.filter (fun e => e.key != k) = rest :=
        List.filter_eq_self.2 fun e he => by
          have hne := key_ne_of_lt (h1 e he)
          rw [hk] at hne
          simpa using hne.symm
      rw [List.filter_cons_of_neg (by simp [hk]), hrest, usageSum_cons]
      omega
    · rename_i hk
      rw [List.filter_cons_of_pos (by simpa using hk), usageSum_cons, usageSum_cons, ih h2 hf]

end Sys2Proof.Machine
end

