-- ==== Sys2Proof/Laws/Space.lean ====
section
/-! SUPPORT. The space manager: which sector is the victim, which one an open takes, and what the evaluations of the space-low
condition and of the triggers leave as it was. -/

namespace Sys2Proof.Machine

open Safety

/-! ## Sectors -/

theorem mem_allSectors (x : Sector) : x ∈ allSectors := by
  simp only [allSectors, List.mem_map, List.mem_range]
  exact ⟨x.val, x.isLt, by simp⟩

theorem allSectors_ascending : allSectors.Pairwise (· < ·) := by decide

@[simp] theorem mem_inState (b : Block) (st : SectorState) (x : Sector) : x ∈ inState b st ↔ (row b x).state = st := by
  simp [inState, mem_allSectors]

/-! ## The best of a list -/

/-- The running best of an ascending list: it stands in the list and goes before every element of it. -/
theorem foldl_best {before : Sector → Sector → Prop} {pick : Option Sector → Sector → Option Sector}
    (trans : ∀ x y z, before x y → before y z → before x z) (refl : ∀ x, before x x)
    (first : ∀ x, pick none x = some x)
    (next : ∀ x y, y < x → (pick (some y) x = some x ∧ before x y) ∨ (pick (some y) x = some y ∧ before y x)) :
    ∀ (l : List Sector), l.Pairwise (· < ·) → ∀ best : Option Sector,
      (∀ y, best = some y → ∀ x ∈ l, y < x) →
      ∀ r, l.foldl pick best = some r →
        (r ∈ l ∨ best = some r) ∧ (∀ y, best = some y → before r y) ∧ ∀ x ∈ l, before r x := by
  intro l
  induction l with
  | nil => intro _ best _ r h; simp only [List.foldl_nil] at h; subst h; simp [refl]
  | cons x rest ih =>
    intro hp best hb r h
    rw [List.pairwise_cons] at hp
    simp only [List.foldl_cons] at h
    cases best with
    | none =>
      rw [first] at h
      obtain ⟨h1, h2, h3⟩ := ih hp.2 (some x) (by rintro y hy z hz; cases hy; exact hp.1 z hz) r h
      refine ⟨?_, by simp, ?_⟩
      · rcases h1 with h1 | h1
        · exact .inl (List.mem_cons_of_mem _ h1)
        · cases h1; simp
      · intro z hz; rcases List.mem_cons.mp hz with rfl | hz
        · exact h2 _ rfl
        · exact h3 z hz
    | some y =>
      have hyx : y < x := hb y rfl x (by simp)
      rcases next x y hyx with ⟨he, hxy⟩ | ⟨he, hyx'⟩ <;> rw [he] at h
      · obtain ⟨h1, h2, h3⟩ := ih hp.2 (some x) (by rintro w hw z hz; cases hw; exact hp.1 z hz) r h
        refine ⟨?_, ?_, ?_⟩
        · rcases h1 with h1 | h1
          · exact .inl (List.mem_cons_of_mem _ h1)
          · cases h1; simp
        · rintro w hw; cases hw; exact trans _ _ _ (h2 x rfl) hxy
        · intro z hz; rcases List.mem_cons.mp hz with rfl | hz
          · exact h2 _ rfl
          · exact h3 z hz
      · obtain ⟨h1, h2, h3⟩ := ih hp.2 (some y) (by
          rintro w hw z hz; cases hw; exact hb y rfl z (List.mem_cons_of_mem _ hz)) r h
        refine ⟨?_, ?_, ?_⟩
        · rcases h1 with h1 | h1
          · exact .inl (List.mem_cons_of_mem _ h1)
          · exact .inr h1
        · exact h2
        · intro z hz; rcases List.mem_cons.mp hz with rfl | hz
          · exact trans _ _ _ (h2 y rfl) hyx'
          · exact h3 z hz

/-- A running best of a list that is not empty is there. -/
theorem foldl_best_some {pick : Option Sector → Sector → Option Sector} (h : ∀ o x, (pick o x).isSome = true) :
    ∀ (l : List Sector) (o : Option Sector), l ≠ [] ∨ o.isSome = true → (l.foldl pick o).isSome = true := by
  intro l
  induction l with
  | nil => intro o ho; simpa using ho
  | cons x rest ih => intro o _; simp only [List.foldl_cons]; exact ih _ (.inr (h o x))

/-! ## The victim (R74, R75) -/

theorem mem_candidates (b : Block) (x : Sector) : x ∈ candidates b ↔ reclaimable b x := by
  simp [candidates, mem_allSectors, reclaimable]

/-- The victim is the one of R75. -/
theorem victim_isVictim {b : Block} {x : Sector} (h : victim b = some x) : isVictim b x := by
  have hl : (candidates b).Pairwise (· < ·) := allSectors_ascending.filter _
  have := foldl_best (before := victimBefore b) (pick := pickVictim b)
    (by intro x y z; unfold victimBefore; rintro (h | ⟨h, h'⟩) (k | ⟨k, k'⟩)
        · left; omega
        · left; omega
        · left; omega
        · right; refine ⟨by omega, ?_⟩
          rcases h' with h' | ⟨h', h''⟩ <;> rcases k' with k' | ⟨k', k''⟩
          · left; omega
          · left; rw [← k']; exact h'
          · left; rw [h']; exact k'
          · right; exact ⟨h'.trans k', le_trans h'' k''⟩)
    (by intro x; unfold victimBefore; simp)
    (fun _ => rfl)
    (by
      intro x y hyx
      simp only [pickVictim]
      by_cases hb : betterVictim b x y = true
      · left; refine ⟨by simp [hb], ?_⟩
        simp [betterVictim] at hb; unfold victimBefore; rcases hb with hb | ⟨h1, h2⟩
        · exact .inl hb
        · exact .inr ⟨h1, .inl h2⟩
      · right; refine ⟨by simp [hb], ?_⟩
        simp [betterVictim] at hb; unfold victimBefore
        obtain ⟨h1, h2⟩ := hb
        by_cases he : staleBytes b x = staleBytes b y
        · right; refine ⟨he.symm, ?_⟩
          have := h2 he
          by_cases hc : countOf b y = countOf b x
          · exact .inr ⟨hc, le_of_lt hyx⟩
          · left
            have : (countOf b y).toNat ≠ (countOf b x).toNat := fun hh => hc (BitVec.eq_of_toNat_eq hh)
            omega
        · left; omega)
    _ hl none (by simp) x h
  refine ⟨(mem_candidates b x).1 (by simpa using this.1), fun y hy => this.2.2 y ((mem_candidates b y).2 hy)⟩

/-- There is a victim exactly when a sector is reclaimable. -/
theorem victim_eq_none {b : Block} : victim b = none ↔ ∀ x, ¬reclaimable b x := by
  constructor
  · intro h x hx
    have := foldl_best_some (pick := pickVictim b) (by intro o x; unfold pickVictim; split <;> [rfl; (split <;> rfl)])
      (candidates b) none (.inl (List.ne_nil_of_mem ((mem_candidates b x).2 hx)))
    unfold victim at h; rw [h] at this; cases this
  · intro h
    have : candidates b = [] := List.eq_nil_iff_forall_not_mem.2 fun x hx => h x ((mem_candidates b x).1 hx)
    simp [victim, this]

/-! ## The sector an open takes (R67) -/

/-- The sector an open takes is ERASED and goes before every ERASED one. -/
theorem openChoice_spec {b : Block} {x : Sector} (h : openChoice b = some x) :
    (row b x).state = .erased ∧ ∀ y, (row b y).state = .erased → openBefore b x y := by
  have hl : (inState b .erased).Pairwise (· < ·) := allSectors_ascending.filter _
  have := foldl_best (before := openBefore b) (pick := pickOpen b)
    (by intro x y z; unfold openBefore; rintro (h | ⟨h, h'⟩) (k | ⟨k, k'⟩)
        · left; omega
        · left; rw [← k]; exact h
        · left; rw [h]; exact k
        · right; exact ⟨h.trans k, le_trans h' k'⟩)
    (by intro x; unfold openBefore; simp)
    (fun _ => rfl)
    (by
      intro x y hyx
      simp only [pickOpen]
      by_cases hb : betterOpen b x y = true
      · left; refine ⟨by simp [hb], ?_⟩
        simp [betterOpen] at hb; exact .inl hb
      · right; refine ⟨by simp [hb], ?_⟩
        simp [betterOpen] at hb; unfold openBefore
        by_cases hc : countOf b y = countOf b x
        · exact .inr ⟨hc, le_of_lt hyx⟩
        · left
          have : (countOf b y).toNat ≠ (countOf b x).toNat := fun hh => hc (BitVec.eq_of_toNat_eq hh)
          omega)
    _ hl none (by simp) x h
  exact ⟨by simpa using this.1, fun y hy => this.2.2 y (by simpa using hy)⟩

/-- An open finds a sector exactly when one is ERASED. -/
theorem openChoice_eq_none {b : Block} : openChoice b = none ↔ ∀ x, (row b x).state ≠ .erased := by
  constructor
  · intro h x hx
    have := foldl_best_some (pick := pickOpen b) (by intro o x; unfold pickOpen; split <;> [rfl; (split <;> rfl)])
      (inState b .erased) none (.inl (List.ne_nil_of_mem ((mem_inState b _ x).2 hx)))
    unfold openChoice at h; rw [h] at this; cases this
  · intro h
    have : inState b .erased = [] := List.eq_nil_iff_forall_not_mem.2 fun x hx => h x ((mem_inState b _ x).1 hx)
    simp [openChoice, this]

/-! ## What the evaluations leave -/

@[simp] theorem evalSpaceLow_inReset (b : Block) : (evalSpaceLow b).inReset = b.inReset := by
  unfold evalSpaceLow; split <;> [rfl; rfl; skip; skip; skip] <;> (simp only; split <;> rfl)
@[simp] theorem evalSpaceLow_storeState (b : Block) : (evalSpaceLow b).storeState = b.storeState := by
  unfold evalSpaceLow; split <;> [rfl; rfl; skip; skip; skip] <;> (simp only; split <;> rfl)
@[simp] theorem evalSpaceLow_generation (b : Block) : (evalSpaceLow b).generation = b.generation := by
  unfold evalSpaceLow; split <;> [rfl; rfl; skip; skip; skip] <;> (simp only; split <;> rfl)
@[simp] theorem evalSpaceLow_admin (b : Block) : (evalSpaceLow b).admin = b.admin := by
  unfold evalSpaceLow; split <;> [rfl; rfl; skip; skip; skip] <;> (simp only; split <;> rfl)
@[simp] theorem evalSpaceLow_addrStraps (b : Block) : (evalSpaceLow b).addrStraps = b.addrStraps := by
  unfold evalSpaceLow; split <;> [rfl; rfl; skip; skip; skip] <;> (simp only; split <;> rfl)
@[simp] theorem evalSpaceLow_policy (b : Block) : (evalSpaceLow b).policy = b.policy := by
  unfold evalSpaceLow; split <;> [rfl; rfl; skip; skip; skip] <;> (simp only; split <;> rfl)
@[simp] theorem evalSpaceLow_corruptCount (b : Block) : (evalSpaceLow b).corruptCount = b.corruptCount := by
  unfold evalSpaceLow; split <;> [rfl; rfl; skip; skip; skip] <;> (simp only; split <;> rfl)
@[simp] theorem evalSpaceLow_retryCount (b : Block) : (evalSpaceLow b).retryCount = b.retryCount := by
  unfold evalSpaceLow; split <;> [rfl; rfl; skip; skip; skip] <;> (simp only; split <;> rfl)
@[simp] theorem evalSpaceLow_mount (b : Block) : (evalSpaceLow b).mount = b.mount := by
  unfold evalSpaceLow; split <;> [rfl; rfl; skip; skip; skip] <;> (simp only; split <;> rfl)
@[simp] theorem evalSpaceLow_dir (b : Block) : (evalSpaceLow b).dir = b.dir := by
  unfold evalSpaceLow; split <;> [rfl; rfl; skip; skip; skip] <;> (simp only; split <;> rfl)
@[simp] theorem evalSpaceLow_usage (b : Block) : (evalSpaceLow b).usage = b.usage := by
  unfold evalSpaceLow; split <;> [rfl; rfl; skip; skip; skip] <;> (simp only; split <;> rfl)
@[simp] theorem evalSpaceLow_storeSeq (b : Block) : (evalSpaceLow b).storeSeq = b.storeSeq := by
  unfold evalSpaceLow; split <;> [rfl; rfl; skip; skip; skip] <;> (simp only; split <;> rfl)
@[simp] theorem evalSpaceLow_engine (b : Block) : (evalSpaceLow b).engine = b.engine := by
  unfold evalSpaceLow; split <;> [rfl; rfl; skip; skip; skip] <;> (simp only; split <;> rfl)
@[simp] theorem evalSpaceLow_issued (b : Block) : (evalSpaceLow b).issued = b.issued := by
  unfold evalSpaceLow; split <;> [rfl; rfl; skip; skip; skip] <;> (simp only; split <;> rfl)
@[simp] theorem evalSpaceLow_holder (b : Block) : (evalSpaceLow b).holder = b.holder := by
  unfold evalSpaceLow; split <;> [rfl; rfl; skip; skip; skip] <;> (simp only; split <;> rfl)
@[simp] theorem evalSpaceLow_lastGranted (b : Block) : (evalSpaceLow b).lastGranted = b.lastGranted := by
  unfold evalSpaceLow; split <;> [rfl; rfl; skip; skip; skip] <;> (simp only; split <;> rfl)
@[simp] theorem evalSpaceLow_banks (b : Block) : (evalSpaceLow b).banks = b.banks := by
  unfold evalSpaceLow; split <;> [rfl; rfl; skip; skip; skip] <;> (simp only; split <;> rfl)
@[simp] theorem evalSpaceLow_select (b : Block) : (evalSpaceLow b).select = b.select := by
  unfold evalSpaceLow; split <;> [rfl; rfl; skip; skip; skip] <;> (simp only; split <;> rfl)
@[simp] theorem evalSpaceLow_wire (b : Block) : (evalSpaceLow b).wire = b.wire := by
  unfold evalSpaceLow; split <;> [rfl; rfl; skip; skip; skip] <;> (simp only; split <;> rfl)
@[simp] theorem evalSpaceLow_cycle (b : Block) : (evalSpaceLow b).cycle = b.cycle := by
  unfold evalSpaceLow; split <;> [rfl; rfl; skip; skip; skip] <;> (simp only; split <;> rfl)
@[simp] theorem evalSpaceLow_reclaimFlag (b : Block) : (evalSpaceLow b).reclaimFlag = b.reclaimFlag := by
  unfold evalSpaceLow; split <;> [rfl; rfl; skip; skip; skip] <;> (simp only; split <;> rfl)
@[simp] theorem evalSpaceLow_sectors (b : Block) : (evalSpaceLow b).sectors = b.sectors := by
  unfold evalSpaceLow; split <;> [rfl; rfl; skip; skip; skip] <;> (simp only; split <;> rfl)
@[simp] theorem evalTriggers_inReset (b : Block) : (evalTriggers b).inReset = b.inReset := by
  unfold evalTriggers; split
  · split
    · split <;> rfl
    · rfl
  · rfl
@[simp] theorem evalTriggers_storeState (b : Block) : (evalTriggers b).storeState = b.storeState := by
  unfold evalTriggers; split
  · split
    · split <;> rfl
    · rfl
  · rfl
@[simp] theorem evalTriggers_generation (b : Block) : (evalTriggers b).generation = b.generation := by
  unfold evalTriggers; split
  · split
    · split <;> rfl
    · rfl
  · rfl
@[simp] theorem evalTriggers_admin (b : Block) : (evalTriggers b).admin = b.admin := by
  unfold evalTriggers; split
  · split
    · split <;> rfl
    · rfl
  · rfl
@[simp] theorem evalTriggers_addrStraps (b : Block) : (evalTriggers b).addrStraps = b.addrStraps := by
  unfold evalTriggers; split
  · split
    · split <;> rfl
    · rfl
  · rfl
@[simp] theorem evalTriggers_policy (b : Block) : (evalTriggers b).policy = b.policy := by
  unfold evalTriggers; split
  · split
    · split <;> rfl
    · rfl
  · rfl
@[simp] theorem evalTriggers_corruptCount (b : Block) : (evalTriggers b).corruptCount = b.corruptCount := by
  unfold evalTriggers; split
  · split
    · split <;> rfl
    · rfl
  · rfl
@[simp] theorem evalTriggers_retryCount (b : Block) : (evalTriggers b).retryCount = b.retryCount := by
  unfold evalTriggers; split
  · split
    · split <;> rfl
    · rfl
  · rfl
@[simp] theorem evalTriggers_mount (b : Block) : (evalTriggers b).mount = b.mount := by
  unfold evalTriggers; split
  · split
    · split <;> rfl
    · rfl
  · rfl
@[simp] theorem evalTriggers_dir (b : Block) : (evalTriggers b).dir = b.dir := by
  unfold evalTriggers; split
  · split
    · split <;> rfl
    · rfl
  · rfl
@[simp] theorem evalTriggers_usage (b : Block) : (evalTriggers b).usage = b.usage := by
  unfold evalTriggers; split
  · split
    · split <;> rfl
    · rfl
  · rfl
@[simp] theorem evalTriggers_storeSeq (b : Block) : (evalTriggers b).storeSeq = b.storeSeq := by
  unfold evalTriggers; split
  · split
    · split <;> rfl
    · rfl
  · rfl
@[simp] theorem evalTriggers_engine (b : Block) : (evalTriggers b).engine = b.engine := by
  unfold evalTriggers; split
  · split
    · split <;> rfl
    · rfl
  · rfl
@[simp] theorem evalTriggers_issued (b : Block) : (evalTriggers b).issued = b.issued := by
  unfold evalTriggers; split
  · split
    · split <;> rfl
    · rfl
  · rfl
@[simp] theorem evalTriggers_holder (b : Block) : (evalTriggers b).holder = b.holder := by
  unfold evalTriggers; split
  · split
    · split <;> rfl
    · rfl
  · rfl
@[simp] theorem evalTriggers_lastGranted (b : Block) : (evalTriggers b).lastGranted = b.lastGranted := by
  unfold evalTriggers; split
  · split
    · split <;> rfl
    · rfl
  · rfl
@[simp] theorem evalTriggers_banks (b : Block) : (evalTriggers b).banks = b.banks := by
  unfold evalTriggers; split
  · split
    · split <;> rfl
    · rfl
  · rfl
@[simp] theorem evalTriggers_select (b : Block) : (evalTriggers b).select = b.select := by
  unfold evalTriggers; split
  · split
    · split <;> rfl
    · rfl
  · rfl
@[simp] theorem evalTriggers_wire (b : Block) : (evalTriggers b).wire = b.wire := by
  unfold evalTriggers; split
  · split
    · split <;> rfl
    · rfl
  · rfl
@[simp] theorem evalTriggers_spaceLow (b : Block) : (evalTriggers b).spaceLow = b.spaceLow := by
  unfold evalTriggers; split
  · split
    · split <;> rfl
    · rfl
  · rfl
@[simp] theorem evalTriggers_ports (b : Block) : (evalTriggers b).ports = b.ports := by
  unfold evalTriggers; split
  · split
    · split <;> rfl
    · rfl
  · rfl
@[simp] theorem raiseFault_inReset (b : Block) : (raiseFault b).inReset = b.inReset := by
  unfold raiseFault; split <;> rfl
@[simp] theorem raiseFault_storeState (b : Block) : (raiseFault b).storeState = b.storeState := by
  unfold raiseFault; split <;> rfl
@[simp] theorem raiseFault_generation (b : Block) : (raiseFault b).generation = b.generation := by
  unfold raiseFault; split <;> rfl
@[simp] theorem raiseFault_admin (b : Block) : (raiseFault b).admin = b.admin := by
  unfold raiseFault; split <;> rfl
@[simp] theorem raiseFault_addrStraps (b : Block) : (raiseFault b).addrStraps = b.addrStraps := by
  unfold raiseFault; split <;> rfl
@[simp] theorem raiseFault_policy (b : Block) : (raiseFault b).policy = b.policy := by
  unfold raiseFault; split <;> rfl
@[simp] theorem raiseFault_corruptCount (b : Block) : (raiseFault b).corruptCount = b.corruptCount := by
  unfold raiseFault; split <;> rfl
@[simp] theorem raiseFault_retryCount (b : Block) : (raiseFault b).retryCount = b.retryCount := by
  unfold raiseFault; split <;> rfl
@[simp] theorem raiseFault_dir (b : Block) : (raiseFault b).dir = b.dir := by
  unfold raiseFault; split <;> rfl
@[simp] theorem raiseFault_usage (b : Block) : (raiseFault b).usage = b.usage := by
  unfold raiseFault; split <;> rfl
@[simp] theorem raiseFault_storeSeq (b : Block) : (raiseFault b).storeSeq = b.storeSeq := by
  unfold raiseFault; split <;> rfl
@[simp] theorem raiseFault_engine (b : Block) : (raiseFault b).engine = b.engine := by
  unfold raiseFault; split <;> rfl
@[simp] theorem raiseFault_issued (b : Block) : (raiseFault b).issued = b.issued := by
  unfold raiseFault; split <;> rfl
@[simp] theorem raiseFault_holder (b : Block) : (raiseFault b).holder = b.holder := by
  unfold raiseFault; split <;> rfl
@[simp] theorem raiseFault_lastGranted (b : Block) : (raiseFault b).lastGranted = b.lastGranted := by
  unfold raiseFault; split <;> rfl
@[simp] theorem raiseFault_banks (b : Block) : (raiseFault b).banks = b.banks := by
  unfold raiseFault; split <;> rfl
@[simp] theorem raiseFault_select (b : Block) : (raiseFault b).select = b.select := by
  unfold raiseFault; split <;> rfl
@[simp] theorem raiseFault_wire (b : Block) : (raiseFault b).wire = b.wire := by
  unfold raiseFault; split <;> rfl
@[simp] theorem raiseFault_cycle (b : Block) : (raiseFault b).cycle = b.cycle := by
  unfold raiseFault; split <;> rfl
@[simp] theorem raiseFault_reclaimFlag (b : Block) : (raiseFault b).reclaimFlag = b.reclaimFlag := by
  unfold raiseFault; split <;> rfl
@[simp] theorem raiseFault_sectors (b : Block) : (raiseFault b).sectors = b.sectors := by
  unfold raiseFault; split <;> rfl
@[simp] theorem raiseFault_spaceLow (b : Block) : (raiseFault b).spaceLow = b.spaceLow := by
  unfold raiseFault; split <;> rfl

@[simp] theorem row_evalSpaceLow (b : Block) (x : Sector) : row (evalSpaceLow b) x = row b x := by
  simp [row]

@[simp] theorem row_raiseFault (b : Block) (x : Sector) : row (raiseFault b) x = row b x := by
  simp [row]

/-- The triggers move a row only from FULL or OLDGEN to SOURCE. -/
theorem row_evalTriggers (b : Block) {x : Sector} (h : (row b x).state ≠ .full) (h' : (row b x).state ≠ .oldgen) :
    row (evalTriggers b) x = row b x := by
  unfold evalTriggers
  split
  · split
    · rename_i v hv
      split
      · have hr := (victim_isVictim hv).1
        have : x ≠ v := by rintro rfl; rcases hr.1 with hr | hr <;> contradiction
        exact row_setRow_other _ _ this
      · rfl
    · rfl
  · rfl

/-- The triggers take no row into or out of a state but FULL, OLDGEN and SOURCE. -/
theorem state_evalTriggers (b : Block) (z : Sector) {st : SectorState} (h1 : st ≠ .full) (h2 : st ≠ .oldgen)
    (h3 : st ≠ .source) : (row (evalTriggers b) z).state = st ↔ (row b z).state = st := by
  by_cases h : (row b z).state = .full ∨ (row b z).state = .oldgen
  · unfold evalTriggers
    split
    · split
      · split
        · rename_i v _ _
          by_cases hz : z = v
          · subst hz
            rw [show row (startCycle b z) z = { row b z with state := .source } from row_setRow_same _ _ _]
            constructor
            · exact fun e => absurd e.symm h3
            · intro e
              rcases h with h | h <;> rw [h] at e
              · exact absurd e.symm h1
              · exact absurd e.symm h2
          · rw [show row (startCycle b v) z = row b z from row_setRow_other _ _ hz]
        · rfl
      · rfl
    · rfl
  · rw [row_evalTriggers b (fun e => h (.inl e)) (fun e => h (.inr e))]

/-- The same sectors are in a state. -/
theorem inState_congr {a b : Block} {st : SectorState} (h : ∀ z, (row a z).state = st ↔ (row b z).state = st) :
    inState a st = inState b st := by
  unfold inState
  apply List.filter_congr
  intro z _
  by_cases hz : (row b z).state = st
  · simp [hz, (h z).2 hz]
  · have : ¬(row a z).state = st := fun e => hz ((h z).1 e)
    simp [hz, this]

/-- A close takes the closed sector out of its state, and no other sector into or out of a state but FULL, OLDGEN and SOURCE (R68). -/
theorem closeDone_state (b : Block) (x z : Sector) (ok : Bool) {st : SectorState} (h1 : st ≠ .full) (h2 : st ≠ .oldgen)
    (h3 : st ≠ .source) : (row (closeDone b x ok) z).state = st ↔ z ≠ x ∧ (row b z).state = st := by
  unfold closeDone
  dsimp only
  rw [state_evalTriggers _ _ h1 h2 h3, row_evalSpaceLow]
  by_cases hz : z = x
  · subst hz
    rw [row_setRow_same]
    simp [Ne.symm h1]
  · rw [row_setRow_other _ _ hz]
    simp only [hz, ne_eq, not_false_eq_true, true_and]
    split <;> simp

/-- With no ACTIVE sector there is no head (R66). -/
theorem head_eq_none {b : Block} (h : ∀ z, (row b z).state ≠ .active) : head b = none := by
  have : inState b .active = [] := List.eq_nil_iff_forall_not_mem.2 fun z hz => h z ((mem_inState b _ z).1 hz)
  simp [head, this]

/-- With a sector ERASED there is one to open (R67). -/
theorem openChoice_of_erased {b : Block} (h : 1 ≤ erasedCount b) : ∃ y, openChoice b = some y ∧ (row b y).state = .erased := by
  cases hc : openChoice b with
  | none =>
    have : inState b .erased = [] :=
      List.eq_nil_iff_forall_not_mem.2 fun z hz => openChoice_eq_none.1 hc z ((mem_inState b _ z).1 hz)
    simp [erasedCount, countState, this] at h
  | some y => exact ⟨y, rfl, (openChoice_spec hc).1⟩

/-- The sector an open takes is the one R67 names. -/
theorem openChoice_isOpenChoice {b : Block} {y : Sector} (h : openChoice b = some y) : isOpenChoice b y := openChoice_spec h

/-- Erase counts are compared and written by the rows' counts alone. -/
theorem countOf_congr {a b : Block} (h : ∀ z, (row a z).eraseCount = (row b z).eraseCount) (x : Sector) :
    countOf a x = countOf b x := by
  have hk : knownCounts a = knownCounts b := by
    unfold knownCounts
    simp only [h]
  simp only [countOf, meanCount, hk, h]

/-- The sector to open depends on the rows' erase counts and on which are ERASED. -/
theorem isOpenChoice_congr {a b : Block} (h : ∀ z, (row a z).eraseCount = (row b z).eraseCount)
    (hs : ∀ z, (row a z).state = .erased ↔ (row b z).state = .erased) (y : Sector) : isOpenChoice a y ↔ isOpenChoice b y := by
  simp only [isOpenChoice, openBefore, countOf_congr h, hs]

@[simp] theorem eraseCount_evalTriggers (b : Block) (x : Sector) :
    (row (evalTriggers b) x).eraseCount = (row b x).eraseCount := by
  unfold evalTriggers
  split
  · split
    · split
      · rename_i v hv ht
        by_cases hx : x = v
        · subst hx
          exact show (row (setRow b x { row b x with state := .source }) x).eraseCount = _ by rw [row_setRow_same]
        · exact congrArg SectorRow.eraseCount (row_setRow_other b { row b v with state := .source } hx)
      · rfl
    · rfl
  · rfl

/-- A close leaves every erase count (R68). -/
@[simp] theorem eraseCount_closeDone (b : Block) (x z : Sector) (ok : Bool) :
    (row (closeDone b x ok) z).eraseCount = (row b z).eraseCount := by
  unfold closeDone
  dsimp only
  rw [eraseCount_evalTriggers, row_evalSpaceLow]
  by_cases hz : z = x
  · subst hz
    rw [row_setRow_same]
    split <;> simp
  · rw [row_setRow_other _ _ hz]
    split <;> simp

/-- With none ERASED there is none to open. -/
theorem openChoice_of_none {b : Block} (h : erasedCount b = 0) : openChoice b = none :=
  openChoice_eq_none.2 fun z hz => by
    have := List.length_eq_zero_iff.1 (show (inState b .erased).length = 0 from h)
    have hm := (mem_inState b _ z).2 hz
    rw [this] at hm
    cases hm

/-- A failure raises FAULT in every port, outside a mount (R141). -/
theorem raiseFault_get {b : Block} (h : b.storeState ≠ .mounting) (q : Port) :
    (raiseFault b).ports.get q = { b.ports.get q with sticky := (b.ports.get q).sticky ||| causeFault } := by
  unfold raiseFault
  split
  · exact absurd ‹_› h
  all_goals exact raiseAll_get _ _ _

/-- A raised cause is in the set. -/
theorem raised_sticky (z : BitVec 16) : (z ||| causeFault) &&& causeFault = causeFault := by
  ext i hi
  simp only [BitVec.getElem_and, BitVec.getElem_or]
  cases causeFault[i] <;> simp

/-! ## The figures of R70, and the end of a cycle (R83) -/

@[simp] theorem freeBytes_mounting {b : Block} (h : b.storeState = .mounting) : freeBytes b = 0 := if_pos h

@[simp] theorem reclaimableBytes_mounting {b : Block} (h : b.storeState = .mounting) : reclaimableBytes b = 0 := if_pos h

theorem freeBytes_mounted {b : Block} (h : b.storeState ≠ .mounting) :
    freeBytes b = headRemainder b + Config.usableBytes * (erasedCount b - 1) := if_neg h

theorem reclaimableBytes_mounted {b : Block} (h : b.storeState ≠ .mounting) :
    reclaimableBytes b = ((inState b .full ++ inState b .oldgen ++ inState b .source).map (staleBytes b)).sum := if_neg h

@[simp] theorem abandonCycle_cycle (b : Block) : (abandonCycle b).cycle = .idle := by
  unfold abandonCycle
  split
  · assumption
  · rfl

theorem abandonCycle_idle {b : Block} (h : b.cycle = .idle) : abandonCycle b = b := if_pos h

/-- Abandoning a running cycle returns every port's waiting job to QUEUED (R30, R83). -/
theorem abandonCycle_job {b : Block} (h : b.cycle ≠ .idle) (p : Port) :
    ((abandonCycle b).ports.get p).job = (b.ports.get p).job.map requeueJob := by
  unfold abandonCycle
  rw [if_neg h]
  simp [requeueAll, clearCycle]

@[simp] theorem headerRun_length (img : EntryImage) : (headerRun img).length = img.header.length + 3 := by
  simp [headerRun]

end Sys2Proof.Machine
end

