-- ==== Sys2Proof/Laws/Holder.lean ====
section
/-! SUPPORT. What the holder of the engine can do to the part (`Keeps`): one lemma for each function the holder runs. Each says
that, if a block keeps what it must keep of an earlier one, so does the block after the function. -/

set_option linter.unusedTactic false
set_option linter.unreachableTactic false

namespace Sys2Proof.Machine

open Safety

/-! ## The relation -/

/-- A notification queue within its limits (R133). -/
def notesOk (l : List Note) : Prop := l.length ≤ 16 ∧ (l.map (·.key)).Nodup ∧ ∀ n ∈ l, n.merged ≤ 255

/-- What the holder leaves of a port: configuration, release input and watches; causes are only raised, notes stay within their limits,
and no batch is opened or staged. -/
structure PortKept (q q' : PortState) : Prop where
  mask : q'.mask = q.mask
  stretchLimit : q'.stretchLimit = q.stretchLimit
  releaseEnable : q'.releaseEnable = q.releaseEnable
  releaseSpent : q'.releaseSpent = q.releaseSpent
  watches : q'.watches = q.watches
  sticky : q'.sticky &&& ~~~0x03FC = q.sticky &&& ~~~0x03FC
  notes : notesOk q.notes → notesOk q'.notes
  batch : ∀ ops, q'.batch = .opened ops → q.batch = .opened ops

/-- Each usage counter is the sum over the directory (R18). -/
def Counted (b : Block) : Prop := ∀ p, b.usage.get p = usageSum b.dir p

/-- What the holder leaves of a block. With `mounting` false the usage counters go on counting the directory. -/
structure Keeps (mounting : Bool) (a b : Block) : Prop where
  inReset : b.inReset = a.inReset
  admin : b.admin = a.admin
  addrStraps : b.addrStraps = a.addrStraps
  engine : b.engine = a.engine
  banks : b.banks = a.banks
  lastGranted : b.lastGranted = a.lastGranted
  select : b.select = a.select
  wire : b.wire = a.wire
  ports : ∀ p, PortKept (a.ports.get p) (b.ports.get p)
  dir : dirSorted a.dir = true → dirSorted b.dir = true
  counted : mounting = false → dirSorted a.dir = true → Counted a → Counted b

variable {m : Bool} {a b : Block}

theorem PortKept.refl (q : PortState) : PortKept q q := ⟨rfl, rfl, rfl, rfl, rfl, rfl, id, fun _ h => h⟩

theorem PortKept.trans {q q' q'' : PortState} (h : PortKept q q') (k : PortKept q' q'') : PortKept q q'' :=
  ⟨k.mask.trans h.mask, k.stretchLimit.trans h.stretchLimit, k.releaseEnable.trans h.releaseEnable,
    k.releaseSpent.trans h.releaseSpent, k.watches.trans h.watches, k.sticky.trans h.sticky, k.notes ∘ h.notes,
    fun ops e => h.batch ops (k.batch ops e)⟩

theorem Keeps.refl (m : Bool) (b : Block) : Keeps m b b :=
  ⟨rfl, rfl, rfl, rfl, rfl, rfl, rfl, rfl, fun _ => PortKept.refl _, id, fun _ _ h => h⟩

/-! ## Changes of single fields -/

/-- Whatever stands in the fields that `Keeps` does not speak of. -/
theorem keeps_update (h : Keeps m a b) (storeState : StoreState) (generation : BitVec 16) (policy : Policy)
    (corruptCount retryCount : BitVec 32) (mount : MountData) (storeSeq : Seq) (sectors : Vector SectorRow 64)
    (spaceLow : Bool) (cycle : Cycle) (issued : Option EngineOp) (holder : Holder) (reclaimFlag : Bool) :
    Keeps m a
      { b with
          storeState := storeState, generation := generation, policy := policy, corruptCount := corruptCount
          retryCount := retryCount, mount := mount, storeSeq := storeSeq, sectors := sectors, spaceLow := spaceLow
          cycle := cycle, issued := issued, holder := holder, reclaimFlag := reclaimFlag } :=
  ⟨h.inReset, h.admin, h.addrStraps, h.engine, h.banks, h.lastGranted, h.select, h.wire, h.ports, h.dir, h.counted⟩

theorem keeps_ports (h : Keeps m a b) (ports : PerPort PortState)
    (hp : ∀ p, PortKept (b.ports.get p) (ports.get p)) : Keeps m a { b with ports := ports } :=
  ⟨h.inReset, h.admin, h.addrStraps, h.engine, h.banks, h.lastGranted, h.select, h.wire, fun p => (h.ports p).trans (hp p),
    h.dir, h.counted⟩

theorem keeps_modPort (h : Keeps m a b) (p : Port) (f : PortState → PortState) (hf : ∀ q, PortKept q (f q)) :
    Keeps m a (modPort b p f) :=
  keeps_ports h _ fun q => by
    rw [PerPort.get_set]
    split
    · rename_i e; subst e; exact hf _
    · exact PortKept.refl _

/-- A new directory that stays sorted, with usage counters that count it. -/
theorem keeps_dir (h : Keeps m a b) (dir : List DirSlot) (usage : PerPort Nat)
    (hd : dirSorted b.dir = true → dirSorted dir = true)
    (hu : m = false → dirSorted b.dir = true → Counted b → ∀ p, usage.get p = usageSum dir p) :
    Keeps m a { b with dir := dir, usage := usage } :=
  ⟨h.inReset, h.admin, h.addrStraps, h.engine, h.banks, h.lastGranted, h.select, h.wire, h.ports, fun k => hd (h.dir k),
    fun e k c => hu e (h.dir k) (h.counted e k c)⟩

/-- A slot replaced by one of its key that counts the same bytes. -/
theorem keeps_slot (h : Keeps m a b) {d e : DirSlot} (hf : dirFind e.key b.dir = some d)
    (hc : ∀ p, usageOf p e = usageOf p d) : Keeps m a { b with dir := dirPut e b.dir } :=
  keeps_dir h _ b.usage (fun k => dirPut_sorted _ k) fun _ k c p => by
    rw [c p]; exact (usageSum_dirPut_same k p hf (hc p)).symm

/-! ## Ports -/

theorem keeps_setSlot (h : Keeps m a b) (p : Port) (q : ReqSlot) : Keeps m a (setSlot b p q) :=
  keeps_modPort h p _ fun _ => ⟨rfl, rfl, rfl, rfl, rfl, rfl, id, fun _ h => h⟩

theorem keeps_setJob (h : Keeps m a b) (p : Port) (j : Option Job) : Keeps m a (setJob b p j) :=
  keeps_modPort h p _ fun _ => ⟨rfl, rfl, rfl, rfl, rfl, rfl, id, fun _ h => h⟩

theorem keeps_setBatch_closed (h : Keeps m a b) (p : Port) : Keeps m a (setBatch b p .closed) :=
  keeps_modPort h p _ fun _ => ⟨rfl, rfl, rfl, rfl, rfl, rfl, id, fun _ h => by cases h⟩

theorem keeps_setBatch_committing (h : Keeps m a b) (p : Port) : Keeps m a (setBatch b p .committing) :=
  keeps_modPort h p _ fun _ => ⟨rfl, rfl, rfl, rfl, rfl, rfl, id, fun _ h => by cases h⟩

theorem keeps_placeResponse (h : Keeps m a b) (p : Port) (bytes : List Byte) : Keeps m a (placeResponse b p bytes) :=
  keeps_modPort h p _ fun _ => ⟨rfl, rfl, rfl, rfl, rfl, rfl, id, fun _ h => h⟩

theorem raise_sticky (s c : BitVec 16) (hc : c &&& ~~~0x03FC = 0) :
    (s ||| c) &&& ~~~0x03FC = s &&& ~~~0x03FC := by
  rw [BitVec.and_comm, BitVec.and_or_distrib_left, BitVec.and_comm _ c, hc, show ((0 : BitVec 16)) = 0#16 from rfl, BitVec.or_zero, BitVec.and_comm]

theorem keeps_raiseAll (h : Keeps m a b) (c : BitVec 16) (hc : c &&& ~~~0x03FC = 0) : Keeps m a (raiseAll b c) :=
  keeps_ports h _ fun p => by
    rw [PerPort.get_map]; exact ⟨rfl, rfl, rfl, rfl, rfl, raise_sticky _ _ hc, id, fun _ h => h⟩

theorem keeps_raiseFault (h : Keeps m a b) : Keeps m a (raiseFault b) := by
  unfold raiseFault
  split
  · exact keeps_update h _ _ _ _ _ _ _ _ _ _ _ _ _
  all_goals exact keeps_raiseAll h _ (by decide)

theorem keeps_evalSpaceLow (h : Keeps m a b) : Keeps m a (evalSpaceLow b) := by
  unfold evalSpaceLow
  split
  · exact h
  · exact h
  all_goals
    dsimp only
    split
    · exact keeps_raiseAll (keeps_update h _ _ _ _ _ _ _ _ _ _ _ _ _) _ (by decide)
    · exact keeps_update h _ _ _ _ _ _ _ _ _ _ _ _ _

theorem keeps_requeueAll (h : Keeps m a b) : Keeps m a (requeueAll b) :=
  keeps_ports h _ fun p => by
    rw [PerPort.get_map]; exact ⟨rfl, rfl, rfl, rfl, rfl, rfl, id, fun _ h => h⟩

theorem keeps_emptyNotes (h : Keeps m a b) : Keeps m a (emptyNotes b) :=
  keeps_ports h _ fun p => by
    rw [PerPort.get_map]; exact ⟨rfl, rfl, rfl, rfl, rfl, rfl, fun _ => by simp [notesOk], fun _ h => h⟩

theorem keeps_createJob (h : Keeps m a b) (p : Port) (tag : Byte) (j : Job) : Keeps m a (createJob b p tag j) :=
  keeps_modPort h p _ fun _ => ⟨rfl, rfl, rfl, rfl, rfl, rfl, id, fun _ h => h⟩

theorem keeps_modJob (h : Keeps m a b) (p : Port) (f : Job → Job) : Keeps m a (modJob b p f) :=
  keeps_modPort h p _ fun _ => ⟨rfl, rfl, rfl, rfl, rfl, rfl, id, fun _ h => h⟩

/-! ## Notes (R134) -/

theorem foldNote_key (n old : Note) (h : old.key = n.key) : (foldNote n old).key = old.key := h.symm

/-- A posting keeps the queue within its limits. -/
theorem postNote_kept (n : Note) (q : PortState) : PortKept q (postNote n q) := by
  unfold postNote
  split
  · refine ⟨rfl, rfl, rfl, rfl, rfl, rfl, ?_, fun _ h => h⟩
    rintro ⟨hl, hd, hm⟩
    refine ⟨by simpa using hl, ?_, ?_⟩
    · have : (q.notes.map fun old => if (old.key == n.key) = true then foldNote n old else old).map (·.key) =
          q.notes.map (·.key) := by
        rw [List.map_map]; apply List.map_congr_left; intro o _
        by_cases h : o.key = n.key <;> simp [h, foldNote]
      dsimp only; rw [this]; exact hd
    · intro x hx
      simp only [List.mem_map] at hx
      obtain ⟨o, ho, rfl⟩ := hx
      have := hm o ho
      split
      · simp only [foldNote]; split <;> omega
      · exact this
  · rename_i hno
    split
    · rename_i hl
      refine ⟨rfl, rfl, rfl, rfl, rfl, rfl, ?_, fun _ h => h⟩
      rintro ⟨_, hd, hm⟩
      refine ⟨by simpa using hl, ?_, ?_⟩
      · rw [List.map_append, List.nodup_append]
        refine ⟨hd, by simp, ?_⟩
        intro k hk k' hk'
        simp only [List.map_cons, List.map_nil, List.mem_singleton] at hk'
        subst hk'
        rintro rfl
        apply hno
        simpa [noteHas] using hk
      · intro x hx
        rcases List.mem_append.mp hx with hx | hx
        · exact hm x hx
        · rw [List.mem_singleton.mp hx]; exact Nat.zero_le _
    · exact ⟨rfl, rfl, rfl, rfl, rfl, raise_sticky _ _ (by decide), id, fun _ h => h⟩

/-- A change made port by port. -/
theorem keeps_foldl {α : Type} (f : Block → α → Block) (hf : ∀ b x, Keeps m a b → Keeps m a (f b x)) (l : List α) :
    ∀ b, Keeps m a b → Keeps m a (l.foldl f b) := by
  induction l with
  | nil => intro b h; exact h
  | cons x rest ih => intro b h; exact ih _ (hf b x h)

theorem keeps_postDamage (h : Keeps m a b) (d : DirSlot) : Keeps m a (postDamage d b) := by
  unfold postDamage
  apply keeps_foldl _ _ _ _ h
  intro b p h
  try dsimp only
  split
  · exact keeps_modPort h p _ fun q => postNote_kept _ q
  · exact h

theorem keeps_postCompletion (h : Keeps m a b) (p : Port) (seq : Seq) (op : WriteOp) :
    Keeps m a (postCompletion p seq b op) := by
  unfold postCompletion
  apply keeps_foldl _ _ _ _ h
  intro b q h
  unfold postCompletionTo
  split
  · exact keeps_modPort h q _ fun q => postNote_kept _ q
  · exact h

/-! ## The directory -/

theorem keeps_damageReport (h : Keeps m a b) (k : Key) (seq : Seq) (x : Sector) (o : Nat) :
    Keeps m a (damageReport b k seq x o) := by
  unfold damageReport
  dsimp only
  have h' : Keeps m a (raiseFault { b with corruptCount := satInc b.corruptCount }) :=
    keeps_raiseFault (keeps_update h _ _ _ _ _ _ _ _ _ _ _ _ _)
  split
  · rename_i d hd
    split
    · rename_i hc
      simp only [Bool.and_eq_true, beq_iff_eq] at hc
      apply keeps_postDamage
      refine keeps_slot h' (d := d) ?_ ?_
      · show dirFind d.key _ = some d
        rw [dirFind_key hd]; exact hd
      · intro p; simp [usageOf, hc.1.1.1, slotPresent]
    · exact h'
  · exact h'

theorem keeps_dropTombstone (h : Keeps m a b) (k : Key) (t : Seq) (x : Sector) (o : Nat) :
    Keeps m a (dropTombstone b k t x o) := by
  unfold dropTombstone
  split
  · rename_i d hd
    split
    · rename_i hc
      simp only [Bool.and_eq_true, beq_iff_eq] at hc
      refine keeps_dir h _ b.usage (fun k' => dirRemove_sorted _ k') fun _ k' c p => ?_
      rw [c p]; exact (usageSum_dirRemove k' p hd (by simp [usageOf, hc.1.1.1, slotPresent])).symm
    · exact h
  · exact h

theorem keeps_relocate (h : Keeps m a b) (k : Key) (seq : Seq) (x : Sector) (o : Nat) (loc : Loc) :
    Keeps m a (relocate b k seq x o loc) := by
  unfold relocate
  split
  · rename_i d hd
    split
    · refine keeps_slot h (d := d) ?_ fun p => rfl
      show dirFind d.key _ = some d
      rw [dirFind_key hd]; exact hd
    · exact h
  · exact h

theorem keeps_renameTo (h : Keeps m a b) (k : Key) (loc : Loc) : Keeps m a (renameTo b k loc) := by
  unfold renameTo
  split
  · rename_i d hd
    refine keeps_slot h (d := d) ?_ fun p => rfl
    show dirFind d.key _ = some d
    rw [dirFind_key hd]; exact hd
  · exact h

theorem keeps_switchOp (h : Keeps m a b) (p : Port) (seq : Seq) (e : WriteOp × Loc) : Keeps m a (switchOp p seq b e) := by
  unfold switchOp
  split
  · rename_i d _
    refine keeps_dir h _ _ (fun k => dirPut_sorted _ k) fun _ k c q => ?_
    have hs := usageSum_dirPut d k q
    have : (shiftUsage b.usage (dirFind d.key b.dir) d).get q =
        b.usage.get q + usageOf q d - ((dirFind d.key b.dir).map (usageOf q)).getD 0 := by cases q <;> rfl
    rw [this, c q]
    exact hs.symm
  · exact h

/-! ## Issued operations and rows -/

theorem keeps_issueProgram (h : Keeps m a b) (x : Sector) (o : Nat) (bytes : List Byte) :
    Keeps m a (issueProgram b x o bytes) := by
  unfold issueProgram
  try dsimp only
  repeat' first
    | exact h | fail_if_no_progress (with_reducible apply keeps_update) | split

theorem keeps_issueErase (h : Keeps m a b) (x : Sector) :
    Keeps m a (issueErase b x) := by
  unfold issueErase
  try dsimp only
  repeat' first
    | exact h | fail_if_no_progress (with_reducible apply keeps_update) | split

theorem keeps_issueRead (h : Keeps m a b) (x : Sector) (o n : Nat) :
    Keeps m a (issueRead b x o n) := by
  unfold issueRead
  try dsimp only
  repeat' first
    | exact h | fail_if_no_progress (with_reducible apply keeps_update) | split

theorem keeps_issueMark (h : Keeps m a b) (x : Sector) (o : Nat) :
    Keeps m a (issueMark b x o) := by
  unfold issueMark
  try dsimp only
  repeat' first
    | exact h | with_reducible apply keeps_issueProgram | fail_if_no_progress (with_reducible apply keeps_update) | split

theorem keeps_setRow (h : Keeps m a b) (x : Sector) (r : SectorRow) :
    Keeps m a (setRow b x r) := by
  unfold setRow
  try dsimp only
  repeat' first
    | exact h | fail_if_no_progress (with_reducible apply keeps_update) | split

theorem keeps_setWork (h : Keeps m a b) (p : Port) (w : JobWork) :
    Keeps m a (setWork b p w) := by
  unfold setWork
  try dsimp only
  repeat' first
    | exact h | fail_if_no_progress (with_reducible apply keeps_update) | split

theorem keeps_setMount (h : Keeps m a b) (w : MountWork) :
    Keeps m a (setMount b w) := by
  unfold setMount
  try dsimp only
  repeat' first
    | exact h | fail_if_no_progress (with_reducible apply keeps_update) | split

theorem keeps_modMount (h : Keeps m a b) (g : MountData → MountData) :
    Keeps m a (modMount b g) := by
  unfold modMount
  try dsimp only
  repeat' first
    | exact h | fail_if_no_progress (with_reducible apply keeps_update) | split

theorem keeps_fillCounts (h : Keeps m a b) :
    Keeps m a (fillCounts b) := by
  unfold fillCounts
  try dsimp only
  repeat' first
    | exact h | fail_if_no_progress (with_reducible apply keeps_update) | split

theorem keeps_startCycle (h : Keeps m a b) (x : Sector) :
    Keeps m a (startCycle b x) := by
  unfold startCycle
  try dsimp only
  repeat' first
    | exact h | with_reducible apply keeps_setRow | fail_if_no_progress (with_reducible apply keeps_update) | split

theorem keeps_evalTriggers (h : Keeps m a b) :
    Keeps m a (evalTriggers b) := by
  unfold evalTriggers
  try dsimp only
  repeat' first
    | exact h | with_reducible apply keeps_startCycle | fail_if_no_progress (with_reducible apply keeps_update) | split

theorem keeps_clearCycle (h : Keeps m a b) :
    Keeps m a (clearCycle b) := by
  unfold clearCycle
  try dsimp only
  repeat' first
    | exact h | fail_if_no_progress (with_reducible apply keeps_update) | split

theorem keeps_abandonCycle (h : Keeps m a b) : Keeps m a (abandonCycle b) := by
  unfold abandonCycle
  split
  · exact h
  · exact keeps_requeueAll (keeps_clearCycle h)

theorem keeps_enterReadOnly (h : Keeps m a b) :
    Keeps m a (enterReadOnly b) := by
  unfold enterReadOnly
  try dsimp only
  repeat' first
    | exact h | with_reducible apply keeps_requeueAll | with_reducible apply keeps_clearCycle
    | fail_if_no_progress (with_reducible apply keeps_update) | split

theorem keeps_endCycle (h : Keeps m a b) (failed : Bool) :
    Keeps m a (endCycle failed b) := by
  unfold endCycle
  try dsimp only
  repeat' first
    | exact h | with_reducible apply keeps_requeueAll | with_reducible apply keeps_evalTriggers
    | with_reducible apply keeps_clearCycle | with_reducible apply keeps_enterReadOnly
    | fail_if_no_progress (with_reducible apply keeps_update) | split

theorem keeps_issueOpen (h : Keeps m a b) (x : Sector) :
    Keeps m a (issueOpen b x) := by
  unfold issueOpen
  try dsimp only
  repeat' first
    | exact h | with_reducible apply keeps_issueProgram | fail_if_no_progress (with_reducible apply keeps_update) | split

theorem keeps_openDone (h : Keeps m a b) (x : Sector) :
    Keeps m a (openDone b x) := by
  unfold openDone
  try dsimp only
  repeat' first
    | exact h | with_reducible apply keeps_evalSpaceLow | with_reducible apply keeps_setRow
    | with_reducible apply keeps_evalTriggers | fail_if_no_progress (with_reducible apply keeps_update) | split

theorem keeps_openFailed (h : Keeps m a b) (x : Sector) :
    Keeps m a (openFailed b x) := by
  unfold openFailed
  try dsimp only
  repeat' first
    | exact h | with_reducible apply keeps_raiseFault | with_reducible apply keeps_evalSpaceLow
    | with_reducible apply keeps_setRow | with_reducible apply keeps_evalTriggers
    | fail_if_no_progress (with_reducible apply keeps_update) | split

theorem keeps_closeDone (h : Keeps m a b) (x : Sector) (ok : Bool) :
    Keeps m a (closeDone b x ok) := by
  unfold closeDone
  try dsimp only
  repeat' first
    | exact h | with_reducible apply keeps_raiseFault | with_reducible apply keeps_evalSpaceLow
    | with_reducible apply keeps_setRow | with_reducible apply keeps_evalTriggers
    | fail_if_no_progress (with_reducible apply keeps_update) | split

theorem keeps_issueClose (h : Keeps m a b) (x : Sector) :
    Keeps m a (issueClose b x) := by
  unfold issueClose
  try dsimp only
  repeat' first
    | exact h | with_reducible apply keeps_issueMark | fail_if_no_progress (with_reducible apply keeps_update) | split

theorem keeps_advance (h : Keeps m a b) (x : Sector) (o : Nat) :
    Keeps m a (advance b x o) := by
  unfold advance
  try dsimp only
  repeat' first
    | exact h | with_reducible apply keeps_evalSpaceLow | with_reducible apply keeps_setRow
    | fail_if_no_progress (with_reducible apply keeps_update) | split

theorem keeps_eraseDone (h : Keeps m a b) (x : Sector) (ok : Bool) :
    Keeps m a (eraseDone b x ok) := by
  unfold eraseDone
  try dsimp only
  repeat' first
    | exact h | with_reducible apply keeps_raiseFault | with_reducible apply keeps_evalSpaceLow
    | with_reducible apply keeps_setRow | fail_if_no_progress (with_reducible apply keeps_update) | split

/-! ## Placing an entry (R33, R66) -/

/-- What placing an entry keeps, wherever it has come to. -/
def KeepsPlaced (m : Bool) (a : Block) : Placed → Prop
  | .go b _ | .done b _ | .failed b | .noSector b => Keeps m a b

theorem keeps_placeOpen (h : Keeps m a b) : KeepsPlaced m a (placeOpen b) := by
  unfold placeOpen; split
  · exact keeps_issueOpen h _
  · exact h

theorem keeps_placeStart (h : Keeps m a b) (forCopy : Bool) (img : EntryImage) :
    KeepsPlaced m a (placeStart forCopy b img) := by
  unfold placeStart; split
  · split
    · exact keeps_issueProgram h _ _ _
    · split
      · exact keeps_issueClose h _
      · exact h
  · split
    · exact keeps_placeOpen h
    · exact h

theorem keeps_placeNext (h : Keeps m a b) (img : EntryImage) (st : PlaceStage) (ok : Bool) :
    KeepsPlaced m a (placeNext b img st ok) := by
  unfold placeNext
  split
  · exact keeps_placeOpen (keeps_closeDone h _ _)
  · split
    · exact keeps_issueMark h _ _
    · exact keeps_openFailed h _
  · split
    · exact keeps_issueProgram (keeps_openDone h _) _ _ _
    · exact keeps_openFailed h _
  all_goals split
  all_goals first
    | exact keeps_issueMark h _ _
    | exact keeps_issueProgram h _ _ _
    | exact keeps_advance h _ _
    | exact h

theorem Keeps.of_placed_go {X : Placed} {b' : Block} {st : PlaceStage} (h : KeepsPlaced m a X) (e : X = .go b' st) :
    Keeps m a b' := by subst e; exact h

theorem Keeps.of_placed_done {X : Placed} {b' : Block} {l : Loc} (h : KeepsPlaced m a X) (e : X = .done b' l) :
    Keeps m a b' := by subst e; exact h

theorem Keeps.of_placed_failed {X : Placed} {b' : Block} (h : KeepsPlaced m a X) (e : X = .failed b') :
    Keeps m a b' := by subst e; exact h

theorem Keeps.of_placed_none {X : Placed} {b' : Block} (h : KeepsPlaced m a X) (e : X = .noSector b') :
    Keeps m a b' := by subst e; exact h

/-! ## Commit jobs -/

theorem keeps_answer (h : Keeps m a b) (p : Port) (tag : Byte) (st : Status) (body : List Byte) :
    Keeps m a (answer b p tag st body) := by
  unfold answer
  try dsimp only
  repeat' first
    | exact h | with_reducible apply keeps_placeResponse | fail_if_no_progress (with_reducible apply keeps_update) | split

theorem keeps_endWork (h : Keeps m a b) (p : Port) (st : Status) (body : List Byte) :
    Keeps m a (endWork b p st body) := by
  unfold endWork
  try dsimp only
  repeat' first
    | exact h | with_reducible apply keeps_answer | fail_if_no_progress (with_reducible apply keeps_update) | split

theorem keeps_holdRequest (h : Keeps m a b) (p : Port) (tag : Byte) (w : Held) :
    Keeps m a (holdRequest b p tag w) := by
  unfold holdRequest
  try dsimp only
  repeat' first
    | exact h | with_reducible apply keeps_setSlot | fail_if_no_progress (with_reducible apply keeps_update) | split

theorem keeps_submitWrite (h : Keeps m a b) (p : Port) (tag : Byte) (op : WriteOp) :
    Keeps m a (submitWrite b p tag op) := by
  unfold submitWrite
  try dsimp only
  repeat' first
    | exact h | with_reducible apply keeps_createJob | with_reducible apply keeps_answer
    | with_reducible apply keeps_holdRequest | fail_if_no_progress (with_reducible apply keeps_update) | split

theorem keeps_submitCommit (h : Keeps m a b) (p : Port) (tag : Byte) :
    Keeps m a (submitCommit b p tag) := by
  unfold submitCommit
  try dsimp only
  repeat' first
    | exact h | with_reducible apply keeps_createJob | with_reducible apply keeps_answer
    | with_reducible apply keeps_holdRequest | with_reducible apply keeps_setBatch_closed
    | with_reducible apply keeps_setBatch_committing | fail_if_no_progress (with_reducible apply keeps_update) | split

theorem keeps_submitFormat (h : Keeps m a b) (p : Port) (tag : Byte) :
    Keeps m a (submitFormat b p tag) := by
  unfold submitFormat
  try dsimp only
  repeat' first
    | exact h | with_reducible apply keeps_createJob | with_reducible apply keeps_answer
    | with_reducible apply keeps_holdRequest | fail_if_no_progress (with_reducible apply keeps_update) | split

theorem keeps_serveHeld (h : Keeps m a b) (p : Port) :
    Keeps m a (serveHeld b p) := by
  unfold serveHeld
  try dsimp only
  repeat' first
    | exact h | with_reducible apply keeps_submitWrite | with_reducible apply keeps_submitCommit
    | with_reducible apply keeps_submitFormat | fail_if_no_progress (with_reducible apply keeps_update) | split

theorem keeps_jobAnswer (h : Keeps m a b) (p : Port) (j : Job) (st : Status) (seq : Seq) (index : Byte) :
    Keeps m a (jobAnswer b p j st seq index) := by
  unfold jobAnswer
  try dsimp only
  repeat' first
    | exact h | with_reducible apply keeps_endWork | with_reducible apply keeps_setBatch_closed
    | with_reducible apply keeps_setBatch_committing | fail_if_no_progress (with_reducible apply keeps_update) | split

theorem keeps_finishJob (h : Keeps m a b) (p : Port) (st : Status) (seq : Seq) (index : Byte) :
    Keeps m a (finishJob b p st seq index) := by
  unfold finishJob
  try dsimp only
  repeat' first
    | exact h | with_reducible apply keeps_setJob | with_reducible apply keeps_evalTriggers
    | with_reducible apply keeps_serveHeld | with_reducible apply keeps_jobAnswer
    | fail_if_no_progress (with_reducible apply keeps_update) | split

theorem keeps_adoptPolicy (h : Keeps m a b) (ops : List WriteOp) :
    Keeps m a (adoptPolicy b ops) := by
  unfold adoptPolicy
  try dsimp only
  repeat' first
    | exact h | with_reducible apply keeps_evalSpaceLow | fail_if_no_progress (with_reducible apply keeps_update) | split

theorem keeps_commitEffects (h : Keeps m a b) (p : Port) (j : Job) (seq : Seq) :
    Keeps m a (commitEffects b p j seq) := by
  unfold commitEffects
  refine keeps_foldl _ (fun b op h => keeps_postCompletion h _ _ _) _ _ (keeps_adoptPolicy ?_ _)
  exact keeps_foldl _ (fun b e h => keeps_switchOp h _ _ _) _ _ h

theorem keeps_completeJob (h : Keeps m a b) (p : Port) :
    Keeps m a (completeJob b p) := by
  unfold completeJob
  try dsimp only
  repeat' first
    | exact h | with_reducible apply keeps_finishJob | with_reducible apply keeps_commitEffects
    | fail_if_no_progress (with_reducible apply keeps_update) | split

theorem keeps_settleNext (h : Keeps m a b) (p : Port) (i : Nat) :
    Keeps m a (settleNext b p i) := by
  unfold settleNext
  try dsimp only
  repeat' first
    | exact h | with_reducible apply keeps_issueMark | with_reducible apply keeps_setWork
    | with_reducible apply keeps_completeJob | fail_if_no_progress (with_reducible apply keeps_update) | split

theorem keeps_settleGiveUp (h : Keeps m a b) (p : Port) (i : Nat) :
    Keeps m a (settleGiveUp b p i) := by
  unfold settleGiveUp
  try dsimp only
  repeat' first
    | exact h | with_reducible apply keeps_enterReadOnly | with_reducible apply keeps_settleNext
    | fail_if_no_progress (with_reducible apply keeps_update) | split

theorem keeps_settleSecond (h : Keeps m a b) (p : Port) (i : Nat) :
    Keeps m a (settleSecond b p i) := by
  unfold settleSecond
  try dsimp only
  repeat' first
    | exact h | with_reducible apply keeps_setWork | with_reducible apply keeps_settleGiveUp
    | fail_if_no_progress (with_reducible apply keeps_update)
    | (refine Keeps.of_placed_go ?_ (by assumption); refine keeps_placeStart ?_ _ _)
    | (refine Keeps.of_placed_done ?_ (by assumption); refine keeps_placeStart ?_ _ _)
    | (refine Keeps.of_placed_failed ?_ (by assumption); refine keeps_placeStart ?_ _ _)
    | (refine Keeps.of_placed_none ?_ (by assumption); refine keeps_placeStart ?_ _ _)
    | split

theorem keeps_settleClosed (h : Keeps m a b) (p : Port) (i : Nat) (second : Bool) :
    Keeps m a (settleClosed b p i second) := by
  unfold settleClosed
  try dsimp only
  repeat' first
    | exact h | with_reducible apply keeps_settleGiveUp | with_reducible apply keeps_settleSecond
    | fail_if_no_progress (with_reducible apply keeps_update) | split

theorem keeps_settleCopyFailed (h : Keeps m a b) (p : Port) (i : Nat) (second : Bool) :
    Keeps m a (settleCopyFailed b p i second) := by
  unfold settleCopyFailed
  try dsimp only
  repeat' first
    | exact h | with_reducible apply keeps_setWork | with_reducible apply keeps_issueClose
    | with_reducible apply keeps_settleClosed | fail_if_no_progress (with_reducible apply keeps_update) | split

theorem keeps_settleFailed (h : Keeps m a b) (p : Port) (i : Nat) :
    Keeps m a (settleFailed b p i) := by
  unfold settleFailed
  try dsimp only
  repeat' first
    | exact h | with_reducible apply keeps_raiseFault | with_reducible apply keeps_setWork
    | with_reducible apply keeps_settleNext | with_reducible apply keeps_settleCopyFailed
    | fail_if_no_progress (with_reducible apply keeps_update)
    | (refine Keeps.of_placed_go ?_ (by assumption); refine keeps_placeStart ?_ _ _)
    | (refine Keeps.of_placed_done ?_ (by assumption); refine keeps_placeStart ?_ _ _)
    | (refine Keeps.of_placed_failed ?_ (by assumption); refine keeps_placeStart ?_ _ _)
    | (refine Keeps.of_placed_none ?_ (by assumption); refine keeps_placeStart ?_ _ _)
    | split

theorem keeps_endWithout (h : Keeps m a b) (p : Port) (st : Status) :
    Keeps m a (endWithout b p st) := by
  unfold endWithout
  try dsimp only
  repeat' first
    | exact h | with_reducible apply keeps_setWork | with_reducible apply keeps_enterReadOnly
    | with_reducible apply keeps_issueOpen | with_reducible apply keeps_finishJob
    | fail_if_no_progress (with_reducible apply keeps_update) | split

theorem keeps_takeSeq (h : Keeps m a b) :
    Keeps m a (takeSeq b) := by
  unfold takeSeq
  try dsimp only
  repeat' first
    | exact h | fail_if_no_progress (with_reducible apply keeps_update) | split

theorem keeps_afterFail (h : Keeps m a b) (p : Port) :
    Keeps m a (afterFail b p) := by
  unfold afterFail
  try dsimp only
  repeat' first
    | exact h | with_reducible apply keeps_raiseFault | with_reducible apply keeps_modJob
    | with_reducible apply keeps_setWork | with_reducible apply keeps_enterReadOnly | with_reducible apply keeps_issueOpen
    | with_reducible apply keeps_endWithout | with_reducible apply keeps_takeSeq
    | fail_if_no_progress (with_reducible apply keeps_update) | split

theorem keeps_attemptFailed (h : Keeps m a b) (p : Port) :
    Keeps m a (attemptFailed b p) := by
  unfold attemptFailed
  try dsimp only
  repeat' first
    | exact h | with_reducible apply keeps_setWork | with_reducible apply keeps_issueClose
    | with_reducible apply keeps_afterFail | fail_if_no_progress (with_reducible apply keeps_update) | split

theorem keeps_startEntry (h : Keeps m a b) (p : Port) (what : JobEntry) :
    Keeps m a (startEntry b p what) := by
  unfold startEntry
  try dsimp only
  repeat' first
    | exact h | with_reducible apply keeps_setWork | with_reducible apply keeps_attemptFailed
    | fail_if_no_progress (with_reducible apply keeps_update)
    | (refine Keeps.of_placed_go ?_ (by assumption); refine keeps_placeStart ?_ _ _)
    | (refine Keeps.of_placed_done ?_ (by assumption); refine keeps_placeStart ?_ _ _)
    | (refine Keeps.of_placed_failed ?_ (by assumption); refine keeps_placeStart ?_ _ _)
    | (refine Keeps.of_placed_none ?_ (by assumption); refine keeps_placeStart ?_ _ _)
    | split

theorem keeps_entryDone (h : Keeps m a b) (p : Port) (what : JobEntry) (loc : Loc) :
    Keeps m a (entryDone b p what loc) := by
  unfold entryDone
  try dsimp only
  repeat' first
    | exact h | with_reducible apply keeps_modJob | with_reducible apply keeps_completeJob
    | with_reducible apply keeps_settleNext | with_reducible apply keeps_startEntry
    | fail_if_no_progress (with_reducible apply keeps_update) | split

theorem keeps_entryFailed (h : Keeps m a b) (p : Port) (what : JobEntry) :
    Keeps m a (entryFailed b p what) := by
  unfold entryFailed
  try dsimp only
  repeat' first
    | exact h | with_reducible apply keeps_raiseFault | with_reducible apply keeps_settleCopyFailed
    | with_reducible apply keeps_attemptFailed | fail_if_no_progress (with_reducible apply keeps_update) | split

theorem keeps_successorDone (h : Keeps m a b) (p : Port) (x : Sector) (last : Bool) (st : Status) :
    Keeps m a (successorDone b p x last st) := by
  unfold successorDone
  try dsimp only
  repeat' first
    | exact h | with_reducible apply keeps_startCycle | with_reducible apply keeps_openDone
    | with_reducible apply keeps_finishJob | fail_if_no_progress (with_reducible apply keeps_update) | split

theorem keeps_commitStep (h : Keeps m a b) (p : Port) (w : JobWork) (ok : Bool) :
    Keeps m a (commitStep b p w ok) := by
  unfold commitStep
  try dsimp only
  repeat' first
    | exact h | with_reducible apply keeps_issueMark | with_reducible apply keeps_setWork
    | with_reducible apply keeps_openDone | with_reducible apply keeps_openFailed | with_reducible apply keeps_closeDone
    | with_reducible apply keeps_settleNext | with_reducible apply keeps_settleClosed
    | with_reducible apply keeps_settleFailed | with_reducible apply keeps_endWithout
    | with_reducible apply keeps_afterFail | with_reducible apply keeps_startEntry | with_reducible apply keeps_entryDone
    | with_reducible apply keeps_entryFailed | with_reducible apply keeps_successorDone
    | fail_if_no_progress (with_reducible apply keeps_update)
    | (refine Keeps.of_placed_go ?_ (by assumption); refine keeps_placeNext ?_ _ _ _)
    | (refine Keeps.of_placed_done ?_ (by assumption); refine keeps_placeNext ?_ _ _ _)
    | (refine Keeps.of_placed_failed ?_ (by assumption); refine keeps_placeNext ?_ _ _ _)
    | (refine Keeps.of_placed_none ?_ (by assumption); refine keeps_placeNext ?_ _ _ _)
    | split

theorem keeps_takeJob (h : Keeps m a b) (p : Port) (j : Job) :
    Keeps m a (takeJob b p j) := by
  unfold takeJob
  try dsimp only
  repeat' first
    | exact h | with_reducible apply keeps_modJob | with_reducible apply keeps_evalTriggers
    | with_reducible apply keeps_finishJob | with_reducible apply keeps_takeSeq | with_reducible apply keeps_startEntry
    | fail_if_no_progress (with_reducible apply keeps_update) | split

/-! ## FORMAT -/

theorem keeps_formatComplete (h : Keeps m a b) (p : Port) (st : StoreState) (ans : Status) :
    Keeps m a (formatComplete b p st ans) := by
  unfold formatComplete
  try dsimp only
  repeat' first
    | exact h | with_reducible apply keeps_evalSpaceLow | with_reducible apply keeps_requeueAll
    | with_reducible apply keeps_emptyNotes | with_reducible apply keeps_answer | with_reducible apply keeps_finishJob
    | refine keeps_raiseAll ?_ _ (by decide) | fail_if_no_progress (with_reducible apply keeps_update) | split

theorem keeps_formatOpenNext (h : Keeps m a b) (p : Port) (usable : Nat) :
    Keeps m a (formatOpenNext b p usable) := by
  unfold formatOpenNext
  try dsimp only
  repeat' first
    | exact h | with_reducible apply keeps_setWork | with_reducible apply keeps_issueOpen
    | with_reducible apply keeps_formatComplete | fail_if_no_progress (with_reducible apply keeps_update) | split

theorem keeps_formatErased (h : Keeps m a b) (p : Port) :
    Keeps m a (formatErased b p) := by
  unfold formatErased
  try dsimp only
  repeat' first
    | exact h | with_reducible apply keeps_fillCounts | with_reducible apply keeps_formatComplete
    | with_reducible apply keeps_formatOpenNext | fail_if_no_progress (with_reducible apply keeps_update) | split

theorem keeps_formatErases (h : Keeps m a b) (p : Port) (l : List Sector) :
    Keeps m a (formatErases b p l) := by
  unfold formatErases
  try dsimp only
  repeat' first
    | exact h | with_reducible apply keeps_issueErase | with_reducible apply keeps_setWork
    | with_reducible apply keeps_formatErased | fail_if_no_progress (with_reducible apply keeps_update) | split

theorem keeps_formatEmpty (h : Keeps m a b) (p : Port) (withdrawn : Option Sector) :
    Keeps m a (formatEmpty b p withdrawn) := by
  unfold formatEmpty
  apply keeps_formatErases
  have := keeps_dir h [] (PerPort.all 0) (fun _ => rfl) fun _ _ _ p => by cases p <;> rfl
  exact keeps_update this _ _ _ _ _ _ _ _ _ _ _ _ _

theorem keeps_formatCommitted (h : Keeps m a b) (p : Port) (withdrawn : Option Sector) :
    Keeps m a (formatCommitted b p withdrawn) := by
  unfold formatCommitted
  try dsimp only
  repeat' first
    | exact h | with_reducible apply keeps_setWork | with_reducible apply keeps_formatEmpty
    | fail_if_no_progress (with_reducible apply keeps_update) | split

theorem keeps_formatUnpinned (h : Keeps m a b) :
    Keeps m a (formatUnpinned b) := by
  unfold formatUnpinned
  try dsimp only
  repeat' first
    | exact h | with_reducible apply keeps_formatEmpty | fail_if_no_progress (with_reducible apply keeps_update) | split

theorem keeps_formatLost (h : Keeps m a b) (p : Port) :
    Keeps m a (formatLost b p) := by
  unfold formatLost
  try dsimp only
  repeat' first
    | exact h | with_reducible apply keeps_evalSpaceLow | with_reducible apply keeps_requeueAll
    | with_reducible apply keeps_finishJob | fail_if_no_progress (with_reducible apply keeps_update) | split

theorem keeps_formatSeek (h : Keeps m a b) (p : Port) (l : List Sector) :
    Keeps m a (formatSeek b p l) := by
  unfold formatSeek
  try dsimp only
  repeat' first
    | exact h | with_reducible apply keeps_issueRead | with_reducible apply keeps_setWork
    | with_reducible apply keeps_formatLost | fail_if_no_progress (with_reducible apply keeps_update) | split

theorem keeps_formatStep (h : Keeps m a b) (p : Port) (w : JobWork) (ok : Bool) (bytes : List Byte) :
    Keeps m a (formatStep b p w ok bytes) := by
  unfold formatStep
  try dsimp only
  repeat' first
    | exact h | with_reducible apply keeps_raiseFault | with_reducible apply keeps_issueProgram
    | with_reducible apply keeps_issueMark | with_reducible apply keeps_setWork | with_reducible apply keeps_openDone
    | with_reducible apply keeps_openFailed | with_reducible apply keeps_eraseDone
    | with_reducible apply keeps_formatComplete | with_reducible apply keeps_formatOpenNext
    | with_reducible apply keeps_formatErases | with_reducible apply keeps_formatCommitted
    | with_reducible apply keeps_formatSeek | fail_if_no_progress (with_reducible apply keeps_update) | split

theorem keeps_takeFormat (h : Keeps m a b) (p : Port) :
    Keeps m a (takeFormat b p) := by
  unfold takeFormat
  try dsimp only
  repeat' first
    | exact h | with_reducible apply keeps_modJob | with_reducible apply keeps_abandonCycle
    | with_reducible apply keeps_finishJob | with_reducible apply keeps_formatCommitted
    | with_reducible apply keeps_formatSeek | fail_if_no_progress (with_reducible apply keeps_update) | split

/-! ## Phases 10 to 12 of a mount -/


/-- Phase 12 counts the directory afresh. -/
theorem keeps_mountEnd (h : Keeps true a b) (found : Bool) : Keeps true a (mountEnd found b) := by
  unfold mountEnd
  apply keeps_evalTriggers
  apply keeps_evalSpaceLow
  have h' : Keeps true a { fillCounts b with usage := usageSums (fillCounts b).dir } :=
    keeps_dir (keeps_fillCounts h) _ _ id fun e => nomatch e
  try dsimp only
  split
  · exact keeps_raiseAll (keeps_update h' _ _ _ _ _ _ _ _ _ _ _ _ _) _ (by decide)
  · exact keeps_update h' _ _ _ _ _ _ _ _ _ _ _ _ _

theorem keeps_startSettleCopy (h : Keeps m a b) (why : SettleFor) (e : ScanEntry) :
    Keeps m a (startSettleCopy b why e) := by
  unfold startSettleCopy
  try dsimp only
  repeat' first
    | exact h | with_reducible apply keeps_issueRead | with_reducible apply keeps_setMount
    | fail_if_no_progress (with_reducible apply keeps_update) | split

theorem keeps_finalSettle (h : Keeps true a b) (l : List ScanEntry) :
    Keeps true a (finalSettle b l) := by
  unfold finalSettle
  try dsimp only
  repeat' first
    | exact h | with_reducible apply keeps_mountEnd | with_reducible apply keeps_startSettleCopy
    | fail_if_no_progress (with_reducible apply keeps_update) | split

theorem keeps_phase11 (h : Keeps true a b) :
    Keeps true a (phase11 b) := by
  unfold phase11
  try dsimp only
  repeat' first
    | exact h | with_reducible apply keeps_setMount | with_reducible apply keeps_issueOpen
    | with_reducible apply keeps_finalSettle | fail_if_no_progress (with_reducible apply keeps_update) | split

theorem keeps_headStep (h : Keeps true a b) (x : Sector) (mark ok : Bool) :
    Keeps true a (headStep b x mark ok) := by
  unfold headStep
  try dsimp only
  repeat' first
    | exact h | with_reducible apply keeps_issueMark | with_reducible apply keeps_setMount
    | with_reducible apply keeps_openDone | with_reducible apply keeps_openFailed | with_reducible apply keeps_phase11
    | fail_if_no_progress (with_reducible apply keeps_update) | split

theorem keeps_nextSource (h : Keeps true a b) (l : List Sector) :
    Keeps true a (nextSource b l) := by
  unfold nextSource
  try dsimp only
  repeat' first
    | exact h | with_reducible apply keeps_issueRead | with_reducible apply keeps_setMount
    | with_reducible apply keeps_phase11 | fail_if_no_progress (with_reducible apply keeps_update) | split

theorem keeps_settleThenErase (h : Keeps true a b) (x : Sector) (rest : List Sector) (l : List ScanEntry) :
    Keeps true a (settleThenErase b x rest l) := by
  unfold settleThenErase
  try dsimp only
  repeat' first
    | exact h | with_reducible apply keeps_issueErase | with_reducible apply keeps_setMount
    | with_reducible apply keeps_startSettleCopy | fail_if_no_progress (with_reducible apply keeps_update) | split

theorem keeps_sourceEmptied (h : Keeps true a b) (x : Sector) (rest : List Sector) :
    Keeps true a (sourceEmptied b x rest) := by
  unfold sourceEmptied
  try dsimp only
  repeat' first
    | exact h | with_reducible apply keeps_settleThenErase | fail_if_no_progress (with_reducible apply keeps_update)
    | split

theorem keeps_settleMade (h : Keeps true a b) (why : SettleFor) :
    Keeps true a (settleMade b why) := by
  unfold settleMade
  try dsimp only
  repeat' first
    | exact h | with_reducible apply keeps_finalSettle | with_reducible apply keeps_settleThenErase
    | fail_if_no_progress (with_reducible apply keeps_update) | split

theorem keeps_settleLost (h : Keeps true a b) (why : SettleFor) :
    Keeps true a (settleLost b why) := by
  unfold settleLost
  try dsimp only
  repeat' first
    | exact h | with_reducible apply keeps_modMount | with_reducible apply keeps_settleFailed
    | with_reducible apply keeps_finalSettle | with_reducible apply keeps_nextSource
    | fail_if_no_progress (with_reducible apply keeps_update) | split

theorem keeps_mountSettleSecond (h : Keeps true a b) (why : SettleFor) (e : ScanEntry) (img : EntryImage) :
    Keeps true a (mountSettleSecond b why e img) := by
  unfold mountSettleSecond
  try dsimp only
  repeat' first
    | exact h | with_reducible apply keeps_setMount | with_reducible apply keeps_settleLost
    | fail_if_no_progress (with_reducible apply keeps_update)
    | (refine Keeps.of_placed_go ?_ (by assumption); refine keeps_placeStart ?_ _ _)
    | (refine Keeps.of_placed_done ?_ (by assumption); refine keeps_placeStart ?_ _ _)
    | (refine Keeps.of_placed_failed ?_ (by assumption); refine keeps_placeStart ?_ _ _)
    | (refine Keeps.of_placed_none ?_ (by assumption); refine keeps_placeStart ?_ _ _)
    | split

theorem keeps_mountSettleClosed (h : Keeps true a b) (why : SettleFor) (e : ScanEntry) (img : EntryImage) (second : Bool) :
    Keeps true a (mountSettleClosed b why e img second) := by
  unfold mountSettleClosed
  try dsimp only
  repeat' first
    | exact h | with_reducible apply keeps_settleLost | with_reducible apply keeps_mountSettleSecond
    | fail_if_no_progress (with_reducible apply keeps_update) | split

theorem keeps_mountSettleFailed (h : Keeps true a b) (why : SettleFor) (e : ScanEntry) (img : EntryImage) (second : Bool) :
    Keeps true a (mountSettleFailed b why e img second) := by
  unfold mountSettleFailed
  try dsimp only
  repeat' first
    | exact h | with_reducible apply keeps_setMount | with_reducible apply keeps_issueClose
    | with_reducible apply keeps_mountSettleClosed | fail_if_no_progress (with_reducible apply keeps_update) | split

theorem keeps_mountSettleStep (h : Keeps true a b) (why : SettleFor) (e : ScanEntry) (w : SettleWork) (ok : Bool) (bytes : List Byte) :
    Keeps true a (mountSettleStep b why e w ok bytes) := by
  unfold mountSettleStep
  try dsimp only
  repeat' first
    | exact h | with_reducible apply keeps_raiseFault | with_reducible apply keeps_renameTo
    | with_reducible apply keeps_setMount | with_reducible apply keeps_closeDone | with_reducible apply keeps_settleMade
    | with_reducible apply keeps_mountSettleClosed | with_reducible apply keeps_mountSettleFailed
    | fail_if_no_progress (with_reducible apply keeps_update)
    | (refine Keeps.of_placed_go ?_ (by assumption); refine keeps_placeNext ?_ _ _ _)
    | (refine Keeps.of_placed_done ?_ (by assumption); refine keeps_placeNext ?_ _ _ _)
    | (refine Keeps.of_placed_failed ?_ (by assumption); refine keeps_placeNext ?_ _ _ _)
    | (refine Keeps.of_placed_none ?_ (by assumption); refine keeps_placeNext ?_ _ _ _)
    | (refine Keeps.of_placed_go ?_ (by assumption); refine keeps_placeStart ?_ _ _)
    | (refine Keeps.of_placed_done ?_ (by assumption); refine keeps_placeStart ?_ _ _)
    | (refine Keeps.of_placed_failed ?_ (by assumption); refine keeps_placeStart ?_ _ _)
    | (refine Keeps.of_placed_none ?_ (by assumption); refine keeps_placeStart ?_ _ _)
    | split

/-! ## Copying and reclaim -/


/-- Copying for a reclaim step keeps the counts; copying in a mount need not. -/
def forMount : CopyFor → Bool
  | .reclaim => false
  | .mount _ => true

theorem keeps_victimUnpinned (h : Keeps m a b) :
    Keeps m a (victimUnpinned b) := by
  unfold victimUnpinned
  try dsimp only
  repeat' first
    | exact h | fail_if_no_progress (with_reducible apply keeps_update) | split

theorem keeps_stepEnd (h : Keeps m a b) :
    Keeps m a (stepEnd b) := by
  unfold stepEnd
  try dsimp only
  repeat' first
    | exact h | fail_if_no_progress (with_reducible apply keeps_update) | split

theorem keeps_enterErasing (h : Keeps m a b) (x : Sector) :
    Keeps m a (enterErasing b x) := by
  unfold enterErasing
  try dsimp only
  repeat' first
    | exact h | with_reducible apply keeps_victimUnpinned | fail_if_no_progress (with_reducible apply keeps_update)
    | split

theorem keeps_cycleStepEnd (h : Keeps m a b) (failed : Bool) :
    Keeps m a (cycleStepEnd failed b) := by
  unfold cycleStepEnd
  try dsimp only
  repeat' first
    | exact h | with_reducible apply keeps_endCycle | fail_if_no_progress (with_reducible apply keeps_update) | split

theorem keeps_setCopy {who : CopyFor} (h : Keeps (forMount who) a b) (x : Sector) (pos : CopyPos) (w : CopyWork) :
    Keeps (forMount who) a (setCopy b who x pos w) := by
  unfold setCopy
  try dsimp only
  repeat' first
    | exact h | fail_if_no_progress (with_reducible apply keeps_update) | split

theorem keeps_copyFinished {who : CopyFor} (h : Keeps (forMount who) a b) (x : Sector) :
    Keeps (forMount who) a (copyFinished b who x) := by
  cases who with
  | reclaim => exact keeps_enterErasing h x
  | mount rest => exact keeps_sourceEmptied h x rest

theorem keeps_copyAbandon {who : CopyFor} (h : Keeps (forMount who) a b) :
    Keeps (forMount who) a (copyAbandon b who) := by
  cases who with
  | reclaim => exact keeps_cycleStepEnd h true
  | mount rest => exact keeps_phase11 (keeps_modMount h _)

theorem keeps_copyEntry {who : CopyFor} (h : Keeps (forMount who) a b) (x : Sector) (pos : CopyPos) (d : DirSlot) :
    Keeps (forMount who) a (copyEntry b who x pos d) := by
  unfold copyEntry
  try dsimp only
  repeat' first
    | exact h | with_reducible apply keeps_issueRead | with_reducible apply keeps_setCopy
    | fail_if_no_progress (with_reducible apply keeps_update) | split

theorem keeps_copySweep {who : CopyFor} (h : Keeps (forMount who) a b) (x : Sector) :
    Keeps (forMount who) a (copySweep b who x) := by
  unfold copySweep
  try dsimp only
  repeat' first
    | exact h | with_reducible apply keeps_copyFinished | with_reducible apply keeps_copyEntry
    | fail_if_no_progress (with_reducible apply keeps_update) | split

theorem keeps_copyFrom {who : CopyFor} (h : Keeps (forMount who) a b) (x : Sector) (pos : CopyPos) :
    Keeps (forMount who) a (copyFrom b who x pos) := by
  unfold copyFrom
  try dsimp only
  repeat' first
    | exact h | with_reducible apply keeps_issueRead | with_reducible apply keeps_setCopy
    | with_reducible apply keeps_copySweep | fail_if_no_progress (with_reducible apply keeps_update) | split

theorem keeps_copyDone {who : CopyFor} (h : Keeps (forMount who) a b) (x : Sector) (pos : CopyPos) :
    Keeps (forMount who) a (copyDone b who x pos) := by
  unfold copyDone
  split
  · exact keeps_stepEnd (keeps_update h _ _ _ _ _ _ _ _ _ _ _ _ _)
  · exact keeps_copyFrom h x pos

theorem keeps_copyNamed {who : CopyFor} (h : Keeps (forMount who) a b) (x : Sector) (o next : Nat) :
    Keeps (forMount who) a (copyNamed b who x o next) := by
  unfold copyNamed
  try dsimp only
  repeat' first
    | exact h | with_reducible apply keeps_copyEntry | with_reducible apply keeps_copyFrom
    | fail_if_no_progress (with_reducible apply keeps_update) | split

theorem keeps_walkHeader {who : CopyFor} (h : Keeps (forMount who) a b) (x : Sector) (o : Nat) (bytes : List Byte) :
    Keeps (forMount who) a (walkHeader b who x o bytes) := by
  unfold walkHeader
  try dsimp only
  repeat' first
    | exact h | with_reducible apply keeps_dropTombstone | with_reducible apply keeps_copySweep
    | with_reducible apply keeps_copyFrom | with_reducible apply keeps_copyNamed
    | fail_if_no_progress (with_reducible apply keeps_update) | split

theorem keeps_copyReport (h : Keeps m a b) (d : DirSlot) (bytes : List Byte) :
    Keeps m a (copyReport b d bytes) := by
  unfold copyReport
  try dsimp only
  repeat' first
    | exact h | with_reducible apply keeps_damageReport | fail_if_no_progress (with_reducible apply keeps_update) | split

theorem keeps_entryRead {who : CopyFor} (h : Keeps (forMount who) a b) (x : Sector) (pos : CopyPos) (d : DirSlot) (bytes : List Byte) :
    Keeps (forMount who) a (entryRead b who x pos d bytes) := by
  unfold entryRead
  try dsimp only
  repeat' first
    | exact h | with_reducible apply keeps_setCopy | with_reducible apply keeps_copyAbandon
    | with_reducible apply keeps_copyReport | fail_if_no_progress (with_reducible apply keeps_update)
    | (refine Keeps.of_placed_go ?_ (by assumption); refine keeps_placeStart ?_ _ _)
    | (refine Keeps.of_placed_done ?_ (by assumption); refine keeps_placeStart ?_ _ _)
    | (refine Keeps.of_placed_failed ?_ (by assumption); refine keeps_placeStart ?_ _ _)
    | (refine Keeps.of_placed_none ?_ (by assumption); refine keeps_placeStart ?_ _ _)
    | split

theorem keeps_copySecond {who : CopyFor} (h : Keeps (forMount who) a b) (x : Sector) (pos : CopyPos) (d : DirSlot) (img : EntryImage) :
    Keeps (forMount who) a (copySecond b who x pos d img) := by
  unfold copySecond
  try dsimp only
  repeat' first
    | exact h | with_reducible apply keeps_setCopy | with_reducible apply keeps_copyAbandon
    | fail_if_no_progress (with_reducible apply keeps_update)
    | (refine Keeps.of_placed_go ?_ (by assumption); refine keeps_placeStart ?_ _ _)
    | (refine Keeps.of_placed_done ?_ (by assumption); refine keeps_placeStart ?_ _ _)
    | (refine Keeps.of_placed_failed ?_ (by assumption); refine keeps_placeStart ?_ _ _)
    | (refine Keeps.of_placed_none ?_ (by assumption); refine keeps_placeStart ?_ _ _)
    | split

theorem keeps_copyClosed {who : CopyFor} (h : Keeps (forMount who) a b) (x : Sector) (pos : CopyPos) (d : DirSlot) (second : Bool) (img : EntryImage) :
    Keeps (forMount who) a (copyClosed b who x pos d second img) := by
  unfold copyClosed
  try dsimp only
  repeat' first
    | exact h | with_reducible apply keeps_copyAbandon | with_reducible apply keeps_copySecond
    | fail_if_no_progress (with_reducible apply keeps_update) | split

theorem keeps_copyFailed {who : CopyFor} (h : Keeps (forMount who) a b) (x : Sector) (pos : CopyPos) (d : DirSlot) (second : Bool) (img : EntryImage) :
    Keeps (forMount who) a (copyFailed b who x pos d second img) := by
  unfold copyFailed
  try dsimp only
  repeat' first
    | exact h | with_reducible apply keeps_raiseFault | with_reducible apply keeps_issueClose
    | with_reducible apply keeps_setCopy | with_reducible apply keeps_copyClosed
    | fail_if_no_progress (with_reducible apply keeps_update) | split

theorem keeps_copyStep {who : CopyFor} (h : Keeps (forMount who) a b) (x : Sector) (pos : CopyPos) (w : CopyWork) (ok : Bool) (bytes : List Byte) :
    Keeps (forMount who) a (copyStep b who x pos w ok bytes) := by
  unfold copyStep
  try dsimp only
  repeat' first
    | exact h | with_reducible apply keeps_relocate | with_reducible apply keeps_closeDone
    | with_reducible apply keeps_setCopy | with_reducible apply keeps_copyAbandon | with_reducible apply keeps_copySweep
    | with_reducible apply keeps_copyDone | with_reducible apply keeps_walkHeader | with_reducible apply keeps_entryRead
    | with_reducible apply keeps_copyClosed | with_reducible apply keeps_copyFailed
    | fail_if_no_progress (with_reducible apply keeps_update)
    | (refine Keeps.of_placed_go ?_ (by assumption); refine keeps_placeNext ?_ _ _ _)
    | (refine Keeps.of_placed_done ?_ (by assumption); refine keeps_placeNext ?_ _ _ _)
    | (refine Keeps.of_placed_failed ?_ (by assumption); refine keeps_placeNext ?_ _ _ _)
    | (refine Keeps.of_placed_none ?_ (by assumption); refine keeps_placeNext ?_ _ _ _)
    | split

theorem keeps_markingDone (h : Keeps m a b) (x : Sector) (ok : Bool) :
    Keeps m a (markingDone b x ok) := by
  unfold markingDone
  try dsimp only
  repeat' first
    | exact h | with_reducible apply keeps_raiseFault | with_reducible apply keeps_stepEnd
    | with_reducible apply keeps_enterErasing | fail_if_no_progress (with_reducible apply keeps_update) | split

theorem keeps_reclaimStep (h : Keeps false a b) (w : ReclaimWork) (ok : Bool) (bytes : List Byte) :
    Keeps false a (reclaimStep b w ok bytes) := by
  unfold reclaimStep
  split
  · exact keeps_markingDone h _ _
  · exact keeps_copyStep (who := .reclaim) h _ _ _ _ _
  · dsimp only
    split
    · exact keeps_cycleStepEnd (keeps_eraseDone h _ _) _
    · exact keeps_update (keeps_issueMark (keeps_eraseDone h _ _) _ _) _ _ _ _ _ _ _ _ _ _ _ _ _
  · exact keeps_cycleStepEnd h _

theorem keeps_reclaimGrant (h : Keeps false a b) :
    Keeps false a (reclaimGrant b) := by
  unfold reclaimGrant
  split
  · exact h
  · exact keeps_update (keeps_issueMark h _ _) _ _ _ _ _ _ _ _ _ _ _ _ _
  · exact keeps_copyFrom (who := .reclaim) h _ _
  · exact keeps_update (keeps_issueErase h _) _ _ _ _ _ _ _ _ _ _ _ _ _

/-! ## Phases 1 to 9 of a mount -/

theorem keeps_phase10 (h : Keeps true a b) :
    Keeps true a (phase10 b) := by
  unfold phase10
  try dsimp only
  repeat' first
    | exact h | with_reducible apply keeps_nextSource | fail_if_no_progress (with_reducible apply keeps_update) | split

theorem keeps_headCloses (h : Keeps true a b) (l : List Sector) :
    Keeps true a (headCloses b l) := by
  unfold headCloses
  try dsimp only
  repeat' first
    | exact h | with_reducible apply keeps_setMount | with_reducible apply keeps_issueClose
    | with_reducible apply keeps_phase10 | fail_if_no_progress (with_reducible apply keeps_update) | split

theorem keeps_phase9 (h : Keeps true a b) :
    Keeps true a (phase9 b) := by
  unfold phase9
  try dsimp only
  repeat' first
    | exact h | with_reducible apply keeps_setRow | with_reducible apply keeps_headCloses
    | fail_if_no_progress (with_reducible apply keeps_update) | split

theorem keeps_uncleanErases (h : Keeps true a b) (l : List Sector) :
    Keeps true a (uncleanErases b l) := by
  unfold uncleanErases
  try dsimp only
  repeat' first
    | exact h | with_reducible apply keeps_issueErase | with_reducible apply keeps_setMount
    | with_reducible apply keeps_phase9 | fail_if_no_progress (with_reducible apply keeps_update) | split

theorem keeps_phase8 (h : Keeps true a b) :
    Keeps true a (phase8 b) := by
  unfold phase8
  try dsimp only
  repeat' first
    | exact h | with_reducible apply keeps_uncleanErases | fail_if_no_progress (with_reducible apply keeps_update) | split

theorem keeps_mountSettles (h : Keeps true a b) (l : List ScanEntry) :
    Keeps true a (mountSettles b l) := by
  unfold mountSettles
  try dsimp only
  repeat' first
    | exact h | with_reducible apply keeps_issueMark | with_reducible apply keeps_setMount
    | with_reducible apply keeps_phase8 | fail_if_no_progress (with_reducible apply keeps_update) | split


theorem fillKey_sorted (b : Block) (dir : List DirSlot) (e : ScanEntry) (h : dirSorted dir = true) :
    dirSorted (fillKey b dir e) = true := by
  unfold fillKey
  split
  · exact h
  · split
    · exact dirPut_sorted _ h
    · exact h

/-- The directory that a mount fills is in key order. -/
theorem allSlots_sorted (b : Block) : dirSorted (allSlots b) = true := by
  unfold allSlots
  have : ∀ (l : List ScanEntry) (dir : List DirSlot), dirSorted dir = true → dirSorted (l.foldl (fillKey b) dir) = true := by
    intro l
    induction l with
    | nil => intro dir h; exact h
    | cons e rest ih => intro dir h; exact ih _ (fillKey_sorted b dir e h)
  exact this _ [] rfl

theorem keeps_phase5 (h : Keeps true a b) : Keeps true a (phase5 b) := by
  unfold phase5
  apply keeps_mountSettles
  have := keeps_dir h ((allSlots b).take Config.directorySlots) b.usage (fun _ => take_sorted _ (allSlots_sorted b))
    fun e => nomatch e
  exact keeps_update this _ _ _ _ _ _ _ _ _ _ _ _ _

theorem keeps_scanOver (h : Keeps true a b) :
    Keeps true a (scanOver b) := by
  unfold scanOver
  try dsimp only
  repeat' first
    | exact h | with_reducible apply keeps_phase5 | fail_if_no_progress (with_reducible apply keeps_update) | split

theorem keeps_scanNext (h : Keeps true a b) (l : List Sector) :
    Keeps true a (scanNext b l) := by
  unfold scanNext
  try dsimp only
  repeat' first
    | exact h | with_reducible apply keeps_issueRead | with_reducible apply keeps_setMount
    | with_reducible apply keeps_scanOver | fail_if_no_progress (with_reducible apply keeps_update) | split

theorem keeps_scanEnds (h : Keeps true a b) (x : Sector) (o : Nat) (rest : List Sector) :
    Keeps true a (scanEnds b x o rest) := by
  unfold scanEnds
  try dsimp only
  repeat' first
    | exact h | with_reducible apply keeps_modMount | with_reducible apply keeps_scanNext
    | fail_if_no_progress (with_reducible apply keeps_update) | split

theorem keeps_scanUnusable (h : Keeps true a b) (x : Sector) (rest : List Sector) :
    Keeps true a (scanUnusable b x rest) := by
  unfold scanUnusable
  try dsimp only
  repeat' first
    | exact h | with_reducible apply keeps_setMount | with_reducible apply keeps_modMount
    | with_reducible apply keeps_issueClose | with_reducible apply keeps_scanNext
    | fail_if_no_progress (with_reducible apply keeps_update) | split

theorem keeps_scanAt (h : Keeps true a b) (x : Sector) (o : Nat) (rest : List Sector) :
    Keeps true a (scanAt b x o rest) := by
  unfold scanAt
  try dsimp only
  repeat' first
    | exact h | with_reducible apply keeps_issueRead | with_reducible apply keeps_setMount
    | with_reducible apply keeps_scanEnds | fail_if_no_progress (with_reducible apply keeps_update) | split

theorem keeps_noteEntry (h : Keeps m a b) (e : ScanEntry) :
    Keeps m a (noteEntry b e) := by
  unfold noteEntry
  try dsimp only
  repeat' first
    | exact h | with_reducible apply keeps_modMount | fail_if_no_progress (with_reducible apply keeps_update) | split

theorem keeps_scanHeaderRead (h : Keeps true a b) (x : Sector) (o : Nat) (rest : List Sector) (bytes : List Byte) :
    Keeps true a (scanHeaderRead b x o rest bytes) := by
  unfold scanHeaderRead
  try dsimp only
  repeat' first
    | exact h | with_reducible apply keeps_issueRead | with_reducible apply keeps_setMount
    | with_reducible apply keeps_scanEnds | with_reducible apply keeps_scanUnusable | with_reducible apply keeps_scanAt
    | with_reducible apply keeps_noteEntry | fail_if_no_progress (with_reducible apply keeps_update) | split

theorem keeps_scanEntryRead (h : Keeps true a b) (x : Sector) (o : Nat) (rest : List Sector) (bytes : List Byte) :
    Keeps true a (scanEntryRead b x o rest bytes) := by
  unfold scanEntryRead
  try dsimp only
  repeat' first
    | exact h | with_reducible apply keeps_scanUnusable | with_reducible apply keeps_scanAt
    | with_reducible apply keeps_noteEntry | fail_if_no_progress (with_reducible apply keeps_update) | split

theorem keeps_phase2 (h : Keeps true a b) (found : List HeaderClass) :
    Keeps true a (phase2 b found) := by
  unfold phase2
  try dsimp only
  repeat' first
    | exact h | with_reducible apply keeps_mountEnd | with_reducible apply keeps_modMount
    | with_reducible apply keeps_scanNext | fail_if_no_progress (with_reducible apply keeps_update) | split

theorem keeps_noteClass (h : Keeps true a b) (x : Sector) (found : List HeaderClass) (c : HeaderClass) :
    Keeps true a (noteClass b x found c) := by
  unfold noteClass
  try dsimp only
  repeat' first
    | exact h | with_reducible apply keeps_issueRead | with_reducible apply keeps_setMount
    | with_reducible apply keeps_phase2 | fail_if_no_progress (with_reducible apply keeps_update) | split

theorem keeps_headerRead (h : Keeps true a b) (x : Sector) (found : List HeaderClass) (bytes : List Byte) :
    Keeps true a (headerRead b x found bytes) := by
  unfold headerRead
  try dsimp only
  repeat' first
    | exact h | with_reducible apply keeps_issueRead | with_reducible apply keeps_setMount
    | with_reducible apply keeps_noteClass | fail_if_no_progress (with_reducible apply keeps_update) | split

theorem keeps_mountStep (h : Keeps true a b) (w : MountWork) (ok : Bool) (bytes : List Byte) :
    Keeps true a (mountStep b w ok bytes) := by
  unfold mountStep
  split
  all_goals try dsimp only
  all_goals repeat' first
    | exact h
    | exact keeps_copyStep (who := .mount _) h _ _ _ _ _
    | with_reducible apply keeps_issueMark
    | with_reducible apply keeps_setMount
    | with_reducible apply keeps_modMount
    | with_reducible apply keeps_closeDone
    | with_reducible apply keeps_eraseDone
    | with_reducible apply keeps_headStep
    | with_reducible apply keeps_nextSource
    | with_reducible apply keeps_mountSettleStep
    | with_reducible apply keeps_headCloses
    | with_reducible apply keeps_uncleanErases
    | with_reducible apply keeps_mountSettles
    | with_reducible apply keeps_scanNext
    | with_reducible apply keeps_scanHeaderRead
    | with_reducible apply keeps_scanEntryRead
    | with_reducible apply keeps_noteClass
    | with_reducible apply keeps_headerRead
    | fail_if_no_progress (with_reducible apply keeps_update)
    | split

end Sys2Proof.Machine
end

