-- ==== Sys2Proof/Laws/MountRuns.lean ====
section
/-! SUPPORT. Where a mount's functions come to: the mount holds the engine still, or its end has counted the directory (R101). -/

set_option linter.unusedTactic false
set_option linter.unreachableTactic false

namespace Sys2Proof.Machine

/-- The mount holds the engine, or the usage counters count the directory. -/
def MountRuns (b : Block) : Prop := (∃ w, b.holder = .mount w) ∨ Counted b

variable {b : Block}

theorem runs_setMount (b : Block) (w : MountWork) : MountRuns (setMount b w) := .inl ⟨w, rfl⟩

theorem runs_mountEnd (b : Block) (found : Bool) : MountRuns (mountEnd found b) := by
  right
  intro p
  have hk : ∀ c, (if (fillCounts b).mount.fault || (fillCounts b).mount.overflow then raiseAll c causeFault else c).usage =
      c.usage ∧ (if (fillCounts b).mount.fault || (fillCounts b).mount.overflow then raiseAll c causeFault else c).dir =
      c.dir := by intro c; split <;> exact ⟨rfl, rfl⟩
  simp only [mountEnd, evalTriggers_usage, evalTriggers_dir, evalSpaceLow_usage, evalSpaceLow_dir, (hk _).1, (hk _).2]
  cases p <;> rfl

theorem runs_startSettleCopy (b : Block) (why : SettleFor) (e : ScanEntry) :
    MountRuns (startSettleCopy b why e) := by
  unfold startSettleCopy
  try dsimp only
  repeat' first
    | with_reducible apply runs_setMount | exact .inl ⟨_, rfl⟩ | split

theorem runs_finalSettle (b : Block) (l : List ScanEntry) :
    MountRuns (finalSettle b l) := by
  unfold finalSettle
  try dsimp only
  repeat' first
    | with_reducible apply runs_mountEnd | with_reducible apply runs_startSettleCopy | exact .inl ⟨_, rfl⟩ | split

theorem runs_phase11 (b : Block) :
    MountRuns (phase11 b) := by
  unfold phase11
  try dsimp only
  repeat' first
    | with_reducible apply runs_setMount | with_reducible apply runs_finalSettle | exact .inl ⟨_, rfl⟩ | split

theorem runs_headStep (b : Block) (x : Sector) (mark ok : Bool) :
    MountRuns (headStep b x mark ok) := by
  unfold headStep
  try dsimp only
  repeat' first
    | with_reducible apply runs_setMount | with_reducible apply runs_phase11 | exact .inl ⟨_, rfl⟩ | split

theorem runs_nextSource (b : Block) (l : List Sector) :
    MountRuns (nextSource b l) := by
  unfold nextSource
  try dsimp only
  repeat' first
    | with_reducible apply runs_setMount | with_reducible apply runs_phase11 | exact .inl ⟨_, rfl⟩ | split

theorem runs_settleThenErase (b : Block) (x : Sector) (rest : List Sector) (l : List ScanEntry) :
    MountRuns (settleThenErase b x rest l) := by
  unfold settleThenErase
  try dsimp only
  repeat' first
    | with_reducible apply runs_setMount | with_reducible apply runs_startSettleCopy | exact .inl ⟨_, rfl⟩ | split

theorem runs_sourceEmptied (b : Block) (x : Sector) (rest : List Sector) :
    MountRuns (sourceEmptied b x rest) := by
  unfold sourceEmptied
  try dsimp only
  repeat' first
    | with_reducible apply runs_settleThenErase | exact .inl ⟨_, rfl⟩ | split

theorem runs_settleMade (b : Block) (why : SettleFor) :
    MountRuns (settleMade b why) := by
  unfold settleMade
  try dsimp only
  repeat' first
    | with_reducible apply runs_finalSettle | with_reducible apply runs_settleThenErase | exact .inl ⟨_, rfl⟩ | split

theorem runs_settleLost (b : Block) (why : SettleFor) :
    MountRuns (settleLost b why) := by
  unfold settleLost
  try dsimp only
  repeat' first
    | with_reducible apply runs_finalSettle | with_reducible apply runs_nextSource | exact .inl ⟨_, rfl⟩ | split

theorem runs_mountSettleSecond (b : Block) (why : SettleFor) (e : ScanEntry) (img : EntryImage) :
    MountRuns (mountSettleSecond b why e img) := by
  unfold mountSettleSecond
  try dsimp only
  repeat' first
    | with_reducible apply runs_setMount | with_reducible apply runs_settleLost | exact .inl ⟨_, rfl⟩ | split

theorem runs_mountSettleClosed (b : Block) (why : SettleFor) (e : ScanEntry) (img : EntryImage) (second : Bool) :
    MountRuns (mountSettleClosed b why e img second) := by
  unfold mountSettleClosed
  try dsimp only
  repeat' first
    | with_reducible apply runs_settleLost | with_reducible apply runs_mountSettleSecond | exact .inl ⟨_, rfl⟩ | split

theorem runs_mountSettleFailed (b : Block) (why : SettleFor) (e : ScanEntry) (img : EntryImage) (second : Bool) :
    MountRuns (mountSettleFailed b why e img second) := by
  unfold mountSettleFailed
  try dsimp only
  repeat' first
    | with_reducible apply runs_setMount | with_reducible apply runs_mountSettleClosed | exact .inl ⟨_, rfl⟩ | split

theorem runs_mountSettleStep (b : Block) (why : SettleFor) (e : ScanEntry) (w : SettleWork) (ok : Bool) (bytes : List Byte) :
    MountRuns (mountSettleStep b why e w ok bytes) := by
  unfold mountSettleStep
  try dsimp only
  repeat' first
    | with_reducible apply runs_setMount | with_reducible apply runs_settleMade
    | with_reducible apply runs_mountSettleClosed | with_reducible apply runs_mountSettleFailed | exact .inl ⟨_, rfl⟩
    | split

theorem runs_setCopy (b : Block) (rest0 : List Sector) (x : Sector) (pos : CopyPos) (w : CopyWork) :
    MountRuns (setCopy b (.mount rest0) x pos w) := by
  unfold setCopy
  try dsimp only
  repeat' first
    | exact .inl ⟨_, rfl⟩ | split

theorem runs_copyFinished (b : Block) (rest0 : List Sector) (x : Sector) :
    MountRuns (copyFinished b (.mount rest0) x) := by
  unfold copyFinished
  try dsimp only
  repeat' first
    | with_reducible apply runs_sourceEmptied | exact .inl ⟨_, rfl⟩ | split

theorem runs_copyAbandon (b : Block) (rest0 : List Sector) :
    MountRuns (copyAbandon b (.mount rest0)) := by
  unfold copyAbandon
  try dsimp only
  repeat' first
    | with_reducible apply runs_phase11 | exact .inl ⟨_, rfl⟩ | split

theorem runs_copyEntry (b : Block) (rest0 : List Sector) (x : Sector) (pos : CopyPos) (d : DirSlot) :
    MountRuns (copyEntry b (.mount rest0) x pos d) := by
  unfold copyEntry
  try dsimp only
  repeat' first
    | with_reducible apply runs_setCopy | exact .inl ⟨_, rfl⟩ | split

theorem runs_copySweep (b : Block) (rest0 : List Sector) (x : Sector) :
    MountRuns (copySweep b (.mount rest0) x) := by
  unfold copySweep
  try dsimp only
  repeat' first
    | with_reducible apply runs_copyFinished | with_reducible apply runs_copyEntry | exact .inl ⟨_, rfl⟩ | split

theorem runs_copyFrom (b : Block) (rest0 : List Sector) (x : Sector) (pos : CopyPos) :
    MountRuns (copyFrom b (.mount rest0) x pos) := by
  unfold copyFrom
  try dsimp only
  repeat' first
    | with_reducible apply runs_setCopy | with_reducible apply runs_copySweep | exact .inl ⟨_, rfl⟩ | split

theorem runs_copyDone (b : Block) (rest0 : List Sector) (x : Sector) (pos : CopyPos) :
    MountRuns (copyDone b (.mount rest0) x pos) := by
  unfold copyDone
  try dsimp only
  repeat' first
    | with_reducible apply runs_copyFrom | exact .inl ⟨_, rfl⟩ | split

theorem runs_copyNamed (b : Block) (rest0 : List Sector) (x : Sector) (o next : Nat) :
    MountRuns (copyNamed b (.mount rest0) x o next) := by
  unfold copyNamed
  try dsimp only
  repeat' first
    | with_reducible apply runs_copyEntry | with_reducible apply runs_copyFrom | exact .inl ⟨_, rfl⟩ | split

theorem runs_walkHeader (b : Block) (rest0 : List Sector) (x : Sector) (o : Nat) (bytes : List Byte) :
    MountRuns (walkHeader b (.mount rest0) x o bytes) := by
  unfold walkHeader
  try dsimp only
  repeat' first
    | with_reducible apply runs_copySweep | with_reducible apply runs_copyFrom | with_reducible apply runs_copyNamed
    | exact .inl ⟨_, rfl⟩ | split

theorem runs_entryRead (b : Block) (rest0 : List Sector) (x : Sector) (pos : CopyPos) (d : DirSlot) (bytes : List Byte) :
    MountRuns (entryRead b (.mount rest0) x pos d bytes) := by
  unfold entryRead
  try dsimp only
  repeat' first
    | with_reducible apply runs_setCopy | with_reducible apply runs_copyAbandon | exact .inl ⟨_, rfl⟩ | split

theorem runs_copySecond (b : Block) (rest0 : List Sector) (x : Sector) (pos : CopyPos) (d : DirSlot) (img : EntryImage) :
    MountRuns (copySecond b (.mount rest0) x pos d img) := by
  unfold copySecond
  try dsimp only
  repeat' first
    | with_reducible apply runs_setCopy | with_reducible apply runs_copyAbandon | exact .inl ⟨_, rfl⟩ | split

theorem runs_copyClosed (b : Block) (rest0 : List Sector) (x : Sector) (pos : CopyPos) (d : DirSlot) (second : Bool) (img : EntryImage) :
    MountRuns (copyClosed b (.mount rest0) x pos d second img) := by
  unfold copyClosed
  try dsimp only
  repeat' first
    | with_reducible apply runs_copyAbandon | with_reducible apply runs_copySecond | exact .inl ⟨_, rfl⟩ | split

theorem runs_copyFailed (b : Block) (rest0 : List Sector) (x : Sector) (pos : CopyPos) (d : DirSlot) (second : Bool) (img : EntryImage) :
    MountRuns (copyFailed b (.mount rest0) x pos d second img) := by
  unfold copyFailed
  try dsimp only
  repeat' first
    | with_reducible apply runs_setCopy | with_reducible apply runs_copyClosed | exact .inl ⟨_, rfl⟩ | split

theorem runs_copyStep (b : Block) (rest0 : List Sector) (x : Sector) (pos : CopyPos) (w : CopyWork) (ok : Bool) (bytes : List Byte) :
    MountRuns (copyStep b (.mount rest0) x pos w ok bytes) := by
  unfold copyStep
  try dsimp only
  repeat' first
    | with_reducible apply runs_setCopy | with_reducible apply runs_copyAbandon | with_reducible apply runs_copySweep
    | with_reducible apply runs_copyDone | with_reducible apply runs_walkHeader | with_reducible apply runs_entryRead
    | with_reducible apply runs_copyClosed | with_reducible apply runs_copyFailed | exact .inl ⟨_, rfl⟩ | split

theorem runs_phase10 (b : Block) :
    MountRuns (phase10 b) := by
  unfold phase10
  try dsimp only
  repeat' first
    | with_reducible apply runs_nextSource | exact .inl ⟨_, rfl⟩ | split

theorem runs_headCloses (b : Block) (l : List Sector) :
    MountRuns (headCloses b l) := by
  unfold headCloses
  try dsimp only
  repeat' first
    | with_reducible apply runs_setMount | with_reducible apply runs_phase10 | exact .inl ⟨_, rfl⟩ | split

theorem runs_phase9 (b : Block) :
    MountRuns (phase9 b) := by
  unfold phase9
  try dsimp only
  repeat' first
    | with_reducible apply runs_headCloses | exact .inl ⟨_, rfl⟩ | split

theorem runs_uncleanErases (b : Block) (l : List Sector) :
    MountRuns (uncleanErases b l) := by
  unfold uncleanErases
  try dsimp only
  repeat' first
    | with_reducible apply runs_setMount | with_reducible apply runs_phase9 | exact .inl ⟨_, rfl⟩ | split

theorem runs_phase8 (b : Block) :
    MountRuns (phase8 b) := by
  unfold phase8
  try dsimp only
  repeat' first
    | with_reducible apply runs_uncleanErases | exact .inl ⟨_, rfl⟩ | split

theorem runs_mountSettles (b : Block) (l : List ScanEntry) :
    MountRuns (mountSettles b l) := by
  unfold mountSettles
  try dsimp only
  repeat' first
    | with_reducible apply runs_setMount | with_reducible apply runs_phase8 | exact .inl ⟨_, rfl⟩ | split

theorem runs_phase5 (b : Block) :
    MountRuns (phase5 b) := by
  unfold phase5
  try dsimp only
  repeat' first
    | with_reducible apply runs_mountSettles | exact .inl ⟨_, rfl⟩ | split

theorem runs_scanOver (b : Block) :
    MountRuns (scanOver b) := by
  unfold scanOver
  try dsimp only
  repeat' first
    | with_reducible apply runs_phase5 | exact .inl ⟨_, rfl⟩ | split

theorem runs_scanNext (b : Block) (l : List Sector) :
    MountRuns (scanNext b l) := by
  unfold scanNext
  try dsimp only
  repeat' first
    | with_reducible apply runs_setMount | with_reducible apply runs_scanOver | exact .inl ⟨_, rfl⟩ | split

theorem runs_scanEnds (b : Block) (x : Sector) (o : Nat) (rest : List Sector) :
    MountRuns (scanEnds b x o rest) := by
  unfold scanEnds
  try dsimp only
  repeat' first
    | with_reducible apply runs_scanNext | exact .inl ⟨_, rfl⟩ | split

theorem runs_scanUnusable (b : Block) (x : Sector) (rest : List Sector) :
    MountRuns (scanUnusable b x rest) := by
  unfold scanUnusable
  try dsimp only
  repeat' first
    | with_reducible apply runs_setMount | with_reducible apply runs_scanNext | exact .inl ⟨_, rfl⟩ | split

theorem runs_scanAt (b : Block) (x : Sector) (o : Nat) (rest : List Sector) :
    MountRuns (scanAt b x o rest) := by
  unfold scanAt
  try dsimp only
  repeat' first
    | with_reducible apply runs_setMount | with_reducible apply runs_scanEnds | exact .inl ⟨_, rfl⟩ | split

theorem runs_scanHeaderRead (b : Block) (x : Sector) (o : Nat) (rest : List Sector) (bytes : List Byte) :
    MountRuns (scanHeaderRead b x o rest bytes) := by
  unfold scanHeaderRead
  try dsimp only
  repeat' first
    | with_reducible apply runs_setMount | with_reducible apply runs_scanEnds | with_reducible apply runs_scanUnusable
    | with_reducible apply runs_scanAt | exact .inl ⟨_, rfl⟩ | split

theorem runs_scanEntryRead (b : Block) (x : Sector) (o : Nat) (rest : List Sector) (bytes : List Byte) :
    MountRuns (scanEntryRead b x o rest bytes) := by
  unfold scanEntryRead
  try dsimp only
  repeat' first
    | with_reducible apply runs_scanUnusable | with_reducible apply runs_scanAt | exact .inl ⟨_, rfl⟩ | split

theorem runs_phase2 (b : Block) (found : List HeaderClass) :
    MountRuns (phase2 b found) := by
  unfold phase2
  try dsimp only
  repeat' first
    | with_reducible apply runs_mountEnd | with_reducible apply runs_scanNext | exact .inl ⟨_, rfl⟩ | split

theorem runs_noteClass (b : Block) (x : Sector) (found : List HeaderClass) (c : HeaderClass) :
    MountRuns (noteClass b x found c) := by
  unfold noteClass
  try dsimp only
  repeat' first
    | with_reducible apply runs_setMount | with_reducible apply runs_phase2 | exact .inl ⟨_, rfl⟩ | split

theorem runs_headerRead (b : Block) (x : Sector) (found : List HeaderClass) (bytes : List Byte) :
    MountRuns (headerRead b x found bytes) := by
  unfold headerRead
  try dsimp only
  repeat' first
    | with_reducible apply runs_setMount | with_reducible apply runs_noteClass | exact .inl ⟨_, rfl⟩ | split

theorem runs_mountStep (b : Block) (w : MountWork) (ok : Bool) (bytes : List Byte) :
    MountRuns (mountStep b w ok bytes) := by
  unfold mountStep
  try dsimp only
  repeat' first
    | with_reducible apply runs_setMount | with_reducible apply runs_headStep | with_reducible apply runs_nextSource
    | with_reducible apply runs_mountSettleStep | with_reducible apply runs_copyStep
    | with_reducible apply runs_headCloses | with_reducible apply runs_uncleanErases
    | with_reducible apply runs_mountSettles | with_reducible apply runs_scanNext
    | with_reducible apply runs_scanHeaderRead | with_reducible apply runs_scanEntryRead
    | with_reducible apply runs_noteClass | with_reducible apply runs_headerRead | exact .inl ⟨_, rfl⟩ | split

end Sys2Proof.Machine
end

