-- ==== Sys2Proof/Laws/Engine.lean ====
section
/-! SUPPORT. What the end of an operation and a grant keep of the part, and what an event's end changes: only the engine, the reclaim
flag and what a waiting FORMAT does, and port 2's framing. -/

namespace Sys2Proof.Machine

variable {m : Bool} {a b : Block}

theorem Keeps.weaken (h : Keeps false a b) : Keeps true a b :=
  ⟨h.inReset, h.admin, h.addrStraps, h.engine, h.banks, h.lastGranted, h.select, h.wire, h.ports, h.dir, fun e => nomatch e⟩

/-- The holder's next action, when the holder is no mount. -/
theorem keeps_holderNext (hm : ∀ w, b.holder ≠ .mount w) (ok : Bool) (bytes : List Byte) :
    Keeps false b (holderNext b ok bytes) := by
  unfold holderNext
  split
  · exact Keeps.refl _ _
  · split
    all_goals first
      | exact keeps_commitStep (Keeps.refl _ _) _ _ _
      | exact keeps_formatStep (Keeps.refl _ _) _ _ _ _
  · exact keeps_reclaimStep (Keeps.refl _ _) _ _ _
  · rename_i w hw; exact absurd hw (hm w)

/-- The mount's next action. -/
theorem keeps_holderNext_mount {w : MountWork} (hm : b.holder = .mount w) (ok : Bool) (bytes : List Byte) :
    Keeps true b (holderNext b ok bytes) ∧ MountRuns (holderNext b ok bytes) := by
  unfold holderNext
  rw [hm]
  exact ⟨keeps_mountStep (Keeps.refl _ _) _ _ _, runs_mountStep _ _ _ _⟩

/-- The holder's next action, whoever it is. -/
theorem keeps_holderNext_any (b : Block) (ok : Bool) (bytes : List Byte) : Keeps true b (holderNext b ok bytes) := by
  by_cases h : ∃ w, b.holder = .mount w
  · obtain ⟨w, hw⟩ := h; exact (keeps_holderNext_mount hw ok bytes).1
  · exact (keeps_holderNext (fun w hw => h ⟨w, hw⟩) ok bytes).weaken

/-- A take. -/
theorem keeps_takePort (h : Keeps m a b) (p : Port) : Keeps m a (takePort b p) := by
  unfold takePort
  split
  · split
    · exact keeps_takeFormat h p
    · exact keeps_takeJob h p _
  · exact h

/-! ## The end of an event -/

/-- A stretch that ends changes port 2's framing alone. -/
theorem endStretch_eq (b : Block) : endStretch b = { b with wire := (endStretch b).wire } := by
  unfold endStretch; split <;> rfl

/-- Where no stretch is running an event's end changes nothing. -/
theorem endStretch_of_not {b : Block} (h : b.wire.state ≠ .stretching) : endStretch b = b := by
  simp [endStretch, h]

@[simp] theorem endStretch_ports (b : Block) : (endStretch b).ports = b.ports := by unfold endStretch; split <;> rfl
@[simp] theorem endStretch_dir (b : Block) : (endStretch b).dir = b.dir := by unfold endStretch; split <;> rfl
@[simp] theorem endStretch_usage (b : Block) : (endStretch b).usage = b.usage := by unfold endStretch; split <;> rfl
@[simp] theorem endStretch_holder (b : Block) : (endStretch b).holder = b.holder := by unfold endStretch; split <;> rfl
@[simp] theorem endStretch_engine (b : Block) : (endStretch b).engine = b.engine := by unfold endStretch; split <;> rfl
@[simp] theorem endStretch_issued (b : Block) : (endStretch b).issued = b.issued := by unfold endStretch; split <;> rfl
@[simp] theorem endStretch_sectors (b : Block) : (endStretch b).sectors = b.sectors := by unfold endStretch; split <;> rfl
@[simp] theorem endStretch_banks (b : Block) : (endStretch b).banks = b.banks := by unfold endStretch; split <;> rfl
@[simp] theorem endStretch_storeSeq (b : Block) : (endStretch b).storeSeq = b.storeSeq := by
  unfold endStretch; split <;> rfl
@[simp] theorem endStretch_policy (b : Block) : (endStretch b).policy = b.policy := by unfold endStretch; split <;> rfl
@[simp] theorem endStretch_lastGranted (b : Block) : (endStretch b).lastGranted = b.lastGranted := by
  unfold endStretch; split <;> rfl
@[simp] theorem endStretch_corruptCount (b : Block) : (endStretch b).corruptCount = b.corruptCount := by
  unfold endStretch; split <;> rfl
@[simp] theorem endStretch_storeState (b : Block) : (endStretch b).storeState = b.storeState := by
  unfold endStretch; split <;> rfl

@[simp] theorem resumeErase_ports (b : Block) : (resumeErase b).ports = b.ports := by
  unfold resumeErase; split <;> (try split) <;> rfl
@[simp] theorem resumeErase_dir (b : Block) : (resumeErase b).dir = b.dir := by
  unfold resumeErase; split <;> (try split) <;> rfl
@[simp] theorem resumeErase_usage (b : Block) : (resumeErase b).usage = b.usage := by
  unfold resumeErase; split <;> (try split) <;> rfl
@[simp] theorem resumeErase_holder (b : Block) : (resumeErase b).holder = b.holder := by
  unfold resumeErase; split <;> (try split) <;> rfl
@[simp] theorem resumeErase_banks (b : Block) : (resumeErase b).banks = b.banks := by
  unfold resumeErase; split <;> (try split) <;> rfl
@[simp] theorem resumeErase_corruptCount (b : Block) : (resumeErase b).corruptCount = b.corruptCount := by
  unfold resumeErase; split <;> (try split) <;> rfl
@[simp] theorem resumeErase_select (b : Block) : (resumeErase b).select = b.select := by
  unfold resumeErase; split <;> (try split) <;> rfl
@[simp] theorem resumeErase_wire (b : Block) : (resumeErase b).wire = b.wire := by
  unfold resumeErase; split <;> (try split) <;> rfl

/-- What the drop of pins keeps, but for the engine. -/
theorem keeps_unpinned (h : Keeps m a b) : Keeps m a (formatUnpinned (victimUnpinned b)) :=
  keeps_formatUnpinned (keeps_victimUnpinned h)

@[simp] theorem victimUnpinned_ports (b : Block) : (victimUnpinned b).ports = b.ports := by
  unfold victimUnpinned; split <;> (try split) <;> rfl
@[simp] theorem victimUnpinned_holder (b : Block) : (victimUnpinned b).holder = b.holder := by
  unfold victimUnpinned; split <;> (try split) <;> rfl
@[simp] theorem victimUnpinned_dir (b : Block) : (victimUnpinned b).dir = b.dir := by
  unfold victimUnpinned; split <;> (try split) <;> rfl
@[simp] theorem victimUnpinned_usage (b : Block) : (victimUnpinned b).usage = b.usage := by
  unfold victimUnpinned; split <;> (try split) <;> rfl
@[simp] theorem victimUnpinned_banks (b : Block) : (victimUnpinned b).banks = b.banks := by
  unfold victimUnpinned; split <;> (try split) <;> rfl
@[simp] theorem victimUnpinned_corruptCount (b : Block) : (victimUnpinned b).corruptCount = b.corruptCount := by
  unfold victimUnpinned; split <;> (try split) <;> rfl

/-- Without a FORMAT that waits for pins their drop lets no FORMAT go on. -/
theorem formatUnpinned_of_not {b : Block} (h : ∀ q w, b.holder ≠ .job q (.formatPins w)) : formatUnpinned b = b := by
  unfold formatUnpinned
  split
  · rename_i q w hw; exact absurd hw (h q w)
  all_goals rfl

/-- A FORMAT erases at least one sector. -/
theorem formatOrder_ne_nil (b : Block) (withdrawn : Option Sector) : formatOrder b withdrawn ≠ [] := by
  intro h
  simp only [formatOrder, List.append_eq_nil_iff, List.filter_eq_nil_iff, List.mem_filter] at h
  obtain ⟨⟨h1, h2⟩, h3⟩ := h
  cases withdrawn with
  | some x => simp at h3
  | none =>
    have ha := h1 0 ⟨mem_allSectors 0, by decide⟩
    have hb := h2 0 ⟨mem_allSectors 0, by decide⟩
    by_cases hr : (row b 0).state = .retired <;> simp [hr] at ha hb

/-- The emptying of a FORMAT touches no port. -/
@[simp] theorem formatUnpinned_ports (b : Block) : (formatUnpinned b).ports = b.ports := by
  unfold formatUnpinned
  split
  · rename_i p w _
    split
    · unfold formatEmpty
      dsimp only
      cases h : formatOrder { b with dir := [], usage := PerPort.all 0, storeSeq := 0, policy := Policy.default } w with
      | nil => exact absurd h (formatOrder_ne_nil _ _)
      | cons x rest => rfl
    · rfl
  all_goals rfl

/-- The checks of the operations do not look at the last granted requester. -/
theorem opsCheck_lastGranted (b : Block) (r : Requester) (p : Port) (ops : List WriteOp) :
    ∀ i, opsCheck { b with lastGranted := r } p i ops = opsCheck b p i ops := by
  induction ops with
  | nil => intro i; rfl
  | cons op rest ih =>
    intro i
    simp only [opsCheck, ih]
    rfl

/-- Nor do all the checks of a take (R28). -/
theorem takeChecks_lastGranted (b : Block) (r : Requester) (p : Port) (ops : List WriteOp) :
    takeChecks { b with lastGranted := r } p ops = takeChecks b p ops := by
  unfold takeChecks
  rw [opsCheck_lastGranted]
  rfl

/-! ## Damage reports (R17, R134, R136) -/

/-- A posting touches notes and causes alone. -/
theorem postNote_eq (n : Note) (q : PortState) :
    postNote n q = { q with notes := (postNote n q).notes, sticky := (postNote n q).sticky } := by
  unfold postNote
  split <;> [rfl; (split <;> rfl)]

/-- A posting clears no cause. -/
theorem postNote_sticky (n : Note) (q : PortState) (h : q.sticky &&& causeFault = causeFault) :
    (postNote n q).sticky &&& causeFault = causeFault := by
  unfold postNote
  split
  · exact h
  · split
    · exact h
    · show (q.sticky ||| causeNoteLost) &&& causeFault = causeFault
      rw [BitVec.and_comm, BitVec.and_or_distrib_left, BitVec.and_comm, h]; decide

/-- The causes do not decide what a posting makes of the notes. -/
theorem postNote_notes (n : Note) (q : PortState) (s : BitVec 16) :
    (postNote n { q with sticky := s }).notes = (postNote n q).notes := by
  unfold postNote
  dsimp only
  split <;> [rfl; (split <;> rfl)]

/-- DAMAGED reaches each port that watches the key and may read the record (R136), and no other. -/
theorem postDamage_get (d : DirSlot) (b : Block) (q : Port) :
    (postDamage d b).ports.get q =
      if (b.ports.get q).watches.contains d.key && mayRead q d then
        postNote { key := d.key, seq := d.seq, kind := .damaged, byPort := none, merged := 0 } (b.ports.get q)
      else b.ports.get q := by
  unfold postDamage
  simp only [allPorts, List.foldl_cons, List.foldl_nil]
  generalize ({ key := d.key, seq := d.seq, kind := .damaged, byPort := none, merged := 0 } : Note) = n
  have one : ∀ (c : Block) (p : Port) (b : Block), c.ports.get p = b.ports.get p →
      ∀ o, (if (c.ports.get p).watches.contains d.key && mayRead p d then modPort c p (postNote n) else c).ports.get o =
        if o = p then (if (b.ports.get p).watches.contains d.key && mayRead p d then postNote n (b.ports.get p) else b.ports.get p)
        else c.ports.get o := by
    intro c p b e o
    rw [e]
    by_cases ho : o = p
    · subst ho; split <;> simp [e]
    · rw [if_neg ho]; split
      · exact modPort_get_other _ _ ho
      · rfl
  have h0 := one b .p0 b rfl
  have h1 := one _ .p1 b (by rw [h0, if_neg (by decide)])
  have h2 := one _ .p2 b (by rw [h1, if_neg (by decide), h0, if_neg (by decide)])
  rw [h2]
  cases q
  · rw [if_neg (by decide), h1, if_neg (by decide), h0, if_pos rfl]
  · rw [if_neg (by decide), h1, if_pos rfl]
  · rw [if_pos rfl]

/-- DAMAGED notes touch ports alone. -/
theorem postDamage_eq (d : DirSlot) (b : Block) : postDamage d b = { b with ports := (postDamage d b).ports } := by
  unfold postDamage
  simp only [allPorts, List.foldl_cons, List.foldl_nil]
  repeat' split
  all_goals rfl

end Sys2Proof.Machine
end

