-- ==== Sys2Proof/Laws/Commit.lean ====
section
/-! SUPPORT. Commit jobs: what the switch of a job leaves in the directory, what its end brings its port, and what an attempt that
fails before its commit point keeps. -/

set_option linter.unusedTactic false
set_option linter.unreachableTactic false

namespace Sys2Proof.Machine

open Safety

variable {a b : Block}

/-! ## The switch of a job (R14) -/

/-- The slot that an operation leaves is the slot of its key. -/
theorem slotAfter_key {p : Port} {op : WriteOp} {loc : Loc} {seq : Seq} {d : DirSlot}
    (h : slotAfter b p op loc seq = some d) : d.key = op.key := by
  unfold slotAfter at h
  split at h
  · cases h
    unfold slotAfterPut
    dsimp only
    split
    · rfl
    · split
      · rfl
      · split <;> rfl
  · rw [Option.map_eq_some_iff] at h
    obtain ⟨e, he, rfl⟩ := h
    unfold presentSlot at he
    show e.key = op.key
    exact dirFind_key (Option.filter_eq_some_iff.1 he).1

/-- What a PUT or DELETE leaves is the slot of R14's table. -/
theorem slotAfter_isSwitched {p : Port} {op : WriteOp} {loc : Loc} {seq : Seq} {d : DirSlot}
    (h : slotAfter b p op loc seq = some d) : isSwitched p op loc seq (presentSlot op.key b.dir) d := by
  have hk := slotAfter_key h
  obtain ⟨key, expected, kind⟩ := op
  refine ⟨hk, ?_⟩
  cases kind with
  | put attrs payload =>
    cases Option.some.inj h
    dsimp only
    unfold slotAfterPut
    dsimp only
    split
    · simp [allPortsSet]
    · cases presentSlot key b.dir <;> cases attrs <;> simp [createdAttrs, allPortsSet, ownerBit]
  | delete =>
    obtain ⟨e, he, rfl⟩ := Option.map_eq_some_iff.1 h
    exact ⟨rfl, rfl, rfl, rfl, rfl, rfl, e, he, rfl, rfl, rfl⟩

/-- Every operation that a take lets pass leaves a slot: a DELETE needs a record (R28). -/
theorem slotAfter_some (p : Port) {op : WriteOp} (loc : Loc) (seq : Seq)
    (h : op.kind = .delete → presentSlot op.key b.dir ≠ none) : ∃ d, slotAfter b p op loc seq = some d := by
  unfold slotAfter
  split
  · exact ⟨_, rfl⟩
  · rename_i hk
    obtain ⟨e, he⟩ := Option.ne_none_iff_exists'.1 (h hk)
    exact ⟨_, by rw [he]; rfl⟩

/-- What an operation makes of a slot depends on the slot of its own key alone. -/
theorem slotAfter_congr (p : Port) (op : WriteOp) (loc : Loc) (seq : Seq)
    (h : dirFind op.key a.dir = dirFind op.key b.dir) : slotAfter a p op loc seq = slotAfter b p op loc seq := by
  simp only [slotAfter, slotAfterPut, presentSlot, h]

/-- After the switch of one operation: its key finds the new slot, and every other key finds what it found. -/
theorem switchOp_find (p : Port) (seq : Seq) (e : WriteOp × Loc) (h : dirSorted b.dir = true) (k : Key) :
    dirFind k (switchOp p seq b e).dir =
      if k = e.1.key then (slotAfter b p e.1 e.2 seq).or (dirFind k b.dir) else dirFind k b.dir := by
  unfold switchOp
  split
  · rename_i d hd
    dsimp only
    rw [dirFind_dirPut d h, slotAfter_key hd, hd]
    rfl
  · rename_i hn
    rw [hn]
    split <;> rfl

/-- The usage counters after the switch of one operation (R18). -/
theorem switchOp_usage (p : Port) (seq : Seq) {e : WriteOp × Loc} {d : DirSlot} (h : slotAfter b p e.1 e.2 seq = some d) (q : Port) :
    (switchOp p seq b e).usage.get q =
      b.usage.get q + usageOf q d - ((dirFind e.1.key b.dir).map (usageOf q)).getD 0 := by
  unfold switchOp
  rw [h, ← slotAfter_key h]
  cases q <;> rfl

theorem switchOp_sorted (p : Port) (seq : Seq) (e : WriteOp × Loc) (h : dirSorted b.dir = true) :
    dirSorted (switchOp p seq b e).dir = true := by
  unfold switchOp
  split
  · exact dirPut_sorted _ h
  · exact h

/-- After the switch of a job whose operations name different keys: the key of each operation finds the slot it leaves, and every other
key finds what it found. -/
theorem switched_find (p : Port) (seq : Seq) (l : List (WriteOp × Loc)) :
    ∀ b : Block, dirSorted b.dir = true → (l.map (·.1.key)).Nodup →
      (∀ e ∈ l, dirFind e.1.key (l.foldl (switchOp p seq) b).dir =
        (slotAfter b p e.1 e.2 seq).or (dirFind e.1.key b.dir)) ∧
      ∀ k, k ∉ l.map (·.1.key) → dirFind k (l.foldl (switchOp p seq) b).dir = dirFind k b.dir := by
  induction l with
  | nil => exact fun b _ _ => ⟨fun _ h => (nomatch h), fun _ _ => rfl⟩
  | cons c rest ih =>
    intro b hs hn
    rw [List.map_cons, List.nodup_cons] at hn
    obtain ⟨hc, hn⟩ := hn
    obtain ⟨h1, h2⟩ := ih (switchOp p seq b c) (switchOp_sorted p seq c hs) hn
    have other : ∀ k, k ≠ c.1.key → dirFind k (switchOp p seq b c).dir = dirFind k b.dir := fun k hk => by
      rw [switchOp_find p seq c hs, if_neg hk]
    refine ⟨?_, ?_⟩
    · intro e he
      rcases List.mem_cons.1 he with rfl | he
      · rw [List.foldl_cons, h2 _ hc, switchOp_find p seq e hs, if_pos rfl]
      · have hk : e.1.key ≠ c.1.key := fun h => hc (h ▸ List.mem_map_of_mem he)
        rw [List.foldl_cons, h1 e he, other _ hk, slotAfter_congr p e.1 e.2 seq (other _ hk)]
    · intro k hk
      rw [List.map_cons, List.mem_cons, not_or] at hk
      rw [List.foldl_cons, h2 k hk.2, other k hk.1]

/-! ## What the effects of a completion leave alone (R39) -/

/-- The fields of the part, and of each port, that the effects of a completion do not touch. -/
structure CompletionKept (a b : Block) : Prop where
  inReset : b.inReset = a.inReset
  storeState : b.storeState = a.storeState
  storeSeq : b.storeSeq = a.storeSeq
  engine : b.engine = a.engine
  holder : b.holder = a.holder
  issued : b.issued = a.issued
  wire : b.wire = a.wire
  sectors : b.sectors = a.sectors
  slot : ∀ q, (b.ports.get q).slot = (a.ports.get q).slot
  job : ∀ q, (b.ports.get q).job = (a.ports.get q).job
  batch : ∀ q, (b.ports.get q).batch = (a.ports.get q).batch

theorem CompletionKept.refl (b : Block) : CompletionKept b b :=
  ⟨rfl, rfl, rfl, rfl, rfl, rfl, rfl, rfl, fun _ => rfl, fun _ => rfl, fun _ => rfl⟩

theorem CompletionKept.trans {c : Block} (h : CompletionKept a b) (k : CompletionKept b c) : CompletionKept a c :=
  ⟨k.inReset.trans h.inReset, k.storeState.trans h.storeState, k.storeSeq.trans h.storeSeq, k.engine.trans h.engine,
    k.holder.trans h.holder, k.issued.trans h.issued, k.wire.trans h.wire, k.sectors.trans h.sectors,
    fun q => (k.slot q).trans (h.slot q), fun q => (k.job q).trans (h.job q), fun q => (k.batch q).trans (h.batch q)⟩

/-- A change made item by item. -/
theorem CompletionKept.foldl {α : Type} (f : Block → α → Block) (hf : ∀ b x, CompletionKept b (f b x)) (l : List α) :
    ∀ b, CompletionKept b (l.foldl f b) := by
  induction l with
  | nil => exact CompletionKept.refl
  | cons x rest ih => exact fun b => (hf b x).trans (ih _)

theorem evalSpaceLow_kept (b : Block) : CompletionKept b (evalSpaceLow b) := by
  refine ⟨by simp, by simp, by simp, by simp, by simp, by simp, by simp, by simp, ?_, ?_, ?_⟩ <;> intro q <;>
    unfold evalSpaceLow <;> split <;> (try dsimp only) <;> (try split) <;> first | rfl | simp

theorem adoptPolicy_kept (b : Block) (ops : List WriteOp) : CompletionKept b (adoptPolicy b ops) := by
  unfold adoptPolicy
  dsimp only
  split
  · exact CompletionKept.refl b
  · exact CompletionKept.trans (b := { b with policy := ops.foldl adoptOp b.policy })
      ⟨rfl, rfl, rfl, rfl, rfl, rfl, rfl, rfl, fun _ => rfl, fun _ => rfl, fun _ => rfl⟩ (evalSpaceLow_kept _)

theorem postNote_slot (n : Note) (q : PortState) :
    (postNote n q).slot = q.slot ∧ (postNote n q).job = q.job ∧ (postNote n q).batch = q.batch := by
  unfold postNote
  split
  · exact ⟨rfl, rfl, rfl⟩
  · split <;> exact ⟨rfl, rfl, rfl⟩

theorem postCompletionTo_kept (p : Port) (seq : Seq) (op : WriteOp) (b : Block) (q : Port) :
    CompletionKept b (postCompletionTo p seq op b q) := by
  unfold postCompletionTo
  split
  · dsimp only
    refine ⟨rfl, rfl, rfl, rfl, rfl, rfl, rfl, rfl, ?_, ?_, ?_⟩ <;> intro o <;> by_cases h : o = q
    all_goals
      first
      | subst h; rw [modPort_get]; first | exact (postNote_slot _ _).1 | exact (postNote_slot _ _).2.1 | exact (postNote_slot _ _).2.2
      | rw [modPort_get_other _ _ h]
  · exact CompletionKept.refl b

theorem switchOp_kept (p : Port) (seq : Seq) (b : Block) (e : WriteOp × Loc) : CompletionKept b (switchOp p seq b e) := by
  unfold switchOp
  split
  · exact ⟨rfl, rfl, rfl, rfl, rfl, rfl, rfl, rfl, fun _ => rfl, fun _ => rfl, fun _ => rfl⟩
  · exact CompletionKept.refl b

/-- A completion touches directory, usage, policy, notes and causes alone (R39). -/
theorem commitEffects_kept (b : Block) (p : Port) (j : Job) (seq : Seq) : CompletionKept b (commitEffects b p j seq) := by
  unfold commitEffects
  exact ((CompletionKept.foldl _ (switchOp_kept p seq) _ b).trans (adoptPolicy_kept _ _)).trans
    (CompletionKept.foldl _ (fun b op => CompletionKept.foldl _ (postCompletionTo_kept p seq op) _ b) _ _)

/-! ## What the effects of a completion are (R14, R18, R135, R170, R171) -/

/-- The policy record and the quota records are the system keys (R6, R167, R168). -/
theorem isSystemKey_eq_false {k : Key} (h0 : k ≠ 0xFF00) (h1 : k ≠ 0xFF01) (h2 : k ≠ 0xFF02) (h3 : k ≠ 0xFF03) :
    isSystemKey k = false := by
  rw [Bool.eq_false_iff]
  unfold isSystemKey
  intro h
  rw [Bool.and_eq_true, decide_eq_true_eq, decide_eq_true_eq] at h
  bv_omega

/-- Adoption and restoration are the table of R170 and R171. -/
theorem adoptOp_eq (y : Policy) (op : WriteOp) : adoptOp y op = policyAfter y op := by
  unfold adoptOp policyAfter
  dsimp only
  by_cases h0 : op.key = 0xFF00
  · rw [h0]; cases op.kind <;> rfl
  by_cases h1 : op.key = 0xFF01
  · rw [h1]; cases op.kind <;> rfl
  by_cases h2 : op.key = 0xFF02
  · rw [h2]; cases op.kind <;> rfl
  by_cases h3 : op.key = 0xFF03
  · rw [h3]; cases op.kind <;> rfl
  rw [isSystemKey_eq_false h0 h1 h2 h3, if_neg (by simp), if_neg h0, if_neg h1, if_neg h2, if_neg h3]

/-- The postings of a completion touch ports alone. -/
theorem postCompletion_eq (p : Port) (seq : Seq) (b : Block) (op : WriteOp) :
    postCompletion p seq b op = { b with ports := (postCompletion p seq b op).ports } := by
  unfold postCompletion postCompletionTo
  simp only [allPorts, List.foldl_cons, List.foldl_nil]
  repeat' split
  all_goals rfl

theorem posted_eq (p : Port) (seq : Seq) (l : List WriteOp) :
    ∀ b : Block, l.foldl (postCompletion p seq) b = { b with ports := (l.foldl (postCompletion p seq) b).ports } := by
  induction l with
  | nil => exact fun _ => rfl
  | cons op rest ih =>
    intro b
    rw [List.foldl_cons, ih, postCompletion_eq]

/-- Directory and usage counters after a completion are the switched ones (R14, R18, R39). -/
theorem commitEffects_switched (b : Block) (p : Port) (j : Job) (seq : Seq) :
    (commitEffects b p j seq).dir = ((j.ops.zip j.locs).foldl (switchOp p seq) b).dir ∧
      (commitEffects b p j seq).usage = ((j.ops.zip j.locs).foldl (switchOp p seq) b).usage := by
  unfold commitEffects
  dsimp only
  rw [posted_eq]
  dsimp only
  unfold adoptPolicy
  dsimp only
  split
  · exact ⟨rfl, rfl⟩
  · simp

/-- The policy after a completion (R170, R171). -/
theorem commitEffects_policy (b : Block) (p : Port) (j : Job) (seq : Seq) :
    (commitEffects b p j seq).policy = j.ops.foldl policyAfter b.policy := by
  have switch : ∀ (l : List (WriteOp × Loc)) (b : Block), (l.foldl (switchOp p seq) b).policy = b.policy := by
    intro l
    induction l with
    | nil => exact fun _ => rfl
    | cons e rest ih =>
      intro b
      rw [List.foldl_cons, ih]
      unfold switchOp
      split <;> rfl
  have adopt : adoptOp = policyAfter := funext fun y => funext fun op => adoptOp_eq y op
  unfold commitEffects
  dsimp only
  rw [posted_eq]
  dsimp only
  unfold adoptPolicy
  dsimp only
  rw [adopt, switch]
  split
  · rename_i h
    rw [switch, h]
  · simp

/-- The note of an operation (R135). -/
theorem completionNote_eq (p : Port) (seq : Seq) (op : WriteOp) (readable : Bool) :
    completionNote p seq op readable = noteOf p seq op readable := by
  unfold completionNote noteOf
  cases readable <;> rfl

/-- The postings of one operation: to each port that watches its key, but to the requesting one (R135). -/
theorem postCompletion_get (p : Port) (seq : Seq) (b : Block) (op : WriteOp) (q : Port) :
    (postCompletion p seq b op).ports.get q =
      if q ≠ p ∧ op.key ∈ (b.ports.get q).watches then
        postNote (noteOf p seq op ((dirFind op.key b.dir).any (mayRead q))) (b.ports.get q)
      else b.ports.get q := by
  have one : ∀ (c : Block) (r : Port), c.dir = b.dir → c.ports.get r = b.ports.get r →
      (postCompletionTo p seq op c r).dir = b.dir ∧
      ∀ o, (postCompletionTo p seq op c r).ports.get o =
        if o = r then
          if r ≠ p ∧ op.key ∈ (b.ports.get r).watches then
            postNote (noteOf p seq op ((dirFind op.key b.dir).any (mayRead r))) (b.ports.get r)
          else b.ports.get r
        else c.ports.get o := by
    intro c r hd hp
    unfold postCompletionTo
    have any : ∀ d : Option DirSlot, (d.map (mayRead r)).getD false = d.any (mayRead r) := fun d => by cases d <;> rfl
    simp only [hp, hd, any, completionNote_eq, bne_iff_ne, Bool.and_eq_true, List.contains_iff_mem]
    refine ⟨by split <;> exact hd, fun o => ?_⟩
    by_cases ho : o = r
    · subst ho
      split <;> simp [hp]
    · rw [if_neg ho]
      split
      · exact modPort_get_other _ _ ho
      · rfl
  unfold postCompletion
  simp only [allPorts, List.foldl_cons, List.foldl_nil]
  obtain ⟨d0, h0⟩ := one b .p0 rfl rfl
  obtain ⟨d1, h1⟩ := one _ .p1 d0 (by rw [h0, if_neg (by decide)])
  obtain ⟨-, h2⟩ := one _ .p2 d1 (by rw [h1, if_neg (by decide), h0, if_neg (by decide)])
  rw [h2]
  cases q
  · rw [if_neg (by decide), h1, if_neg (by decide), h0, if_pos rfl]
  · rw [if_neg (by decide), h1, if_pos rfl]
  · rw [if_pos rfl]

/-- The postings of a completion to one port, in staging order (R135). -/
theorem posted_get (p : Port) (seq : Seq) (q : Port) (l : List WriteOp) :
    ∀ b : Block, (l.foldl (postCompletion p seq) b).ports.get q = notified p seq b.dir l q (b.ports.get q) := by
  unfold notified
  split
  · rename_i h
    induction l with
    | nil => exact fun _ => rfl
    | cons op rest ih => exact fun b => by rw [List.foldl_cons, ih, postCompletion_get, if_neg (fun k => k.1 h)]
  · rename_i h
    induction l with
    | nil => exact fun _ => rfl
    | cons op rest ih =>
      intro b
      rw [List.foldl_cons, ih, List.foldl_cons, postCompletion_get, postCompletion_eq]
      simp only [ne_eq, h, not_false_eq_true, true_and]

/-- The notes that a completion leaves depend on the notes, and not on the causes, that it finds. -/
theorem notified_notes (p : Port) (seq : Seq) (dir : List DirSlot) (q : Port) (l : List WriteOp) :
    ∀ r r' : PortState, r.notes = r'.notes → r.watches = r'.watches →
      (notified p seq dir l q r).notes = (notified p seq dir l q r').notes := by
  have step : ∀ (n : Note) (r r' : PortState), r.notes = r'.notes →
      (postNote n r).notes = (postNote n r').notes ∧ (postNote n r).watches = r.watches := by
    intro n r r' h
    unfold postNote
    rw [h]
    split <;> [exact ⟨rfl, rfl⟩; (split <;> exact ⟨by first | rfl | assumption, rfl⟩)]
  unfold notified
  split
  · exact fun _ _ h _ => h
  · induction l with
    | nil => exact fun _ _ h _ => h
    | cons op rest ih =>
      intro r r' h k
      rw [List.foldl_cons, List.foldl_cons]
      by_cases hw : op.key ∈ r.watches
      · rw [if_pos hw, if_pos (k ▸ hw)]
        exact ih _ _ (step _ _ _ h).1 ((step _ r r' h).2.trans (k.trans (step _ r' r h.symm).2.symm))
      · rw [if_neg hw, if_neg (k ▸ hw)]
        exact ih _ _ h k

/-- The notes after a completion (R39, R135). -/
theorem commitEffects_notes (b : Block) (p : Port) (j : Job) (seq : Seq) (q : Port) :
    ((commitEffects b p j seq).ports.get q).notes =
      (notified p seq (commitEffects b p j seq).dir j.ops q (b.ports.get q)).notes := by
  have switch : ∀ (l : List (WriteOp × Loc)) (b : Block), (l.foldl (switchOp p seq) b).ports = b.ports := by
    intro l
    induction l with
    | nil => exact fun _ => rfl
    | cons e rest ih =>
      intro b
      rw [List.foldl_cons, ih]
      unfold switchOp
      split <;> rfl
  have adopt : ∀ c ops, ((adoptPolicy c ops).ports.get q).notes = (c.ports.get q).notes ∧
      ((adoptPolicy c ops).ports.get q).watches = (c.ports.get q).watches := by
    intro c ops
    unfold adoptPolicy evalSpaceLow
    dsimp only
    repeat' split
    all_goals first | exact ⟨rfl, rfl⟩ | simp
  unfold commitEffects
  dsimp only
  rw [posted_get, posted_eq]
  obtain ⟨h1, h2⟩ := adopt ((j.ops.zip j.locs).foldl (switchOp p seq) b) j.ops
  rw [switch] at h1 h2
  exact notified_notes p seq _ q _ _ _ h1 h2

/-! ## The end of a job (R39, R40) -/

/-- The end of a job that is not detached, its slot WORKING for it: the port is answered, its job gone, a batch CLOSED, the engine free;
nothing else of any port, no record and no figure of the store is touched. -/
theorem finishJob_eq {p : Port} {j : Job} {tag : Byte} (hj : (b.ports.get p).job = some j) (hd : j.detached = false)
    (hs : (b.ports.get p).slot = .working tag .job) (st : Status) (seq : Seq) (index : Byte) :
    finishJob b p st seq index =
      evalTriggers
        { modPort b p fun q =>
            { q with
                slot := .answered (response st tag (writeBody seq index)), fetchProgress := 0, job := none
                batch := if j.batch then .closed else q.batch } with
          holder := .free } := by
  have answered : { setJob (jobAnswer b p j st seq index) p none with holder := .free } =
      { modPort b p fun q =>
          { q with
              slot := .answered (response st tag (writeBody seq index)), fetchProgress := 0, job := none
              batch := if j.batch then .closed else q.batch } with
        holder := .free } := by
    simp only [jobAnswer, hd, Bool.false_eq_true, if_false, endWork, workingTag, hs, answer, placeResponse, setBatch, setJob]
    split
    · simp only [modPort_modPort]
    · simp only [modPort_modPort]
  simp only [finishJob, jobOf, hj, answered, serveHeld, evalTriggers_ports, modPort_get]

/-! ## What a failed attempt keeps (R37, R40) -/

/-- Directory, usage, policy and notes as they were. -/
structure RecordsKept (a b : Block) : Prop where
  dir : b.dir = a.dir
  usage : b.usage = a.usage
  policy : b.policy = a.policy
  notes : ∀ q, (b.ports.get q).notes = (a.ports.get q).notes

theorem RecordsKept.refl (b : Block) : RecordsKept b b := ⟨rfl, rfl, rfl, fun _ => rfl⟩

/-- Whatever stands in the fields that `RecordsKept` does not speak of. -/
theorem records_update (h : RecordsKept a b) (storeState : StoreState) (corruptCount retryCount : BitVec 32)
    (mount : MountData) (storeSeq : Seq) (sectors : Vector SectorRow 64) (spaceLow : Bool) (cycle : Cycle)
    (engine : EngineState) (issued : Option EngineOp) (holder : Holder) (reclaimFlag : Bool) (wire : WireFraming) :
    RecordsKept a
      { b with
          storeState := storeState, corruptCount := corruptCount, retryCount := retryCount, mount := mount
          storeSeq := storeSeq, sectors := sectors, spaceLow := spaceLow, cycle := cycle, engine := engine
          issued := issued, holder := holder, reclaimFlag := reclaimFlag, wire := wire } :=
  ⟨h.dir, h.usage, h.policy, h.notes⟩

theorem records_ports (h : RecordsKept a b) (ports : PerPort PortState)
    (hp : ∀ q, (ports.get q).notes = (b.ports.get q).notes) : RecordsKept a { b with ports := ports } :=
  ⟨h.dir, h.usage, h.policy, fun q => (hp q).trans (h.notes q)⟩

theorem records_modPort (h : RecordsKept a b) (p : Port) (f : PortState → PortState)
    (hf : ∀ q, (f q).notes = q.notes) : RecordsKept a (modPort b p f) :=
  records_ports h _ fun q => by
    rw [PerPort.get_set]
    split
    · rename_i e; subst e; exact hf _
    · rfl

theorem records_raiseAll (h : RecordsKept a b) (c : BitVec 16) : RecordsKept a (raiseAll b c) :=
  records_ports h _ fun q => by rw [PerPort.get_map]

theorem records_requeueAll (h : RecordsKept a b) : RecordsKept a (requeueAll b) :=
  records_ports h _ fun q => by rw [PerPort.get_map]

theorem records_raiseFault (h : RecordsKept a b) : RecordsKept a (raiseFault b) := by
  unfold raiseFault
  split
  · exact records_update h _ _ _ _ _ _ _ _ _ _ _ _ _
  all_goals exact records_raiseAll h _

theorem records_evalSpaceLow (h : RecordsKept a b) : RecordsKept a (evalSpaceLow b) := by
  unfold evalSpaceLow
  split
  · exact h
  · exact h
  all_goals
    dsimp only
    split
    · exact records_raiseAll (records_update h _ _ _ _ _ _ _ _ _ _ _ _ _) _
    · exact records_update h _ _ _ _ _ _ _ _ _ _ _ _ _

theorem records_evalTriggers (h : RecordsKept a b) : RecordsKept a (evalTriggers b) :=
  ⟨(evalTriggers_dir b).trans h.dir, (evalTriggers_usage b).trans h.usage, (evalTriggers_policy b).trans h.policy,
    fun q => by rw [evalTriggers_ports]; exact h.notes q⟩

theorem records_enterReadOnly (h : RecordsKept a b) : RecordsKept a (enterReadOnly b) := by
  unfold enterReadOnly
  split
  · exact records_update (records_requeueAll (records_update h _ _ _ _ _ _ _ _ _ _ _ _ _)) _ _ _ _ _ _ _ _ _ _ _ _ _
  · exact h

theorem records_closeDone (h : RecordsKept a b) (x : Sector) (ok : Bool) : RecordsKept a (closeDone b x ok) := by
  have h' : RecordsKept a (if ok then b else raiseFault b) := by
    split
    · exact h
    · exact records_raiseFault h
  exact records_evalTriggers (records_evalSpaceLow (records_update h' _ _ _ _ _ _ _ _ _ _ _ _ _))

theorem records_openDone (h : RecordsKept a b) (x : Sector) : RecordsKept a (openDone b x) :=
  records_evalTriggers (records_evalSpaceLow (records_update h _ _ _ _ _ _ _ _ _ _ _ _ _))

theorem records_openFailed (h : RecordsKept a b) (x : Sector) : RecordsKept a (openFailed b x) :=
  records_evalTriggers (records_evalSpaceLow (records_update (records_raiseFault h) _ _ _ _ _ _ _ _ _ _ _ _ _))

theorem records_issue (h : RecordsKept a b) (x : Sector) (o : Nat) (bytes : List Byte) :
    RecordsKept a (issueProgram b x o bytes) := records_update h _ _ _ _ _ _ _ _ _ _ _ _ _

theorem records_setWork (h : RecordsKept a b) (p : Port) (w : JobWork) : RecordsKept a (setWork b p w) :=
  records_update h _ _ _ _ _ _ _ _ _ _ _ _ _

theorem records_modJob (h : RecordsKept a b) (p : Port) (f : Job → Job) : RecordsKept a (modJob b p f) :=
  records_modPort h p _ fun _ => rfl

theorem records_answer (h : RecordsKept a b) (p : Port) (tag : Byte) (st : Status) (body : List Byte) :
    RecordsKept a (answer b p tag st body) := by
  unfold answer placeResponse
  exact records_modPort h p _ fun _ => rfl

theorem records_setBatch (h : RecordsKept a b) (p : Port) (c : BatchContext) : RecordsKept a (setBatch b p c) :=
  records_modPort h p _ fun _ => rfl

theorem records_setJob (h : RecordsKept a b) (p : Port) (j : Option Job) : RecordsKept a (setJob b p j) :=
  records_modPort h p _ fun _ => rfl

theorem records_createJob (h : RecordsKept a b) (p : Port) (tag : Byte) (j : Job) : RecordsKept a (createJob b p tag j) :=
  records_modPort h p _ fun _ => rfl

theorem records_holdRequest (h : RecordsKept a b) (p : Port) (tag : Byte) (r : Held) :
    RecordsKept a (holdRequest b p tag r) := by
  unfold holdRequest setSlot
  exact records_modPort h p _ fun _ => rfl

theorem records_serveHeld (h : RecordsKept a b) (p : Port) : RecordsKept a (serveHeld b p) := by
  unfold serveHeld
  repeat' split
  all_goals
    try unfold submitWrite
    try unfold submitCommit
    try unfold submitFormat
  all_goals
    repeat' first
      | exact h | apply records_answer | apply records_setBatch | apply records_createJob | apply records_holdRequest | split

/-- The end of a job by itself changes no record (R40). -/
theorem records_finishJob (h : RecordsKept a b) (p : Port) (st : Status) (seq : Seq) (index : Byte) :
    RecordsKept a (finishJob b p st seq index) := by
  unfold finishJob
  split
  · rename_i j _
    have ha : RecordsKept a (jobAnswer b p j st seq index) := by
      unfold jobAnswer endWork
      repeat' first | exact h | apply records_answer | apply records_setBatch | split
    have hj : RecordsKept a (setJob (jobAnswer b p j st seq index) p none) := records_setJob ha p none
    have hf : RecordsKept a { setJob (jobAnswer b p j st seq index) p none with holder := .free } :=
      ⟨hj.dir, hj.usage, hj.policy, hj.notes⟩
    exact records_serveHeld (records_evalTriggers hf) p
  · exact h

/-- A job that ends without a commit point, or opens a successor first, changes no record (R37, R69). -/
theorem records_endWithout (h : RecordsKept a b) (p : Port) (st : Status) : RecordsKept a (endWithout b p st) := by
  unfold endWithout
  split
  · split
    · exact records_setWork (records_issue h _ _ _) p _
    · exact records_finishJob (records_enterReadOnly h) p st 0 0xFF
  · exact records_finishJob h p st 0 0xFF

/-- Steps 3 to 7 of R36 change no record (R37). -/
theorem records_afterFail (h : RecordsKept a b) (p : Port) : RecordsKept a (afterFail b p) := by
  have h' : RecordsKept a (raiseFault { b with retryCount := satInc b.retryCount }) :=
    records_raiseFault (records_update h _ _ _ _ _ _ _ _ _ _ _ _ _)
  unfold afterFail
  dsimp only
  split
  · exact h'
  · split
    · exact records_endWithout h' p _
    · split
      · exact records_endWithout (records_enterReadOnly h') p _
      · split
        · exact records_endWithout h' p _
        · have k := fun f => records_modJob (records_update h' _ _ _ _ _ _ _ _ _ _ _ _ _ :
            RecordsKept a (takeSeq (raiseFault { b with retryCount := satInc b.retryCount }))) p f
          split
          · exact records_setWork (records_issue (k _) _ _ _) p _
          · exact records_endWithout (k _) p _

/-- The failure of an attempt changes no record (R36, R37). -/
theorem records_attemptFailed (h : RecordsKept a b) (p : Port) : RecordsKept a (attemptFailed b p) := by
  unfold attemptFailed
  split
  · exact records_setWork (records_issue h _ _ _) p _
  · exact records_afterFail h p

/-- Every block that a placing comes to keeps the records. -/
def PlacedKept (a : Block) : Placed → Prop
  | .go b _ | .done b _ | .failed b | .noSector b => RecordsKept a b

theorem records_placeHeader (h : RecordsKept a b) (img : EntryImage) (x : Sector) (o : Nat) :
    PlacedKept a (placeHeader b img x o) := records_issue h _ _ _

theorem records_placeOpen (h : RecordsKept a b) : PlacedKept a (placeOpen b) := by
  unfold placeOpen
  split
  · exact records_issue h _ _ _
  · exact h

theorem records_placeStart (h : RecordsKept a b) (forCopy : Bool) (img : EntryImage) :
    PlacedKept a (placeStart forCopy b img) := by
  unfold placeStart
  split
  · split
    · exact records_placeHeader h _ _ _
    · split
      · exact records_issue h _ _ _
      · exact h
  · split
    · exact records_placeOpen h
    · exact h

/-- A failed program of a placing changes no record. -/
theorem records_placeNext (h : RecordsKept a b) (img : EntryImage) (st : PlaceStage) (ok : Bool) :
    PlacedKept a (placeNext b img st ok) := by
  unfold placeNext
  split
  · exact records_placeOpen (records_closeDone h _ _)
  all_goals split
  all_goals
    first
    | exact records_issue h _ _ _
    | exact records_openFailed h _
    | exact records_placeHeader (records_openDone h _) _ _ _
    | exact records_evalSpaceLow (records_update h _ _ _ _ _ _ _ _ _ _ _ _ _)
    | exact h

theorem records_endStretch (h : RecordsKept a b) : RecordsKept a (endStretch b) := by
  rw [endStretch_eq]
  exact records_update h _ _ _ _ _ _ _ _ _ _ _ _ _

/-- A program before the commit point that fails changes no record (R36, R37). -/
theorem records_commitStep_failed (h : RecordsKept a b) (p : Port) {w : JobWork} (hw : beforeCommit w = true) :
    RecordsKept a (commitStep b p w false) := by
  unfold commitStep
  split
  · rename_i what img st
    have failed : ∀ c, RecordsKept a c → RecordsKept a (entryFailed c p what) := by
      intro c k
      unfold entryFailed
      split
      · exact records_attemptFailed k p
      · exact records_attemptFailed k p
      · cases hw
    have hp := records_placeNext h img st false
    split
    · rename_i hq; rw [hq] at hp; exact records_setWork hp p _
    · rename_i hq
      cases st <;> simp [placeNext, placeOpen] at hq
      split at hq <;> cases hq
    · rename_i hq; rw [hq] at hp; exact failed _ hp
    · rename_i hq; rw [hq] at hp; exact failed _ hp
  · cases hw
  · exact records_afterFail (records_closeDone h _ _) p
  · cases hw
  · exact records_afterFail (records_openFailed h _) p
  · exact records_endWithout (records_openFailed h _) p _
  all_goals exact h

/-! ## What the space manager leaves of a job (R36, R69) -/

/-- The store's state, sequence and retry count, and each port's slot, batch and job, as they were. -/
structure JobsKept (a b : Block) : Prop where
  generation : b.generation = a.generation
  storeState : b.storeState = a.storeState
  storeSeq : b.storeSeq = a.storeSeq
  retryCount : b.retryCount = a.retryCount
  slot : ∀ q, (b.ports.get q).slot = (a.ports.get q).slot
  batch : ∀ q, (b.ports.get q).batch = (a.ports.get q).batch
  job : ∀ q, (b.ports.get q).job = (a.ports.get q).job

theorem JobsKept.refl (b : Block) : JobsKept b b := ⟨rfl, rfl, rfl, rfl, fun _ => rfl, fun _ => rfl, fun _ => rfl⟩

theorem JobsKept.trans {c : Block} (h : JobsKept a b) (k : JobsKept b c) : JobsKept a c :=
  ⟨k.generation.trans h.generation, k.storeState.trans h.storeState, k.storeSeq.trans h.storeSeq,
    k.retryCount.trans h.retryCount, fun q => (k.slot q).trans (h.slot q), fun q => (k.batch q).trans (h.batch q),
    fun q => (k.job q).trans (h.job q)⟩

theorem jobs_setRow (b : Block) (x : Sector) (r : SectorRow) : JobsKept b (setRow b x r) :=
  ⟨rfl, rfl, rfl, rfl, fun _ => rfl, fun _ => rfl, fun _ => rfl⟩

theorem jobs_evalSpaceLow (b : Block) : JobsKept b (evalSpaceLow b) :=
  have h := evalSpaceLow_kept b
  ⟨by simp, h.storeState, h.storeSeq, by simp, h.slot, h.batch, h.job⟩

theorem jobs_evalTriggers (b : Block) : JobsKept b (evalTriggers b) :=
  ⟨by simp, by simp, by simp, by simp, by simp, by simp, by simp⟩

theorem jobs_raiseFault (b : Block) : JobsKept b (raiseFault b) := by
  refine ⟨by simp, by simp, by simp, by simp, ?_, ?_, ?_⟩ <;> intro q <;> unfold raiseFault <;> split <;> simp

theorem jobs_closeDone (b : Block) (x : Sector) (ok : Bool) : JobsKept b (closeDone b x ok) := by
  have h : JobsKept b (if ok then b else raiseFault b) := by
    split
    · exact JobsKept.refl b
    · exact jobs_raiseFault b
  exact ((h.trans (jobs_setRow _ _ _)).trans (jobs_evalSpaceLow _)).trans (jobs_evalTriggers _)

theorem jobs_openDone (b : Block) (x : Sector) : JobsKept b (openDone b x) :=
  ((jobs_setRow _ _ _).trans (jobs_evalSpaceLow _)).trans (jobs_evalTriggers _)

/-- A sector whose open has ended well is ACTIVE (R67). -/
theorem openDone_active (b : Block) (x : Sector) : (row (openDone b x) x).state = .active := by
  unfold openDone
  rw [state_evalTriggers _ _ (by simp) (by simp) (by simp), row_evalSpaceLow, row_setRow_same]
  rfl

/-! ## What a failed attempt comes to (R36, R37, R69) -/

/-- A successor is opened for a job that ends in READY with no ACTIVE sector and a sector ERASED (R69). -/
theorem endWithout_opens {p : Port} {st : Status} {y : Sector} (hr : b.storeState = .ready) (hh : head b = none)
    (hy : openChoice b = some y) :
    endWithout b p st = setWork (issueOpen b y) p (.successor y false (erasedCount b == 1) st) := by
  unfold endWithout
  simp only [hr, hh, hy, beq_self_eq_true, Option.isNone_none, Bool.and_self, if_true]

theorem enterReadOnly_ready (h : b.storeState = .ready) :
    enterReadOnly b =
      { b with
          storeState := .readOnly, ports := b.ports.map fun q => { q with job := q.job.map requeueJob }, cycle := .idle
          reclaimFlag := false } := by
  unfold enterReadOnly
  rw [h]
  rfl

theorem requeueJob_kept (j : Job) : (requeueJob j).batch = j.batch ∧ (requeueJob j).detached = j.detached := by
  unfold requeueJob
  split <;> exact ⟨rfl, rfl⟩

/-- How a job stands that has ended with this status and no commit point (R37, R40). -/
structure EndedWithout (a : Block) (p : Port) (tag : Byte) (j : Job) (st : Status) (b : Block) : Prop where
  slot : (b.ports.get p).slot = .answered (response st tag (writeBody 0 0xFF))
  job : (b.ports.get p).job = none
  batch : (b.ports.get p).batch = if j.batch then .closed else (a.ports.get p).batch
  holder : b.holder = .free
  storeSeq : b.storeSeq = a.storeSeq
  retryCount : b.retryCount = a.retryCount
  storeState : b.storeState = a.storeState
  sticky : ∀ q, (b.ports.get q).sticky = (a.ports.get q).sticky

variable {p : Port} {tag : Byte} {j : Job}

theorem finishJob_ended (hj : (b.ports.get p).job = some j) (hd : j.detached = false)
    (hs : (b.ports.get p).slot = .working tag .job) (st : Status) :
    EndedWithout b p tag j st (finishJob b p st 0 0xFF) := by
  rw [finishJob_eq hj hd hs]
  refine ⟨by simp, by simp, by simp, by simp, by simp, by simp, by simp, ?_⟩
  intro q
  by_cases hq : q = p
  · subst hq; simp
  · simp [modPort_get_other _ _ hq]

/-- A job that finds no sector to open takes the store to READ_ONLY and ends (R37, R69, R86). -/
theorem finishJob_readOnly (hr : b.storeState = .ready) (hj : (b.ports.get p).job = some j) (hd : j.detached = false)
    (hs : (b.ports.get p).slot = .working tag .job) (st : Status) :
    EndedWithout { b with storeState := .readOnly } p tag j st (finishJob (enterReadOnly b) p st 0 0xFF) := by
  have h := finishJob_ended (b := enterReadOnly b) (p := p) (j := requeueJob j) (tag := tag)
    (by rw [enterReadOnly_ready hr]; simp [hj]) (by rw [(requeueJob_kept j).2]; exact hd)
    (by rw [enterReadOnly_ready hr]; simp [hs]) st
  have e := enterReadOnly_ready hr
  refine ⟨h.slot, h.job, ?_, h.holder, ?_, ?_, ?_, ?_⟩
  · rw [h.batch, (requeueJob_kept j).1, e]; simp
  · rw [h.storeSeq, e]
  · rw [h.retryCount, e]
  · rw [h.storeState, e]
  · intro q; rw [h.sticky, e]; simp

/-- Steps 3 to 7 of R36 for a job whose ACTIVE sector is closed, in READY: FAULT in every port and one retry counted; then the next
attempt opens a sector, a successor is opened, or the store is READ_ONLY and the job ends. -/
structure AfterFail (c : Block) (p : Port) (tag : Byte) (j : Job) (t : Block) : Prop where
  retryCount : t.retryCount = satInc c.retryCount
  fault : ∀ q, (t.ports.get q).sticky &&& causeFault = causeFault
  restart : j.attempt < 3 → 2 ≤ erasedCount c → seqLimitReached c = false →
    ∃ y, isOpenChoice c y ∧
      t.issued =
        some
          { kind := .program (sectorHeader c.generation (nextCount (countOf c y)) (c.storeSeq + 1)), sector := y
            offset := 0 } ∧
      t.holder = .job p (.restartOpen y false) ∧ t.storeSeq = c.storeSeq + 1 ∧
      (t.ports.get p).job = some { j with attempt := j.attempt + 1, seq := some (c.storeSeq + 1), locs := [] }
  successor : ∀ st, 1 ≤ erasedCount c →
    3 ≤ j.attempt ∧ st = .media ∨ j.attempt < 3 ∧ 2 ≤ erasedCount c ∧ seqLimitReached c = true ∧ st = .seqLimit →
    ∃ y, isOpenChoice c y ∧
      t.issued =
        some { kind := .program (sectorHeader c.generation (nextCount (countOf c y)) c.storeSeq), sector := y, offset := 0 } ∧
      t.holder = .job p (.successor y false (decide (erasedCount c = 1)) st) ∧ t.storeSeq = c.storeSeq ∧
      (t.ports.get p).job = some j
  lost : j.attempt < 3 ∧ erasedCount c < 2 ∨ 3 ≤ j.attempt ∧ erasedCount c = 0 →
    (t.ports.get p).slot = .answered (response .media tag (writeBody 0 0xFF)) ∧ (t.ports.get p).job = none ∧
      (t.ports.get p).batch = (if j.batch then .closed else (c.ports.get p).batch) ∧ t.holder = .free ∧
      t.storeSeq = c.storeSeq ∧ t.storeState = .readOnly

theorem afterFail_spec {c : Block} (hr : c.storeState = .ready) (hj : (c.ports.get p).job = some j)
    (hd : j.detached = false) (hs : (c.ports.get p).slot = .working tag .job) (ha : ∀ z, (row c z).state ≠ .active) :
    AfterFail c p tag j (afterFail c p) := by
  have kept := jobs_raiseFault { c with retryCount := satInc c.retryCount }
  have hf : ∀ q, ((raiseFault { c with retryCount := satInc c.retryCount }).ports.get q).sticky &&& causeFault = causeFault :=
    fun q => by
      rw [raiseFault_get (by show c.storeState ≠ _; rw [hr]; simp)]
      exact raised_sticky _
  have hrow : ∀ z, row (raiseFault { c with retryCount := satInc c.retryCount }) z = row c z := fun z => by
    rw [row_raiseFault]; rfl
  have hcount : erasedCount (raiseFault { c with retryCount := satInc c.retryCount }) = erasedCount c :=
    congrArg List.length (inState_congr fun z => by rw [hrow])
  have hhead : head (raiseFault { c with retryCount := satInc c.retryCount }) = none :=
    head_eq_none fun z => by rw [hrow]; exact ha z
  unfold afterFail
  dsimp only
  generalize raiseFault { c with retryCount := satInc c.retryCount } = d at *
  have dj : (d.ports.get p).job = some j := (kept.job p).trans hj
  have ds : (d.ports.get p).slot = .working tag .job := (kept.slot p).trans hs
  have dr : d.storeState = .ready := kept.storeState.trans hr
  have dq : d.storeSeq = c.storeSeq := kept.storeSeq
  have dn : d.retryCount = satInc c.retryCount := kept.retryCount
  have limit : seqLimitReached d = seqLimitReached c := by unfold seqLimitReached; rw [dq]
  have may : mayOpen false d = decide (2 ≤ erasedCount c) := by unfold mayOpen; rw [hcount]; rfl
  have dg : d.generation = c.generation := kept.generation
  have choice : ∀ y, isOpenChoice d y ↔ isOpenChoice c y :=
    isOpenChoice_congr (fun z => by rw [hrow]) fun z => by rw [hrow]
  have count : ∀ y, countOf d y = countOf c y := countOf_congr fun z => by rw [hrow]
  have opens : ∀ st, 1 ≤ erasedCount c → ∃ y, isOpenChoice c y ∧
      endWithout d p st =
        { d with
            issued :=
              some
                { kind := .program (sectorHeader c.generation (nextCount (countOf c y)) c.storeSeq), sector := y
                  offset := 0 }
            holder := .job p (.successor y false (decide (erasedCount c = 1)) st) } := by
    intro st h1
    obtain ⟨y, hy, -⟩ := openChoice_of_erased (b := d) (by rw [hcount]; exact h1)
    refine ⟨y, (choice y).1 (openChoice_isOpenChoice hy), ?_⟩
    rw [endWithout_opens dr hhead hy, hcount]
    by_cases h : erasedCount c = 1 <;> simp [h, setWork, issueOpen, issueProgram, dg, dq, count]
  have lost := finishJob_readOnly dr dj hd ds .media
  have ended : endWithout (enterReadOnly d) p .media = finishJob (enterReadOnly d) p .media 0 0xFF := by
    unfold endWithout
    rw [enterReadOnly_ready dr]
    rfl
  simp only [jobOf, dj]
  by_cases h3 : 3 ≤ j.attempt
  · simp only [h3, if_true]
    by_cases h0 : erasedCount c = 0
    · have : endWithout d p .media = finishJob (enterReadOnly d) p .media 0 0xFF := by
        unfold endWithout
        simp only [dr, hhead, openChoice_of_none (hcount.trans h0), beq_self_eq_true, Option.isNone_none, Bool.and_self, if_true]
      rw [this]
      exact ⟨lost.retryCount.trans dn, fun q => by rw [lost.sticky]; exact hf q, fun h => by omega, fun _ h => by omega,
        fun _ => ⟨lost.slot, lost.job, by rw [lost.batch, ← kept.batch], lost.holder, lost.storeSeq.trans dq, lost.storeState⟩⟩
    · obtain ⟨y, he, hw⟩ := opens .media (by omega)
      rw [hw]
      refine ⟨dn, hf, fun h => by omega, ?_, fun h => by omega⟩
      rintro st - (⟨-, rfl⟩ | h)
      · exact ⟨y, he, rfl, rfl, dq, dj⟩
      · omega
  · simp only [h3, if_false]
    by_cases h2 : 2 ≤ erasedCount c
    · simp only [may, h2, decide_true, Bool.not_true, Bool.false_eq_true, if_false, limit]
      cases hl : seqLimitReached c
      · simp only [Bool.false_eq_true, if_false]
        obtain ⟨y, hy, -⟩ := openChoice_of_erased (b := d) (by rw [hcount]; omega)
        have same : ∀ f, openChoice (modJob (takeSeq d) p f) = openChoice d := fun _ => rfl
        simp only [same, hy]
        have hw : ∀ w,
            setWork (issueOpen (modJob (takeSeq d) p fun j =>
                { j with attempt := j.attempt + 1, seq := some (takeSeq d).storeSeq, locs := [] }) y) p w =
              { modPort d p fun q =>
                  { q with
                      job := q.job.map fun j =>
                        { j with attempt := j.attempt + 1, seq := some (d.storeSeq + 1), locs := [] } } with
                storeSeq := d.storeSeq + 1
                issued :=
                  some
                    { kind := .program (sectorHeader d.generation (nextCount (countOf d y)) (d.storeSeq + 1)), sector := y
                      offset := 0 }
                holder := .job p w } := fun _ => rfl
        rw [hw]
        refine ⟨dn, ?_, ?_, ?_, fun h => by omega⟩
        · intro q
          by_cases hq : q = p
          · subst hq; rw [modPort_get]; exact hf q
          · rw [modPort_get_other _ _ hq]; exact hf q
        · intro _ _ _
          refine ⟨y, (choice y).1 (openChoice_isOpenChoice hy), by rw [← dg, ← dq, ← count], rfl, congrArg (· + 1) dq, ?_⟩
          rw [modPort_get]
          simp [dj, dq]
        · rintro st - (h | ⟨-, -, h, -⟩)
          · omega
          · rw [hl] at h; cases h
      · simp only [if_true]
        obtain ⟨y, he, hw⟩ := opens .seqLimit (by omega)
        rw [hw]
        refine ⟨dn, hf, fun _ _ h => (by rw [hl] at h; cases h), ?_, fun h => by omega⟩
        rintro st - (h | ⟨-, -, -, rfl⟩)
        · omega
        · exact ⟨y, he, rfl, rfl, dq, dj⟩
    · simp only [may, h2, decide_false, Bool.not_false, if_true, ended]
      refine ⟨lost.retryCount.trans dn, fun q => by rw [lost.sticky]; exact hf q, fun _ h => absurd h h2, ?_,
        fun _ => ⟨lost.slot, lost.job, by rw [lost.batch, ← kept.batch], lost.holder, lost.storeSeq.trans dq, lost.storeState⟩⟩
      rintro st h1 (h | ⟨-, h, -⟩)
      · omega
      · exact absurd h h2

end Sys2Proof.Machine
end

