-- ==== Sys2Proof/Laws/Formats.lean ====
section
/-! SUPPORT. Words and their bytes: each reads back from the bytes it is laid out as. -/

namespace Sys2Proof.Machine

theorem shift_or (a b n : Nat) (h : b < 2 ^ n) : a <<< n ||| b = a * 2 ^ n + b := by
  rw [← Nat.shiftLeft_add_eq_or_of_lt h, Nat.shiftLeft_eq]

/-- A 16-bit word reads back from its two bytes. -/
theorem word16_extract (x : BitVec 16) : word16 (x.extractLsb' 8 8) (x.extractLsb' 0 8) = x := by
  apply BitVec.eq_of_toNat_eq
  have hx : x.toNat < 65536 := x.isLt
  simp only [word16, BitVec.toNat_append, BitVec.extractLsb'_toNat, Nat.shiftRight_eq_div_pow]
  rw [shift_or _ _ _ (Nat.mod_lt _ (by decide))]
  omega

/-- A 32-bit word reads back from its four bytes. -/
theorem word32_extract (x : BitVec 32) :
    word32 (x.extractLsb' 24 8) (x.extractLsb' 16 8) (x.extractLsb' 8 8) (x.extractLsb' 0 8) = x := by
  apply BitVec.eq_of_toNat_eq
  have hx : x.toNat < 4294967296 := x.isLt
  simp only [word32, word16, BitVec.toNat_append, BitVec.extractLsb'_toNat, Nat.shiftRight_eq_div_pow]
  have h1 : ∀ a b : Nat, (a % 2 ^ 8) <<< 8 ||| (b % 2 ^ 8) < 2 ^ (8 + 8) := by
    intro a b; rw [shift_or _ _ _ (Nat.mod_lt _ (by decide))]; omega
  rw [shift_or _ _ (8 + 8) (h1 _ _), shift_or _ _ _ (Nat.mod_lt _ (by decide)),
    shift_or _ _ _ (Nat.mod_lt _ (by decide))]
  omega

@[simp] theorem be16_length (x : BitVec 16) : (be16 x).length = 2 := rfl
@[simp] theorem be32_length (x : BitVec 32) : (be32 x).length = 4 := rfl
@[simp] theorem be16Nat_length (n : Nat) : (be16Nat n).length = 2 := rfl
@[simp] theorem be32Nat_length (n : Nat) : (be32Nat n).length = 4 := rfl

end Sys2Proof.Machine
end

