-- ==== Sys2Proof/Laws/Slot.lean ====
section
/-! SUPPORT. What a request does when it reaches a slot: refused, or taken in the state `atTake`; and how its answer reads. -/

namespace Sys2Proof.Machine

open Safety

/-! ## The slot (R110) -/

/-- A request that reaches a WORKING slot raises REFUSED and does nothing else. -/
theorem request_working {s : State} {p : Port} (take : Block → Block) (hr : s.block.inReset = false)
    (hw : slotWorking (s.block.ports.get p).slot = true) :
    request s p take = .next (onPort s p fun q => { q with sticky := q.sticky ||| 0x0010 }) := by
  unfold slotWorking at hw
  unfold request outsideReset reachSlot
  split at hw <;> simp_all [raiseCause, onPort, causeRefused]

/-- A request that reaches a slot that is not WORKING is taken, from the state `atTake`. -/
theorem request_taken {s : State} {p : Port} (take : Block → Block) (h : canTake s p) :
    request s p take = .next (onBlock (atTake s p) take) := by
  obtain ⟨hr, hw⟩ := h
  have hd : dropResponse s.block p = modPort s.block p lost := by
    simp [dropResponse, raiseCause, causeRespLost]; rfl
  unfold request outsideReset reachSlot atTake
  cases hq : (s.block.ports.get p).slot with
  | empty => simp [hr, hq, onBlock]
  | working t w => simp [hq, slotWorking] at hw
  | answered r => simp [hr, hq, onBlock, onPort, hd]

/-- In reset a request does nothing. -/
theorem request_inReset {s : State} (p : Port) (take : Block → Block) (h : s.block.inReset = true) :
    request s p take = .next s := by simp [request, outsideReset, h]

/-- Every request answers a next state. -/
theorem request_next (s : State) (p : Port) (take : Block → Block) : ∃ t, request s p take = .next t := ⟨_, rfl⟩

/-! ## The state a request is taken in -/

/-- The port as its request finds it: EMPTY, with RESP_LOST where a response was lost. -/
theorem atTake_port (s : State) (p : Port) :
    (atTake s p).block.ports.get p =
      match (s.block.ports.get p).slot with
      | .answered _ => lost (s.block.ports.get p)
      | .empty | .working _ _ => s.block.ports.get p := by
  unfold atTake; cases (s.block.ports.get p).slot <;> simp [onPort]

/-- From `atTake` a port that can take a request has an EMPTY slot. -/
theorem atTake_slot {s : State} {p : Port} (h : canTake s p) : ((atTake s p).block.ports.get p).slot = .empty := by
  rw [atTake_port]
  have := h.2
  cases hs : (s.block.ports.get p).slot <;> simp_all [slotWorking, lost]

/-- Outside the port, the state a request is taken in is the state it came to. -/
theorem atTake_eq (s : State) (p : Port) : ∃ f : PortState → PortState, atTake s p = onPort s p f ∧
    ∀ q, (f q).batch = q.batch ∧ (f q).job = q.job ∧ (f q).watches = q.watches ∧ (f q).notes = q.notes ∧
      (f q).mask = q.mask ∧ (f q).releaseEnable = q.releaseEnable ∧ (f q).stretchLimit = q.stretchLimit ∧
      (f q).releaseSpent = q.releaseSpent := by
  unfold atTake; split
  · exact ⟨lost, rfl, fun q => by simp [lost]⟩
  · exact ⟨id, by simp [onPort, modPort], fun q => by simp⟩
  · exact ⟨id, by simp [onPort, modPort], fun q => by simp⟩

@[simp] theorem atTake_array (s : State) (p : Port) : (atTake s p).array = s.array := by
  unfold atTake; split <;> rfl
@[simp] theorem atTake_pending (s : State) (p : Port) : (atTake s p).pending = s.pending := by
  unfold atTake; split <;> rfl
@[simp] theorem atTake_inReset (s : State) (p : Port) : (atTake s p).block.inReset = s.block.inReset := by
  unfold atTake; split <;> rfl
@[simp] theorem atTake_storeState (s : State) (p : Port) : (atTake s p).block.storeState = s.block.storeState := by
  unfold atTake; split <;> rfl
@[simp] theorem atTake_generation (s : State) (p : Port) : (atTake s p).block.generation = s.block.generation := by
  unfold atTake; split <;> rfl
@[simp] theorem atTake_admin (s : State) (p : Port) : (atTake s p).block.admin = s.block.admin := by
  unfold atTake; split <;> rfl
@[simp] theorem atTake_addrStraps (s : State) (p : Port) : (atTake s p).block.addrStraps = s.block.addrStraps := by
  unfold atTake; split <;> rfl
@[simp] theorem atTake_policy (s : State) (p : Port) : (atTake s p).block.policy = s.block.policy := by
  unfold atTake; split <;> rfl
@[simp] theorem atTake_corruptCount (s : State) (p : Port) : (atTake s p).block.corruptCount = s.block.corruptCount := by
  unfold atTake; split <;> rfl
@[simp] theorem atTake_retryCount (s : State) (p : Port) : (atTake s p).block.retryCount = s.block.retryCount := by
  unfold atTake; split <;> rfl
@[simp] theorem atTake_mount (s : State) (p : Port) : (atTake s p).block.mount = s.block.mount := by
  unfold atTake; split <;> rfl
@[simp] theorem atTake_dir (s : State) (p : Port) : (atTake s p).block.dir = s.block.dir := by
  unfold atTake; split <;> rfl
@[simp] theorem atTake_usage (s : State) (p : Port) : (atTake s p).block.usage = s.block.usage := by
  unfold atTake; split <;> rfl
@[simp] theorem atTake_storeSeq (s : State) (p : Port) : (atTake s p).block.storeSeq = s.block.storeSeq := by
  unfold atTake; split <;> rfl
@[simp] theorem atTake_sectors (s : State) (p : Port) : (atTake s p).block.sectors = s.block.sectors := by
  unfold atTake; split <;> rfl
@[simp] theorem atTake_spaceLow (s : State) (p : Port) : (atTake s p).block.spaceLow = s.block.spaceLow := by
  unfold atTake; split <;> rfl
@[simp] theorem atTake_cycle (s : State) (p : Port) : (atTake s p).block.cycle = s.block.cycle := by
  unfold atTake; split <;> rfl
@[simp] theorem atTake_engine (s : State) (p : Port) : (atTake s p).block.engine = s.block.engine := by
  unfold atTake; split <;> rfl
@[simp] theorem atTake_issued (s : State) (p : Port) : (atTake s p).block.issued = s.block.issued := by
  unfold atTake; split <;> rfl
@[simp] theorem atTake_holder (s : State) (p : Port) : (atTake s p).block.holder = s.block.holder := by
  unfold atTake; split <;> rfl
@[simp] theorem atTake_reclaimFlag (s : State) (p : Port) : (atTake s p).block.reclaimFlag = s.block.reclaimFlag := by
  unfold atTake; split <;> rfl
@[simp] theorem atTake_lastGranted (s : State) (p : Port) : (atTake s p).block.lastGranted = s.block.lastGranted := by
  unfold atTake; split <;> rfl
@[simp] theorem atTake_banks (s : State) (p : Port) : (atTake s p).block.banks = s.block.banks := by
  unfold atTake; split <;> rfl
@[simp] theorem atTake_select (s : State) (p : Port) : (atTake s p).block.select = s.block.select := by
  unfold atTake; split <;> rfl
@[simp] theorem atTake_wire (s : State) (p : Port) : (atTake s p).block.wire = s.block.wire := by
  unfold atTake; split <;> rfl
@[simp] theorem atTake_batch (s : State) (p : Port) :
    ((atTake s p).block.ports.get p).batch = (s.block.ports.get p).batch := by
  rw [atTake_port]; split <;> rfl
@[simp] theorem atTake_job (s : State) (p : Port) :
    ((atTake s p).block.ports.get p).job = (s.block.ports.get p).job := by
  rw [atTake_port]; split <;> rfl
@[simp] theorem atTake_watches (s : State) (p : Port) :
    ((atTake s p).block.ports.get p).watches = (s.block.ports.get p).watches := by
  rw [atTake_port]; split <;> rfl
@[simp] theorem atTake_notes (s : State) (p : Port) :
    ((atTake s p).block.ports.get p).notes = (s.block.ports.get p).notes := by
  rw [atTake_port]; split <;> rfl
@[simp] theorem atTake_mask (s : State) (p : Port) :
    ((atTake s p).block.ports.get p).mask = (s.block.ports.get p).mask := by
  rw [atTake_port]; split <;> rfl
@[simp] theorem atTake_releaseEnable (s : State) (p : Port) :
    ((atTake s p).block.ports.get p).releaseEnable = (s.block.ports.get p).releaseEnable := by
  rw [atTake_port]; split <;> rfl
@[simp] theorem atTake_stretchLimit (s : State) (p : Port) :
    ((atTake s p).block.ports.get p).stretchLimit = (s.block.ports.get p).stretchLimit := by
  rw [atTake_port]; split <;> rfl
@[simp] theorem atTake_releaseSpent (s : State) (p : Port) :
    ((atTake s p).block.ports.get p).releaseSpent = (s.block.ports.get p).releaseSpent := by
  rw [atTake_port]; split <;> rfl

/-- No other port is touched. -/
theorem atTake_other (s : State) {p q : Port} (h : q ≠ p) : (atTake s p).block.ports.get q = s.block.ports.get q := by
  unfold atTake; split
  · exact modPort_get_other _ _ h
  · rfl
  · rfl

/-! ## Answers (R115, R117) -/

/-- An answer is the port with its slot answered. -/
theorem answer_eq (b : Block) (p : Port) (tag : Byte) (st : Status) (body : List Byte) :
    answer b p tag st body = modPort b p (responded tag st body) := rfl

/-- An answer after a change of the same port is one change. -/
@[simp] theorem answer_modPort (b : Block) (p : Port) (tag : Byte) (st : Status) (body : List Byte)
    (f : PortState → PortState) :
    answer (modPort b p f) p tag st body = modPort b p fun q => responded tag st body (f q) := by
  rw [answer_eq, modPort_modPort]

theorem afterMount_mounted {b : Block} (p : Port) (tag : Byte) (take : Block → Block) (h : b.storeState ≠ .mounting) :
    afterMount b p tag take = take b := by simp [afterMount, h]

theorem afterMount_mounting {b : Block} (p : Port) (tag : Byte) (take : Block → Block) (h : b.storeState = .mounting) :
    afterMount b p tag take = answer b p tag .state [] := by simp [afterMount, h]

theorem whenReadable_readable {b : Block} (p : Port) (tag : Byte) (take : Block → Block)
    (h : b.storeState ≠ .mounting ∧ b.storeState ≠ .formatting) : whenReadable b p tag take = take b := by
  simp [whenReadable, h]

theorem whenReadable_closed {b : Block} (p : Port) (tag : Byte) (take : Block → Block)
    (h : b.storeState = .mounting ∨ b.storeState = .formatting) :
    whenReadable b p tag take = answer b p tag .state [] := by
  rcases h with h | h <;> simp [whenReadable, h]

/-- A request that every store state but MOUNTING serves is taken, once mounted. -/
theorem request_mounted {s : State} {p : Port} (tag : Byte) (take : Block → Block) (h : canTake s p) (hm : mounted s) :
    (request s p fun b => afterMount b p tag take) = .next (onBlock (atTake s p) take) := by
  rw [request_taken _ h]
  simp only [onBlock]
  rw [afterMount_mounted]
  rw [atTake_storeState]; exact hm

/-- A lookup request is taken, once the store serves lookups. -/
theorem request_readable {s : State} {p : Port} (tag : Byte) (take : Block → Block) (h : canTake s p) (hr : readable s) :
    (request s p fun b => whenReadable b p tag take) = .next (onBlock (atTake s p) take) := by
  rw [request_taken _ h]
  simp only [onBlock]
  rw [whenReadable_readable]
  rw [atTake_storeState]; exact hr

/-- A lookup request is answered STATE while FORMATTING. -/
theorem request_formatting {s : State} {p : Port} (tag : Byte) (take : Block → Block) (h : canTake s p)
    (hf : s.block.storeState = .formatting) :
    (request s p fun b => whenReadable b p tag take) = .next (onPort (atTake s p) p (responded tag .state [])) := by
  rw [request_taken _ h]
  simp only [onBlock]
  rw [whenReadable_closed _ _ _ (.inr (by rw [atTake_storeState]; exact hf))]
  rfl

/-- A command of a request is its request at the slot. -/
theorem exec_command (p : Port) (tag : Byte) (r : Request) (s : State) :
    exec (command p tag r) s = request s p (takeRequest p tag r) := by cases r <;> rfl

/-- While MOUNTING every request but IDENTIFY is answered STATE. -/
theorem takeRequest_mounting {p : Port} {tag : Byte} {r : Request} {b : Block} (hr : r ≠ .identify)
    (h : b.storeState = .mounting) : takeRequest p tag r b = answer b p tag .state [] := by
  cases r <;> first
    | exact absurd rfl hr
    | simp [takeRequest, takeStoreInfo, takeConfigure, takeEvents, takeGet, takeStat, takeList, takePut, takeDelete,
        takeBegin, takeCommit, takeAbandon, takeWatch, takeUnwatch, takeNotes, takeReclaim, takeFormatRequest, afterMount,
        whenReadable, h]

/-- A frame of 1 to 1046 bytes reaches the slot of its port. -/
theorem exec_requestFrameEnd {p : Port} {frame : List Byte} (s : State) (h : frame ≠ [])
    (hl : frame.length ≤ Config.maxRequestBytes) :
    exec (.requestFrameEnd p frame) s = request s p (takeFrame p frame) := by
  have hn : ¬Config.maxRequestBytes < frame.length := by omega
  have hf : frameEnds p frame = fun b => reachSlot b p (takeFrame p frame) := by
    funext b; simp [frameEnds, h, hn]
  simp only [exec, execRequestFrameEnd, request, hf]

/-! ## Lookups (R11, R12) -/

/-- A lookup by the present slot: absent without one; by the read set otherwise. -/
theorem lookup_eq (dir : List DirSlot) (p : Port) (k : Key) :
    lookup dir p k =
      match presentSlot k dir with
      | none => .absent
      | some d =>
        if mayRead p d then (if d.state = .live then .present d else .damaged d) else .notReadable := by
  unfold lookup presentSlot
  cases hf : dirFind k dir with
  | none => rfl
  | some d => cases hd : d.state <;> simp [hd, slotPresent, Option.filter]

/-- A present slot is LIVE or DAMAGED. -/
theorem presentSlot_state {k : Key} {dir : List DirSlot} {d : DirSlot} (h : presentSlot k dir = some d) :
    dirFind k dir = some d ∧ (d.state = .live ∨ d.state = .damaged) := by
  unfold presentSlot at h
  rw [Option.filter_eq_some_iff] at h
  refine ⟨h.1, ?_⟩
  have := h.2
  cases hd : d.state <;> simp_all [slotPresent]

end Sys2Proof.Machine
end

