-- ==== Sys2Proof/Tests/Slice0.lean ====
section
/-! SUPPORT. The model's own tests: ill-formed commands, check computations, request frames written out from R174, small tests of
commands, and a witness for the hypotheses of each statement. Expected bytes come from the manual's tables; their CRC-16 and CRC-32
from a program outside Lean that follows R179 and gives its check values. -/

namespace Sys2Proof.Tests

set_option Elab.async false

open Machine Safety

/-! ## Ill-formed commands -/

theorem test_wf_put_too_long : (Instr.put .p0 0 1 none none (List.replicate 1036 0)).wf = false := by decide +kernel

theorem test_wf_put_longest : (Instr.put .p0 0 1 none none (List.replicate 1035 0)).wf = true := by decide +kernel

theorem test_wf_request_put_too_long :
    (Request.put 1 (some 0) (some ⟨7, 7, false⟩) (List.replicate 1029 0)).wf = false := by decide +kernel

theorem test_wf_frame_too_long : (Instr.requestFrameEnd .p0 (List.replicate 1047 0)).wf = false := by decide +kernel

theorem test_wf_program_complete_long : (Instr.programComplete (List.replicate 4097 0)).wf = false := by decide +kernel

theorem test_wf_program_timeout_long : (Instr.programTimeout (List.replicate 4097 0)).wf = false := by decide +kernel

theorem test_wf_erase_complete_outside : (Instr.eraseComplete [(4096, 0)]).wf = false := by decide +kernel

theorem test_wf_erase_timeout_outside : (Instr.eraseTimeout [(0, 0), (5000, 0)]).wf = false := by decide +kernel

theorem test_wf_reset_miss_long : (Instr.resetAssert (List.replicate 4097 0) []).wf = false := by decide +kernel

theorem test_wf_reset_residue_outside : (Instr.resetAssert [] [(4096, 0)]).wf = false := by decide +kernel

/-! ## Check computations (R179) -/

theorem test_crc16_check : crc16 [0x31, 0x32, 0x33, 0x34, 0x35, 0x36, 0x37, 0x38, 0x39] = 0x29B1 := by decide +kernel

theorem test_crc32_check : crc32 [0x31, 0x32, 0x33, 0x34, 0x35, 0x36, 0x37, 0x38, 0x39] = 0xCBF43926 := by decide +kernel

/-! ## Request frames, byte by byte from R174 -/

theorem test_decode_identify : Decode.commonChecks false [0x01, 0x07, 0x00, 0x00, 0x77, 0xE4] = .request .identify := by
  decide +kernel

theorem test_decode_configure :
    Decode.commonChecks false [0x03, 0x07, 0x00, 0x04, 0x03, 0xFE, 0x01, 0x20, 0x1D, 0xD5] =
      .request (.configure 0x03FE 1 0x20) := by decide +kernel

theorem test_decode_get :
    Decode.commonChecks false [0x10, 0x07, 0x00, 0x06, 0x0A, 0x10, 0x00, 0x04, 0x04, 0x00, 0xF7, 0x7D] =
      .request (.get 0x0A10 4 0x0400) := by decide +kernel

theorem test_decode_list :
    Decode.commonChecks false [0x12, 0x07, 0x00, 0x03, 0x00, 0x00, 0x20, 0xD1, 0xA9] = .request (.list 0 32) := by decide +kernel

theorem test_decode_put :
    Decode.commonChecks false
        [0x20, 0x07, 0x00, 0x0E, 0x0A, 0x10, 0x03, 0x00, 0x00, 0x01, 0xF4, 0x07, 0x03, 0x01, 0x00, 0x02, 0xAA, 0x55, 0x7F,
          0xC5] =
      .request (.put 0x0A10 (some 500) (some ⟨7, 3, true⟩) [0xAA, 0x55]) := by decide +kernel

theorem test_decode_put_plain :
    Decode.commonChecks false [0x20, 0x07, 0x00, 0x06, 0x0A, 0x10, 0x00, 0x00, 0x01, 0xAA, 0x6D, 0x73] =
      .request (.put 0x0A10 none none [0xAA]) := by decide +kernel

theorem test_decode_delete :
    Decode.commonChecks false [0x21, 0x07, 0x00, 0x07, 0x0A, 0x10, 0x01, 0x00, 0x00, 0x01, 0xF4, 0xA2, 0xEF] =
      .request (.delete 0x0A10 (some 500)) := by decide +kernel

theorem test_decode_watch :
    Decode.commonChecks false [0x30, 0x07, 0x00, 0x02, 0xFF, 0x00, 0x2B, 0xD7] = .request (.watch 0xFF00) := by decide +kernel

theorem test_decode_format : Decode.commonChecks false [0x41, 0x07, 0x00, 0x00, 0x19, 0x78] = .request .format := by decide +kernel

/-- A read set byte with bit 3 set is not of the structure of a PUT (R112). -/
theorem test_decode_reserved_set_bit :
    Decode.commonChecks false [0x20, 0x07, 0x00, 0x09, 0x0A, 0x10, 0x02, 0x08, 0x03, 0x01, 0x00, 0x01, 0xAA, 0x28, 0x5B] =
      .refused .malformed := by decide +kernel

theorem test_decode_unknown : Decode.commonChecks false [0x55, 0x07, 0x00, 0x00, 0xC8, 0x2E] = .refused .unknown := by decide +kernel

theorem test_decode_wrong_check : Decode.commonChecks false [0x01, 0x07, 0x00, 0x00, 0x77, 0xE5] = .refused .malformed := by
  decide +kernel

/-- No row of the table has bits. -/
theorem test_no_table_word : decodeTableWord 8 1 = none := by decide +kernel

/-! ## Small states -/

/-- A mounted store with no sector in use. -/
def ready : State := onBlock State.reset fun b => { b with storeState := .ready, holder := .free, issued := none }

/-- A live record of 16 bytes of key 0A10h that port 0 owns and ports 0 and 1 may write, as in section 12.1. -/
def record : DirSlot :=
  { key := 0x0A10, state := .live, sector := 30, offset := 1156, length := 16, seq := 500, owner := some .p0
    readSet := 7, writeSet := 3, writeOnce := false }

/-- The same store with that record. -/
def stocked : State :=
  onBlock ready fun b => { b with dir := [record], usage := { p0 := 16, p1 := 0, p2 := 0 }, storeSeq := 520 }

/-- What a command leaves. -/
def after (i : Instr) (s : State) : State :=
  match exec i s with
  | .next t => t
  | .fault _ | .refused _ => s

def slotOf (p : Port) (s : State) : ReqSlot := (s.block.ports.get p).slot

def rowIn (st : SectorState) (offset : Option Nat) : SectorRow :=
  { state := st, eraseCount := some 0, openSeq := some 1, generation := some 1, writeOffset := offset }

/-- Sector 30 ACTIVE with its write offset at 1200, sectors 0 to 8 ERASED, the rest RETIRED. -/
def spaced : State :=
  onBlock stocked fun b =>
    { b with
        sectors := Vector.ofFn fun x =>
          if x = 30 then rowIn .active (some 1200)
          else if x.val ≤ 8 then { rowIn .erased none with openSeq := none } else rowIn .retired none }

def putOp (n : Nat) : WriteOp := { key := 0x0A10, expected := none, kind := .put none (List.replicate n 0) }

def jobOf1 (op : WriteOp) (st : JobState) : Job :=
  { ops := [op], batch := false, format := false, state := st, attempt := 0, seq := none, detached := false, locs := [] }

/-- Port 0's job of one operation waits for its grant. -/
def queued (op : WriteOp) (s : State) : State :=
  onPort s .p0 fun q => { q with slot := .working 7 .job, job := some (jobOf1 op .queued) }

/-- The store of section 12.5: sector 61 ACTIVE at 3600, sector 8 ERASED, sectors 20, 21 and 22 with 900, 800 and 700 stale bytes, each
other sector FULL and wholly live. One slot stands for all the live entries of a sector. -/
def short : State :=
  let slot := fun (x : Sector) (len : Nat) =>
    ({ key := BitVec.ofNat 16 (256 + x.val), state := .live, sector := x, offset := 32, length := len, seq := 1, owner := none
       readSet := 7, writeSet := 7, writeOnce := false } : DirSlot)
  let livePart := fun x : Sector =>
    if x = 8 then 0
    else if x = 61 then 3568
    else if x = 20 then 3164
    else if x = 21 then 3264
    else if x = 22 then 3364
    else 4064
  onBlock ready fun b =>
    { b with
        storeSeq := 520
        dir := (allSectors.filter fun x => x ≠ 8).map fun x => slot x (livePart x - 20)
        sectors := Vector.ofFn fun x =>
          if x = 61 then rowIn .active (some 3600)
          else if x = 8 then { rowIn .erased none with openSeq := none } else rowIn .full (some 4096) }

/-! ## The requests -/

theorem test_identify :
    slotOf .p1 (after (.identify .p1 7) State.reset) =
      .answered
        [0x00, 0x07, 0x00, 0x1D, 0x2D, 0x47, 0x04, 0x18, 0x01, 0x01, 0x00, 0x04, 0x00, 0x00, 0x10, 0x00, 0x40, 0x02, 0x0F,
          0xE0, 0x04, 0x00, 0x02, 0x00, 0x08, 0x08, 0x00, 0x08, 0x10, 0x04, 0x10, 0x04, 0x16, 0x47, 0x61] := by
  decide +kernel

/-- While MOUNTING every other request is answered STATE (R111). -/
theorem test_store_info_mounting :
    slotOf .p0 (after (.storeInfo .p0 7) State.reset) = .answered [0x0F, 0x07, 0x00, 0x00, 0xD5, 0xBE] := by decide +kernel

/-- Free 496 and reclaimable 2400, as section 12.5 says, in bytes 15 to 22 of the body (R120). -/
theorem test_store_info_space :
    (match slotOf .p0 (after (.storeInfo .p0 7) short) with
      | .answered r => r.drop 19 |>.take 8
      | .empty | .working _ _ => []) = [0x00, 0x00, 0x01, 0xF0, 0x00, 0x00, 0x09, 0x60] := by decide +kernel

/-- Reserved mask positions read 0, and port 0 keeps no stretch limit (R121). -/
theorem test_configure :
    slotOf .p0 (after (.configure .p0 7 0xFFFF 0 9) ready) =
      .answered [0x00, 0x07, 0x00, 0x04, 0x03, 0xFF, 0x00, 0x00, 0xF5, 0xC3] := by decide +kernel

/-- A response dropped by the request itself is in the copy as RESP_LOST, and RESP is not (R143). -/
theorem test_events_after_loss :
    slotOf .p0 (after (.events .p0 7 0) (after (.identify .p0 1) ready)) =
      .answered [0x00, 0x07, 0x00, 0x02, 0x00, 0x08, 0x86, 0xAC] := by decide +kernel

theorem test_stat :
    slotOf .p2 (after (.stat .p2 7 0x0A10) stocked) =
      .answered
        [0x00, 0x07, 0x00, 0x0B, 0x01, 0x00, 0x10, 0x00, 0x00, 0x01, 0xF4, 0x00, 0x07, 0x03, 0x00, 0x88, 0x76] := by
  decide +kernel

theorem test_list :
    slotOf .p2 (after (.list .p2 7 0x0A0F 1) stocked) =
      .answered
        [0x00, 0x07, 0x00, 0x0B, 0x01, 0x0A, 0x10, 0x00, 0x10, 0x00, 0x00, 0x01, 0xF4, 0x00, 0x01, 0x51, 0xF8] := by
  decide +kernel

/-- An erase of section 12.4: sector 17, 12 ms spent. -/
def erasing (suspends : Nat) : State :=
  onBlock stocked fun b =>
    { b with
        engine := .erasing { kind := .erase, sector := 17, offset := 0 } 12 suspends
        holder := .reclaim (.erase 17), cycle := .erasing 17
        sectors := (b.sectors.set 17 (rowIn .source (some 4096))).set 30 (rowIn .full (some 4096)) }

/-- A GET of a record in the erase's bank suspends it and starts (12.4). -/
theorem test_get_suspends :
    let t := (after (.get .p0 7 0x0A10 0 16) (erasing 0)).block
    t.engine = .eraseSuspended { kind := .erase, sector := 17, offset := 0 } 12 0 ∧
      t.banks.b0.current.map (·.port) = some .p0 ∧ t.banks.b0.queue = [] := by decide +kernel

/-- After sixteen suspensions it joins the queue instead (12.4). -/
theorem test_get_queues :
    let t := (after (.get .p0 7 0x0A10 0 16) (erasing 16)).block
    t.engine = .erasing { kind := .erase, sector := 17, offset := 0 } 12 16 ∧ t.banks.b0.current = none ∧
      t.banks.b0.queue.length = 1 := by decide +kernel

theorem test_put_queues_a_job :
    let q := (after (.put .p1 7 0x0A10 none none [1]) stocked).block.ports.p1
    q.slot = .working 7 .job ∧ q.job.map (·.state) = some .queued := by decide +kernel

theorem test_delete_outside_ready :
    slotOf .p1 (after (.delete .p1 7 0x0A10 none) State.reset) = .answered [0x0F, 0x07, 0x00, 0x00, 0xD5, 0xBE] := by
  decide +kernel

theorem test_begin :
    (after (.beginBatch .p1 7) ready).block.ports.p1.batch = .opened [] ∧
      slotOf .p1 (after (.beginBatch .p1 7) ready) =
        .answered [0x00, 0x07, 0x00, 0x05, 0x00, 0x00, 0x00, 0x00, 0xFF, 0x82, 0x9B] := by decide +kernel

/-- A staged operation replaces the earlier one of its key, and goes to the end (R23). -/
theorem test_staging_replaces :
    let s := onPort ready .p0 fun q => { q with batch := .opened [putOp 4, { putOp 5 with key := 2 }] }
    (after (.delete .p0 7 0x0A10 none) s).block.ports.p0.batch =
      .opened [{ putOp 5 with key := 2 }, { key := 0x0A10, expected := none, kind := .delete }] := by decide +kernel

theorem test_commit_empty :
    (after (.commit .p1 7) (onPort ready .p1 fun q => { q with batch := .opened [] })).block.ports.p1.batch = .closed := by
  decide +kernel

theorem test_abandon_closed :
    slotOf .p1 (after (.abandon .p1 7) ready) =
      .answered [0x0A, 0x07, 0x00, 0x05, 0x00, 0x00, 0x00, 0x00, 0xFF, 0x6D, 0x03] := by decide +kernel

theorem test_watch :
    slotOf .p1 (after (.watch .p1 7 0xFF00) ready) = .answered [0x00, 0x07, 0x00, 0x01, 0x01, 0x63, 0x31] ∧
      (after (.watch .p1 7 0xFF00) ready).block.ports.p1.watches = [0xFF00] := by decide +kernel

theorem test_unwatch :
    slotOf .p1 (after (.unwatch .p1 7 5) (onPort ready .p1 fun q => { q with watches := [5] })) =
      .answered [0x00, 0x07, 0x00, 0x01, 0x00, 0x73, 0x10] := by decide +kernel

/-- The note of 12.1: 0A10h, 521, WRITTEN, by 0, merged 1. -/
theorem test_notes :
    slotOf .p2
        (after (.notes .p2 7 16) (onPort ready .p2 fun q =>
          { q with notes := [{ key := 0x0A10, seq := 521, kind := .written, byPort := some .p0, merged := 1 }] })) =
      .answered
        [0x00, 0x07, 0x00, 0x0A, 0x01, 0x0A, 0x10, 0x00, 0x00, 0x02, 0x09, 0x01, 0x00, 0x01, 0x4C, 0xD3] := by
  decide +kernel

theorem test_reclaim_nothing :
    slotOf .p1 (after (.reclaim .p1 7) spaced) = .answered [0x00, 0x07, 0x00, 0x01, 0x03, 0x43, 0x73] := by decide +kernel

/-- Sector 20 has the most stale bytes (12.5). -/
theorem test_reclaim_starts : (after (.reclaim .p1 7) short).block.cycle = .marking 20 := by decide +kernel

theorem test_format_not_admin :
    slotOf .p1 (after (.format .p1 7) ready) =
      .answered [0x10, 0x07, 0x00, 0x05, 0x00, 0x00, 0x00, 0x00, 0xFF, 0xD1, 0x65] := by decide +kernel

/-- A frame does what its request does; the tag is the frame's. -/
theorem test_request_frame_end :
    slotOf .p1 (after (.requestFrameEnd .p1 [0x22, 0x07, 0x00, 0x00, 0xDB, 0x76]) ready) =
      .answered [0x00, 0x07, 0x00, 0x05, 0x00, 0x00, 0x00, 0x00, 0xFF, 0x82, 0x9B] := by decide +kernel

/-! ## Engine and reads -/

/-- 12.5: the need of 2064 is more than the 496 free bytes; the job waits, and the cycle starts with sector 20. -/
theorem test_take_waits :
    let t := (after .engineGrant (queued { putOp 1000 with key := 0x0B00 } short)).block
    t.ports.p0.job.map (·.state) = some .waitSpace ∧ t.cycle = .marking 20 ∧ t.holder = .free := by decide +kernel

/-- 12.1: the job takes sequence 521 and its header is issued at (30, 1200): key, length 24, sequence, kind 01h, owner, access, flags,
count, and the marks left FFh (R178). -/
theorem test_take_starts :
    let t := (after .engineGrant (queued (putOp 24) spaced)).block
    t.storeSeq = 521 ∧
      t.issued =
        some
          { kind :=
              .program [0x0A, 0x10, 0x00, 0x18, 0x00, 0x00, 0x02, 0x09, 0x01, 0x00, 0x37, 0x00, 0x00, 0xFF, 0xFF, 0xFF]
            sector := 30, offset := 1200 } := by decide +kernel

/-- 12.1: an expected sequence of 500 when the current one is 521 is CONFLICT with index 0. -/
theorem test_take_conflict :
    slotOf .p0
        (after .engineGrant
          (queued { putOp 24 with expected := some 500 } (onBlock spaced fun b => { b with dir := [{ record with seq := 521 }] }))) =
      .answered [0x03, 0x07, 0x00, 0x05, 0x00, 0x00, 0x00, 0x00, 0x00, 0xB1, 0x2F] := by decide +kernel

/-- Port 0's job of one operation whose complete mark at (30, 1200) is being programmed; port 2 watches key 0A10h (12.1). -/
def completingOf (op : WriteOp) : State :=
  onBlock (onPort (onPort spaced .p2 fun q => { q with watches := [0x0A10] }) .p0 fun q =>
      { q with slot := .working 7 .job, job := some { jobOf1 op .running with attempt := 1, seq := some 521 } }) fun b =>
    { b with
        storeSeq := 521
        engine := .programming { kind := .program [0x00], sector := 30, offset := 1214 } 0
        holder := .job .p0 (.place (.member 0) { header := [], body := List.replicate 28 0 } (.complete 30 1200)) }

def completing : State := completingOf (putOp 24)

/-- 12.1: the slot is at (30, 1200) with 24 bytes, usage is 24, port 2 has the note, port 0 is answered OK with 521. -/
theorem test_program_complete :
    let t := (after (.programComplete []) completing).block
    t.dir = [{ record with offset := 1200, length := 24, seq := 521 }] ∧ t.usage.p0 = 24 ∧
      t.ports.p2.notes = [{ key := 0x0A10, seq := 521, kind := .written, byPort := some .p0, merged := 0 }] ∧
      t.ports.p0.slot = .answered [0x00, 0x07, 0x00, 0x05, 0x00, 0x00, 0x02, 0x09, 0xFF, 0x56, 0x63] := by decide +kernel

/-- A mark that reads 7Fh takes 00h when it is programmed again (12.2, R43). -/
theorem test_program_ands :
    readByte (programRun [(address 22 1043, 0x7F)] 22 1043 [0x00] []) (address 22 1043) = 0x00 := by
  decide +kernel

/-- A program ended at its limit leaves the bits that did not take (R46). -/
theorem test_program_timeout :
    (after (.programTimeout [0x80]) completing).array = [(address 30 1214, 0x80)] := by decide +kernel

theorem test_erase_timeout :
    (row (after (.eraseTimeout [(5, 0)]) (erasing 0)).block 17).state = .retired := by decide +kernel

theorem test_engine_op_start :
    (after .engineOpStart State.reset).block.engine =
      .programming { kind := .stepRead 32, sector := 0, offset := 0 } 0 := by decide +kernel

/-- A sector header of generation 1, erase count 5, open sequence 9, opened (R88, R177). -/
theorem test_classify_valid :
    classifyHeader
        ([0x4A, 0x4B, 0x56, 0x31, 0x00, 0x01, 0x00, 0x00, 0x00, 0x05, 0x00, 0x00, 0x00, 0x09, 0xFF, 0xFF, 0xE3, 0x47, 0x00] ++
          List.replicate 13 0xFF) = some (.valid 1 5 9 true false false) := by decide +kernel

/-- A whole entry of key 0A10h, sequence 500, payload ABh CDh, at (30, 1156). -/
def entryCells : List Host.Cell :=
  programRun [] 30 1156
    [0x0A, 0x10, 0x00, 0x02, 0x00, 0x00, 0x01, 0xF4, 0x01, 0x00, 0x37, 0x00, 0x00, 0x00, 0x00, 0xFF, 0xAB, 0xCD, 0xFF, 0xFF,
      0xE3, 0x27, 0x21, 0x83] []

def entryRead : Read :=
  { port := .p1, orphan := false, key := 0x0A10, seq := 500, sector := 30, offset := 1156, length := 2, getOffset := 1
    maxLength := 1024 }

/-- Port 1's read of that entry from offset 1 is in progress in bank 0. -/
def reading (cells : List Host.Cell) (others : List Read) : State :=
  { onBlock (onPort stocked .p1 fun q => { q with slot := .working 7 .read }) fun b =>
      { b with
          dir := [{ record with length := 2 }]
          banks := { b.banks with b0 := { current := some entryRead, queue := others } } } with array := cells }

theorem test_read_finish_good :
    slotOf .p1 (after (.readFinish .b0) (reading entryCells [])) =
      .answered [0x00, 0x07, 0x00, 0x07, 0x00, 0x00, 0x01, 0xF4, 0x00, 0x02, 0xCD, 0x9E, 0x83] := by decide +kernel

/-- From an erased array the read is damaged: CORRUPT, and the slot DAMAGED (R60, R17). -/
theorem test_read_finish_damaged :
    let t := after (.readFinish .b0) (reading [] [])
    slotOf .p1 t = .answered [0x0E, 0x07, 0x00, 0x00, 0xA3, 0x0A] ∧ t.block.dir.map (·.state) = [.damaged] := by
  decide +kernel

theorem test_read_start :
    (after (.readStart .b0) (onBlock ready fun b =>
      { b with banks := { b.banks with b0 := { current := none, queue := [entryRead] } } })).block.banks.b0 =
      { current := some entryRead, queue := [] } := by decide +kernel

/-! ## Reset, release, framing -/

/-- Straps 01 make port 1 the administrator; a select input low at the end of reset is DISCARDING (R145, R166). -/
theorem test_reset_end :
    let t := (after (.resetEnd 1 0 false true) (after (.resetAssert [] []) ready)).block
    t.admin = some .p1 ∧ t.select.s0.state = .discarding ∧ t.select.s1.state = .idle := by decide +kernel

/-- 12.6: a release of a port whose job is RUNNING detaches it. -/
theorem test_release_running :
    let q := (after (.release .p0) completing).block.ports.p0
    q.slot = .empty ∧ q.sticky = 0x0040 ∧ q.job.map (·.detached) = some true := by decide +kernel

/-- Values of R176: 08h idle in READY; 0Ch asserting ATTN. -/
theorem test_status_bytes :
    statusByte ready.block .p0 = 0x08 ∧ statusByte (after (.release .p0) ready).block .p0 = 0x0C := by decide +kernel

/-- In mode 3 nothing is driven before the first falling clock edge (R144); a frame type byte 5Ah makes a POLL frame (R147). -/
theorem test_select_frame :
    let s := after (.selectFall .s0 true) ready
    let t := after (.selectByteComplete .s0 0x5A) s
    s.block.select.s0.driven = false ∧ t.block.select.s0.driven = true ∧ t.block.select.s0.frameType = .poll ∧
      t.block.select.s0.sdo = some 0x08 := by decide +kernel

/-- With straps 00 the write address byte is B0h and the read address byte B1h (R155). -/
theorem test_address_bytes :
    (after (.addressByte 0xB0) (after (.busStart false) ready)).block.wire.state = .addressedWrite ∧
      (after (.addressByte 0xB1) (after (.busStart false) ready)).block.wire.sending = some 0x08 := by decide +kernel

def inReset : State := after (.resetAssert [] []) ready

/-- Sector 0 holds the header of `test_classify_valid`; its header read is in progress. -/
def mounting : State :=
  { after .engineOpStart State.reset with
    array :=
      programRun [] 0 0
        [0x4A, 0x4B, 0x56, 0x31, 0x00, 0x01, 0x00, 0x00, 0x00, 0x05, 0x00, 0x00, 0x00, 0x09, 0xFF, 0xFF, 0xE3, 0x47, 0x00] [] }

/-- Select port 0 in a frame of this type, with these request bytes, byte 0 complete. -/
def inFrame (ty : FrameType) (bytes : List Byte) : State :=
  onBlock ready fun b =>
    { b with
        select :=
          { b.select with
              s0 :=
                { SelectFraming.reset .frame with
                    bytesComplete := if ty = .none then 0 else 1, frameType := ty, requestBytes := bytes } } }

/-- A fetch of a response of three bytes on port 0, one of them shifted out. -/
def fetching : State :=
  onBlock (onPort (inFrame .fetch []) .p0 fun q => { q with slot := .answered [1, 2, 3], fetchProgress := 1 }) fun b =>
    { b with select := { b.select with s0 := { b.select.s0 with showedAnswered := true, bytesComplete := 2 } } }

/-- Port 2's framing in this state, an answer of three bytes in its slot. -/
def onWire (st : WireState) : State :=
  onBlock (onPort ready .p2 fun q => { q with slot := .answered [1, 2, 3] }) fun b =>
    { b with wire := { WireFraming.cleared st with showedAnswered := true } }

theorem test_erase_complete :
    (row (after (.eraseComplete []) (erasing 0)).block 17).state = .erased := by decide +kernel

/-- A header read ends and the next sector's is issued (R88). -/
theorem test_step_read_complete :
    (after .stepReadComplete mounting).block.issued = some { kind := .stepRead 32, sector := 1, offset := 0 } := by
  decide +kernel

/-- A fetch that is cut short keeps the response (R118). -/
theorem test_fetch_cut_short :
    let t := after (.fetchFrameEnd .s0 true) fetching
    t.block.ports.p0.slot = .answered [1, 2, 3] ∧ t.block.ports.p0.fetchProgress = 0 := by decide +kernel

/-- An unknown frame type raises FRAME_ERR at the frame's end (R147, R152). -/
theorem test_unknown_frame :
    (after (.otherFrameEnd .s0 true) (inFrame .unknown [])).block.ports.p0.sticky = 0x0020 := by decide +kernel

theorem test_frame_off_boundary :
    (after (.requestFrameSelectEnd .s0 false) (inFrame .request [1])).block.ports.p0.sticky = 0x0020 := by decide +kernel

theorem test_wire_keeps_a_byte :
    (after (.twoWireRequestByte 9) (onWire .addressedWrite)).block.wire.requestBytes = [9] := by decide +kernel

theorem test_wire_nak :
    (after (.readByteAcknowledge false) (onWire .addressedRead)).block.wire.sending = none := by decide +kernel

theorem test_expiry :
    (after .stretchLimitExpiry (onWire .stretching)).block.wire.state = .addressedRead := by decide +kernel

theorem test_release_once :
    after (.release .p0) (after (.release .p0) ready) = after (.release .p0) ready := by decide +kernel

/-! ## Witnesses: the hypotheses of each statement can be met, clause by clause -/

theorem witness_StepRunsTheFrontCommand :
    ({ ready with pending := [.engineGrant, .engineOpStart] } : State).pending = .engineGrant :: [.engineOpStart] := rfl

theorem witness_EmptyQueueLetsOneMillisecondPass :
    inReset.pending = [] ∧ inReset.block.inReset = true ∧ ready.pending = [] ∧ ready.block.inReset = false := by
  decide +kernel

theorem witness_NothingHappensInReset : inReset.block.inReset = true ∧ isReset .engineGrant = false := by decide +kernel

theorem witness_FewCommandsChangeTheArray :
    (∃ t, exec .engineGrant ready = .next t) ∧ changesArray .engineGrant = false := ⟨⟨_, rfl⟩, rfl⟩

theorem witness_RequestsLeaveTheStore :
    (∃ t, exec (command .p0 7 .identify) ready = .next t) ∧ (∃ t, exec (command .p0 7 .reclaim) ready = .next t) ∧
      (∃ t, exec (command .p0 7 (.get 1 0 0)) ready = .next t) := ⟨⟨_, rfl⟩, ⟨_, rfl⟩, ⟨_, rfl⟩⟩

theorem witness_SlotAndMountGateRequests :
    ((queued (putOp 1) ready).block.inReset = false ∧
        slotWorking ((queued (putOp 1) ready).block.ports.get .p0).slot = true) ∧
      List.replicate 1046 (0 : Byte) ≠ [] ∧ (List.replicate 1046 (0 : Byte)).length ≤ 1046 ∧
      (Request.storeInfo ≠ .identify ∧ canTake State.reset .p0 ∧ State.reset.block.storeState = .mounting) := by
  unfold canTake; decide +kernel

theorem witness_BadFramesAreAnsweredInOrder :
    (canTake ready .p0 ∧ mounted ready) ∧
      ([0x01] : List Byte).length < 6 ∧ ([0x01, 0x07, 0x00, 0x00, 0x77, 0xE4, 0x00] : List Byte).length ≠ 6 + 0 ∧
      crc16 [0x01, 0x07, 0x00, 0x00] ≠ word16 0x77 0xE5 ∧ crc16 [0x55, 0x07, 0x00, 0x00] = word16 0xC8 0x2E ∧
      crc16 [0x11, 0x07, 0x00, 0x00] = word16 0x6C 0x43 ∧ Decode.parse 0x11 [] = none ∧
      (canTake State.reset .p0 ∧ State.reset.block.storeState = .mounting ∧ (0x11 : Byte) ≠ 0x01) ∧
      Decode.parse 0x01 [0x00] = none := by
  unfold canTake mounted; decide +kernel

theorem witness_EncodedRequestsDecode :
    Request.wf .identify = true ∧ Request.wf (.put 1 (some 0) (some ⟨7, 7, true⟩) (List.replicate 1028 0)) = true := by
  decide +kernel

theorem witness_FramesActAsTheirRequests : Request.wf (.list 0xFFFF 255) = true := by decide +kernel

theorem witness_IdentifyAnswersTheDescription : canTake State.reset .p2 ∧ canTake ready .p0 := by
  unfold canTake; decide +kernel

/-- A response in the slot does not keep a request out. -/
def answeredSlot : State := onPort ready .p1 fun q => { q with slot := .answered [1, 2, 3] }

theorem witness_StoreInfoAnswersTheFields :
    (canTake ready .p0 ∧ mounted ready) ∧ (canTake answeredSlot .p1 ∧ mounted answeredSlot) := by
  unfold canTake mounted; decide +kernel

theorem witness_ConfigureSetsThreeValues :
    (canTake ready .p2 ∧ mounted ready) ∧ ((1 : Byte) = 0 ∨ (1 : Byte) = 1) ∧ ((2 : Byte) ≠ 0 ∧ (2 : Byte) ≠ 1) := by
  unfold canTake mounted; decide +kernel

theorem witness_EventsCopiesThenClears : canTake answeredSlot .p1 ∧ mounted answeredSlot := by
  unfold canTake mounted; decide +kernel

def inStore (st : StoreState) (s : State) : State := onBlock s fun b => { b with storeState := st }

theorem witness_StatAnswersFromTheDirectory :
    (canTake (inStore .formatting stocked) .p0 ∧ (inStore .formatting stocked).block.storeState = .formatting) ∧
      (canTake stocked .p0 ∧ readable stocked) ∧ isKey 0x0000 = false ∧ isKey 0xFF04 = false ∧
      (isKey 0x0001 = true ∧ presentSlot 0x0001 stocked.block.dir = none) ∧
      (isKey 0x0A10 = true ∧ presentSlot 0x0A10 stocked.block.dir = some record) := by
  unfold canTake readable; decide +kernel

theorem witness_ListAnswersTheWalk :
    (canTake (inStore .formatting stocked) .p0 ∧ (inStore .formatting stocked).block.storeState = .formatting) ∧
      (canTake stocked .p0 ∧ readable stocked) ∧ (0 : Byte).toNat < 1 ∧ 32 < (33 : Byte).toNat ∧
      1 ≤ (1 : Byte).toNat ∧ (32 : Byte).toNat ≤ 32 := by
  unfold canTake readable; decide +kernel

/-- The store with its record in another form. -/
def withRecord (d : DirSlot) : State := onBlock stocked fun b => { b with dir := [d] }

theorem witness_GetAnswersWithoutTheArray :
    (canTake (inStore .formatting stocked) .p0 ∧ (inStore .formatting stocked).block.storeState = .formatting) ∧
      (canTake stocked .p0 ∧ readable stocked) ∧ isKey 0xFF04 = false ∧
      (isKey 0xFEFF = true ∧ presentSlot 0xFEFF stocked.block.dir = none) ∧
      (presentSlot 0x0A10 (withRecord { record with readSet := 6 }).block.dir = some { record with readSet := 6 } ∧
        mayRead .p0 { record with readSet := 6 } = false) ∧
      (presentSlot 0x0A10 (withRecord { record with state := .damaged }).block.dir = some { record with state := .damaged } ∧
        mayRead .p0 { record with state := .damaged } = true) ∧
      (mayRead .p0 record = true ∧ record.state = .live ∧ record.length < (17 : BitVec 16).toNat) := by
  unfold canTake readable; decide +kernel

theorem witness_GetCreatesARead :
    (canTake (erasing 15) .p0 ∧ readable (erasing 15)) ∧ isKey 0x0A10 = true ∧
      presentSlot 0x0A10 (erasing 15).block.dir = some record ∧ record.state = .live ∧ mayRead .p0 record = true ∧
      (16 : BitVec 16).toNat ≤ record.length := by
  unfold canTake readable; decide +kernel

/-- A store whose bank 0 has these reads. -/
def withReads (current : Option Read) (queue : List Read) : State :=
  onBlock ready fun b => { b with banks := { b.banks with b0 := { current := current, queue := queue } } }

theorem witness_ReadStartTakesTheOldest :
    (ready.block.inReset = false ∧ (ready.block.banks.get .b0).queue = []) ∧
      ((withReads (some entryRead) [entryRead]).block.banks.get .b0).current ≠ none ∧
      occupied (erasing 0).block.engine = some .b0 ∧
      (((withReads none [entryRead]).block.banks.get .b0).queue = entryRead :: [] ∧
        ((withReads none [entryRead]).block.banks.get .b0).current = none ∧
        occupied (withReads none [entryRead]).block.engine ≠ some .b0 ∧
        ({ entryRead with offset := 4072 } : Read).offset + footprint entryRead.length ≤ 4096 ∧
        4096 < ({ entryRead with offset := 4073 } : Read).offset + footprint entryRead.length) := by decide +kernel

theorem witness_GoodReadAnswersTheGet :
    let s := reading entryCells [entryRead]
    s.block.inReset = false ∧ (s.block.banks.get .b0).current = some entryRead ∧
      readCheck entryRead (readBytes s.array entryRead) = true ∧ (s.block.ports.get .p1).slot = .working 7 .read ∧
      entryRead.orphan = false ∧ Port.p0 ≠ entryRead.port ∧ s.block.holder = .free := by decide +kernel

/-- The read finds damage, for port 1 that waits and for a port released since; ports 0 and 2 watch the key. -/
theorem witness_DamagedReadMarksTheSlot :
    let s := onPort (reading [] []) .p2 fun q => { q with watches := [0x0A10] }
    let released := after (.release .p1) s
    (s.block.inReset = false ∧ (s.block.banks.get .b0).current = some entryRead ∧
        readCheck entryRead (readBytes s.array entryRead) = false ∧ (s.block.ports.get .p1).slot = .working 7 .read ∧
        entryRead.orphan = false ∧ mounted s ∧ dirSorted s.block.dir = true ∧ s.block.holder = .free) ∧
      ((released.block.banks.get .b0).current = some { entryRead with orphan := true } ∧ mounted released) ∧
      (dirFind entryRead.key s.block.dir = some { record with length := 2 } ∧ record.state = .live ∧
        record.seq = entryRead.seq ∧ record.sector = entryRead.sector ∧ record.offset = entryRead.offset ∧
        mayRead .p2 record = true ∧ entryRead.key ∈ (s.block.ports.get .p2).watches ∧
        entryRead.key ∉ (s.block.ports.get .p0).watches) := by
  unfold mounted; decide +kernel

/-- Eight staged operations of 128 bytes each for keys 1 to 8. -/
def eightOps : List WriteOp := (List.range 8).map fun n => { putOp 128 with key := BitVec.ofNat 16 (n + 1) }

def opened (ops : List WriteOp) : State := onPort ready .p0 fun q => { q with batch := .opened ops }

theorem witness_OpenBatchStagesWrites :
    (canTake (opened eightOps) .p0 ∧ mounted (opened eightOps) ∧
        ((opened eightOps).block.ports.get .p0).batch = .opened eightOps) ∧
      isKey ({ putOp 0 with key := 0xFFFF } : WriteOp).key = false ∧ 1024 < opBytes (putOp 1025) ∧
      (isKey (putOp 1024).key = true ∧ opBytes (putOp 1024) ≤ 1024) ∧
      8 < (eightOps.filter (fun o => o.key != (putOp 1).key) ++ [putOp 1]).length ∧
      (let op : WriteOp := { putOp 1024 with key := 8 };
        (eightOps.filter (fun o => o.key != op.key) ++ [op]).length ≤ 8 ∧
          ((eightOps.filter (fun o => o.key != op.key) ++ [op]).map opBytes).sum ≤ 2048) ∧
      2048 < (([putOp 1024, { putOp 1024 with key := 6 }, ({ putOp 1 with key := 5 } : WriteOp)]).map opBytes).sum := by
  unfold canTake mounted; decide +kernel

/-- Port 1's slot is EMPTY while its detached job runs. -/
def detachedJob : State :=
  onPort ready .p1 fun q => { q with job := some { jobOf1 (putOp 1) .running with detached := true } }

theorem witness_SingleWritesCreateAJob :
    (canTake ready .p0 ∧ mounted ready ∧ (ready.block.ports.get .p0).batch = .closed) ∧ 1024 < opBytes (putOp 1025) ∧
      opBytes (putOp 1024) ≤ 1024 ∧ (mounted (inStore .readOnly ready) ∧ (inStore .readOnly ready).block.storeState ≠ .ready) ∧
      (ready.block.storeState = .ready ∧ (ready.block.ports.get .p0).job = none) ∧
      (canTake detachedJob .p1 ∧ mounted detachedJob ∧ (detachedJob.block.ports.get .p1).batch = .closed ∧
        (detachedJob.block.ports.get .p1).job ≠ none) := by
  unfold canTake mounted; decide +kernel

theorem witness_CommitActsByTheContext :
    (canTake ready .p0 ∧ mounted ready ∧ (ready.block.ports.get .p0).batch = .closed) ∧
      (canTake (opened []) .p0 ∧ mounted (opened []) ∧ ((opened []).block.ports.get .p0).batch = .opened []) ∧
      (mounted (inStore .unformatted (opened [])) ∧ (inStore .unformatted (opened [])).block.storeState ≠ .ready) ∧
      (canTake (opened eightOps) .p0 ∧ eightOps ≠ [] ∧ ((opened eightOps).block.ports.get .p0).job = none) ∧
      (let s := onPort detachedJob .p1 fun q => { q with batch := .opened eightOps };
        canTake s .p1 ∧ mounted s ∧ (s.block.ports.get .p1).batch = .opened eightOps ∧ (s.block.ports.get .p1).job ≠ none) := by
  unfold canTake mounted; decide +kernel

theorem witness_BeginAndAbandonMoveTheContext :
    (canTake ready .p0 ∧ mounted ready ∧ (ready.block.ports.get .p0).batch = .closed) ∧
      (canTake (opened eightOps) .p0 ∧ mounted (opened eightOps) ∧
        ((opened eightOps).block.ports.get .p0).batch = .opened eightOps) := by
  unfold canTake mounted; decide +kernel

theorem witness_FormatCreatesAJob :
    (canTake ready .p1 ∧ mounted ready ∧ ready.block.admin ≠ some .p1) ∧
      (canTake ready .p0 ∧ ready.block.admin = some .p0 ∧ (ready.block.ports.get .p0).job = none ∧
        ready.block.storeState ≠ .formatting) ∧
      (let s := onPort ready .p0 fun q => { q with job := some (jobOf1 (putOp 1) .running) };
        canTake s .p0 ∧ mounted s ∧ s.block.admin = some .p0 ∧ (s.block.ports.get .p0).job ≠ none) := by
  unfold canTake mounted; decide +kernel

def watching (keys : List Key) (s : State) : State := onPort s .p0 fun q => { q with watches := keys }

theorem witness_WatchAddsAKey :
    (canTake (watching [1, 2, 3, 4, 5, 6, 7, 8] stocked) .p0 ∧ mounted (watching [1, 2, 3, 4, 5, 6, 7, 8] stocked)) ∧
      isKey 0xFFFF = false ∧ isKey 0xFF03 = true ∧
      (presentSlot 0x0A10 (withRecord { record with readSet := 6 }).block.dir = some { record with readSet := 6 } ∧
        mayRead .p0 { record with readSet := 6 } = false) ∧
      (presentSlot 1 stocked.block.dir = none ∧ (1 : Key) ∈ ([1, 2, 3, 4, 5, 6, 7, 8] : List Key) ∧
        (9 : Key) ∉ ([1, 2, 3, 4, 5, 6, 7, 8] : List Key) ∧ 8 ≤ ([1, 2, 3, 4, 5, 6, 7, 8] : List Key).length ∧
        ([1, 2, 3, 4, 5, 6, 7] : List Key).length < 8) := by
  unfold canTake mounted; decide +kernel

theorem witness_UnwatchRemovesAKey :
    (canTake (watching [1] ready) .p0 ∧ mounted (watching [1] ready)) ∧ isKey 0 = false ∧
      (isKey 2 = true ∧ (2 : Key) ∉ ((watching [1] ready).block.ports.get .p0).watches) ∧
      (isKey 1 = true ∧ (1 : Key) ∈ ((watching [1] ready).block.ports.get .p0).watches) := by
  unfold canTake mounted; decide +kernel

theorem witness_NotesReturnsTheOldest :
    (canTake ready .p0 ∧ mounted ready) ∧ (0 : Byte).toNat < 1 ∧ 16 < (17 : Byte).toNat ∧ 1 ≤ (1 : Byte).toNat ∧
      (16 : Byte).toNat ≤ 16 := by
  unfold canTake mounted; decide +kernel

/-- n notes for keys 1 to n. -/
def someNotes (n : Nat) : List Note :=
  (List.range n).map fun k => { key := BitVec.ofNat 16 (k + 1), seq := 5, kind := .deleted, byPort := none, merged := 255 }

theorem witness_PostingFoldsAppendsOrDrops :
    (∃ old ∈ someNotes 16, old.key = 16) ∧ ((∀ old ∈ someNotes 15, old.key ≠ 16) ∧ (someNotes 15).length < 16) ∧
      ((∀ old ∈ someNotes 16, old.key ≠ 17) ∧ 16 ≤ (someNotes 16).length) := by decide +kernel

theorem witness_ReclaimAnswersByTheCycle :
    (canTake short .p0 ∧ mounted short ∧ short.block.storeState = .ready ∧ short.block.cycle = .idle ∧
        reclaimable short.block 20) ∧
      (canTake ready .p0 ∧ mounted ready ∧ ready.block.storeState = .ready ∧ ready.block.cycle = .idle ∧
        ∀ x, ¬reclaimable ready.block x) ∧
      (canTake (erasing 0) .p0 ∧ (erasing 0).block.storeState = .ready ∧ (erasing 0).block.cycle ≠ .idle) ∧
      (canTake (inStore .readOnly ready) .p0 ∧ mounted (inStore .readOnly ready) ∧
        (inStore .readOnly ready).block.storeState ≠ .ready) := by
  unfold canTake mounted reclaimable; decide +kernel

/-- A threshold of 1 with no free byte, and of 0. -/
theorem witness_SpaceLowFollowsTheFreeBytes :
    (ready.block.storeState ≠ .mounting ∧ ready.block.storeState ≠ .formatting) ∧
      (freeBytes ready.block < ready.block.policy.lowSpace ∧ ready.block.spaceLow = false) ∧
      ({ ready.block with policy := { ready.block.policy with lowSpace := 0 } } : Block).policy.lowSpace = 0 := by
  decide +kernel

/-- Reclaim asks while port 1's job waits for space. -/
def contended : State :=
  onBlock (onPort (queued (putOp 1) short) .p1 fun q => { q with job := some (jobOf1 (putOp 1) .waitSpace) }) fun b =>
    { b with reclaimFlag := true, cycle := .marking 20 }

theorem witness_GrantFollowsTheRing :
    (ready.block.inReset = false ∧ flagUp ready.block .reclaim = false ∧ flagUp ready.block (.job .p0) = false ∧
        flagUp ready.block (.job .p1) = false ∧ flagUp ready.block (.job .p2) = false) ∧
      (State.reset.block.inReset = false ∧ State.reset.block.holder ≠ .free) ∧
      (contended.block.inReset = false ∧ contended.block.holder = .free ∧ flagUp contended.block (.job .p0) = true ∧
        contended.block.reclaimFlag = true ∧
        ((contended.block.ports.get .p1).job.map (·.state)) = some .waitSpace) ∧
      ((queued (putOp 1) short).block.reclaimFlag = false ∧ flagUp (queued (putOp 1) short).block (.job .p0) = true) := by
  decide +kernel

theorem witness_RefusedTakeChangesNothing :
    let op := { putOp 24 with expected := some 499 }
    let s := queued op spaced
    s.block.inReset = false ∧ s.block.holder = .free ∧ grantee s.block = some (.job .p0) ∧
      (s.block.ports.get .p0).job = some (jobOf1 op .queued) ∧ (s.block.ports.get .p0).slot = .working 7 .job ∧
      takeChecks s.block .p0 [op] = .refuse .conflict 0 := by decide +kernel

theorem witness_TakeStartsASinglePut :
    let op := { putOp 1024 with key := 0xFEFF }
    let s := queued op spaced
    s.block.inReset = false ∧ s.block.holder = .free ∧ grantee s.block = some (.job .p0) ∧
      (s.block.ports.get .p0).job = some (jobOf1 op .queued) ∧ isUserKey 0xFEFF = true ∧
      presentSlot 0xFEFF s.block.dir = none ∧ takeChecks s.block .p0 [op] = .run ∧ head s.block = some (30, 1200) ∧
      footprint 1024 ≤ 4096 - 1200 ∧ s.block.wire.state ≠ .stretching := by decide +kernel

/-- A mount whose first operation is another one. -/
def issuing (op : EngineOp) : State := onBlock State.reset fun b => { b with issued := some op }

theorem witness_IssuedOperationStartsWhenClear :
    (State.reset.block.inReset = false ∧ State.reset.block.issued = some firstMountRead ∧
        State.reset.block.engine = .idle ∧ (State.reset.block.banks.get .b0).current = none ∧
        (State.reset.block.banks.get .b0).queue = [] ∧ runInSector firstMountRead = true) ∧
      ((issuing { kind := .erase, sector := 63, offset := 0 }).block.issued =
          some { kind := .erase, sector := 63, offset := 0 } ∧
        pinCount (issuing { kind := .erase, sector := 63, offset := 0 }).block 63 = 0) ∧
      runInSector { kind := .program [0, 0], sector := 5, offset := 4095 } = false ∧
      (after .engineOpStart State.reset).block.engine ≠ .idle := by decide +kernel

theorem witness_ProgramAndsTheRun :
    let op : EngineOp := { kind := .program [0x00], sector := 30, offset := 1214 }
    completing.block.inReset = false ∧ Memory.wf completing.array = true ∧
      completing.block.engine = .programming op 0 ∧ op.offset + 1 ≤ 4096 := by decide +kernel

theorem witness_EraseSetsTheSector :
    (erasing 0).block.inReset = false ∧ Memory.wf (erasing 0).array = true ∧
      (erasing 0).block.engine = .erasing { kind := .erase, sector := 17, offset := 0 } 12 0 := by decide +kernel

/-- A DELETE of key 0A10h. -/
def deleteOp : WriteOp := { key := 0x0A10, expected := none, kind := .delete }

/-- A PUT of the policy record FF00h: trigger 4, threshold 4096 (R167). -/
def policyOp : WriteOp := { key := 0xFF00, expected := none, kind := .put none [0x04, 0x00, 0x00, 0x10, 0x00] }

/-- A PUT of an absent key, readable by port 1 and writable by nobody it names. -/
def creatingOp : WriteOp :=
  { key := 5, expected := none, kind := .put (some { readSet := 2, writeSet := 0, writeOnce := true }) [0xAA] }

/-- For a PUT of a present and of an absent key, of a system key, and for a DELETE. -/
theorem witness_CompleteMarkCommitsASingleWrite :
    ∀ op ∈ [putOp 24, creatingOp, policyOp, deleteOp],
      let s := completingOf op
      let j := { jobOf1 op .running with attempt := 1, seq := some 521 }
      let img : EntryImage := { header := [], body := List.replicate 28 0 }
      s.block.inReset = false ∧
        s.block.engine = .programming { kind := .program [0x00], sector := 30, offset := 1200 + 14 } 0 ∧
        Memory.wf s.array = true ∧ dirSorted s.block.dir = true ∧
        s.block.holder = .job .p0 (.place (.member 0) img (.complete 30 1200)) ∧ (s.block.ports.get .p0).job = some j ∧
        j.ops = [op] ∧ (op.kind = .delete → presentSlot op.key s.block.dir ≠ none) ∧ j.seq = some 521 ∧
        j.detached = false ∧ j.locs = [] ∧ j.batch = false ∧ (s.block.ports.get .p0).slot = .working 7 .job := by
  decide +kernel

/-- The tombstone keeps owner and sets, the owner's usage loses the 16 bytes, and port 2 gets DELETED (R14, R18, R135); the policy record
is charged to nobody and in force (R6, R167, R170); the owner joins both supplied sets (R2, R3). -/
theorem test_single_writes_complete :
    let t := fun op => (after (.programComplete []) (completingOf op)).block
    ((t deleteOp).dir = [{ record with state := .tombstone, offset := 1200, length := 0, seq := 521 }] ∧
        (t deleteOp).usage.p0 = 0 ∧
        (t deleteOp).ports.p2.notes = [{ key := 0x0A10, seq := 521, kind := .deleted, byPort := some .p0, merged := 0 }]) ∧
      ((t policyOp).policy.trigger = 4 ∧ (t policyOp).policy.lowSpace = 4096 ∧ (t policyOp).usage.p0 = 16 ∧
        (dirFind 0xFF00 (t policyOp).dir).map (·.owner) = some none) ∧
      ((dirFind 5 (t creatingOp).dir).map fun d => (d.owner, d.readSet, d.writeSet, d.writeOnce)) =
        some (some .p0, 3, 1, true) := by decide +kernel

/-- Port 0's batch of a PUT and a DELETE, both members programmed, with a mark at this offset of sector 30 in progress for this work. -/
def batching (o : Nat) (w : JobWork) : State :=
  onBlock (onPort spaced .p0 fun q =>
      { q with
          slot := .working 7 .job
          batch := .committing
          job :=
            some
              { ops := [{ putOp 24 with key := 5 }, { key := 0x0A10, expected := none, kind := .delete }], batch := true
                format := false, state := .running, attempt := 1, seq := some 521, detached := false
                locs := [⟨30, 1200⟩, ⟨30, 1244⟩] } }) fun b =>
    { b with
        storeSeq := 521
        engine := .programming { kind := .program [0x00], sector := 30, offset := o } 0
        holder := .job .p0 w }

theorem witness_EndMarkerCommitsTheBatch :
    let img : EntryImage := { header := [], body := [0, 0, 0, 0] }
    let s := batching (1264 + 14) (.place .endMarker img (.complete 30 1264))
    let t := batching 1259 (.settle 1)
    (s.block.inReset = false ∧ Memory.wf s.array = true ∧ dirSorted s.block.dir = true ∧
        ((s.block.ports.get .p0).job.map fun j =>
            (decide (2 ≤ j.ops.length ∧ j.ops.length ≤ 8 ∧ j.locs.length = j.ops.length) &&
              decide (j.ops.map (·.key)).Nodup && j.batch && !j.detached, j.locs[0]?, j.seq)) =
          some (true, some ⟨30, 1200⟩, some 521) ∧
        (s.block.ports.get .p0).slot = .working 7 .job ∧
        s.block.engine = .programming { kind := .program [0x00], sector := 30, offset := 1278 } 0 ∧
        s.block.holder = .job .p0 (.place .endMarker img (.complete 30 (1278 - 14)))) ∧
      (t.block.holder = .job .p0 (.settle (2 - 1)) ∧
        t.block.engine = .programming { kind := .program [0x00], sector := 30, offset := 1259 } 0 ∧
        presentSlot 0x0A10 t.block.dir = some record) := by decide +kernel

/-- The commit of that batch: key 5 LIVE at its member, key 0A10h a TOMBSTONE (R14, R35). -/
theorem test_batch_completes :
    ((after (.programComplete []) (batching 1259 (.settle 1))).block.dir.map fun d => (d.key, d.state, d.offset)) =
      [(5, .live, 1200), (0x0A10, .tombstone, 1244)] := by decide +kernel

/-- The same job in this attempt, its sequence this one, with only the first n sectors ERASED. -/
def failing (attempt : Nat) (seq : Seq) (n : Nat) (o : Nat) (w : JobWork) : State :=
  onBlock (onPort (batching o w) .p0 fun q => { q with job := q.job.map fun j => { j with attempt := attempt } }) fun b =>
    { b with
        storeSeq := seq
        sectors := Vector.ofFn fun x =>
          if x = 30 then rowIn .active (some 1264)
          else if x.val < n then { rowIn .erased none with openSeq := none } else rowIn .retired none }

theorem witness_FailedAttemptsEndWithoutEffect :
    let img : EntryImage := { header := [], body := [0, 0, 0, 0] }
    let s := failing 1 521 9 1278 (.place .endMarker img (.complete 30 1264))
    let close := fun attempt seq n => failing attempt seq n 19 (.failClose 30)
    (s.block.inReset = false ∧ Memory.wf s.array = true ∧ s.block.storeState = .ready ∧
        ((s.block.ports.get .p0).job.map (·.detached)) = some false ∧ (s.block.ports.get .p0).slot = .working 7 .job ∧
        s.block.engine = .programming { kind := .program [0x00], sector := 30, offset := 1278 } 0 ∧
        beforeCommit (.place .endMarker img (.complete 30 1264)) = true ∧ head s.block = some (30, 1264)) ∧
      ((row (close 1 521 9).block 30).state = .active ∧
        (∀ z, (row (close 1 521 9).block z).state = .active → z = 30) ∧
        (close 1 521 9).block.holder = .job .p0 (.failClose 30)) ∧
      (2 ≤ erasedCount (close 2 521 2).block ∧ ¬0xFFFFFF00 ≤ (0xFFFFFEFE : Seq).toNat + 1) ∧
      (0xFFFFFF00 ≤ (close 2 0xFFFFFEFF 2).block.storeSeq.toNat + 1 ∧ erasedCount (close 3 521 1).block = 1) ∧
      (erasedCount (close 2 521 1).block < 2 ∧ erasedCount (close 3 521 0).block = 0) ∧
      (failing 3 521 0 18 (.successor 30 true true .media)).block.holder = .job .p0 (.successor 30 true true .media) := by
  decide +kernel

/-- After a third failed attempt with one sector ERASED, the store takes that sector as the successor, with its count
plus 1 in the header (R67, R69). -/
theorem test_successor_opens :
    let s := (failing 3 521 1 19 (.failClose 30)).block
    let t := (after (.programTimeout []) (failing 3 521 1 19 (.failClose 30))).block
    t.holder = .job .p0 (.successor 0 false true .media) ∧
      t.issued =
        some { kind := .program (sectorHeader s.generation (countOf s 0 + 1) 521), sector := 0, offset := 0 } ∧ t.retryCount = 1 ∧ t.ports.p2.sticky &&& 0x0080 = 0x0080 := by
  decide +kernel

theorem witness_EraseStepEndsByItsVerify :
    (erasing 16).block.inReset = false ∧
      (erasing 16).block.engine = .erasing { kind := .erase, sector := 17, offset := 0 } 12 16 ∧
      (erasing 16).block.holder = .reclaim (.erase 17) ∧ mounted (erasing 16) := by
  unfold mounted; decide +kernel

theorem witness_MountReadsTheHeadersInOrder :
    mounting.block.inReset = false ∧
      mounting.block.engine = .programming { kind := .stepRead 32, sector := 0, offset := 0 } 0 ∧
      mounting.block.holder = .mount (.header 0 []) ∧ (1 : Sector).val = (0 : Sector).val + 1 ∧
      classifyHeader (readRun mounting.array 0 0 32) = some (.valid 1 5 9 true false false) ∧
      mounting.block.wire.state ≠ .stretching := by decide +kernel

theorem witness_ResetAssertStopsThePart :
    (Memory.wf ready.array = true ∧ ready.block.engine = .idle) ∧
      completing.block.engine = .programming { kind := .program [0x00], sector := 30, offset := 1214 } 0 ∧
      (Memory.wf mounting.array = true ∧
        mounting.block.engine = .programming { kind := .stepRead 32, sector := 0, offset := 0 } 0) ∧
      (erasing 0).block.engine = .erasing { kind := .erase, sector := 17, offset := 0 } 12 0 := by decide +kernel

theorem witness_ResetEndStartsTheMount : inReset.block.inReset = true := by decide +kernel

theorem witness_ReleaseClearsThePort :
    (ready.block.inReset = false ∧ (ready.block.ports.get .p0).releaseEnable = true ∧
        (ready.block.ports.get .p0).releaseSpent = false) ∧
      ((after (.release .p0) ready).block.ports.get .p0).releaseSpent = true ∧
      ((after (.configure .p0 7 0 0 0) ready).block.ports.get .p0).releaseEnable = false := by decide +kernel

theorem witness_SelectFallAndByteZeroBeginAFrame :
    (ready.block.inReset = false ∧ (ready.block.select.get .s0).state = .idle) ∧
      ((inFrame .poll []).block.select.get .s0).state ≠ .idle ∧
      (let s := after (.selectFall .s1 false) ready;
        s.block.inReset = false ∧ (s.block.select.get .s1).state = .frame ∧
          (s.block.select.get .s1).bytesComplete = 0) := by decide +kernel

theorem witness_LaterBytesActByTheType :
    (let f := (inFrame .request (List.replicate 1046 0)).block.select.get .s0;
      f.state = .frame ∧ f.bytesComplete ≠ 0 ∧ f.frameType = .request ∧ 1046 ≤ f.requestBytes.length) ∧
      ((inFrame .request (List.replicate 1045 0)).block.select.get .s0).requestBytes.length < 1046 ∧
      ((inFrame .poll []).block.select.get .s0).frameType = .poll ∧
      ((inFrame .unknown []).block.select.get .s0).frameType = .unknown ∧
      (((inFrame .fetch []).block.select.get .s0).frameType = .fetch ∧
        ((inFrame .fetch []).block.select.get .s0).showedAnswered = false) ∧
      (let f := fetching.block.select.get .s0;
        f.state = .frame ∧ f.bytesComplete ≠ 0 ∧ f.frameType = .fetch ∧ f.showedAnswered = true ∧
          (fetching.block.ports.get .p0).slot = .answered [1, 2, 3]) := by decide +kernel

theorem witness_SelectRiseEndsFramesByType :
    (let s := inFrame .request [1];
      s.block.inReset = false ∧ (s.block.select.get .s0).state = .frame ∧ (s.block.select.get .s0).frameType = .request ∧
        (s.block.select.get .s0).overLength = false ∧ (s.block.select.get .s0).requestBytes ≠ []) ∧
      ((inFrame .request []).block.select.get .s0).requestBytes = [] ∧
      ((after (.selectByteComplete .s0 0) (inFrame .request (List.replicate 1046 0))).block.select.get .s0).overLength = true ∧
      ((inFrame .none []).block.select.get .s0).frameType = .none ∧
      ((inFrame .unknown []).block.select.get .s0).frameType = .unknown ∧
      ((after (.resetEnd 0 0 false false) inReset).block.select.get .s0).state = .discarding := by decide +kernel

theorem witness_FetchFrameReleasesWhenWhole :
    let f := fetching.block.select.get .s0
    fetching.block.inReset = false ∧ f.state = .frame ∧ f.frameType = .fetch ∧
      (fetching.block.ports.get .p0).slot = .answered [1, 2, 3] ∧ f.showedAnswered = true ∧
      (fetching.block.ports.get .p0).fetchProgress ≠ 3 ∧
      ((onPort fetching .p0 fun q => { q with fetchProgress := 3 }).block.ports.get .p0).fetchProgress = 3 ∧
      slotAnswered ((inFrame .fetch []).block.ports.get .p0).slot = false ∧
      slotAnswered ((onPort (inFrame .fetch []) .p0 fun q => { q with slot := .working 7 .job }).block.ports.get .p0).slot =
        false := by
  decide +kernel

theorem witness_BusConditionsEndTransactions :
    ((onWire .stretching).block.inReset = false ∧ (onWire .stretching).block.wire.state = .stretching) ∧
      (onWire .ignoring).block.wire.state = .ignoring ∧
      ((onWire .addressedWrite).block.wire.state = .addressedWrite ∧
        (onWire .addressedWrite).block.wire.overLength = false ∧ (onWire .addressedWrite).block.wire.requestBytes = [] ∧
        (after (.twoWireRequestByte 9) (onWire .addressedWrite)).block.wire.requestBytes ≠ []) ∧
      ((onWire .addressedRead).block.wire.state = .addressedRead ∧
        ((onWire .addressedRead).block.ports.get .p2).slot = .answered [1, 2, 3] ∧
        (onWire .addressedRead).block.wire.nakSeen = false ∧
        (after (.readByteAcknowledge false) (onWire .addressedRead)).block.wire.nakSeen = true) ∧
      (let s := onPort (onWire .addressedRead) .p2 fun q => { q with slot := .empty };
        s.block.wire.state = .addressedRead ∧ slotAnswered (s.block.ports.get .p2).slot = false) := by decide +kernel

theorem witness_AddressAndExpiryBeginTheTransfer :
    (ready.block.inReset = false ∧ ¬(ready.block.wire.state = .idle ∧ ready.block.wire.address ≠ none)) ∧
      (ready.block.wire.state ≠ .stretching ∧ (onWire .stretching).block.wire.state = .stretching) ∧
      (let s := after (.busStart false) ready;
        s.block.wire.state = .idle ∧ s.block.wire.address ≠ none ∧
          (0xB0 : Byte).toNat = 2 * (0x58 + s.block.addrStraps.toNat) ∧ slotWorking (s.block.ports.get .p2).slot = false) ∧
      (let s := onPort (after (.busStart false) ready) .p2 fun q => { q with slot := .working 7 .job, stretchLimit := 1 };
        slotWorking (s.block.ports.get .p2).slot = true ∧ (s.block.ports.get .p2).stretchLimit ≠ 0) := by decide +kernel

theorem witness_TransactionBytesCount :
    ((onWire .idle).block.inReset = false ∧ (onWire .idle).block.wire.state ≠ .addressedWrite ∧
        (onWire .idle).block.wire.state ≠ .addressedRead) ∧
      ((onWire .addressedWrite).block.wire.state = .addressedWrite ∧
        (onWire .addressedWrite).block.wire.requestBytes.length < 1046 ∧
        (onWire .addressedWrite).block.wire.overLength = false) ∧
      1046 ≤ (onBlock (onWire .addressedWrite) fun b =>
        { b with wire := { b.wire with requestBytes := List.replicate 1046 0 } }).block.wire.requestBytes.length ∧
      ((onWire .addressedRead).block.wire.state = .addressedRead ∧ (onWire .addressedRead).block.wire.nakSeen = false ∧
        (onWire .addressedRead).block.wire.showedAnswered = true ∧
        ((onWire .addressedRead).block.ports.get .p2).slot = .answered [1, 2, 3] ∧
        (onWire .addressedRead).block.wire.bytesSent = 0 ∧
        (after (.readByteAcknowledge true) (onWire .addressedRead)).block.wire.bytesSent ≠ 0) := by decide +kernel

/-- A machine whose next step has something to do. -/
def busy : State := { completing with pending := [.programComplete []] }

theorem witness_ArrayStaysCanonical : Memory.wf busy.array = true ∧ ∃ t, step busy = .next t := ⟨rfl, _, rfl⟩

theorem witness_DirectoryStaysAMap : dirSorted busy.block.dir = true ∧ ∃ t, step busy = .next t := ⟨rfl, _, rfl⟩

theorem witness_ReservedPositionsStayEmpty : portsOk busy.block = true ∧ ∃ t, step busy = .next t :=
  ⟨by decide +kernel, _, rfl⟩

theorem tables_of_busy : ∀ p, tablesOk (busy.block.ports.get p) := by
  intro p
  cases p <;>
    exact
      ⟨by decide +kernel, by decide +kernel, by decide +kernel, by decide +kernel, by decide +kernel, fun _ h => nomatch h⟩

theorem witness_TablesStayWithinLimits :
    (∀ p, tablesOk (busy.block.ports.get p)) ∧ ∃ t, step busy = .next t := ⟨tables_of_busy, _, rfl⟩

theorem usage_of_busy : usageOk busy.block := ⟨rfl, Or.inr fun p => by cases p <;> decide +kernel⟩

theorem witness_UsageMatchesTheDirectory : usageOk busy.block ∧ ∃ t, step busy = .next t := ⟨usage_of_busy, _, rfl⟩

theorem witness_ResetMeetsTheInvariants :
    inReset.block.inReset = true ∧ inReset.array = [] ∧ inReset.pending = [] := by decide +kernel

end Sys2Proof.Tests
end

section
/-! What every command leaves of the directory, of the usage counters and of the holder of the engine (R8, R10, R18). -/

namespace Sys2Proof.Machine

open Safety

/-! ## Commands that leave the records -/

/-- Directory, usage counters and holder of the engine are as they were. -/
structure RecordsStand (a b : Block) : Prop where
  dir : b.dir = a.dir
  usage : b.usage = a.usage
  holder : b.holder = a.holder

theorem RecordsStand.refl (b : Block) : RecordsStand b b := ⟨rfl, rfl, rfl⟩

theorem RecordsStand.trans {a b c : Block} (h : RecordsStand a b) (k : RecordsStand b c) : RecordsStand a c :=
  ⟨k.dir.trans h.dir, k.usage.trans h.usage, k.holder.trans h.holder⟩

theorem modPort_stands (b : Block) (p : Port) (f : PortState → PortState) : RecordsStand b (modPort b p f) := ⟨rfl, rfl, rfl⟩

theorem answer_stands (b : Block) (p : Port) (tag : Byte) (st : Status) (body : List Byte) :
    RecordsStand b (answer b p tag st body) := ⟨rfl, rfl, rfl⟩

theorem modSelect_stands (b : Block) (p : SelPort) (f : SelectFraming → SelectFraming) : RecordsStand b (modSelect b p f) :=
  ⟨rfl, rfl, rfl⟩

theorem setWire_stands (b : Block) (w : WireFraming) : RecordsStand b (setWire b w) := ⟨rfl, rfl, rfl⟩

theorem captureWire_stands (b : Block) : RecordsStand b (captureWire b) := ⟨rfl, rfl, rfl⟩

theorem endStretch_stands (b : Block) : RecordsStand b (endStretch b) := by constructor <;> simp

theorem resumeErase_stands (b : Block) : RecordsStand b (resumeErase b) := by constructor <;> simp

/-! ## Requests -/

theorem afterMount_stands (b : Block) (p : Port) (tag : Byte) {take : Block → Block} (h : RecordsStand b (take b)) :
    RecordsStand b (afterMount b p tag take) := by
  unfold afterMount
  split
  · exact answer_stands _ _ _ _ _
  · exact h

theorem whenReadable_stands (b : Block) (p : Port) (tag : Byte) {take : Block → Block} (h : RecordsStand b (take b)) :
    RecordsStand b (whenReadable b p tag take) := by
  unfold whenReadable
  split
  · exact answer_stands _ _ _ _ _
  · exact h

theorem reachSlot_stands (b : Block) (p : Port) {take : Block → Block} (h : ∀ b, RecordsStand b (take b)) :
    RecordsStand b (reachSlot b p take) := by
  unfold reachSlot
  split
  · exact ⟨rfl, rfl, rfl⟩
  · exact RecordsStand.trans (b := dropResponse b p) ⟨rfl, rfl, rfl⟩ (h _)
  · exact h b

theorem createRead_stands (b : Block) (r : Read) : RecordsStand b (createRead b r) := by
  have suspend : RecordsStand b (suspendErase b (bankOf r.sector)) := by
    unfold suspendErase
    split
    · split <;> exact ⟨rfl, rfl, rfl⟩
    all_goals exact RecordsStand.refl b
  refine suspend.trans ?_
  unfold createRead joinBank
  dsimp only
  split <;> exact ⟨rfl, rfl, rfl⟩

theorem takeConfigure_stands (p : Port) (tag : Byte) (mask : BitVec 16) (rel stretch : Byte) (b : Block) :
    RecordsStand b (takeConfigure p tag mask rel stretch b) := by
  refine afterMount_stands b p tag ?_
  split
  · exact answer_stands _ _ _ _ _
  · exact ⟨rfl, rfl, rfl⟩

theorem takeStat_stands (p : Port) (tag : Byte) (key : Key) (b : Block) : RecordsStand b (takeStat p tag key b) := by
  refine whenReadable_stands b p tag ?_
  split
  · exact answer_stands _ _ _ _ _
  · split <;> exact answer_stands _ _ _ _ _

theorem takeList_stands (p : Port) (tag : Byte) (key : Key) (n : Byte) (b : Block) :
    RecordsStand b (takeList p tag key n b) := by
  refine whenReadable_stands b p tag ?_
  split <;> exact answer_stands _ _ _ _ _

theorem takeGet_stands (p : Port) (tag : Byte) (key : Key) (offset maxLength : BitVec 16) (b : Block) :
    RecordsStand b (takeGet p tag key offset maxLength b) := by
  refine whenReadable_stands b p tag ?_
  split
  · exact answer_stands _ _ _ _ _
  · split
    · exact answer_stands _ _ _ _ _
    · exact answer_stands _ _ _ _ _
    · exact answer_stands _ _ _ _ _
    · split
      · exact answer_stands _ _ _ _ _
      · exact (modPort_stands _ _ _).trans (createRead_stands _ _)

theorem write_stands (b : Block) (p : Port) (tag : Byte) (op : WriteOp) : RecordsStand b (write b p tag op) := by
  unfold write
  split
  · unfold stage
    split
    · exact answer_stands _ _ _ _ _
    · exact ⟨rfl, rfl, rfl⟩
  · unfold single submitWrite
    split
    · exact answer_stands _ _ _ _ _
    · split
      · split <;> exact ⟨rfl, rfl, rfl⟩
      · exact answer_stands _ _ _ _ _
  · exact RecordsStand.refl b

theorem submitCommit_stands (b : Block) (p : Port) (tag : Byte) : RecordsStand b (submitCommit b p tag) := by
  unfold submitCommit
  split
  · exact answer_stands _ _ _ _ _
  · exact RecordsStand.refl b
  · split
    · split
      · exact ⟨rfl, rfl, rfl⟩
      · split
        · exact ⟨rfl, rfl, rfl⟩
        · exact ⟨rfl, rfl, rfl⟩
    · exact answer_stands _ _ _ _ _

theorem submitFormat_stands (b : Block) (p : Port) (tag : Byte) : RecordsStand b (submitFormat b p tag) := by
  unfold submitFormat
  split
  · split
    · exact ⟨rfl, rfl, rfl⟩
    · split <;> exact ⟨rfl, rfl, rfl⟩
  · exact answer_stands _ _ _ _ _

theorem takeBegin_stands (p : Port) (tag : Byte) (b : Block) : RecordsStand b (takeBegin p tag b) := by
  refine afterMount_stands b p tag ?_
  split
  · exact ⟨rfl, rfl, rfl⟩
  · exact answer_stands _ _ _ _ _
  · exact RecordsStand.refl b

theorem takeAbandon_stands (p : Port) (tag : Byte) (b : Block) : RecordsStand b (takeAbandon p tag b) := by
  refine afterMount_stands b p tag ?_
  split
  · exact ⟨rfl, rfl, rfl⟩
  · exact answer_stands _ _ _ _ _
  · exact RecordsStand.refl b

theorem answerTable_stands (b : Block) (p : Port) (tag : Byte) (r : Except Status (List Key)) :
    RecordsStand b (answerTable b p tag r) := by
  unfold answerTable
  split
  · exact ⟨rfl, rfl, rfl⟩
  · exact answer_stands _ _ _ _ _

theorem takeNotes_stands (p : Port) (tag n : Byte) (b : Block) : RecordsStand b (takeNotes p tag n b) := by
  refine afterMount_stands b p tag ?_
  split
  · exact answer_stands _ _ _ _ _
  · exact ⟨rfl, rfl, rfl⟩

theorem takeReclaim_stands (p : Port) (tag : Byte) (b : Block) : RecordsStand b (takeReclaim p tag b) := by
  refine afterMount_stands b p tag ?_
  split
  · split
    · split
      · exact ⟨rfl, rfl, rfl⟩
      · exact answer_stands _ _ _ _ _
    · exact answer_stands _ _ _ _ _
  · exact answer_stands _ _ _ _ _

/-- No request touches the records in its take (R115). -/
theorem takeRequest_stands (p : Port) (tag : Byte) (r : Request) (b : Block) : RecordsStand b (takeRequest p tag r b) := by
  unfold takeRequest
  cases r with
  | identify => exact answer_stands _ _ _ _ _
  | storeInfo =>
    refine afterMount_stands b p tag ?_
    exact answer_stands _ _ _ _ _
  | configure mask rel stretch => exact takeConfigure_stands p tag mask rel stretch b
  | events clear =>
    refine afterMount_stands b p tag ?_
    exact ⟨rfl, rfl, rfl⟩
  | get key offset maxLength => exact takeGet_stands p tag key offset maxLength b
  | stat key => exact takeStat_stands p tag key b
  | list afterKey maxCount => exact takeList_stands p tag afterKey maxCount b
  | put key expected attrs payload =>
    refine afterMount_stands b p tag ?_
    exact write_stands _ _ _ _
  | delete key expected =>
    refine afterMount_stands b p tag ?_
    exact write_stands _ _ _ _
  | beginBatch => exact takeBegin_stands p tag b
  | commit =>
    refine afterMount_stands b p tag ?_
    exact submitCommit_stands _ _ _
  | abandon => exact takeAbandon_stands p tag b
  | watch key =>
    refine afterMount_stands b p tag ?_
    exact answerTable_stands _ _ _ _
  | unwatch key =>
    refine afterMount_stands b p tag ?_
    exact answerTable_stands _ _ _ _
  | notes maxCount => exact takeNotes_stands p tag maxCount b
  | reclaim => exact takeReclaim_stands p tag b
  | format =>
    refine afterMount_stands b p tag ?_
    exact submitFormat_stands _ _ _

theorem frameEnds_stands (p : Port) (frame : List Byte) (b : Block) : RecordsStand b (frameEnds p frame b) := by
  unfold frameEnds
  split
  · exact RecordsStand.refl b
  · refine reachSlot_stands b p fun c => ?_
    unfold takeFrame
    split
    · exact answer_stands _ _ _ _ _
    · exact takeRequest_stands _ _ _ _

/-! ## Framing -/

theorem countFetched_stands (b : Block) (p : Port) (answered : Bool) : RecordsStand b (countFetched b p answered) :=
  modPort_stands _ _ _

theorem fetchEnds_stands (b : Block) (p : Port) (clean : Bool) : RecordsStand b (fetchEnds b p clean) := modPort_stands _ _ _

theorem frameByte_stands (b : Block) (p : SelPort) (sdi : Byte) : RecordsStand b (frameByte b p sdi) := by
  unfold frameByte
  split
  · exact modSelect_stands _ _ _
  · unfold laterByte
    split
    · exact modSelect_stands _ _ _
    · exact countFetched_stands _ _ _
    all_goals exact RecordsStand.refl b

theorem requestFrameOver_stands (b : Block) (p : Port) (bytes : List Byte) (bad : Bool) :
    RecordsStand b (requestFrameOver b p bytes bad) := by
  unfold requestFrameOver
  split
  · exact ⟨rfl, rfl, rfl⟩
  · exact frameEnds_stands _ _ _

theorem busCondition_stands (b : Block) (incomplete started : Bool) : RecordsStand b (busCondition b incomplete started) := by
  have ends : ∀ c : Block, RecordsStand c (transactionEnds c b.wire incomplete) := by
    intro c
    unfold transactionEnds
    split
    · exact requestFrameOver_stands _ _ _ _
    · exact fetchEnds_stands _ _ _
    all_goals exact RecordsStand.refl c
  unfold busCondition
  split
  · exact RecordsStand.refl b
  all_goals exact (setWire_stands _ _).trans (ends _)

theorem readAddressed_stands (b : Block) : RecordsStand b (readAddressed b) := by
  unfold readAddressed
  dsimp only
  split
  · exact (setWire_stands _ _).trans (setWire_stands _ _)
  · exact (setWire_stands _ _).trans (captureWire_stands _)

theorem acknowledged_stands (b : Block) (ack : Bool) : RecordsStand b (acknowledged b ack) := by
  have counted : RecordsStand b (if 0 < b.wire.bytesSent then countFetched b .p2 b.wire.showedAnswered else b) := by
    split
    · exact countFetched_stands _ _ _
    · exact RecordsStand.refl b
  unfold acknowledged
  dsimp only
  split <;> exact counted.trans (setWire_stands _ _)

/-! ## What every command keeps -/

/-- The directory stays in order (R8), and the usage counters go on counting it, but while a mount holds the engine (R10, R18). -/
structure RecordsSafe (a b : Block) : Prop where
  sorted : dirSorted a.dir = true → dirSorted b.dir = true
  usage : usageOk a → usageOk b

theorem RecordsSafe.trans {a b c : Block} (h : RecordsSafe a b) (k : RecordsSafe b c) : RecordsSafe a c :=
  ⟨k.sorted ∘ h.sorted, k.usage ∘ h.usage⟩

theorem RecordsStand.safe {a b : Block} (h : RecordsStand a b) : RecordsSafe a b := by
  refine ⟨fun k => h.dir ▸ k, fun k => ?_⟩
  unfold usageOk at k ⊢
  rwa [h.dir, h.usage, h.holder]

/-- What keeps the counters and the mount's hold of the engine is safe. -/
theorem Keeps.safe {a b : Block} (h : Keeps false a b) (hm : ∀ w, a.holder = .mount w → ∃ v, b.holder = .mount v) :
    RecordsSafe a b := by
  refine ⟨h.dir, fun ⟨sorted, counted⟩ => ⟨h.dir sorted, ?_⟩⟩
  rcases counted with ⟨w, hw⟩ | counted
  · exact .inl (hm w hw)
  · exact .inr (h.counted rfl sorted counted)

/-- An ended operation: a mount goes on holding the engine or has counted the directory; every other holder counts on. -/
theorem holderNext_safe (b : Block) (ok : Bool) (bytes : List Byte) : RecordsSafe b (holderNext b ok bytes) := by
  by_cases h : ∃ w, b.holder = .mount w
  · obtain ⟨w, hw⟩ := h
    obtain ⟨kept, runs⟩ := keeps_holderNext_mount hw ok bytes
    exact ⟨kept.dir, fun ⟨sorted, _⟩ => ⟨kept.dir sorted, runs⟩⟩
  · exact (keeps_holderNext (fun w hw => h ⟨w, hw⟩) ok bytes).safe fun w hw => absurd ⟨w, hw⟩ h

theorem opEnded_safe (b : Block) (ok : Bool) (bytes : List Byte) : RecordsSafe b (opEnded b ok bytes) :=
  (RecordsStand.safe (a := b) (b := { b with engine := .idle }) ⟨rfl, rfl, rfl⟩).trans
    ((holderNext_safe _ ok bytes).trans (endStretch_stands _).safe)

/-- Nothing is granted while a mount holds the engine (R52). -/
theorem grant_safe {b : Block} (h : b.holder = .free) (r : Requester) : RecordsSafe b (grant b r) := by
  cases r with
  | job p =>
    exact (RecordsStand.safe (a := b) (b := { b with lastGranted := .job p }) ⟨rfl, rfl, rfl⟩).trans
      ((keeps_takePort (Keeps.refl false _) p).safe fun w hw => nomatch h.symm.trans hw)
  | reclaim =>
    exact (RecordsStand.safe (a := b) (b := { b with lastGranted := .reclaim, reclaimFlag := false }) ⟨rfl, rfl, rfl⟩).trans
      ((keeps_reclaimGrant (Keeps.refl false _)).safe fun w hw => nomatch h.symm.trans hw)

theorem pinsDropped_safe (b : Block) : RecordsSafe b (pinsDropped b) := by
  refine RecordsSafe.trans ?_ (resumeErase_stands _).safe
  refine (keeps_unpinned (Keeps.refl false b)).safe fun w hw => ⟨w, ?_⟩
  have hv : (victimUnpinned b).holder = .mount w := by rw [victimUnpinned_holder]; exact hw
  rw [formatUnpinned_of_not fun q x hx => nomatch hv.symm.trans hx]
  exact hv

@[simp] theorem damageReport_holder (b : Block) (k : Key) (seq : Seq) (x : Sector) (o : Nat) :
    (damageReport b k seq x o).holder = b.holder := by
  unfold damageReport
  dsimp only
  split
  · split
    · rw [postDamage_eq]; simp
    · simp
  · simp

theorem damageReport_safe (b : Block) (k : Key) (seq : Seq) (x : Sector) (o : Nat) :
    RecordsSafe b (damageReport b k seq x o) :=
  (keeps_damageReport (Keeps.refl false b) k seq x o).safe fun w hw => ⟨w, by rw [damageReport_holder]; exact hw⟩

theorem answerRead_stands (b : Block) (r : Read) (st : Status) (body : List Byte) : RecordsStand b (answerRead b r st body) := by
  unfold answerRead
  split
  · split
    · exact RecordsStand.refl b
    · exact answer_stands _ _ _ _ _
  all_goals exact RecordsStand.refl b

theorem readOutcome_safe (b : Block) (r : Read) (bytes : List Byte) : RecordsSafe b (readOutcome b r bytes) := by
  unfold readOutcome
  split
  · exact (answerRead_stands _ _ _ _).safe
  · exact (damageReport_safe _ _ _ _ _).trans (answerRead_stands _ _ _ _).safe

theorem released_safe (b : Block) (p : Port) : RecordsSafe b (released b p) := by
  have framing : RecordsStand (modPort b p releasedPort) (releaseFraming (modPort b p releasedPort) p) := by
    cases p <;> exact ⟨rfl, rfl, rfl⟩
  have reads : ∀ c, RecordsStand c (releaseReads c p) := fun _ => ⟨rfl, rfl, rfl⟩
  exact (((modPort_stands _ _ _).trans framing).trans (reads _)).safe.trans (pinsDropped_safe _)

/-- In a part that has lost its directory nothing is counted. -/
theorem RecordsSafe.of_cleared (a : Block) {b : Block} (hd : b.dir = []) (hu : b.usage = PerPort.all 0) : RecordsSafe a b := by
  have sorted : dirSorted b.dir = true := by rw [hd]; rfl
  exact ⟨fun _ => sorted, fun _ => ⟨sorted, .inr fun p => by rw [hd, hu, PerPort.get_all]; rfl⟩⟩

theorem outsideReset_safe {s t : State} {f : Block → Block} (h : outsideReset s f = .next t)
    (hf : RecordsSafe s.block (f s.block)) : RecordsSafe s.block t.block := by
  unfold outsideReset at h
  cases h
  split
  · exact (RecordsStand.refl _).safe
  · exact hf

theorem request_safe {s t : State} {p : Port} {tag : Byte} {r : Request} (h : exec (command p tag r) s = .next t) :
    RecordsSafe s.block t.block := by
  rw [exec_command] at h
  exact outsideReset_safe h (reachSlot_stands _ p (takeRequest_stands p tag r)).safe

theorem endProgram_safe (s : State) (miss : List Byte) (inTime : Bool) :
    RecordsSafe s.block (endProgram s miss inTime).block := by
  unfold endProgram
  split
  · exact opEnded_safe _ _ _
  · exact (RecordsStand.refl _).safe

theorem endErase_safe (s : State) (residue : List (Nat × Byte)) (inTime : Bool) :
    RecordsSafe s.block (endErase s residue inTime).block := by
  unfold endErase
  split
  · exact opEnded_safe _ _ _
  · exact (RecordsStand.refl _).safe

/-- The end of an operation outside reset. -/
theorem ended_safe {s e t : State} (h : (.next (if s.block.inReset then s else e) : Out) = .next t)
    (he : RecordsSafe s.block e.block) : RecordsSafe s.block t.block := by
  cases h
  split
  · exact (RecordsStand.refl _).safe
  · exact he

theorem stepReadComplete_safe {s t : State} (h : exec .stepReadComplete s = .next t) : RecordsSafe s.block t.block := by
  unfold exec execStepReadComplete at h
  refine outsideReset_safe h ?_
  split
  · exact opEnded_safe _ _ _
  · exact (RecordsStand.refl _).safe

theorem engineGrant_safe {s t : State} (h : exec .engineGrant s = .next t) : RecordsSafe s.block t.block := by
  refine outsideReset_safe h ?_
  split
  · rename_i hf
    split
    · exact (grant_safe (by simpa using hf) _).trans (endStretch_stands _).safe
    · exact (RecordsStand.refl _).safe
  · exact (RecordsStand.refl _).safe

theorem engineOpStart_safe {s t : State} (h : exec .engineOpStart s = .next t) : RecordsSafe s.block t.block := by
  change execEngineOpStart s = .next t at h
  unfold execEngineOpStart at h
  split at h
  · split at h
    · cases h; exact (RecordsStand.refl _).safe
    · split at h
      · cases h
      · cases h; exact RecordsStand.safe ⟨rfl, rfl, rfl⟩
  · cases h; exact (RecordsStand.refl _).safe

theorem readStart_safe {k : Bank} {s t : State} (h : exec (.readStart k) s = .next t) : RecordsSafe s.block t.block := by
  change execReadStart k s = .next t at h
  unfold execReadStart at h
  dsimp only at h
  split at h
  · split at h
    · cases h; exact (RecordsStand.refl _).safe
    · split at h
      · cases h
      · cases h; exact RecordsStand.safe ⟨rfl, rfl, rfl⟩
  · cases h; exact (RecordsStand.refl _).safe

theorem readFinish_safe {k : Bank} {s t : State} (h : exec (.readFinish k) s = .next t) : RecordsSafe s.block t.block := by
  unfold exec execReadFinish at h
  refine outsideReset_safe h ?_
  dsimp only
  split
  · rename_i r _
    have finished : RecordsStand s.block
        { s.block with banks := s.block.banks.set k { s.block.banks.get k with current := none } } := ⟨rfl, rfl, rfl⟩
    exact finished.safe.trans ((readOutcome_safe _ r _).trans ((pinsDropped_safe _).trans (endStretch_stands _).safe))
  · exact (RecordsStand.refl _).safe

theorem resetEnd_safe {adm adr : BitVec 2} {h0 h1 : Bool} {s t : State} (h : exec (.resetEnd adm adr h0 h1) s = .next t) :
    RecordsSafe s.block t.block := by
  cases h
  split
  · exact RecordsSafe.of_cleared _ rfl rfl
  · exact (RecordsStand.refl _).safe

theorem release_safe {p : Port} {s t : State} (h : exec (.release p) s = .next t) : RecordsSafe s.block t.block := by
  refine outsideReset_safe h ?_
  split
  · exact released_safe _ _
  · exact (RecordsStand.refl _).safe

/-! ## The commands of the framing blocks -/

theorem selectFall_safe {p : SelPort} {clockHigh : Bool} {s t : State} (h : exec (.selectFall p clockHigh) s = .next t) :
    RecordsSafe s.block t.block := by
  unfold exec execSelectFall at h
  refine outsideReset_safe h (RecordsStand.safe ?_)
  split <;> exact ⟨rfl, rfl, rfl⟩

theorem selectByteComplete_safe {p : SelPort} {sdi : Byte} {s t : State} (h : exec (.selectByteComplete p sdi) s = .next t) :
    RecordsSafe s.block t.block := by
  unfold exec execSelectByteComplete at h
  refine outsideReset_safe h (RecordsStand.safe ?_)
  split
  · exact (frameByte_stands _ _ _).trans (modSelect_stands _ _ _)
  all_goals exact RecordsStand.refl _

theorem requestFrameSelectEnd_safe {p : SelPort} {onBoundary : Bool} {s t : State}
    (h : exec (.requestFrameSelectEnd p onBoundary) s = .next t) : RecordsSafe s.block t.block := by
  unfold exec execRequestFrameSelectEnd at h
  refine outsideReset_safe h (RecordsStand.safe ?_)
  dsimp only
  split
  · exact RecordsStand.trans (b := frameOver s.block p) ⟨rfl, rfl, rfl⟩ (requestFrameOver_stands _ _ _ _)
  · exact RecordsStand.refl _

theorem fetchFrameEnd_safe {p : SelPort} {onBoundary : Bool} {s t : State} (h : exec (.fetchFrameEnd p onBoundary) s = .next t) :
    RecordsSafe s.block t.block := by
  unfold exec execFetchFrameEnd at h
  refine outsideReset_safe h (RecordsStand.safe ?_)
  dsimp only
  split <;> exact ⟨rfl, rfl, rfl⟩

theorem otherFrameEnd_safe {p : SelPort} {onBoundary : Bool} {s t : State} (h : exec (.otherFrameEnd p onBoundary) s = .next t) :
    RecordsSafe s.block t.block := by
  unfold exec execOtherFrameEnd at h
  refine outsideReset_safe h (RecordsStand.safe ?_)
  dsimp only
  split <;> exact ⟨rfl, rfl, rfl⟩

theorem discardingEnd_safe {p : SelPort} {s t : State} (h : exec (.discardingEnd p) s = .next t) :
    RecordsSafe s.block t.block := by
  unfold exec execDiscardingEnd at h
  refine outsideReset_safe h (RecordsStand.safe ?_)
  split <;> exact ⟨rfl, rfl, rfl⟩

theorem addressByte_safe {x : Byte} {s t : State} (h : exec (.addressByte x) s = .next t) : RecordsSafe s.block t.block := by
  unfold exec execAddressByte at h
  refine outsideReset_safe h (RecordsStand.safe ?_)
  split
  · split
    · exact setWire_stands _ _
    · split
      · exact readAddressed_stands _
      · exact setWire_stands _ _
  · exact RecordsStand.refl _

theorem twoWireRequestByte_safe {x : Byte} {s t : State} (h : exec (.twoWireRequestByte x) s = .next t) :
    RecordsSafe s.block t.block := by
  unfold exec execTwoWireRequestByte at h
  refine outsideReset_safe h (RecordsStand.safe ?_)
  split <;> exact ⟨rfl, rfl, rfl⟩

theorem stretchLimitExpiry_safe {s t : State} (h : exec .stretchLimitExpiry s = .next t) : RecordsSafe s.block t.block := by
  unfold exec execStretchLimitExpiry at h
  refine outsideReset_safe h (RecordsStand.safe ?_)
  split <;> exact ⟨rfl, rfl, rfl⟩

theorem readByteAcknowledge_safe {ack : Bool} {s t : State} (h : exec (.readByteAcknowledge ack) s = .next t) :
    RecordsSafe s.block t.block := by
  unfold exec execReadByteAcknowledge at h
  refine outsideReset_safe h (RecordsStand.safe ?_)
  split
  · exact acknowledged_stands _ _
  · exact RecordsStand.refl _

/-! ## Every command, every step -/

theorem exec_safe (i : Instr) {s t : State} (h : exec i s = .next t) : RecordsSafe s.block t.block := by
  cases i with
  | identify p tag => exact request_safe (r := .identify) h
  | storeInfo p tag => exact request_safe (r := .storeInfo) h
  | configure p tag mask rel stretch => exact request_safe (r := .configure mask rel stretch) h
  | events p tag clear => exact request_safe (r := .events clear) h
  | get p tag key offset maxLength => exact request_safe (r := .get key offset maxLength) h
  | stat p tag key => exact request_safe (r := .stat key) h
  | list p tag afterKey maxCount => exact request_safe (r := .list afterKey maxCount) h
  | put p tag key expected attrs payload => exact request_safe (r := .put key expected attrs payload) h
  | delete p tag key expected => exact request_safe (r := .delete key expected) h
  | beginBatch p tag => exact request_safe (r := .beginBatch) h
  | commit p tag => exact request_safe (r := .commit) h
  | abandon p tag => exact request_safe (r := .abandon) h
  | watch p tag key => exact request_safe (r := .watch key) h
  | unwatch p tag key => exact request_safe (r := .unwatch key) h
  | notes p tag maxCount => exact request_safe (r := .notes maxCount) h
  | reclaim p tag => exact request_safe (r := .reclaim) h
  | format p tag => exact request_safe (r := .format) h
  | requestFrameEnd p bytes => exact outsideReset_safe h (frameEnds_stands p bytes _).safe
  | readStart k => exact readStart_safe h
  | readFinish k => exact readFinish_safe h
  | engineGrant => exact engineGrant_safe h
  | engineOpStart => exact engineOpStart_safe h
  | programComplete miss => exact ended_safe h (endProgram_safe s miss true)
  | programTimeout miss => exact ended_safe h (endProgram_safe s miss false)
  | eraseComplete residue => exact ended_safe h (endErase_safe s residue true)
  | eraseTimeout residue => exact ended_safe h (endErase_safe s residue false)
  | stepReadComplete => exact stepReadComplete_safe h
  | resetAssert miss residue => cases h; exact RecordsSafe.of_cleared _ rfl rfl
  | resetEnd adm adr h0 h1 => exact resetEnd_safe h
  | release p => exact release_safe h
  | selectFall p clockHigh => exact selectFall_safe h
  | requestFrameSelectEnd p onBoundary => exact requestFrameSelectEnd_safe h
  | fetchFrameEnd p onBoundary => exact fetchFrameEnd_safe h
  | otherFrameEnd p onBoundary => exact otherFrameEnd_safe h
  | discardingEnd p => exact discardingEnd_safe h
  | busStart incomplete => exact outsideReset_safe (f := fun b => busCondition b incomplete true) h (busCondition_stands _ _ _).safe
  | busStop incomplete => exact outsideReset_safe (f := fun b => busCondition b incomplete false) h (busCondition_stands _ _ _).safe
  | addressByte x => exact addressByte_safe h
  | stretchLimitExpiry => exact stretchLimitExpiry_safe h
  | selectByteComplete p sdi => exact selectByteComplete_safe h
  | twoWireRequestByte x => exact twoWireRequestByte_safe h
  | readByteAcknowledge ack => exact readByteAcknowledge_safe h
  | releaseInputHigh p => exact outsideReset_safe (f := fun b => modPort b p _) h (modPort_stands _ _ _).safe

/-- A step runs the front command, or lets a millisecond pass, which touches no record. -/
theorem step_safe {s t : State} (h : step s = .next t) : RecordsSafe s.block t.block := by
  unfold step at h
  split at h
  · rename_i i rest _
    exact exec_safe (s := { s with pending := rest }) i h
  · cases h
    unfold idleTick
    split
    · exact (RecordsStand.refl _).safe
    · exact RecordsStand.safe ⟨rfl, rfl, rfl⟩

/-- Settles O56: every command leaves the directory in order. -/
theorem directoryStaysAMap : Obligations.DirectoryStaysAMap := fun _ _ hs h => (step_safe h).sorted hs

/-- Settles O59: every command lets the counters go on counting the directory, and a mount's end counts it. -/
theorem usageMatchesTheDirectory : Obligations.UsageMatchesTheDirectory := fun _ _ hu h => (step_safe h).usage hu

end Sys2Proof.Machine
end

section
/-! STAT, LIST and GET, answered from the directory (R11, R13, R113, R122 to R124). -/

namespace Sys2Proof.Machine

open Safety

/-- A take that answers answers from the state it is taken in. -/
theorem onBlock_answer {s : State} {p : Port} {take : Block → Block} {tag : Byte} {st : Status} {body : List Byte}
    (h : take s.block = answer s.block p tag st body) : onBlock s take = onPort s p (responded tag st body) := by
  unfold onBlock onPort
  rw [h, answer_eq]

/-- A lookup request that its take answers. -/
theorem request_readable_answer {s : State} {p : Port} {tag : Byte} {take : Block → Block} {st : Status} {body : List Byte}
    (h : canTake s p) (hr : readable s) (ha : ∀ b : Block, b.dir = s.block.dir → take b = answer b p tag st body) :
    (request s p fun b => whenReadable b p tag take) = .next (onPort (atTake s p) p (responded tag st body)) := by
  rw [request_readable tag take h hr, onBlock_answer (ha _ (atTake_dir s p))]

/-- The state byte of a present slot (R122). -/
theorem slotStateByte_present {k : Key} {dir : List DirSlot} {d : DirSlot} (h : presentSlot k dir = some d) :
    slotStateByte d.state = if d.state = .live then 1 else 2 := by
  rcases (presentSlot_state h).2 with e | e <;> rw [e] <;> rfl

/-! ## STAT -/

/-- Settles O14: STAT's answer follows the key's range and the lookup of R11. -/
theorem statAnswersFromTheDirectory : Obligations.StatAnswersFromTheDirectory := by
  intro p tag key s ht
  refine ⟨fun hf => request_formatting tag _ ht hf, fun hr => ⟨fun hk => ?_, fun hk => ?_⟩⟩
  · exact request_readable_answer ht hr fun b _ => by simp [hk]
  · cases hp : presentSlot key s.block.dir with
    | none => exact request_readable_answer ht hr fun b hb => by simp [hk, lookup_eq, hb, hp]
    | some d =>
      dsimp only
      split
      · rename_i hm
        refine request_readable_answer ht hr fun b hb => ?_
        have body : statBody d = [if d.state = .live then 1 else 2] ++ be16Nat d.length ++ be32 d.seq ++
            [portCode d.owner, portSetByte d.readSet, portSetByte d.writeSet, boolByte d.writeOnce] := by
          rw [statBody, slotStateByte_present hp]
        have hm : mayRead p d = true := hm
        simp only [hk, Bool.not_true, Bool.false_eq_true, if_false, lookup_eq, hb, hp, hm, if_true, ← body]
        by_cases hl : d.state = .live <;> simp [hl]
      · rename_i hm
        have hm : mayRead p d = false := Bool.eq_false_iff.2 hm
        exact request_readable_answer ht hr fun b hb => by simp [hk, lookup_eq, hb, hp, hm]

/-! ## LIST -/

/-- A present slot is any occupied one but a TOMBSTONE (R12). -/
theorem slotPresent_eq (st : SlotState) : slotPresent st = (st != .tombstone) := by cases st <;> rfl

/-- The bytes of an item that is no TOMBSTONE (R123). -/
theorem itemBytes_present {d : DirSlot} (h : d.state ≠ .tombstone) :
    itemBytes d =
      be16 d.key ++ be16Nat d.length ++ be32 d.seq ++ [portCode d.owner, if d.state = .live then 1 else 2] := by
  unfold itemBytes
  cases hs : d.state with
  | tombstone => exact absurd hs h
  | live => rfl
  | damaged => rfl

/-- A walk returns no TOMBSTONE (R13). -/
theorem listItems_present {dir : List DirSlot} {p : Port} {k : Key} {n : Nat} {d : DirSlot}
    (h : d ∈ listItems dir p k n) : d.state ≠ .tombstone := by
  have hl := (List.mem_filter.1 (List.mem_of_mem_take h)).2
  rintro e
  simp [listed, slotPresent, e] at hl

/-- Settles O15: the walk filters the directory, and its items are laid out one after the other. -/
theorem listAnswersTheWalk : Obligations.ListAnswersTheWalk := by
  intro p tag afterKey maxCount s ht
  refine ⟨fun hf => request_formatting tag _ ht hf, fun hr => ⟨fun hn => ?_, fun hn => ?_⟩⟩
  · refine request_readable_answer ht hr fun b _ => ?_
    have hc : listCountOk maxCount = false := by simp [listCountOk]; omega
    simp [hc]
  · have hc : listCountOk maxCount = true := by simp [listCountOk, hn]
    refine request_readable_answer ht hr fun b hb => ?_
    have walk : s.block.dir.filter (fun d => decide (afterKey < d.key) && d.state != .tombstone &&
        (inSet p d.readSet || isSystemKey d.key)) = s.block.dir.filter (listed p afterKey) :=
      List.filter_congr fun d _ => by simp only [listed, mayRead, slotPresent_eq]
    simp only [hc, Bool.not_true, Bool.false_eq_true, if_false, hb, walk, listBody, List.flatMap_def]
    rw [List.map_congr_left fun d hd => itemBytes_present (listItems_present hd)]
    rfl

/-! ## GET -/

/-- Settles O16: the checks of R124 up to the one that creates a read. -/
theorem getAnswersWithoutTheArray : Obligations.GetAnswersWithoutTheArray := by
  intro p tag key offset maxLength s ht
  refine ⟨fun hf => request_formatting tag _ ht hf, fun hr => ⟨fun hk => ?_, fun hk hp => ?_, fun d hk hp => ?_⟩⟩
  · exact request_readable_answer ht hr fun b _ => by simp [hk]
  · exact request_readable_answer ht hr fun b hb => by simp [hk, lookup_eq, hb, hp]
  · refine ⟨fun hm => ?_, fun hm hd => ?_, fun hm hl ho => ?_⟩
    · exact request_readable_answer ht hr fun b hb => by simp [hk, lookup_eq, hb, hp, hm]
    · exact request_readable_answer ht hr fun b hb => by simp [hk, lookup_eq, hb, hp, hm, hd]
    · exact request_readable_answer ht hr fun b hb => by simp [hk, lookup_eq, hb, hp, hm, hl, ho]

end Sys2Proof.Machine
end

section
/-! Reset (R180), and the take-time checks of a job of one operation (R28). -/

namespace Sys2Proof.Machine

open Safety

/-! ## Reset -/

/-- RESET_END leaves the values of `Block.reset`, with the straps and selects it samples. -/
theorem exec_resetEnd {s : State} (adm adr : BitVec 2) (sel0High sel1High : Bool) (h : s.block.inReset = true) :
    exec (.resetEnd adm adr sel0High sel1High) s =
      .next { s with block := Block.reset (adminOf adm) adr (selectStart sel0High) (selectStart sel1High) } := by
  show execResetEnd adm adr sel0High sel1High s = _
  rw [execResetEnd, if_pos h]

/-- Settles O45: field by field, the values that RESET_END leaves. -/
theorem resetEndStartsTheMount : Obligations.ResetEndStartsTheMount := by
  intro adm adr sel0High sel1High s h
  refine ⟨_, exec_resetEnd adm adr sel0High sel1High h, rfl, rfl, rfl, rfl, rfl, rfl, rfl, rfl, rfl, rfl, rfl, rfl, rfl, rfl,
    rfl, rfl, rfl, fun k => ?_, fun x => rfl, fun p => ?_, fun p => ?_, rfl, ⟨_, rfl⟩, rfl⟩
  · cases k <;> rfl
  · cases p <;> rfl
  · cases p <;> rfl

/-- A port's tables hold nothing after reset (R130, R133, R138). -/
theorem tablesOk_reset : tablesOk PortState.reset := by
  refine ⟨Nat.zero_le _, List.nodup_nil, Nat.zero_le _, List.nodup_nil, fun n hn => ?_, fun ops h => ?_⟩
  · exact absurd hn List.not_mem_nil
  · exact nomatch h

/-- Settles O60: nothing is listed, counted, watched or noted at reset, and RESET_END leaves just these values. -/
theorem resetMeetsTheInvariants : Obligations.ResetMeetsTheInvariants := by
  refine ⟨rfl, rfl, rfl, fun p => ?_, ⟨rfl, .inl ⟨_, rfl⟩⟩, fun s h ha hp => ?_⟩
  · have reset : State.reset.block.ports.get p = PortState.reset := PerPort.get_all _ p
    rw [reset]
    exact tablesOk_reset
  · rw [exec_resetEnd 0 0 true true h, ha, hp]
    rfl

/-! ## The table of the take-time checks (R28) -/

/-- The refusal of the first row whose check fails; `pass` when none does. -/
def firstFailing (pass : TakeResult) (table : List (Bool × Status × Byte)) : TakeResult :=
  match table.find? (·.1) with
  | some (_, st, index) => .refuse st index
  | none => pass

theorem firstFailing_nil (pass : TakeResult) : firstFailing pass [] = pass := rfl

theorem firstFailing_cons (pass : TakeResult) (fails : Bool) (st : Status) (index : Byte) (rest : List (Bool × Status × Byte)) :
    firstFailing pass ((fails, st, index) :: rest) = if fails then .refuse st index else firstFailing pass rest := by
  cases fails <;> rfl

/-- The refusal of an operation's check, with index 0; `pass` when all its checks pass. -/
def refusedOr (pass : TakeResult) (check : Option Status) : TakeResult :=
  match check with
  | some st => .refuse st 0
  | none => pass

theorem refusedOr_none (pass : TakeResult) : refusedOr pass none = pass := rfl

theorem refusedOr_ite (pass : TakeResult) (fails : Prop) [Decidable fails] (st : Status) (rest : Option Status) :
    refusedOr pass (if fails then some st else rest) = if fails then .refuse st 0 else refusedOr pass rest := by
  split <;> rfl

/-- The checks of a job of one operation: the job's, the operation's, the job's (R28). -/
theorem takeChecks_one (b : Block) (p : Port) (op : WriteOp) :
    takeChecks b p [op] =
      if b.storeState != .ready then .refuse .state 0xFF
      else if seqLimitReached b then .refuse .seqLimit 0xFF
      else refusedOr (jobChecks b p [op]) (opCheck b p op) := by
  unfold takeChecks opsCheck
  cases opCheck b p op <;> rfl

theorem writePermitted_eq (b : Block) (p : Port) (op : WriteOp) : writePermitted b p op = permitted b p op := by
  unfold writePermitted permitted
  cases isSystemKey op.key with
  | true => rfl
  | false =>
    cases presentSlot op.key b.dir with
    | none => rfl
    | some d =>
      obtain ⟨key, expected, kind⟩ := op
      cases kind with
      | delete => simp [opIsPut]
      | put attrs payload =>
        cases attrs with
        | none => simp [opIsPut, opPayload]
        | some a =>
          have differ : (WriteKind.put (some a) payload == WriteKind.put none payload) = false :=
            beq_false_of_ne (by simp)
          simp [opIsPut, opPayload, differ]

theorem newSlots_one (b : Block) (op : WriteOp) :
    newSlots b [op] = if opIsPut op && dirFind op.key b.dir == none then 1 else 0 := by
  have none_eq : (dirFind op.key b.dir).isNone = (dirFind op.key b.dir == none) := by
    cases dirFind op.key b.dir <;> rfl
  unfold newSlots
  rw [List.filter_singleton, none_eq]
  cases opIsPut op && dirFind op.key b.dir == none <;> rfl

theorem projectedUsage_one (b : Block) (p q : Port) (op : WriteOp) : projectedUsage b p q [op] = projected b p q op := by
  simp only [projectedUsage, projected, usageChange, List.map_cons, List.map_nil, List.sum_cons, List.sum_nil, Nat.add_zero]
  cases isSystemKey op.key with
  | true => simp
  | false =>
    cases presentSlot op.key b.dir with
    | none =>
      by_cases hq : q = p
      · cases opIsPut op <;> simp [hq]
      · cases opIsPut op <;> simp [hq, Ne.symm hq]
    | some d => by_cases ho : d.owner = some q <;> simp [ho]

theorem overQuota_one (b : Block) (p q : Port) (op : WriteOp) : overQuota b p q [op] = quotaFails b p q op := by
  unfold overQuota quotaFails
  rw [projectedUsage_one]

theorem spaceNeed_one (b : Block) (op : WriteOp) : spaceNeed b (jobFootprint [op]) = needOf b op := by
  simp [spaceNeed, jobFootprint, needOf]

/-- The checks of a job of one operation that concern the whole store (R15, R18, R30). -/
theorem jobChecks_one (b : Block) (p : Port) (op : WriteOp) :
    jobChecks b p [op] =
      if 512 < b.dir.length + (if opIsPut op && dirFind op.key b.dir == none then 1 else 0) then .refuse .dirFull 0xFF
      else if quotaFails b p .p0 op || quotaFails b p .p1 op || quotaFails b p .p2 op then .refuse .quota 0xFF
      else if freeBytes b + reclaimableBytes b < needOf b op then .refuse .full 0xFF
      else if needOf b op ≤ freeBytes b then .run else .wait := by
  have quota : (allPorts.any fun q => overQuota b p q [op]) =
      (quotaFails b p .p0 op || quotaFails b p .p1 op || quotaFails b p .p2 op) := by
    simp only [allPorts, List.any_cons, List.any_nil, overQuota_one, Bool.or_false, Bool.or_assoc]
  unfold jobChecks
  rw [quota, newSlots_one]
  refine ite_congr rfl (fun _ => rfl) fun _ => ite_congr rfl (fun _ => rfl) fun _ => ?_
  unfold spaceCheck
  rw [spaceNeed_one]
  by_cases run : needOf b op ≤ freeBytes b
  · have fits : ¬freeBytes b + reclaimableBytes b < needOf b op := by omega
    rw [if_pos run, if_neg fits, if_pos run]
  · by_cases wait : needOf b op ≤ freeBytes b + reclaimableBytes b
    · rw [if_neg run, if_pos wait, if_neg (by omega), if_neg run]
    · rw [if_neg run, if_neg wait, if_pos (by omega)]

/-- The rows of an operation's own checks. -/
theorem opCheck_rows (b : Block) (p : Port) (op : WriteOp) :
    opCheck b p op =
      if !isKey op.key then some .badKey
      else if isSystemKey op.key && b.admin != some p then some .notAdmin
      else if isSystemKey op.key && opIsPut op && !systemValueOk op.key (opPayload op) then some .badValue
      else if !permitted b p op then some .denied
      else if ((presentSlot op.key b.dir).map (·.writeOnce)) == some true then some .writeOnce
      else if op.expected != none && op.expected != some (((presentSlot op.key b.dir).map (·.seq)).getD 0) then some .conflict
      else if !opIsPut op && presentSlot op.key b.dir == none then some .notFound
      else none := by
  have once : (((presentSlot op.key b.dir).map (·.writeOnce)).getD false) =
      (((presentSlot op.key b.dir).map (·.writeOnce)) == some true) := by
    cases presentSlot op.key b.dir with
    | none => rfl
    | some d => cases h : d.writeOnce <;> simp [h]
  have conflict : ((op.expected.map fun e => e != currentSeq b op.key).getD false) =
      (op.expected != none && op.expected != some (((presentSlot op.key b.dir).map (·.seq)).getD 0)) := by
    cases op.expected with
    | none => rfl
    | some e => simp [currentSeq, bne]
  have absent : (presentSlot op.key b.dir).isNone = (presentSlot op.key b.dir == none) := by
    cases presentSlot op.key b.dir <;> rfl
  rw [opCheck, writePermitted_eq, once, conflict, absent]

/-- Settles O33: row by row, the model's checks are the table's. -/
theorem firstFailingCheckDecides : Obligations.FirstFailingCheckDecides := by
  intro b p op
  show takeChecks b p [op] = firstFailing (if needOf b op ≤ freeBytes b then .run else .wait) (checkTable b p op)
  have limit : seqLimitReached b = decide (0xFFFFFF00 ≤ b.storeSeq.toNat + 1) := rfl
  simp only [takeChecks_one, opCheck_rows, refusedOr_ite, refusedOr_none, jobChecks_one, checkTable, firstFailing_cons,
    firstFailing_nil, limit, decide_eq_true_eq]

end Sys2Proof.Machine
end

section
/-! The take of a single PUT (R27, R32, R33). -/

namespace Sys2Proof.Machine

open Safety

/-! ## Where an entry is placed -/

/-- An entry that fits at the head is placed there: the program of its header is issued (R33, R66). -/
theorem placeStart_at_head {b : Block} {x : Sector} {o : Nat} (forCopy : Bool) {img : EntryImage} (hh : head b = some (x, o))
    (hf : img.footprint ≤ Config.sectorBytes - o) :
    placeStart forCopy b img = .go (issueProgram b x o (headerRun img)) (.header x o) := by
  unfold placeStart
  rw [hh]
  dsimp only
  rw [if_pos hf]
  rfl

/-- The bytes of an entry are its footprint (R178). -/
theorem entryImage_footprint (header payload : List Byte) (good : Bool) :
    (entryImage header (padded payload) good).footprint = footprint payload.length := by
  have grows : payload.length ≤ roundUp4 payload.length := by unfold roundUp4; omega
  simp only [EntryImage.footprint, entryImage, padded, List.length_append, List.length_replicate, be32_length, footprint]
  omega

/-! ## The entry of a new user record -/

theorem isSystemKey_of_isUserKey {k : Key} (h : isUserKey k = true) : isSystemKey k = false := by
  unfold isUserKey at h
  rw [Bool.and_eq_true, decide_eq_true_eq, decide_eq_true_eq] at h
  exact isSystemKey_eq_false (by bv_omega) (by bv_omega) (by bv_omega) (by bv_omega)

/-- The entry that R32 gives a new user record: the port as owner, all ports may read it, its owner may write it (R2). -/
def newRecordImage (p : Port) (key : Key) (payload : List Byte) (seq : Seq) : EntryImage :=
  entryImage
    (be16 key ++ be16Nat payload.length ++ be32 seq ++
      [0x01, BitVec.ofNat 8 p.num, (0x07 : Byte) ||| (0x10 <<< p.num), 0x00, 0x00])
    (padded payload) true

/-- All ports may read a new record, its owner may write it (R2, R178). -/
theorem accessByte_new (p : Port) : accessByte allPortsSet (portBit p) = (0x07 : Byte) ||| (0x10 <<< p.num) := by
  cases p <;> decide

theorem portCode_some (p : Port) : portCode (some p) = BitVec.ofNat 8 p.num := by cases p <;> rfl

theorem opImage_new {b : Block} (p : Port) {key : Key} (expected : Option Seq) (payload : List Byte) (seq : Seq)
    (hk : isUserKey key = true) (ha : presentSlot key b.dir = none) :
    opImage b p { key := key, expected := expected, kind := .put none payload } seq false 0 =
      newRecordImage p key payload seq := by
  have slot : slotAfter b p { key := key, expected := expected, kind := .put none payload } { sector := 0, offset := 0 } seq =
      some
        { key := key, state := .live, sector := 0, offset := 0, length := payload.length, seq := seq, owner := some p
          readSet := allPortsSet, writeSet := portBit p, writeOnce := false } := by
    simp only [slotAfter, slotAfterPut, isSystemKey_of_isUserKey hk, ha]
    rfl
  unfold opImage
  rw [slot]
  dsimp only
  rw [accessByte_new, portCode_some]
  simp [newRecordImage, entryHeader, opBytes, opPayload, opKind, opIsPut, kindCode, boolByte, byteNat]

/-! ## The take -/

/-- The block as a job starts its first attempt (R27, R31). -/
def jobStarted (b : Block) (p : Port) (j : Job) : Block :=
  { modPort b p fun q =>
      { q with job := some { j with state := .running, attempt := 1, seq := some (b.storeSeq + 1), locs := [] } } with
    storeSeq := b.storeSeq + 1 }

theorem jobOf_jobStarted (b : Block) (p : Port) (j : Job) :
    jobOf (jobStarted b p j) p =
      some { j with state := .running, attempt := 1, seq := some (b.storeSeq + 1), locs := [] } :=
  congrArg PortState.job (modPort_get b p fun q =>
    { q with job := some { j with state := .running, attempt := 1, seq := some (b.storeSeq + 1), locs := [] } })

/-- The take of a job that passes its checks (R27, R31): attempt 1, the next sequence, its first entry. -/
theorem takeJob_run {b : Block} {p : Port} {j : Job} (hj : (b.ports.get p).job = some j) (hc : takeChecks b p j.ops = .run) :
    takeJob b p j = startEntry (jobStarted b p j) p (.member 0) := by
  unfold takeJob
  rw [hc]
  simp only [takeSeq, modJob, modPort, hj, Option.map_some, jobStarted]

/-- An entry that fits at the head: the program of its header is issued (R33, R66). -/
theorem startEntry_at_head {b : Block} {p : Port} {j : Job} {what : JobEntry} {img : EntryImage} {x : Sector} {o : Nat}
    (hj : jobOf b p = some j) (hi : jobImage b p j what = some img) (hh : head b = some (x, o))
    (hf : img.footprint ≤ Config.sectorBytes - o) :
    startEntry b p what = setWork (issueProgram b x o (headerRun img)) p (.place what img (.header x o)) := by
  unfold startEntry
  rw [hj, Option.bind_some, hi]
  dsimp only
  rw [placeStart_at_head false hh hf]

/-- The only entry of a job that puts a new user record (R32). -/
theorem jobImage_new {b : Block} (p : Port) {j : Job} {key : Key} {expected : Option Seq} {payload : List Byte} {seq : Seq}
    (ho : j.ops = [{ key := key, expected := expected, kind := .put none payload }]) (hs : j.seq = some seq)
    (hk : isUserKey key = true) (ha : presentSlot key b.dir = none) :
    jobImage b p j (.member 0) =
      some (newRecordImage p key payload seq) := by
  have single : isMulti j = false := by simp [isMulti, ho]
  unfold jobImage
  simp only [ho, hs, single, List.getElem?_cons_zero, Option.map_some, Option.getD_some]
  exact congrArg some (opImage_new p expected payload seq hk ha)

/-- A grant to a port's commit job is its take (R27); an event's end changes nothing where no stretch runs. -/
theorem exec_grant_job {s : State} {p : Port} {j : Job} (hr : s.block.inReset = false) (hf : s.block.holder = .free)
    (hg : grantee s.block = some (.job p)) (hj : (s.block.ports.get p).job = some j) (hn : j.format = false) :
    exec .engineGrant s = .next (onBlock s fun b => endStretch (takeJob { b with lastGranted := .job p } p j)) := by
  show execEngineGrant s = _
  simp [execEngineGrant, outsideReset, hr, hf, hg, grant, takePort, jobOf, hj, hn, onBlock]

/-- The take of a single PUT of a new user record that passes its checks and fits at the head (R27, R32, R33). -/
theorem takeJob_new {b : Block} {p : Port} {j : Job} {key : Key} {expected : Option Seq} {payload : List Byte} {x : Sector}
    {o : Nat} (hj : (b.ports.get p).job = some j) (hc : takeChecks b p j.ops = .run)
    (ho : j.ops = [{ key := key, expected := expected, kind := .put none payload }]) (hk : isUserKey key = true)
    (ha : presentSlot key b.dir = none) (hh : head b = some (x, o)) (hf : footprint payload.length ≤ 4096 - o) :
    takeJob b p j =
      setWork (issueProgram (jobStarted b p j) x o (headerRun (newRecordImage p key payload (b.storeSeq + 1)))) p
        (.place (.member 0) (newRecordImage p key payload (b.storeSeq + 1)) (.header x o)) := by
  rw [takeJob_run hj hc]
  exact startEntry_at_head (jobOf_jobStarted b p j) (jobImage_new p ho rfl hk ha) hh
    (by rw [newRecordImage, entryImage_footprint]; exact hf)

/-- Settles O35: the checks pass, the job starts, and its entry is placed at the head. -/
theorem takeStartsASinglePut : Obligations.TakeStartsASinglePut := by
  intro p j key expected payload x o s hr hf hg hj hn ho hk ha hc hh hfit hw
  have taken := takeJob_new (b := { s.block with lastGranted := .job p }) hj ((takeChecks_lastGranted _ _ _ _).trans hc) ho hk
    ha hh hfit
  refine ⟨newRecordImage p key payload (s.block.storeSeq + 1), rfl, ?_⟩
  rw [exec_grant_job hr hf hg hj hn]
  exact congrArg (fun b => Host.Outcome.next { s with block := b })
    ((congrArg endStretch taken).trans (endStretch_of_not hw))

end Sys2Proof.Machine
end

section
/-! The finish of a read that fails its check (R17, R60, R61, R125, R136). -/

namespace Sys2Proof.Machine

open Safety

/-! ## A damage report -/

/-- A count stops at FFFFFFFFh (R84). -/
theorem satInc_eq (n : BitVec 32) : satInc n = if n = 0xFFFFFFFF then 0xFFFFFFFF else n + 1 :=
  ite_congr rfl (fun h => h) fun _ => rfl

/-- The slot is LIVE and names this version at this place (R17). -/
def namesPlace (seq : Seq) (x : Sector) (o : Nat) (d : DirSlot) : Prop :=
  d.state = .live ∧ d.seq = seq ∧ d.sector = x ∧ d.offset = o

/-- What a damage report does in every case: FAULT, and one more corrupt entry (R17). -/
def reported (b : Block) : Block := raiseFault { b with corruptCount := satInc b.corruptCount }

theorem reported_get {b : Block} (h : b.storeState ≠ .mounting) (q : Port) :
    (reported b).ports.get q = { b.ports.get q with sticky := (b.ports.get q).sticky ||| causeFault } :=
  raiseFault_get (b := { b with corruptCount := satInc b.corruptCount }) h q

/-- A slot that names the damaged version becomes DAMAGED, and its watchers are told (R17, R136). -/
theorem damageReport_hit {b : Block} {k : Key} {seq : Seq} {x : Sector} {o : Nat} {d : DirSlot}
    (hf : dirFind k b.dir = some d) (hd : namesPlace seq x o d) :
    damageReport b k seq x o =
      postDamage d { reported b with dir := dirPut { d with state := .damaged } b.dir } := by
  obtain ⟨live, rfl, rfl, rfl⟩ := hd
  have dir : (raiseFault { b with corruptCount := satInc b.corruptCount }).dir = b.dir := raiseFault_dir _
  simp only [damageReport, dir, hf, live, reported, beq_self_eq_true, Bool.and_self, if_true]

/-- With no such slot the report raises its cause and counts (R17). -/
theorem damageReport_miss {b : Block} {k : Key} {seq : Seq} {x : Sector} {o : Nat}
    (h : ∀ d, dirFind k b.dir = some d → ¬namesPlace seq x o d) : damageReport b k seq x o = reported b := by
  have dir : (raiseFault { b with corruptCount := satInc b.corruptCount }).dir = b.dir := raiseFault_dir _
  unfold damageReport
  dsimp only
  rw [dir]
  cases hf : dirFind k b.dir with
  | none => rfl
  | some d =>
    have other := h d hf
    dsimp only
    rw [if_neg]
    · rfl
    · simpa [namesPlace, and_assoc] using other

/-- The fields that a damage report leaves, and the count it raises. -/
theorem damageReport_fields (b : Block) (k : Key) (seq : Seq) (x : Sector) (o : Nat) :
    (damageReport b k seq x o).banks = b.banks ∧ (damageReport b k seq x o).usage = b.usage ∧
      (damageReport b k seq x o).holder = b.holder ∧
      (damageReport b k seq x o).corruptCount = satInc b.corruptCount := by
  by_cases h : ∃ d, dirFind k b.dir = some d ∧ namesPlace seq x o d
  · obtain ⟨d, hf, hd⟩ := h
    rw [damageReport_hit hf hd, postDamage_eq]
    simp [reported]
  · rw [damageReport_miss fun d hf hd => h ⟨d, hf, hd⟩]
    simp [reported]

/-- The directory after a damage report: the slot that names the damaged version is DAMAGED, and no other changes (R17). -/
theorem damageReport_find {b : Block} {seq : Seq} {x : Sector} {o : Nat} (k : Key) (hs : dirSorted b.dir = true) (key : Key) :
    (∀ d, dirFind key b.dir = some d → key = k ∧ namesPlace seq x o d →
        dirFind key (damageReport b k seq x o).dir = some { d with state := .damaged }) ∧
      ((∀ d, dirFind key b.dir = some d → ¬(key = k ∧ namesPlace seq x o d)) →
        dirFind key (damageReport b k seq x o).dir = dirFind key b.dir) := by
  have hit : ∀ d, dirFind k b.dir = some d → namesPlace seq x o d →
      dirFind key (damageReport b k seq x o).dir = if key = k then some { d with state := .damaged } else dirFind key b.dir := by
    intro d hf hd
    rw [damageReport_hit hf hd, postDamage_eq]
    obtain rfl := dirFind_key hf
    exact dirFind_dirPut { d with state := .damaged } hs key
  refine ⟨?_, fun none => ?_⟩
  · rintro d hf ⟨rfl, hd⟩
    rw [hit d hf hd, if_pos rfl]
  · by_cases h : ∃ d, dirFind k b.dir = some d ∧ namesPlace seq x o d
    · obtain ⟨d, hf, hd⟩ := h
      have other : key ≠ k := by
        rintro rfl
        exact none d hf ⟨rfl, hd⟩
      rw [hit d hf hd, if_neg other]
    · rw [damageReport_miss fun d hf hd => h ⟨d, hf, hd⟩, reported, raiseFault_dir]

/-- The ports after a damage report: FAULT in each, and a DAMAGED note in each that watches the key of a slot now DAMAGED and may
read it (R17, R136). -/
theorem damageReport_get {b : Block} {k : Key} {seq : Seq} {x : Sector} {o : Nat} (hm : b.storeState ≠ .mounting) (q : Port) :
    ((∃ d, dirFind k b.dir = some d ∧ namesPlace seq x o d ∧ mayRead q d = true) ∧ k ∈ (b.ports.get q).watches →
        (damageReport b k seq x o).ports.get q =
          postNote { key := k, seq := seq, kind := .damaged, byPort := none, merged := 0 } ((reported b).ports.get q)) ∧
      (¬((∃ d, dirFind k b.dir = some d ∧ namesPlace seq x o d ∧ mayRead q d = true) ∧ k ∈ (b.ports.get q).watches) →
        (damageReport b k seq x o).ports.get q = (reported b).ports.get q) := by
  have watches : ((reported b).ports.get q).watches = (b.ports.get q).watches := by rw [reported_get hm]
  have hit : ∀ d, dirFind k b.dir = some d → namesPlace seq x o d →
      (damageReport b k seq x o).ports.get q =
        if (b.ports.get q).watches.contains k && mayRead q d then
          postNote { key := k, seq := seq, kind := .damaged, byPort := none, merged := 0 } ((reported b).ports.get q)
        else (reported b).ports.get q := by
    intro d hf hd
    rw [damageReport_hit hf hd, postDamage_get, ← watches, dirFind_key hf, hd.2.1]
  refine ⟨?_, fun none => ?_⟩
  · rintro ⟨⟨d, hf, hd, hr⟩, hw⟩
    rw [hit d hf hd, if_pos (by simp [hw, hr])]
  · by_cases h : ∃ d, dirFind k b.dir = some d ∧ namesPlace seq x o d
    · obtain ⟨d, hf, hd⟩ := h
      rw [hit d hf hd, if_neg fun e => ?_]
      rw [Bool.and_eq_true, List.contains_iff_mem] at e
      exact none ⟨⟨d, hf, hd, e.2⟩, e.1⟩
    · rw [damageReport_miss fun d hf hd => h ⟨d, hf, hd⟩]

/-- A damage report raises FAULT in every port and leaves the slots (R17, R141). -/
theorem damageReport_port {b : Block} (k : Key) (seq : Seq) (x : Sector) (o : Nat) (hm : b.storeState ≠ .mounting) (q : Port) :
    ((damageReport b k seq x o).ports.get q).slot = (b.ports.get q).slot ∧
      ((damageReport b k seq x o).ports.get q).sticky &&& causeFault = causeFault := by
  have raised : ((reported b).ports.get q).sticky &&& causeFault = causeFault := by
    rw [reported_get hm]; exact raised_sticky _
  have slot : ((reported b).ports.get q).slot = (b.ports.get q).slot := by rw [reported_get hm]
  obtain ⟨notified, other⟩ := damageReport_get (k := k) (seq := seq) (x := x) (o := o) hm q
  by_cases h : (∃ d, dirFind k b.dir = some d ∧ namesPlace seq x o d ∧ mayRead q d = true) ∧ k ∈ (b.ports.get q).watches
  · rw [notified h]
    exact ⟨(postNote_slot _ _).1.trans slot, postNote_sticky _ _ raised⟩
  · rw [other h]
    exact ⟨slot, raised⟩

/-! ## The read's end -/

/-- An answered read touches the port alone. -/
theorem answerRead_eq (b : Block) (r : Read) (st : Status) (body : List Byte) :
    answerRead b r st body = { b with ports := (answerRead b r st body).ports } := by
  unfold answerRead
  split
  · split <;> rfl
  all_goals rfl

/-- The port that waits for the read is answered (R125). -/
theorem answerRead_waiting {b : Block} {r : Read} {tag : Byte} (st : Status) (body : List Byte)
    (hs : (b.ports.get r.port).slot = .working tag .read) (ho : r.orphan = false) :
    answerRead b r st body = answer b r.port tag st body := by
  simp [answerRead, hs, ho]

/-- No other port is reached, and none by the read of a port released since (R61). -/
theorem answerRead_other {b : Block} {r : Read} (st : Status) (body : List Byte) {q : Port} (h : q ≠ r.port ∨ r.orphan = true) :
    (answerRead b r st body).ports.get q = b.ports.get q := by
  unfold answerRead
  split
  · split
    · rfl
    · rcases h with h | h
      · exact modPort_get_other _ _ h
      · contradiction
  all_goals rfl

/-- An answer to a read raises and clears no cause, and posts no note. -/
theorem answerRead_kept (b : Block) (r : Read) (st : Status) (body : List Byte) (q : Port) :
    ((answerRead b r st body).ports.get q).sticky = (b.ports.get q).sticky ∧
      ((answerRead b r st body).ports.get q).notes = (b.ports.get q).notes := by
  by_cases hq : q = r.port
  · subst hq
    unfold answerRead
    split
    · split
      · exact ⟨rfl, rfl⟩
      · rw [answer_eq, modPort_get]; exact ⟨rfl, rfl⟩
    all_goals exact ⟨rfl, rfl⟩
  · rw [answerRead_other st body (.inl hq)]; exact ⟨rfl, rfl⟩

/-- Where no FORMAT waits for pins, their drop concerns a victim and a suspended erase alone. -/
theorem pinsDropped_of_not {b : Block} (h : ∀ q w, b.holder ≠ .job q (.formatPins w)) :
    pinsDropped b = resumeErase (victimUnpinned b) := by
  unfold pinsDropped
  rw [formatUnpinned_of_not]
  intro q w
  rw [victimUnpinned_holder]
  exact h q w

/-- The state after a read that fails its check (R60). -/
theorem exec_readFinish_damaged {k : Bank} {r : Read} {s : State} (hr : s.block.inReset = false)
    (hc : (s.block.banks.get k).current = some r) (hd : readCheck r (readBytes s.array r) = false) :
    exec (.readFinish k) s = .next (onBlock s fun b =>
      endStretch (pinsDropped (answerRead
        (damageReport { b with banks := b.banks.set k { b.banks.get k with current := none } } r.key r.seq r.sector r.offset)
        r .corrupt []))) := by
  show execReadFinish k s = _
  simp [execReadFinish, outsideReset, hr, hc, readOutcome, hd, onBlock]

/-- Where no FORMAT waits for the pin, the drop of it and the end of the event leave what the answered read left. -/
theorem unpinned_fields {b : Block} (h : ∀ q w, b.holder ≠ .job q (.formatPins w)) :
    (endStretch (pinsDropped b)).ports = b.ports ∧ (endStretch (pinsDropped b)).dir = b.dir ∧
      (endStretch (pinsDropped b)).usage = b.usage ∧ (endStretch (pinsDropped b)).banks = b.banks ∧
      (endStretch (pinsDropped b)).corruptCount = b.corruptCount := by
  rw [pinsDropped_of_not h]
  simp

/-- Settles O20: the report, the answer to the port that waits, the drop of the pin. -/
theorem damagedReadMarksTheSlot : Obligations.DamagedReadMarksTheSlot := by
  intro k r s hr hc hd hm hs hp hit note
  let b : Block := { s.block with banks := s.block.banks.set k { s.block.banks.get k with current := none } }
  let c := damageReport b r.key r.seq r.sector r.offset
  let a := answerRead c r .corrupt []
  have mounted : b.storeState ≠ .mounting := hm
  have port : ∀ q, (c.ports.get q).slot = (s.block.ports.get q).slot ∧ (c.ports.get q).sticky &&& causeFault = causeFault :=
    damageReport_port r.key r.seq r.sector r.offset mounted
  have reportedNotes : ∀ n q, (postNote n ((reported b).ports.get q)).notes = (postNote n (s.block.ports.get q)).notes := by
    intro n q
    rw [reported_get mounted]
    exact postNote_notes n _ _
  obtain ⟨banks, usage, holder, corrupt⟩ := damageReport_fields b r.key r.seq r.sector r.offset
  have aEq : a = { c with ports := a.ports } := answerRead_eq c r .corrupt []
  have aHolder : ∀ q w, a.holder ≠ .job q (.formatPins w) := by
    rw [aEq]
    exact fun q w => holder ▸ hp q w
  obtain ⟨tPorts, tDir, tUsage, tBanks, tCorrupt⟩ := unpinned_fields aHolder
  have aDir : a.dir = c.dir := by rw [aEq]
  refine ⟨_, exec_readFinish_damaged hr hc hd, fun tag hw ho => ?_, fun q hq => ?_, fun q => ?_, ?_, ?_, ?_, fun key => ?_,
    fun q => ⟨fun h => ?_, fun h => ?_⟩⟩
  · show ((endStretch (pinsDropped a)).ports.get r.port).slot = _
    rw [tPorts, show a = answer c r.port tag .corrupt [] from answerRead_waiting _ _ ((port r.port).1.trans hw) ho, answer_eq,
      modPort_get]
    rfl
  · show ((endStretch (pinsDropped a)).ports.get q).slot = _
    rw [tPorts, show a.ports.get q = c.ports.get q from answerRead_other _ _ hq]
    exact (port q).1
  · show ((endStretch (pinsDropped a)).ports.get q).sticky &&& _ = _
    rw [tPorts, (answerRead_kept c r .corrupt [] q).1]
    exact (port q).2
  · show (endStretch (pinsDropped a)).corruptCount = _
    rw [tCorrupt, aEq]
    exact corrupt.trans (satInc_eq _)
  · show ((endStretch (pinsDropped a)).banks.get k).current = none
    rw [tBanks, aEq, show c.banks = b.banks from banks, PerBank.get_set_same]
  · show (endStretch (pinsDropped a)).usage = _
    rw [tUsage, aEq]
    exact usage
  · show dirFind key (endStretch (pinsDropped a)).dir = _
    rw [tDir, aDir]
    obtain ⟨marked, kept⟩ := damageReport_find (b := b) (seq := r.seq) (x := r.sector) (o := r.offset) r.key hs key
    cases hf : dirFind key s.block.dir with
    | none => exact (kept fun d e => nomatch hf.symm.trans e).trans hf
    | some d =>
      rw [Option.map_some]
      by_cases named : key = r.key ∧ hit d
      · rw [if_pos named]
        exact marked d hf named
      · rw [if_neg named]
        exact (kept fun e he => Option.some.inj (hf.symm.trans he) ▸ named).trans hf
  · show ((endStretch (pinsDropped a)).ports.get q).notes = _
    rw [tPorts, (answerRead_kept c r .corrupt [] q).2, (damageReport_get mounted q).1 h]
    exact reportedNotes note q
  · show ((endStretch (pinsDropped a)).ports.get q).notes = _
    rw [tPorts, (answerRead_kept c r .corrupt [] q).2, (damageReport_get mounted q).2 h, reported_get mounted]

end Sys2Proof.Machine
end

section
/-! The completion of a job that has passed its commit point: of a single write, and of a batch (R14, R18, R34, R35, R39). -/

namespace Sys2Proof.Machine

open Safety

/-! ## A mark that reads back set -/

/-- PROGRAM_COMPLETE of a mark whose cell takes it: the holder goes on with success (R43, R48). -/
theorem exec_mark_complete {s : State} {x : Sector} {o elapsed : Nat} (hr : s.block.inReset = false)
    (he : s.block.engine = .programming { kind := .program [0x00], sector := x, offset := o } elapsed)
    (ho : o < Config.sectorBytes) (hm : Memory.wf s.array = true) :
    exec (.programComplete []) s =
      .next { s with array := programRun s.array x o [0x00] [], block := opEnded s.block true [] } := by
  show execProgramComplete [] s = _
  simp [execProgramComplete, hr, endProgram, currentProgram, he, ← BitVec.ofNat_eq_ofNat, readbackOk_mark hm x ho]

/-- The end of a program of an entry is the job's next step (R48). -/
theorem opEnded_place {b : Block} {p : Port} {what : JobEntry} {img : EntryImage} {st : PlaceStage}
    (h : b.holder = .job p (.place what img st)) (ok : Bool) (bytes : List Byte) :
    opEnded b ok bytes = endStretch (commitStep { b with engine := .idle } p (.place what img st) ok) := by
  simp only [opEnded, holderNext, h]

/-- So is the end of a settled mark. -/
theorem opEnded_settle {b : Block} {p : Port} {i : Nat} (h : b.holder = .job p (.settle i)) (ok : Bool) (bytes : List Byte) :
    opEnded b ok bytes = endStretch (commitStep { b with engine := .idle } p (.settle i) ok) := by
  simp only [opEnded, holderNext, h]

/-! ## What an advance and a job's update leave -/

theorem evalSpaceLow_get (b : Block) (q : Port) :
    ∃ c, (evalSpaceLow b).ports.get q = { b.ports.get q with sticky := c } := by
  unfold evalSpaceLow
  split
  · exact ⟨_, rfl⟩
  · exact ⟨_, rfl⟩
  all_goals
    dsimp only
    split
    · exact ⟨_, raiseAll_get _ _ _⟩
    · exact ⟨_, rfl⟩

/-- The advance of the write offset touches no port but for the cause of R72. -/
theorem advance_get (b : Block) (x : Sector) (o : Nat) (q : Port) :
    ∃ c, (advance b x o).ports.get q = { b.ports.get q with sticky := c } :=
  evalSpaceLow_get (setRow b x { row b x with writeOffset := some o }) q

@[simp] theorem advance_dir (b : Block) (x : Sector) (o : Nat) : (advance b x o).dir = b.dir := evalSpaceLow_dir _
@[simp] theorem advance_usage (b : Block) (x : Sector) (o : Nat) : (advance b x o).usage = b.usage := evalSpaceLow_usage _
@[simp] theorem advance_policy (b : Block) (x : Sector) (o : Nat) : (advance b x o).policy = b.policy := evalSpaceLow_policy _
@[simp] theorem advance_engine (b : Block) (x : Sector) (o : Nat) : (advance b x o).engine = b.engine := evalSpaceLow_engine _
@[simp] theorem advance_storeSeq (b : Block) (x : Sector) (o : Nat) : (advance b x o).storeSeq = b.storeSeq :=
  evalSpaceLow_storeSeq _

theorem modJob_get (b : Block) (p : Port) (f : Job → Job) (q : Port) :
    ∃ j, (modJob b p f).ports.get q = { b.ports.get q with job := j } := by
  by_cases h : q = p
  · subst h
    exact ⟨_, modPort_get _ _ _⟩
  · exact ⟨_, modPort_get_other _ _ h⟩

/-! ## The completion (R39) -/

/-- What a completed job leaves: the effects of its commit, its port answered, its job gone, a batch CLOSED, the engine free. -/
structure Completed (b : Block) (p : Port) (j : Job) (tag : Byte) (seq : Seq) (t : Block) : Prop where
  dir : t.dir = ((j.ops.zip j.locs).foldl (switchOp p seq) b).dir
  usage : t.usage = ((j.ops.zip j.locs).foldl (switchOp p seq) b).usage
  policy : t.policy = j.ops.foldl policyAfter b.policy
  notes : ∀ q, (t.ports.get q).notes = (notified p seq t.dir j.ops q (b.ports.get q)).notes
  slot : (t.ports.get p).slot = .answered (response .ok tag (seqIndex seq 0xFF))
  job : (t.ports.get p).job = none
  batch : j.batch = true → (t.ports.get p).batch = .closed
  holder : t.holder = .free
  engine : t.engine = b.engine
  storeSeq : t.storeSeq = b.storeSeq

theorem completeJob_completed {b : Block} {p : Port} {j : Job} {tag : Byte} {seq : Seq} (hj : (b.ports.get p).job = some j)
    (hq : j.seq = some seq) (hd : j.detached = false) (hs : (b.ports.get p).slot = .working tag .job) :
    Completed b p j tag seq (completeJob b p) := by
  have kept := commitEffects_kept b p j seq
  have complete : completeJob b p = finishJob (commitEffects b p j seq) p .ok seq 0xFF := by
    simp only [completeJob, jobOf, hj, hq, Option.getD_some]
  rw [complete, finishJob_eq ((kept.job p).trans hj) hd ((kept.slot p).trans hs)]
  obtain ⟨dir, usage⟩ := commitEffects_switched b p j seq
  refine ⟨?_, ?_, ?_, fun q => ?_, ?_, ?_, fun h => ?_, ?_, ?_, ?_⟩
  · rw [evalTriggers_dir]; exact dir
  · rw [evalTriggers_usage]; exact usage
  · rw [evalTriggers_policy]; exact commitEffects_policy b p j seq
  · rw [evalTriggers_ports, evalTriggers_dir]
    refine Eq.trans ?_ (commitEffects_notes b p j seq q)
    by_cases h : q = p
    · subst h
      rw [modPort_get]
    · rw [modPort_get_other _ _ h]
  · rw [evalTriggers_ports, modPort_get]; rfl
  · rw [evalTriggers_ports, modPort_get]
  · rw [evalTriggers_ports, modPort_get, if_pos h]
  · rw [evalTriggers_holder]
  · rw [evalTriggers_engine]; exact kept.engine
  · rw [evalTriggers_storeSeq]; exact kept.storeSeq

/-- The end of the event changes port 2's framing alone. -/
theorem Completed.endStretch {b t : Block} {p : Port} {j : Job} {tag : Byte} {seq : Seq} (h : Completed b p j tag seq t) :
    Completed b p j tag seq (endStretch t) := by
  constructor
  · rw [endStretch_dir]; exact h.dir
  · rw [endStretch_usage]; exact h.usage
  · rw [endStretch_policy]; exact h.policy
  · rw [endStretch_ports, endStretch_dir]; exact h.notes
  · rw [endStretch_ports]; exact h.slot
  · rw [endStretch_ports]; exact h.job
  · rw [endStretch_ports]; exact h.batch
  · rw [endStretch_holder]; exact h.holder
  · rw [endStretch_engine]; exact h.engine
  · rw [endStretch_storeSeq]; exact h.storeSeq

/-! ## The completion of a single write -/

/-- The bytes that a switched slot counts for a port (R18): a TOMBSTONE has length 0. -/
theorem usageOf_switched {p : Port} {op : WriteOp} {loc : Loc} {seq : Seq} {old : Option DirSlot} {d : DirSlot}
    (h : isSwitched p op loc seq old d) (q : Port) : usageOf q d = if d.owner = some q then d.length else 0 := by
  obtain ⟨-, -, -, -, h⟩ := h
  unfold usageOf
  cases hk : op.kind with
  | put attrs payload =>
    rw [hk] at h
    simp [h.1, slotPresent]
  | delete =>
    rw [hk] at h
    simp [h.1, h.2.1]

/-- The bytes that the slot of a key counts for a port (R18): those of its present record. -/
theorem usageOf_find (k : Key) (dir : List DirSlot) (q : Port) :
    ((dirFind k dir).map (usageOf q)).getD 0 =
      match presentSlot k dir with
      | some e => if e.owner = some q then e.length else 0
      | none => 0 := by
  unfold presentSlot
  cases hf : dirFind k dir with
  | none => rfl
  | some d =>
    cases hs : d.state <;> by_cases ho : d.owner = some q <;> simp [usageOf, hs, slotPresent, Option.filter, ho]

/-- The notes of one operation for one port (R135). -/
theorem notified_one (p : Port) (seq : Seq) (dir : List DirSlot) (op : WriteOp) (q : Port) (r : PortState) :
    notified p seq dir [op] q r =
      if q ≠ p ∧ op.key ∈ r.watches then postNote (noteOf p seq op ((dirFind op.key dir).any (mayRead q))) r else r := by
  unfold notified
  by_cases hq : q = p
  · simp [hq]
  · simp [hq]

/-- The complete mark of a single entry completes its job (R34). -/
theorem commitStep_single {b : Block} {p : Port} {j : Job} {op : WriteOp} (hj : (b.ports.get p).job = some j) (ho : j.ops = [op])
    (hl : j.locs = []) (img : EntryImage) (x : Sector) (o : Nat) :
    commitStep b p (.place (.member 0) img (.complete x o)) true =
      completeJob
        (modJob (advance b x (o + img.footprint)) p fun j => { j with locs := j.locs ++ [{ sector := x, offset := o }] }) p ∧
    ((modJob (advance b x (o + img.footprint)) p fun j =>
        { j with locs := j.locs ++ [{ sector := x, offset := o }] }).ports.get p).job =
      some { j with locs := [{ sector := x, offset := o }] } := by
  obtain ⟨c, hc⟩ := advance_get b x (o + img.footprint) p
  have job : ((modJob (advance b x (o + img.footprint)) p fun j =>
      { j with locs := j.locs ++ [{ sector := x, offset := o }] }).ports.get p).job =
        some { j with locs := [{ sector := x, offset := o }] } := by
    rw [modJob, modPort_get, hc, hj, Option.map_some, hl]
    rfl
  refine ⟨?_, job⟩
  simp only [commitStep, placeNext, if_true, entryDone, jobOf, job, ho, isMulti]
  rfl

/-- Slot, notes and watches are as they were when the entry's location is taken down, before the completion. -/
theorem located_port (b : Block) (x : Sector) (o : Nat) (p : Port) (f : Job → Job) (q : Port) :
    ((modJob (advance b x o) p f).ports.get q).slot = (b.ports.get q).slot ∧
      ((modJob (advance b x o) p f).ports.get q).notes = (b.ports.get q).notes ∧
      ((modJob (advance b x o) p f).ports.get q).watches = (b.ports.get q).watches := by
  obtain ⟨j, hj⟩ := modJob_get (advance b x o) p f q
  obtain ⟨c, hc⟩ := advance_get b x o q
  rw [hj, hc]
  exact ⟨rfl, rfl, rfl⟩

/-- Settles O39: the one operation's switch, its policy, its notes and its answer. -/
theorem completeMarkCommitsASingleWrite : Obligations.CompleteMarkCommitsASingleWrite := by
  intro p tag j op seq img x o elapsed s hr he ho hm hs hh hj hops hdel hq hd hl hb hw old
  let b : Block := { s.block with engine := .idle }
  let c := modJob (advance b x (o + img.footprint)) p fun j => { j with locs := j.locs ++ [{ sector := x, offset := o }] }
  obtain ⟨step, job⟩ := commitStep_single (b := b) hj hops hl img x o
  have dir : c.dir = s.block.dir := advance_dir b x _
  have usage : c.usage = s.block.usage := advance_usage b x _
  have port := located_port b x (o + img.footprint) p fun j => { j with locs := j.locs ++ [{ sector := x, offset := o }] }
  have slot : (c.ports.get p).slot = .working tag .job := (port p).1.trans hw
  have done : Completed c p { j with locs := [{ sector := x, offset := o }] } tag seq (opEnded s.block true []) := by
    rw [opEnded_place hh, step]
    exact (completeJob_completed job hq hd slot).endStretch
  have notes : ∀ q, ((opEnded s.block true []).ports.get q).notes =
      (notified p seq (opEnded s.block true []).dir [op] q (s.block.ports.get q)).notes := by
    intro q
    obtain ⟨-, sameNotes, sameWatches⟩ := port q
    rw [← hops]
    exact (done.notes q).trans (notified_notes _ _ _ _ _ _ _ sameNotes sameWatches)
  obtain ⟨d, slotAfter⟩ := slotAfter_some (b := c) p (op := op) { sector := x, offset := o } seq (by rw [dir]; exact hdel)
  have switched : isSwitched p op { sector := x, offset := o } seq old d := by
    have := slotAfter_isSwitched slotAfter
    rwa [dir] at this
  have find : ∀ k, dirFind k (opEnded s.block true []).dir = if k = op.key then some d else dirFind k s.block.dir := by
    intro k
    rw [done.dir, hops]
    have := switchOp_find p seq (op, ⟨x, o⟩) (b := c) (dir ▸ hs) k
    rw [slotAfter, dir] at this
    exact this
  refine ⟨_, d, exec_mark_complete hr he ho hm, find, switched, fun q => ?_, fun q => ?_, ?_, done.slot, done.job, done.holder,
    done.engine.trans (advance_engine b x _), ?_⟩
  · show (opEnded s.block true []).usage.get q = _
    rw [done.usage, hops]
    refine (switchOp_usage p seq (e := (op, ⟨x, o⟩)) slotAfter q).trans ?_
    rw [usageOf_switched switched, usage, dir]
    exact congrArg (HSub.hSub _) (usageOf_find op.key s.block.dir q)
  · have found : (dirFind op.key (opEnded s.block true []).dir).any (mayRead q) = mayRead q d := by
      rw [find, if_pos rfl]
      rfl
    have posted := notes q
    rw [notified_one, found] at posted
    exact ⟨fun h => posted.trans (by rw [if_pos h]), fun h => posted.trans (by rw [if_neg h])⟩
  · show (opEnded s.block true []).policy = _
    rw [done.policy, hops, show c.policy = s.block.policy from advance_policy b x _]
    rfl
  · exact done.storeSeq.trans (advance_storeSeq b x _)

/-! ## The completion of a batch -/

/-- The operations of a job and the places of their entries, side by side. -/
theorem mem_zip_of_getElem? {ops : List WriteOp} {locs : List Loc} {i : Nat} {op : WriteOp} {loc : Loc} (ho : ops[i]? = some op)
    (hl : locs[i]? = some loc) : (op, loc) ∈ ops.zip locs :=
  List.mem_of_getElem? (List.getElem?_zip_eq_some.2 ⟨ho, hl⟩)

/-- The keys of the operations, taken from the two side by side. -/
theorem map_key_zip {ops : List WriteOp} {locs : List Loc} (h : locs.length = ops.length) :
    (ops.zip locs).map (·.1.key) = ops.map (·.key) := by
  calc (ops.zip locs).map (·.1.key) = ((ops.zip locs).map Prod.fst).map (·.key) := (List.map_map ..).symm
    _ = ops.map (·.key) := by rw [List.map_fst_zip (Nat.le_of_eq h.symm)]

/-- The end of an end marker's complete mark: the settled mark of the first member is programmed (R35). -/
theorem commitStep_endMarker {b : Block} {p : Port} {j : Job} {first : Loc} (hj : (b.ports.get p).job = some j)
    (hf : j.locs[0]? = some first) (img : EntryImage) (x : Sector) (o : Nat) :
    commitStep b p (.place .endMarker img (.complete x o)) true =
      setWork (issueMark (advance b x (o + img.footprint)) first.sector (first.offset + 15)) p (.settle 0) := by
  obtain ⟨c, hc⟩ := advance_get b x (o + img.footprint) p
  have job : ((advance b x (o + img.footprint)).ports.get p).job = some j := by rw [hc]; exact hj
  simp only [commitStep, placeNext, if_true, entryDone, settleNext, jobOf, job, Option.bind_some, hf]

/-- The end of the last settled mark completes the job (R35). -/
theorem commitStep_lastSettle {b : Block} {p : Port} {j : Job} (hj : (b.ports.get p).job = some j) {i : Nat}
    (hl : j.locs.length = i + 1) : commitStep b p (.settle i) true = completeJob b p := by
  have past : j.locs[i + 1]? = none := List.getElem?_eq_none (Nat.le_of_eq hl)
  simp only [commitStep, if_true, settleNext, jobOf, hj, Option.bind_some, past]

/-- Settles O40: the end marker's mark starts the settling, and the last settled mark completes the job. -/
theorem endMarkerCommitsTheBatch : Obligations.EndMarkerCommitsTheBatch := by
  intro p tag j seq first img x o elapsed s hr hm hs hj h2 h8 hn hlen hfirst hq hb hd hw ho he
  let b : Block := { s.block with engine := .idle }
  refine ⟨fun hh h14 => ?_, fun hh => ?_⟩
  · have ended : opEnded s.block true [] = endStretch
        (setWork (issueMark (advance b x (o - 14 + img.footprint)) first.sector (first.offset + 15)) p (.settle 0)) := by
      rw [opEnded_place hh]
      exact congrArg endStretch (commitStep_endMarker (b := b) hj hfirst img x (o - 14))
    have port : ∀ q, ∃ c, (opEnded s.block true []).ports.get q = { s.block.ports.get q with sticky := c } := by
      intro q
      obtain ⟨c, hc⟩ := advance_get b x (o - 14 + img.footprint) q
      exact ⟨c, by rw [ended, endStretch_ports]; exact hc⟩
    refine ⟨_, exec_mark_complete hr he ho hm, ?_⟩
    refine ⟨?_, ?_, ?_, ?_, ?_, ?_, ?_, fun q => ?_⟩
    · show (opEnded s.block true []).issued = _
      rw [ended, endStretch_issued]
      rfl
    · show (opEnded s.block true []).holder = _
      rw [ended, endStretch_holder]
      rfl
    · show (opEnded s.block true []).engine = _
      rw [ended, endStretch_engine]
      exact advance_engine b x _
    · show (opEnded s.block true []).dir = _
      rw [ended, endStretch_dir]
      exact advance_dir b x _
    · show (opEnded s.block true []).usage = _
      rw [ended, endStretch_usage]
      exact advance_usage b x _
    · show (opEnded s.block true []).policy = _
      rw [ended, endStretch_policy]
      exact advance_policy b x _
    · obtain ⟨_, e⟩ := port p
      exact (congrArg PortState.job e).trans hj
    · obtain ⟨_, e⟩ := port q
      show ((opEnded s.block true []).ports.get q).slot = _ ∧ ((opEnded s.block true []).ports.get q).notes = _
      rw [e]
      exact ⟨rfl, rfl⟩
  · have done : Completed b p j tag seq (opEnded s.block true []) := by
      have last : j.locs.length = j.ops.length - 1 + 1 := by omega
      rw [opEnded_settle hh, commitStep_lastSettle (b := b) hj last]
      exact (completeJob_completed (b := b) hj hq hd hw).endStretch
    have keys := map_key_zip hlen
    obtain ⟨switched, others⟩ := switched_find p seq (j.ops.zip j.locs) b hs (keys ▸ hn)
    refine ⟨_, exec_mark_complete hr he ho hm, fun i op loc hop hloc hdel => ?_, fun key hk => ?_, done.policy, done.notes,
      done.slot, done.job, done.batch hb, done.holder, done.engine, done.storeSeq⟩
    · obtain ⟨d, slotAfter⟩ := slotAfter_some (b := b) p loc seq hdel
      refine ⟨d, ?_, slotAfter_isSwitched slotAfter⟩
      show dirFind op.key (opEnded s.block true []).dir = some d
      rw [done.dir, switched (op, loc) (mem_zip_of_getElem? hop hloc), slotAfter]
      rfl
    · show dirFind key (opEnded s.block true []).dir = _
      rw [done.dir]
      exact others key (keys ▸ hk)

end Sys2Proof.Machine
end

section
/-! Every step keeps watch tables, notification queues and staging lists within their limits (R22, R23, R130, R133). -/

namespace Sys2Proof.Machine

open Safety

/-! ## The tables of one port -/

/-- The tables of a port are its watches, its notes and its batch context. -/
theorem tablesOk_congr {q q' : PortState} (hw : q'.watches = q.watches) (hn : q'.notes = q.notes) (hb : q'.batch = q.batch)
    (h : tablesOk q) : tablesOk q' := by
  unfold tablesOk
  rw [hw, hn, hb]
  exact h

/-- What the holder of the engine does to a port keeps its tables. -/
theorem PortKept.tablesOk {q q' : PortState} (h : PortKept q q') (k : Safety.tablesOk q) : Safety.tablesOk q' := by
  obtain ⟨watched, distinct, notes, keys, merged, staged⟩ := k
  obtain ⟨notes, keys, merged⟩ := h.notes ⟨notes, keys, merged⟩
  exact ⟨h.watches ▸ watched, h.watches ▸ distinct, notes, keys, merged, fun ops e => staged ops (h.batch ops e)⟩

/-- New watches within the limits of R130. -/
theorem tablesOk_watches {q : PortState} {l : List Key} (h : tablesOk q) (hl : l.length ≤ 8) (hd : l.Nodup) :
    tablesOk { q with watches := l } := by
  obtain ⟨-, -, notesAndBatch⟩ := h
  exact ⟨hl, hd, notesAndBatch⟩

/-- The oldest notes leave the queue (R137). -/
theorem tablesOk_dropNotes {q : PortState} (n : Nat) (h : tablesOk q) : tablesOk { q with notes := q.notes.drop n } := by
  obtain ⟨watched, distinct, notes, keys, merged, staged⟩ := h
  refine ⟨watched, distinct, ?_, ?_, fun x hx => merged x (List.mem_of_mem_drop hx), staged⟩
  · exact (List.drop_sublist n q.notes).length_le.trans notes
  · exact keys.sublist ((List.drop_sublist n q.notes).map _)

/-- A batch context whose staging list, if it has one, is within its limits. -/
theorem tablesOk_batch {q : PortState} {c : BatchContext} (h : tablesOk q) (hc : ∀ ops, c = .opened ops → stagingOk ops) :
    tablesOk { q with batch := c } := by
  obtain ⟨watched, distinct, notes, keys, merged, -⟩ := h
  exact ⟨watched, distinct, notes, keys, merged, hc⟩

/-- A release empties the batch context and leaves watches and notes (R41, R128). -/
theorem tablesOk_releasedPort {q : PortState} (h : tablesOk q) : tablesOk (releasedPort q) := by
  obtain ⟨watched, distinct, notes, keys, merged, -⟩ := h
  exact ⟨watched, distinct, notes, keys, merged, fun _ e => nomatch e⟩

/-- Restaging leaves one operation for each key (R23). -/
theorem stagingOk_restage {ops : List WriteOp} {op : WriteOp} (h : stagingOk ops) (hf : stagingFits (restage ops op) = true) :
    stagingOk (restage ops op) := by
  refine ⟨hf, ?_⟩
  unfold restage
  rw [List.map_append, List.nodup_append]
  refine ⟨h.2.sublist (List.filter_sublist.map _), by simp, ?_⟩
  simp only [List.mem_map, List.mem_filter]
  rintro k ⟨o, ⟨-, hk⟩, rfl⟩ k' ⟨o', ho', rfl⟩ e
  simp only [List.mem_singleton] at ho'
  subst ho'
  simp [e] at hk

/-- A staged operation passed the batch limits (R22). -/
theorem stagingFits_of_stageCheck {ops : List WriteOp} {op : WriteOp} (h : stageCheck ops op = none) :
    stagingFits (restage ops op) = true := by
  unfold stageCheck at h
  split at h
  · cases h
  · split at h
    · cases h
    · split at h
      · cases h
      · simp_all

/-- The table after a WATCH is within its limits (R130, R131). -/
theorem watchTable_ok {b : Block} {p : Port} {key : Key} {l : List Key} (h : tablesOk (b.ports.get p))
    (he : watchTable b p key = .ok l) : l.length ≤ 8 ∧ l.Nodup := by
  obtain ⟨watched, distinct, -⟩ := h
  unfold watchTable at he
  dsimp only at he
  split at he
  · cases he
  · split at he
    · cases he
    · split at he
      · cases he; exact ⟨watched, distinct⟩
      · rename_i hn
        split at he
        · cases he
        · rename_i hl
          cases he
          refine ⟨by simpa [Config.maxWatches] using hl, ?_⟩
          rw [List.nodup_append]
          refine ⟨distinct, by simp, ?_⟩
          rintro k hk k' hk' rfl
          rw [List.mem_singleton] at hk'
          subst hk'
          exact hn (by simpa using hk)

/-- The table after an UNWATCH is within its limits (R130, R132). -/
theorem unwatchTable_ok {b : Block} {p : Port} {key : Key} {l : List Key} (h : tablesOk (b.ports.get p))
    (he : unwatchTable b p key = .ok l) : l.length ≤ 8 ∧ l.Nodup := by
  obtain ⟨watched, distinct, -⟩ := h
  unfold unwatchTable at he
  dsimp only at he
  split at he
  · cases he
  · split at he
    · cases he; exact ⟨(List.length_filter_le _ _).trans watched, distinct.filter _⟩
    · cases he

/-! ## The tables of every port -/

/-- A change keeps the tables of each port within their limits. -/
def TablesSafe (a b : Block) : Prop := ∀ p, tablesOk (a.ports.get p) → tablesOk (b.ports.get p)

theorem TablesSafe.refl (b : Block) : TablesSafe b b := fun _ => id

theorem TablesSafe.trans {a b c : Block} (h : TablesSafe a b) (k : TablesSafe b c) : TablesSafe a c := fun p => k p ∘ h p

/-- A change that touches no port. -/
theorem TablesSafe.of_ports {a b : Block} (h : b.ports = a.ports) : TablesSafe a b := fun _ k => h ▸ k

/-- What the holder of the engine does. -/
theorem Keeps.tables {m : Bool} {a b : Block} (h : Keeps m a b) : TablesSafe a b := fun p => (h.ports p).tablesOk

theorem modPort_tables {b : Block} {p : Port} {f : PortState → PortState}
    (h : tablesOk (b.ports.get p) → tablesOk (f (b.ports.get p))) : TablesSafe b (modPort b p f) := by
  intro q
  by_cases hq : q = p
  · subst hq; rw [modPort_get]; exact h
  · rw [modPort_get_other _ _ hq]; exact id

theorem answer_tables (b : Block) (p : Port) (tag : Byte) (st : Status) (body : List Byte) :
    TablesSafe b (answer b p tag st body) := (keeps_answer (Keeps.refl false b) p tag st body).tables

theorem raiseCause_tables (b : Block) (p : Port) (c : BitVec 16) : TablesSafe b (raiseCause b p c) :=
  modPort_tables (tablesOk_congr rfl rfl rfl)

theorem setBatch_tables (b : Block) (p : Port) {c : BatchContext}
    (h : tablesOk (b.ports.get p) → ∀ ops, c = .opened ops → stagingOk ops) : TablesSafe b (setBatch b p c) :=
  modPort_tables fun k => tablesOk_batch k (h k)

theorem endStretch_tables (b : Block) : TablesSafe b (endStretch b) := .of_ports (endStretch_ports b)

/-- Dropped pins touch no port. -/
theorem pinsDropped_tables (b : Block) : TablesSafe b (pinsDropped b) := .of_ports (by simp [pinsDropped])

/-! ## Requests -/

theorem afterMount_tables (b : Block) (p : Port) (tag : Byte) {take : Block → Block} (h : TablesSafe b (take b)) :
    TablesSafe b (afterMount b p tag take) := by
  unfold afterMount
  split
  · exact answer_tables _ _ _ _ _
  · exact h

theorem whenReadable_tables (b : Block) (p : Port) (tag : Byte) {take : Block → Block} (h : TablesSafe b (take b)) :
    TablesSafe b (whenReadable b p tag take) := by
  unfold whenReadable
  split
  · exact answer_tables _ _ _ _ _
  · exact h

theorem reachSlot_tables (b : Block) (p : Port) {take : Block → Block} (h : ∀ b, TablesSafe b (take b)) :
    TablesSafe b (reachSlot b p take) := by
  unfold reachSlot
  split
  · exact raiseCause_tables _ _ _
  · refine TablesSafe.trans (b := dropResponse b p) ?_ (h _)
    exact (modPort_tables (tablesOk_congr rfl rfl rfl)).trans (raiseCause_tables _ _ _)
  · exact h b

theorem createRead_ports (b : Block) (r : Read) : (createRead b r).ports = b.ports := by
  have suspend : (suspendErase b (bankOf r.sector)).ports = b.ports := by
    unfold suspendErase
    split
    · split <;> rfl
    all_goals rfl
  unfold createRead joinBank
  dsimp only
  split <;> exact suspend

theorem takeConfigure_tables (p : Port) (tag : Byte) (mask : BitVec 16) (rel stretch : Byte) (b : Block) :
    TablesSafe b (takeConfigure p tag mask rel stretch b) := by
  refine afterMount_tables b p tag ?_
  split
  · exact answer_tables _ _ _ _ _
  · exact (modPort_tables (tablesOk_congr rfl rfl rfl)).trans (answer_tables _ _ _ _ _)

theorem takeStat_tables (p : Port) (tag : Byte) (key : Key) (b : Block) : TablesSafe b (takeStat p tag key b) := by
  refine whenReadable_tables b p tag ?_
  split
  · exact answer_tables _ _ _ _ _
  · split <;> exact answer_tables _ _ _ _ _

theorem takeList_tables (p : Port) (tag : Byte) (key : Key) (n : Byte) (b : Block) : TablesSafe b (takeList p tag key n b) := by
  refine whenReadable_tables b p tag ?_
  split <;> exact answer_tables _ _ _ _ _

theorem takeGet_tables (p : Port) (tag : Byte) (key : Key) (offset maxLength : BitVec 16) (b : Block) :
    TablesSafe b (takeGet p tag key offset maxLength b) := by
  refine whenReadable_tables b p tag ?_
  split
  · exact answer_tables _ _ _ _ _
  · split
    · exact answer_tables _ _ _ _ _
    · exact answer_tables _ _ _ _ _
    · exact answer_tables _ _ _ _ _
    · split
      · exact answer_tables _ _ _ _ _
      · exact (keeps_setSlot (Keeps.refl false b) p _).tables.trans (.of_ports (createRead_ports _ _))

/-- A staged operation leaves a staging list within its limits (R22, R23). -/
theorem stage_tables {b : Block} {p : Port} {ops : List WriteOp} (h : (b.ports.get p).batch = .opened ops) (tag : Byte)
    (op : WriteOp) : TablesSafe b (stage b p tag ops op) := by
  unfold stage
  split
  · exact answer_tables _ _ _ _ _
  · rename_i hc
    refine (setBatch_tables b p fun k ops' e => ?_).trans (answer_tables _ _ _ _ _)
    obtain ⟨-, -, -, -, -, staged⟩ := k
    cases e
    exact stagingOk_restage (staged ops h) (stagingFits_of_stageCheck hc)

theorem write_tables (b : Block) (p : Port) (tag : Byte) (op : WriteOp) : TablesSafe b (write b p tag op) := by
  unfold write
  split
  · rename_i ops h; exact stage_tables h tag op
  · unfold single
    split
    · exact answer_tables _ _ _ _ _
    · exact (keeps_submitWrite (Keeps.refl false b) p tag op).tables
  · exact TablesSafe.refl b

/-- BEGIN opens a context with an empty list (R20). -/
theorem takeBegin_tables (p : Port) (tag : Byte) (b : Block) : TablesSafe b (takeBegin p tag b) := by
  refine afterMount_tables b p tag ?_
  split
  · refine (setBatch_tables b p fun _ ops e => ?_).trans (answer_tables _ _ _ _ _)
    cases e
    exact ⟨rfl, List.nodup_nil⟩
  · exact answer_tables _ _ _ _ _
  · exact TablesSafe.refl b

theorem takeAbandon_tables (p : Port) (tag : Byte) (b : Block) : TablesSafe b (takeAbandon p tag b) := by
  refine afterMount_tables b p tag ?_
  split
  · exact (keeps_setBatch_closed (Keeps.refl false b) p).tables.trans (answer_tables _ _ _ _ _)
  · exact answer_tables _ _ _ _ _
  · exact TablesSafe.refl b

theorem answerTable_tables {b : Block} {p : Port} {r : Except Status (List Key)}
    (h : tablesOk (b.ports.get p) → ∀ l, r = .ok l → l.length ≤ 8 ∧ l.Nodup) (tag : Byte) :
    TablesSafe b (answerTable b p tag r) := by
  unfold answerTable
  split
  · rename_i l
    refine TablesSafe.trans (b := setWatches b p l) (modPort_tables fun k => ?_) (answer_tables _ _ _ _ _)
    obtain ⟨fits, distinct⟩ := h k l rfl
    exact tablesOk_watches k fits distinct
  · exact answer_tables _ _ _ _ _

theorem takeNotes_tables (p : Port) (tag n : Byte) (b : Block) : TablesSafe b (takeNotes p tag n b) := by
  refine afterMount_tables b p tag ?_
  split
  · exact answer_tables _ _ _ _ _
  · exact (modPort_tables (tablesOk_dropNotes _)).trans (answer_tables _ _ _ _ _)

theorem takeReclaim_tables (p : Port) (tag : Byte) (b : Block) : TablesSafe b (takeReclaim p tag b) := by
  refine afterMount_tables b p tag ?_
  split
  · split
    · split
      · exact (keeps_startCycle (Keeps.refl false b) _).tables.trans (answer_tables _ _ _ _ _)
      · exact answer_tables _ _ _ _ _
    · exact answer_tables _ _ _ _ _
  · exact answer_tables _ _ _ _ _

/-- Every request keeps the tables: only PUT, DELETE, BEGIN, WATCH, UNWATCH and NOTES fill or change one. -/
theorem takeRequest_tables (p : Port) (tag : Byte) (r : Request) (b : Block) : TablesSafe b (takeRequest p tag r b) := by
  unfold takeRequest
  cases r with
  | identify => exact answer_tables _ _ _ _ _
  | storeInfo => exact afterMount_tables b p tag (answer_tables _ _ _ _ _)
  | configure mask rel stretch => exact takeConfigure_tables p tag mask rel stretch b
  | events clear =>
    exact afterMount_tables b p tag ((modPort_tables (tablesOk_congr rfl rfl rfl)).trans (answer_tables _ _ _ _ _))
  | get key offset maxLength => exact takeGet_tables p tag key offset maxLength b
  | stat key => exact takeStat_tables p tag key b
  | list afterKey maxCount => exact takeList_tables p tag afterKey maxCount b
  | put key expected attrs payload => exact afterMount_tables b p tag (write_tables _ _ _ _)
  | delete key expected => exact afterMount_tables b p tag (write_tables _ _ _ _)
  | beginBatch => exact takeBegin_tables p tag b
  | commit => exact afterMount_tables b p tag (keeps_submitCommit (Keeps.refl false b) p tag).tables
  | abandon => exact takeAbandon_tables p tag b
  | watch key => exact afterMount_tables b p tag (answerTable_tables (fun k _ => watchTable_ok k) tag)
  | unwatch key => exact afterMount_tables b p tag (answerTable_tables (fun k _ => unwatchTable_ok k) tag)
  | notes maxCount => exact takeNotes_tables p tag maxCount b
  | reclaim => exact takeReclaim_tables p tag b
  | format => exact afterMount_tables b p tag (keeps_submitFormat (Keeps.refl false b) p tag).tables

theorem frameEnds_tables (p : Port) (frame : List Byte) (b : Block) : TablesSafe b (frameEnds p frame b) := by
  unfold frameEnds
  split
  · exact TablesSafe.refl b
  · refine reachSlot_tables b p fun c => ?_
    unfold takeFrame
    split
    · exact answer_tables _ _ _ _ _
    · exact takeRequest_tables _ _ _ _

/-! ## Framing -/

/-- The count of fetched bytes touches the fetch progress alone (R118). -/
theorem countFetched_tables (b : Block) (p : Port) (answered : Bool) : TablesSafe b (countFetched b p answered) :=
  modPort_tables fun k => by
    split
    · exact tablesOk_congr rfl rfl rfl k
    · exact k

/-- The end of a fetch touches slot and fetch progress alone (R118). -/
theorem fetchEnds_tables (b : Block) (p : Port) (clean : Bool) : TablesSafe b (fetchEnds b p clean) :=
  modPort_tables fun k => by
    split
    · split <;> exact tablesOk_congr rfl rfl rfl k
    all_goals exact k

theorem requestFrameOver_tables (b : Block) (p : Port) (bytes : List Byte) (bad : Bool) :
    TablesSafe b (requestFrameOver b p bytes bad) := by
  unfold requestFrameOver
  split
  · exact raiseCause_tables _ _ _
  · exact frameEnds_tables _ _ _

theorem frameByte_tables (b : Block) (p : SelPort) (sdi : Byte) : TablesSafe b (frameByte b p sdi) := by
  unfold frameByte
  split
  · exact .of_ports rfl
  · unfold laterByte
    split
    · exact .of_ports rfl
    · exact countFetched_tables _ _ _
    all_goals exact TablesSafe.refl b

theorem busCondition_tables (b : Block) (incomplete started : Bool) : TablesSafe b (busCondition b incomplete started) := by
  have ends : ∀ c : Block, TablesSafe c (transactionEnds c b.wire incomplete) := by
    intro c
    unfold transactionEnds
    split
    · exact requestFrameOver_tables _ _ _ _
    · exact fetchEnds_tables _ _ _
    all_goals exact TablesSafe.refl c
  unfold busCondition
  split
  · exact TablesSafe.refl b
  all_goals exact TablesSafe.trans (b := setWire b (wireIdle started)) (.of_ports rfl) (ends _)

theorem readAddressed_ports (b : Block) : (readAddressed b).ports = b.ports := by
  unfold readAddressed
  dsimp only
  split <;> rfl

theorem acknowledged_tables (b : Block) (ack : Bool) : TablesSafe b (acknowledged b ack) := by
  have counted : TablesSafe b (if 0 < b.wire.bytesSent then countFetched b .p2 b.wire.showedAnswered else b) := by
    split
    · exact countFetched_tables _ _ _
    · exact TablesSafe.refl b
  unfold acknowledged
  dsimp only
  split <;> exact counted.trans (.of_ports rfl)

/-! ## The engine, reads, reset and release -/

theorem opEnded_tables (b : Block) (ok : Bool) (bytes : List Byte) : TablesSafe b (opEnded b ok bytes) :=
  TablesSafe.trans (b := { b with engine := .idle }) (.of_ports rfl)
    ((keeps_holderNext_any _ ok bytes).tables.trans (endStretch_tables _))

theorem grant_tables (b : Block) (r : Requester) : TablesSafe b (grant b r) := by
  cases r with
  | job p =>
    exact TablesSafe.trans (b := { b with lastGranted := .job p }) (.of_ports rfl)
      (keeps_takePort (Keeps.refl false _) p).tables
  | reclaim =>
    exact TablesSafe.trans (b := { b with lastGranted := .reclaim, reclaimFlag := false }) (.of_ports rfl)
      (keeps_reclaimGrant (Keeps.refl false _)).tables

theorem readOutcome_tables (b : Block) (r : Read) (bytes : List Byte) : TablesSafe b (readOutcome b r bytes) := by
  have answered : ∀ c st body, TablesSafe c (answerRead c r st body) := by
    intro c st body
    unfold answerRead
    split
    · split
      · exact TablesSafe.refl c
      · exact answer_tables _ _ _ _ _
    all_goals exact TablesSafe.refl c
  unfold readOutcome
  split
  · exact answered _ _ _
  · exact (keeps_damageReport (Keeps.refl false b) _ _ _ _).tables.trans (answered _ _ _)

theorem released_tables (b : Block) (p : Port) : TablesSafe b (released b p) := by
  have framing : (releaseFraming (modPort b p releasedPort) p).ports = (modPort b p releasedPort).ports := by cases p <;> rfl
  refine TablesSafe.trans (b := modPort b p releasedPort) (modPort_tables tablesOk_releasedPort) ?_
  exact (TablesSafe.of_ports (b := releaseReads (releaseFraming (modPort b p releasedPort) p) p) framing).trans
    (pinsDropped_tables _)

/-- Reset empties every table. -/
theorem TablesSafe.of_reset (a : Block) {b : Block} (h : b.ports = PerPort.all PortState.reset) : TablesSafe a b := by
  intro p _
  rw [h, PerPort.get_all]
  exact tablesOk_reset

/-! ## Every command, every step -/

/-- A command that acts outside reset. -/
theorem outsideReset_tables {s t : State} {f : Block → Block} (h : outsideReset s f = .next t)
    (hf : ∀ b, TablesSafe b (f b)) : TablesSafe s.block t.block := by
  unfold outsideReset at h
  cases h
  split
  · exact TablesSafe.refl _
  · exact hf _

theorem request_tables {s t : State} {p : Port} {tag : Byte} {r : Request} (h : exec (command p tag r) s = .next t) :
    TablesSafe s.block t.block := by
  rw [exec_command] at h
  exact outsideReset_tables h fun b => reachSlot_tables b p (takeRequest_tables p tag r)

theorem endProgram_tables (s : State) (miss : List Byte) (inTime : Bool) :
    TablesSafe s.block (endProgram s miss inTime).block := by
  unfold endProgram
  split
  · exact opEnded_tables _ _ _
  · exact TablesSafe.refl _

theorem endErase_tables (s : State) (residue : List (Nat × Byte)) (inTime : Bool) :
    TablesSafe s.block (endErase s residue inTime).block := by
  unfold endErase
  split
  · exact opEnded_tables _ _ _
  · exact TablesSafe.refl _

/-- The end of an operation outside reset. -/
theorem ended_tables {s e t : State} (h : (.next (if s.block.inReset then s else e) : Out) = .next t)
    (he : TablesSafe s.block e.block) : TablesSafe s.block t.block := by
  cases h
  split
  · exact TablesSafe.refl _
  · exact he

theorem engineOpStart_ports {s t : State} (h : exec .engineOpStart s = .next t) : t.block.ports = s.block.ports := by
  change execEngineOpStart s = .next t at h
  unfold execEngineOpStart at h
  split at h
  · split at h
    · cases h; rfl
    · split at h
      · cases h
      · cases h; rfl
  · cases h; rfl

theorem readStart_ports {k : Bank} {s t : State} (h : exec (.readStart k) s = .next t) : t.block.ports = s.block.ports := by
  change execReadStart k s = .next t at h
  unfold execReadStart at h
  dsimp only at h
  split at h
  · split at h
    · cases h; rfl
    · split at h
      · cases h
      · cases h; rfl
  · cases h; rfl

theorem readFinish_tables {k : Bank} {s t : State} (h : exec (.readFinish k) s = .next t) : TablesSafe s.block t.block := by
  unfold exec execReadFinish at h
  refine outsideReset_tables h fun b => ?_
  dsimp only
  split
  · exact TablesSafe.trans (b := { b with banks := b.banks.set k { b.banks.get k with current := none } }) (.of_ports rfl)
      ((readOutcome_tables _ _ _).trans ((pinsDropped_tables _).trans (endStretch_tables _)))
  · exact TablesSafe.refl b

theorem resetEnd_tables {adm adr : BitVec 2} {h0 h1 : Bool} {s t : State} (h : exec (.resetEnd adm adr h0 h1) s = .next t) :
    TablesSafe s.block t.block := by
  cases h
  split
  · exact TablesSafe.of_reset _ rfl
  · exact TablesSafe.refl _

theorem engineGrant_tables {s t : State} (h : exec .engineGrant s = .next t) : TablesSafe s.block t.block := by
  unfold exec execEngineGrant at h
  refine outsideReset_tables h fun b => ?_
  split
  · split
    · exact (grant_tables _ _).trans (endStretch_tables _)
    · exact TablesSafe.refl b
  · exact TablesSafe.refl b

theorem stepReadComplete_tables {s t : State} (h : exec .stepReadComplete s = .next t) : TablesSafe s.block t.block := by
  unfold exec execStepReadComplete at h
  refine outsideReset_tables h fun b => ?_
  split
  · exact opEnded_tables _ _ _
  · exact TablesSafe.refl b

theorem release_tables {p : Port} {s t : State} (h : exec (.release p) s = .next t) : TablesSafe s.block t.block := by
  unfold exec execRelease at h
  refine outsideReset_tables h fun b => ?_
  split
  · exact released_tables b p
  · exact TablesSafe.refl b

theorem selectFall_tables {p : SelPort} {clockHigh : Bool} {s t : State} (h : exec (.selectFall p clockHigh) s = .next t) :
    TablesSafe s.block t.block := by
  unfold exec execSelectFall at h
  refine outsideReset_tables h fun b => .of_ports ?_
  split <;> rfl

theorem requestFrameSelectEnd_tables {p : SelPort} {onBoundary : Bool} {s t : State}
    (h : exec (.requestFrameSelectEnd p onBoundary) s = .next t) : TablesSafe s.block t.block := by
  unfold exec execRequestFrameSelectEnd at h
  refine outsideReset_tables h fun b => ?_
  dsimp only
  split
  · exact TablesSafe.trans (b := frameOver b p) (.of_ports rfl) (requestFrameOver_tables _ _ _ _)
  · exact TablesSafe.refl b

theorem fetchFrameEnd_tables {p : SelPort} {onBoundary : Bool} {s t : State}
    (h : exec (.fetchFrameEnd p onBoundary) s = .next t) : TablesSafe s.block t.block := by
  unfold exec execFetchFrameEnd at h
  refine outsideReset_tables h fun b => ?_
  dsimp only
  split
  · exact TablesSafe.trans (b := frameOver b p) (.of_ports rfl) (fetchEnds_tables _ _ _)
  · exact TablesSafe.refl b

theorem otherFrameEnd_tables {p : SelPort} {onBoundary : Bool} {s t : State}
    (h : exec (.otherFrameEnd p onBoundary) s = .next t) : TablesSafe s.block t.block := by
  unfold exec execOtherFrameEnd at h
  refine outsideReset_tables h fun b => ?_
  dsimp only
  split
  · exact .of_ports rfl
  · exact .of_ports rfl
  · exact TablesSafe.trans (b := frameOver b p) (.of_ports rfl) (raiseCause_tables _ _ _)
  all_goals exact TablesSafe.refl b

theorem discardingEnd_tables {p : SelPort} {s t : State} (h : exec (.discardingEnd p) s = .next t) :
    TablesSafe s.block t.block := by
  unfold exec execDiscardingEnd at h
  refine outsideReset_tables h fun b => .of_ports ?_
  split <;> rfl

theorem addressByte_tables {x : Byte} {s t : State} (h : exec (.addressByte x) s = .next t) :
    TablesSafe s.block t.block := by
  unfold exec execAddressByte at h
  refine outsideReset_tables h fun b => .of_ports ?_
  split
  · split
    · rfl
    · split
      · exact readAddressed_ports b
      · rfl
  · rfl

theorem stretchLimitExpiry_tables {s t : State} (h : exec .stretchLimitExpiry s = .next t) :
    TablesSafe s.block t.block := by
  unfold exec execStretchLimitExpiry at h
  refine outsideReset_tables h fun b => .of_ports ?_
  split <;> rfl

theorem selectByteComplete_tables {p : SelPort} {sdi : Byte} {s t : State}
    (h : exec (.selectByteComplete p sdi) s = .next t) : TablesSafe s.block t.block := by
  unfold exec execSelectByteComplete at h
  refine outsideReset_tables h fun b => ?_
  split
  · exact (frameByte_tables b p sdi).trans (.of_ports rfl)
  all_goals exact TablesSafe.refl b

theorem twoWireRequestByte_tables {x : Byte} {s t : State} (h : exec (.twoWireRequestByte x) s = .next t) :
    TablesSafe s.block t.block := by
  unfold exec execTwoWireRequestByte at h
  refine outsideReset_tables h fun b => .of_ports ?_
  split <;> rfl

theorem readByteAcknowledge_tables {ack : Bool} {s t : State} (h : exec (.readByteAcknowledge ack) s = .next t) :
    TablesSafe s.block t.block := by
  unfold exec execReadByteAcknowledge at h
  refine outsideReset_tables h fun b => ?_
  split
  · exact acknowledged_tables b ack
  · exact TablesSafe.refl b

theorem exec_tables (i : Instr) {s t : State} (h : exec i s = .next t) : TablesSafe s.block t.block := by
  cases i with
  | identify p tag => exact request_tables (r := .identify) h
  | storeInfo p tag => exact request_tables (r := .storeInfo) h
  | configure p tag mask rel stretch => exact request_tables (r := .configure mask rel stretch) h
  | events p tag clear => exact request_tables (r := .events clear) h
  | get p tag key offset maxLength => exact request_tables (r := .get key offset maxLength) h
  | stat p tag key => exact request_tables (r := .stat key) h
  | list p tag afterKey maxCount => exact request_tables (r := .list afterKey maxCount) h
  | put p tag key expected attrs payload => exact request_tables (r := .put key expected attrs payload) h
  | delete p tag key expected => exact request_tables (r := .delete key expected) h
  | beginBatch p tag => exact request_tables (r := .beginBatch) h
  | commit p tag => exact request_tables (r := .commit) h
  | abandon p tag => exact request_tables (r := .abandon) h
  | watch p tag key => exact request_tables (r := .watch key) h
  | unwatch p tag key => exact request_tables (r := .unwatch key) h
  | notes p tag maxCount => exact request_tables (r := .notes maxCount) h
  | reclaim p tag => exact request_tables (r := .reclaim) h
  | format p tag => exact request_tables (r := .format) h
  | requestFrameEnd p bytes => exact outsideReset_tables h (frameEnds_tables p bytes)
  | readStart k => exact .of_ports (readStart_ports h)
  | readFinish k => exact readFinish_tables h
  | engineGrant => exact engineGrant_tables h
  | engineOpStart => exact .of_ports (engineOpStart_ports h)
  | programComplete miss => exact ended_tables h (endProgram_tables s miss true)
  | programTimeout miss => exact ended_tables h (endProgram_tables s miss false)
  | eraseComplete residue => exact ended_tables h (endErase_tables s residue true)
  | eraseTimeout residue => exact ended_tables h (endErase_tables s residue false)
  | stepReadComplete => exact stepReadComplete_tables h
  | resetAssert miss residue => cases h; exact TablesSafe.of_reset _ rfl
  | resetEnd adm adr h0 h1 => exact resetEnd_tables h
  | release p => exact release_tables h
  | selectFall p clockHigh => exact selectFall_tables h
  | requestFrameSelectEnd p onBoundary => exact requestFrameSelectEnd_tables h
  | fetchFrameEnd p onBoundary => exact fetchFrameEnd_tables h
  | otherFrameEnd p onBoundary => exact otherFrameEnd_tables h
  | discardingEnd p => exact discardingEnd_tables h
  | busStart incomplete =>
    exact outsideReset_tables (f := fun b => busCondition b incomplete true) h fun b => busCondition_tables b _ _
  | busStop incomplete =>
    exact outsideReset_tables (f := fun b => busCondition b incomplete false) h fun b => busCondition_tables b _ _
  | addressByte x => exact addressByte_tables h
  | stretchLimitExpiry => exact stretchLimitExpiry_tables h
  | selectByteComplete p sdi => exact selectByteComplete_tables h
  | twoWireRequestByte x => exact twoWireRequestByte_tables h
  | readByteAcknowledge ack => exact readByteAcknowledge_tables h
  | releaseInputHigh p =>
    exact outsideReset_tables (f := fun b => modPort b p _) h fun _ => modPort_tables (tablesOk_congr rfl rfl rfl)

/-- A step runs the front command, or lets a millisecond pass, which touches no port. -/
theorem step_tables {s t : State} (h : step s = .next t) : TablesSafe s.block t.block := by
  unfold step at h
  split at h
  · rename_i i rest _
    exact exec_tables (s := { s with pending := rest }) i h
  · cases h
    refine .of_ports ?_
    unfold idleTick
    split <;> rfl

/-- Settles O58: every command keeps the tables of each port, so every step does. -/
theorem tablesStayWithinLimits : Obligations.TablesStayWithinLimits := fun _ _ hs h p => step_tables h p (hs p)

end Sys2Proof.Machine
end

section
/-! The write requests and FORMAT at their take: staged, a job created, held, or answered (R20 to R26, R102). -/

namespace Sys2Proof.Machine

open Safety

/-! ## A take that changes its own port -/

/-- A take that changes the registers of its port and nothing else. -/
theorem onBlock_modPort {s : State} {p : Port} {take : Block → Block} {f : PortState → PortState}
    (h : take s.block = modPort s.block p f) : onBlock s take = onPort s p f := by
  unfold onBlock onPort
  rw [h]

/-- A take that changes its port's registers and answers. -/
theorem onBlock_answer_modPort {s : State} {p : Port} {take : Block → Block} {f : PortState → PortState} {tag : Byte}
    {st : Status} {body : List Byte} (h : take s.block = answer (modPort s.block p f) p tag st body) :
    onBlock s take = onPort s p fun q => responded tag st body (f q) :=
  onBlock_modPort (h.trans (answer_modPort _ _ _ _ _ _))

/-- PUT and DELETE are taken as the write operation they carry. -/
theorem exec_writeCommand {s : State} {p : Port} (tag : Byte) (op : WriteOp) (h : canTake s p) (hm : mounted s) :
    exec (writeCommand p tag op) s = .next (onBlock (atTake s p) fun b => write b p tag op) := by
  obtain ⟨key, expected, kind⟩ := op
  cases kind with
  | put attrs payload => exact request_mounted tag _ h hm
  | delete => exact request_mounted tag _ h hm

/-! ## Staging (R22, R23) -/

theorem write_opened {b : Block} {p : Port} {ops : List WriteOp} (h : (b.ports.get p).batch = .opened ops) (tag : Byte)
    (op : WriteOp) : write b p tag op = stage b p tag ops op := by
  unfold write
  rw [h]

/-- An operation that fails a check of R22 is answered with its status. -/
theorem stage_refused {b : Block} {p : Port} {ops : List WriteOp} {op : WriteOp} {st : Status}
    (h : stageCheck ops op = some st) (tag : Byte) : stage b p tag ops op = answer b p tag st (seqIndex 0 0xFF) := by
  unfold stage
  rw [h]
  rfl

/-- An operation that passes them joins the list. -/
theorem stage_accepted {b : Block} {p : Port} {ops : List WriteOp} {op : WriteOp} (h : stageCheck ops op = none) (tag : Byte) :
    stage b p tag ops op = answer (setBatch b p (.opened (restage ops op))) p tag .ok (seqIndex 0 0xFF) := by
  unfold stage
  rw [h]
  rfl

/-- The batch limits of R22. -/
theorem stagingFits_iff (ops : List WriteOp) :
    stagingFits ops = true ↔ ops.length ≤ 8 ∧ (ops.map opBytes).sum ≤ 2048 := by
  simp [stagingFits, Config.maxBatchOps, Config.maxStagedBytes]

theorem stageCheck_badKey (ops : List WriteOp) {op : WriteOp} (hk : isKey op.key = false) :
    stageCheck ops op = some .badKey := by
  simp [stageCheck, hk]

theorem stageCheck_tooLong (ops : List WriteOp) {op : WriteOp} (hk : isKey op.key = true) (hl : 1024 < opBytes op) :
    stageCheck ops op = some .tooLong := by
  simp [stageCheck, hk, Config.maxPayload, hl]

/-- Behind the checks of key and length the batch limits decide. -/
theorem stageCheck_limits {ops : List WriteOp} {op : WriteOp} (hk : isKey op.key = true) (hl : opBytes op ≤ 1024) :
    stageCheck ops op = if stagingFits (restage ops op) then none else some .batchFull := by
  simp only [stageCheck, hk, Config.maxPayload, Nat.not_lt.2 hl, Bool.not_true, Bool.false_eq_true, if_false, Bool.not_eq_true']
  cases stagingFits (restage ops op) <;> rfl

/-- Settles O21: the checks of R22 in their order, and the list of R23. -/
theorem openBatchStagesWrites : Obligations.OpenBatchStagesWrites := by
  intro p tag op ops s h hm hb list run answer
  have taken : run = .next (onBlock (atTake s p) fun b => write b p tag op) := exec_writeCommand tag op h hm
  have staged := write_opened (b := (atTake s p).block) ((atTake_batch s p).trans hb) tag op
  have refused : ∀ st, stageCheck ops op = some st → run = answer st id := fun st hc =>
    taken.trans (congrArg _ (onBlock_answer (staged.trans (stage_refused hc tag))))
  have fits := stagingFits_iff (restage ops op)
  refine ⟨fun hk => ?_, fun hk hl => ?_, fun hk hl hf => ?_, fun hk hl hn hs => ?_⟩
  · exact refused _ (stageCheck_badKey ops hk)
  · exact refused _ (stageCheck_tooLong ops hk hl)
  · have exceeded : stagingFits (restage ops op) ≠ true := fun k => by
      obtain ⟨hn, hs⟩ := fits.1 k
      exact hf.elim (Nat.not_lt.2 hn) (Nat.not_lt.2 hs)
    exact refused _ ((stageCheck_limits hk hl).trans (if_neg exceeded))
  · have passed : stageCheck ops op = none := (stageCheck_limits hk hl).trans (if_pos (fits.2 ⟨hn, hs⟩))
    exact taken.trans (congrArg _ (onBlock_answer_modPort (staged.trans (stage_accepted passed tag))))

/-! ## Jobs created and requests held (R25, R26) -/

theorem write_closed {b : Block} {p : Port} (h : (b.ports.get p).batch = .closed) (tag : Byte) (op : WriteOp) :
    write b p tag op = single b p tag op := by
  unfold write
  rw [h]

theorem createJob_eq (b : Block) (p : Port) (tag : Byte) (j : Job) :
    createJob b p tag j = modPort b p fun q => { q with slot := .working tag .job, job := some j } := rfl

theorem holdRequest_eq (b : Block) (p : Port) (tag : Byte) (w : Held) :
    holdRequest b p tag w = modPort b p fun q => { q with slot := .working tag (.held w) } := rfl

theorem jobOf_isSome {b : Block} {p : Port} (h : (b.ports.get p).job ≠ none) : (jobOf b p).isSome = true :=
  Option.isSome_iff_ne_none.2 h

/-- With no job at the port a single write in READY is a new one (R25). -/
theorem submitWrite_created {b : Block} {p : Port} (hr : b.storeState = .ready) (hj : (b.ports.get p).job = none) (tag : Byte)
    (op : WriteOp) : submitWrite b p tag op = createJob b p tag (newJob [op] false false) := by
  simp [submitWrite, hr, jobOf, hj]

/-- With a job at the port it is held (R26). -/
theorem submitWrite_held {b : Block} {p : Port} (hr : b.storeState = .ready) (hj : (b.ports.get p).job ≠ none) (tag : Byte)
    (op : WriteOp) : submitWrite b p tag op = holdRequest b p tag (.write op) := by
  simp [submitWrite, hr, jobOf_isSome hj]

theorem submitWrite_state {b : Block} (p : Port) (hr : b.storeState ≠ .ready) (tag : Byte) (op : WriteOp) :
    submitWrite b p tag op = answer b p tag .state (seqIndex 0 0xFF) := by
  simp only [submitWrite, beq_iff_eq, hr, if_false]
  rfl

theorem single_tooLong (b : Block) (p : Port) (tag : Byte) {op : WriteOp} (hl : 1024 < opBytes op) :
    single b p tag op = answer b p tag .tooLong (seqIndex 0 0xFF) := if_pos hl

theorem single_fits (b : Block) (p : Port) (tag : Byte) {op : WriteOp} (hl : opBytes op ≤ 1024) :
    single b p tag op = submitWrite b p tag op := if_neg (Nat.not_lt.2 hl)

/-- Settles O22: the length test, the store state, and the job that the port still has. -/
theorem singleWritesCreateAJob : Obligations.SingleWritesCreateAJob := by
  intro p tag op s h hm hb run refuse
  have taken : run = .next (onBlock (atTake s p) fun b => write b p tag op) := exec_writeCommand tag op h hm
  have alone := write_closed (b := (atTake s p).block) ((atTake_batch s p).trans hb) tag op
  have submitted := fun hl => alone.trans (single_fits _ p tag hl)
  refine ⟨fun hl => ?_, fun hl hs => ?_, fun hl hs => ⟨fun hj => ?_, fun hj => ?_⟩⟩
  · exact taken.trans (congrArg _ (onBlock_answer (alone.trans (single_tooLong _ p tag hl))))
  · have state : (atTake s p).block.storeState ≠ .ready := by rwa [atTake_storeState]
    exact taken.trans (congrArg _ (onBlock_answer ((submitted hl).trans (submitWrite_state p state tag op))))
  · have ready : (atTake s p).block.storeState = .ready := by rwa [atTake_storeState]
    have without : ((atTake s p).block.ports.get p).job = none := by rwa [atTake_job]
    exact taken.trans (congrArg _ (onBlock_modPort ((submitted hl).trans (submitWrite_created ready without tag op))))
  · have ready : (atTake s p).block.storeState = .ready := by rwa [atTake_storeState]
    have busy : ((atTake s p).block.ports.get p).job ≠ none := by rwa [atTake_job]
    exact taken.trans (congrArg _ (onBlock_modPort ((submitted hl).trans (submitWrite_held ready busy tag op))))

/-! ## COMMIT (R24) -/

theorem submitCommit_closed {b : Block} {p : Port} (h : (b.ports.get p).batch = .closed) (tag : Byte) :
    submitCommit b p tag = answer b p tag .noBatch (seqIndex 0 0xFF) := by
  unfold submitCommit
  rw [h]
  rfl

/-- COMMIT of an OPEN context: the table of R24. -/
theorem submitCommit_opened {b : Block} {p : Port} {ops : List WriteOp} (h : (b.ports.get p).batch = .opened ops) (tag : Byte) :
    submitCommit b p tag =
      if b.storeState = .ready then
        if ops = [] then answer (setBatch b p .closed) p tag .ok (seqIndex 0 0xFF)
        else if (b.ports.get p).job = none then setBatch (createJob b p tag (newJob ops true false)) p .committing
        else holdRequest b p tag .commit
      else answer b p tag .state (seqIndex 0 0xFF) := by
  unfold submitCommit
  rw [h]
  cases hj : (b.ports.get p).job <;> simp only [beq_iff_eq, List.isEmpty_iff, jobOf, hj] <;> rfl

/-- Settles O23: the rows of R24, and the hold of R26. -/
theorem commitActsByTheContext : Obligations.CommitActsByTheContext := by
  intro p tag s h hm run answer
  have taken : run = .next (onBlock (atTake s p) fun b => submitCommit b p tag) := request_mounted tag _ h hm
  refine ⟨fun hb => ?_, fun ops hb => ?_⟩
  · have closed : ((atTake s p).block.ports.get p).batch = .closed := (atTake_batch s p).trans hb
    exact taken.trans (congrArg _ (onBlock_answer (submitCommit_closed closed tag)))
  · have table := submitCommit_opened (b := (atTake s p).block) ((atTake_batch s p).trans hb) tag
    rw [atTake_storeState, atTake_job] at table
    refine ⟨fun hs => ?_, fun hs hn => ?_, fun hs hn => ⟨fun hj => ?_, fun hj => ?_⟩⟩
    · rw [if_neg hs] at table
      exact taken.trans (congrArg _ (onBlock_answer table))
    · rw [if_pos hs, if_pos hn] at table
      exact taken.trans (congrArg _ (onBlock_answer_modPort table))
    · rw [if_pos hs, if_neg hn, if_pos hj] at table
      exact taken.trans (congrArg _ (onBlock_modPort (table.trans (modPort_modPort _ _ _ _))))
    · rw [if_pos hs, if_neg hn, if_neg hj] at table
      exact taken.trans (congrArg _ (onBlock_modPort table))

/-! ## BEGIN and ABANDON (R20, R21) -/

/-- BEGIN opens a CLOSED context (R20). -/
theorem takeBegin_closed {b : Block} {p : Port} (hm : b.storeState ≠ .mounting) (h : (b.ports.get p).batch = .closed)
    (tag : Byte) : takeBegin p tag b = answer (setBatch b p (.opened [])) p tag .ok (seqIndex 0 0xFF) := by
  unfold takeBegin
  rw [afterMount_mounted p tag _ hm]
  simp only [h]
  rfl

theorem takeBegin_opened {b : Block} {p : Port} {ops : List WriteOp} (hm : b.storeState ≠ .mounting)
    (h : (b.ports.get p).batch = .opened ops) (tag : Byte) :
    takeBegin p tag b = answer b p tag .batchOpen (seqIndex 0 0xFF) := by
  unfold takeBegin
  rw [afterMount_mounted p tag _ hm]
  simp only [h]
  rfl

theorem takeAbandon_closed {b : Block} {p : Port} (hm : b.storeState ≠ .mounting) (h : (b.ports.get p).batch = .closed)
    (tag : Byte) : takeAbandon p tag b = answer b p tag .noBatch (seqIndex 0 0xFF) := by
  unfold takeAbandon
  rw [afterMount_mounted p tag _ hm]
  simp only [h]
  rfl

/-- ABANDON closes an OPEN context (R21). -/
theorem takeAbandon_opened {b : Block} {p : Port} {ops : List WriteOp} (hm : b.storeState ≠ .mounting)
    (h : (b.ports.get p).batch = .opened ops) (tag : Byte) :
    takeAbandon p tag b = answer (setBatch b p .closed) p tag .ok (seqIndex 0 0xFF) := by
  unfold takeAbandon
  rw [afterMount_mounted p tag _ hm]
  simp only [h]
  rfl

/-- Settles O24: each acts by the port's batch context. -/
theorem beginAndAbandonMoveTheContext : Obligations.BeginAndAbandonMoveTheContext := by
  intro p tag s h hm answer
  have begun : exec (.beginBatch p tag) s = .next (onBlock (atTake s p) (takeBegin p tag)) := request_taken _ h
  have abandoned : exec (.abandon p tag) s = .next (onBlock (atTake s p) (takeAbandon p tag)) := request_taken _ h
  have serves : (atTake s p).block.storeState ≠ .mounting := by rwa [atTake_storeState]
  refine ⟨fun hb => ?_, fun ops hb => ?_⟩ <;> rw [← atTake_batch] at hb
  · exact ⟨begun.trans (congrArg _ (onBlock_answer_modPort (takeBegin_closed serves hb tag))),
      abandoned.trans (congrArg _ (onBlock_answer (takeAbandon_closed serves hb tag)))⟩
  · exact ⟨begun.trans (congrArg _ (onBlock_answer (takeBegin_opened serves hb tag))),
      abandoned.trans (congrArg _ (onBlock_answer_modPort (takeAbandon_opened serves hb tag)))⟩

/-! ## FORMAT (R102) -/

theorem submitFormat_notAdmin {b : Block} {p : Port} (h : b.admin ≠ some p) (tag : Byte) :
    submitFormat b p tag = answer b p tag .notAdmin (seqIndex 0 0xFF) := by
  simp only [submitFormat, beq_iff_eq, h, if_false]
  rfl

theorem submitFormat_held {b : Block} {p : Port} (h : b.admin = some p) (hj : (b.ports.get p).job ≠ none) (tag : Byte) :
    submitFormat b p tag = holdRequest b p tag .format := by
  simp [submitFormat, h, jobOf_isSome hj]

theorem submitFormat_created {b : Block} {p : Port} (h : b.admin = some p) (hj : (b.ports.get p).job = none)
    (hm : b.storeState ≠ .mounting) (hf : b.storeState ≠ .formatting) (tag : Byte) :
    submitFormat b p tag = createJob b p tag (newJob [] false true) := by
  unfold submitFormat
  simp only [h, beq_self_eq_true, if_true, jobOf, hj]
  cases hs : b.storeState with
  | mounting => exact absurd hs hm
  | formatting => exact absurd hs hf
  | ready | readOnly | unformatted => rfl

/-- Settles O25: the administrator alone, and the job that its port still has. -/
theorem formatCreatesAJob : Obligations.FormatCreatesAJob := by
  intro p tag s h hm run
  have taken : run = .next (onBlock (atTake s p) fun b => submitFormat b p tag) := request_mounted tag _ h hm
  refine ⟨fun ha => ?_, fun ha => ?_⟩
  · have other : (atTake s p).block.admin ≠ some p := by rwa [atTake_admin]
    exact taken.trans (congrArg _ (onBlock_answer (submitFormat_notAdmin other tag)))
  · have admin : (atTake s p).block.admin = some p := (atTake_admin s p).trans ha
    refine ⟨fun hj => ?_, fun hj hf => ?_⟩
    · have busy : ((atTake s p).block.ports.get p).job ≠ none := by rwa [atTake_job]
      exact taken.trans (congrArg _ (onBlock_modPort (submitFormat_held admin busy tag)))
    · have without : ((atTake s p).block.ports.get p).job = none := by rwa [atTake_job]
      have created := submitFormat_created admin without (by rwa [atTake_storeState]) (by rwa [atTake_storeState]) tag
      exact taken.trans (congrArg _ (onBlock_modPort created))

end Sys2Proof.Machine
end

section
/-! A take that is refused, the erase step of a cycle, and attempts that fail before the commit point (R27, R28, R30, R36, R37,
R40, R44, R46, R67, R69, R82, R83). -/

namespace Sys2Proof.Machine

open Safety

/-! ## A take that is refused (R27, R28, R40) -/

theorem takeJob_refused {b : Block} {p : Port} {j : Job} {st : Status} {index : Byte}
    (h : takeChecks b p j.ops = .refuse st index) : takeJob b p j = finishJob b p st 0 index := by
  unfold takeJob
  rw [h]

/-- Settles O34: the take ends the job, and the end of a job touches its port and the engine's holder alone. -/
theorem refusedTakeChangesNothing : Obligations.RefusedTakeChangesNothing := by
  intro p tag j st index s hr hf hg hj hn hd hs hc
  have refused : takeChecks { s.block with lastGranted := .job p } p j.ops = .refuse st index :=
    (takeChecks_lastGranted _ _ _ _).trans hc
  have ends := finishJob_eq (b := { s.block with lastGranted := .job p }) hj hd hs st 0 index
  refine ⟨_, exec_grant_job hr hf hg hj hn, ?_⟩
  simp only [onBlock, takeJob_refused refused, ends, endStretch_ports, endStretch_holder, endStretch_dir, endStretch_usage,
    endStretch_storeSeq, endStretch_policy, endStretch_issued, evalTriggers_ports, evalTriggers_holder, evalTriggers_dir,
    evalTriggers_usage, evalTriggers_storeSeq, evalTriggers_policy, evalTriggers_issued, modPort_get]
  exact ⟨rfl, trivial, trivial, fun q hq => modPort_get_other _ _ hq, trivial, rfl, rfl, rfl, rfl, rfl, trivial⟩

/-! ## The end of a cycle (R30, R83) -/

/-- With READ_ONLY entered the sector table stands. -/
@[simp] theorem row_enterReadOnly (b : Block) (x : Sector) : row (enterReadOnly b) x = row b x := by
  unfold enterReadOnly
  split <;> rfl

/-- The end of a cycle moves a row only from FULL or OLDGEN. -/
theorem row_endCycle (failed : Bool) {b : Block} {x : Sector} (h : (row b x).state ≠ .full)
    (h' : (row b x).state ≠ .oldgen) : row (endCycle failed b) x = row b x := by
  unfold endCycle
  dsimp only
  split
  · split
    · exact row_enterReadOnly _ x
    · exact row_evalTriggers (requeueAll (clearCycle b)) h h'
  · rfl

theorem endCycle_holder (failed : Bool) (b : Block) : (endCycle failed b).holder = b.holder := by
  unfold endCycle enterReadOnly
  dsimp only
  repeat' split
  all_goals first | rfl | exact evalTriggers_holder _

/-- A requeued job does not wait (R30). -/
theorem requeueJob_state (j : Job) : (requeueJob j).state ≠ .waitSpace := by
  unfold requeueJob
  split
  · simp
  all_goals simp_all

/-- No port's job waits for space. -/
def NoneWaits (b : Block) : Prop := ∀ p j, (b.ports.get p).job = some j → j.state ≠ .waitSpace

theorem requeueAll_noneWaits (b : Block) : NoneWaits (requeueAll b) := by
  intro p j h
  simp only [requeueAll, PerPort.get_map, Option.map_eq_some_iff] at h
  obtain ⟨i, -, rfl⟩ := h
  exact requeueJob_state i

/-- When a cycle has ended no job waits for space (R30, R83). -/
theorem endCycle_noneWaits (failed : Bool) (b : Block) : NoneWaits (endCycle failed b) := by
  unfold endCycle
  dsimp only
  split
  · split
    · unfold enterReadOnly
      split
      · exact requeueAll_noneWaits _
      · exact requeueAll_noneWaits _
    · unfold NoneWaits
      rw [evalTriggers_ports]
      exact requeueAll_noneWaits _
  · exact requeueAll_noneWaits _

/-! ## The erase of a cycle's victim (R44, R46, R82) -/

/-- A cause already raised stands when another is raised. -/
theorem fault_stands {z : BitVec 16} (c : BitVec 16) (h : z &&& causeFault = causeFault) :
    (z ||| c) &&& causeFault = causeFault := by
  rw [BitVec.and_comm, BitVec.and_or_distrib_left, BitVec.and_comm, h]
  ext i hi
  simp only [BitVec.getElem_or, BitVec.getElem_and]
  cases causeFault[i] <;> simp

theorem evalSpaceLow_fault {b : Block} {q : Port} (h : (b.ports.get q).sticky &&& causeFault = causeFault) :
    ((evalSpaceLow b).ports.get q).sticky &&& causeFault = causeFault := by
  unfold evalSpaceLow
  split
  · exact h
  · exact h
  all_goals
    dsimp only
    split
    · rw [raiseAll_get]
      exact fault_stands _ h
    · exact h

/-- The row after an erase, whatever its verify says (R82). -/
theorem row_eraseDone (b : Block) (x : Sector) (ok : Bool) :
    row (eraseDone b x ok) x =
      { state := if ok then .erased else .retired, eraseCount := (row b x).eraseCount, openSeq := none, generation := none
        writeOffset := none } := by
  unfold eraseDone
  rw [row_evalSpaceLow, row_setRow_same]
  cases ok <;> simp [erasedRow]

/-- The end of an erase in ERASING: the holder goes on with the verify's result (R44, R46, R48). -/
theorem endErase_erasing {s : State} {op : EngineOp} {elapsed suspends : Nat}
    (he : s.block.engine = .erasing op elapsed suspends) (residue : List (Nat × Byte)) (inTime : Bool) :
    endErase s residue inTime =
      { s with
          array := eraseRun s.array op.sector residue
          block := opEnded s.block (inTime && verifyOk (eraseRun s.array op.sector residue) op.sector) [] } := by
  simp only [endErase, currentErase, he]

/-- The end of the erase step of a cycle (R82). -/
theorem opEnded_victimErase {b : Block} {x : Sector} (h : b.holder = .reclaim (.erase x)) (ok : Bool) (bytes : List Byte) :
    opEnded b ok bytes =
      endStretch
        (if ok then cycleStepEnd false (eraseDone { b with engine := .idle } x ok)
        else
          { issueMark (eraseDone { b with engine := .idle } x ok) x retiredMarkOffset with
            holder := .reclaim (.retire x) }) := by
  simp only [opEnded, holderNext, h, reclaimStep]

theorem row_endStretch (b : Block) (x : Sector) : row (endStretch b) x = row b x := by
  unfold row
  rw [endStretch_sectors]

/-- An erase that fails its verify or its time raises FAULT in all ports (R44, R82, R141). -/
theorem eraseDone_fault {b : Block} (h : b.storeState ≠ .mounting) (x : Sector) (q : Port) :
    ((eraseDone b x false).ports.get q).sticky &&& causeFault = causeFault := by
  refine evalSpaceLow_fault ?_
  rw [setRow_ports]
  simp only [Bool.false_eq_true, if_false, raiseFault_get h]
  exact raised_sticky _

/-- The part after the erase step that ends a cycle. -/
theorem cycleStepEnd_erased (b : Block) (x : Sector) :
    row (cycleStepEnd false (eraseDone b x true)) x = row (eraseDone b x true) x ∧
      (cycleStepEnd false (eraseDone b x true)).holder = .free ∧
      (cycleStepEnd false (eraseDone b x true)).engine = b.engine ∧ NoneWaits (cycleStepEnd false (eraseDone b x true)) := by
  have erased : (row (eraseDone b x true) x).state = .erased := by rw [row_eraseDone]; rfl
  refine ⟨row_endCycle (b := { eraseDone b x true with holder := .free }) false ?_ ?_, endCycle_holder _ _, ?_,
    endCycle_noneWaits _ _⟩
  · exact erased ▸ by decide
  · exact erased ▸ by decide
  · exact (keeps_cycleStepEnd (keeps_eraseDone (Keeps.refl true b) x true) false).engine

/-- Settles O42: a verified erase ends the cycle; one that is ended at its time limit retires the sector. -/
theorem eraseStepEndsByItsVerify : Obligations.EraseStepEndsByItsVerify := by
  intro x elapsed suspends residue s hr he hh hm
  have ended := endErase_erasing he
  constructor
  · have verified : exec (.eraseComplete []) s =
        .next { s with array := eraseRun s.array x [], block := opEnded s.block true [] } := by
      show execEraseComplete [] s = _
      simp only [execEraseComplete, hr, Bool.false_eq_true, if_false, ended, verifyOk_eraseRun, Bool.and_self]
    obtain ⟨stays, holder, engine, noneWaits⟩ := cycleStepEnd_erased { s.block with engine := .idle } x
    have retained := row_eraseDone { s.block with engine := .idle } x true
    refine ⟨_, verified, ?_⟩
    dsimp only
    rw [opEnded_victimErase hh, if_pos rfl, row_endStretch, endStretch_holder, endStretch_engine, endStretch_ports, stays,
      retained]
    exact ⟨rfl, rfl, holder, engine, noneWaits⟩
  · have timedOut : exec (.eraseTimeout residue) s =
        .next { s with array := eraseRun s.array x residue, block := opEnded s.block false [] } := by
      show execEraseTimeout residue s = _
      simp only [execEraseTimeout, hr, Bool.false_eq_true, if_false, ended, Bool.false_and]
    have retained := row_eraseDone { s.block with engine := .idle } x false
    refine ⟨_, timedOut, ?_⟩
    dsimp only
    rw [opEnded_victimErase hh, if_neg Bool.false_ne_true, row_endStretch, endStretch_holder, endStretch_engine,
      endStretch_ports, endStretch_issued]
    refine ⟨congrArg SectorRow.state retained, eraseDone_fault (b := { s.block with engine := .idle }) hm x, rfl, rfl, ?_⟩
    exact (keeps_eraseDone (Keeps.refl true _) x false).engine

/-! ## A program before the commit point ends (R36, R37, R48) -/

/-- The end of a program before the commit point is the job's next step. -/
theorem opEnded_beforeCommit {b : Block} {p : Port} {w : JobWork} (h : b.holder = .job p w) (hw : beforeCommit w = true)
    (ok : Bool) (bytes : List Byte) : opEnded b ok bytes = endStretch (commitStep { b with engine := .idle } p w ok) := by
  unfold opEnded holderNext
  rw [h]
  cases w <;> first | rfl | cases hw

/-- The end of a program: the holder goes on with its result (R43, R46, R48). -/
theorem exec_program_end {s : State} {x : Sector} {o elapsed : Nat} {bytes miss : List Byte} {i : Instr}
    (hi : i = .programComplete miss ∨ i = .programTimeout miss) (hr : s.block.inReset = false)
    (he : s.block.engine = .programming { kind := .program bytes, sector := x, offset := o } elapsed) :
    ∃ ok, (i = .programTimeout miss → ok = false) ∧
      exec i s = .next { s with array := programRun s.array x o bytes miss, block := opEnded s.block ok [] } := by
  rcases hi with rfl | rfl
  · refine ⟨readbackOk (programRun s.array x o bytes miss) x o bytes, fun e => (by cases e), ?_⟩
    show execProgramComplete miss s = _
    simp only [execProgramComplete, hr, Bool.false_eq_true, if_false, endProgram, currentProgram, he, Bool.true_and]
  · refine ⟨false, fun _ => rfl, ?_⟩
    show execProgramTimeout miss s = _
    simp only [execProgramTimeout, hr, Bool.false_eq_true, if_false, endProgram, currentProgram, he, Bool.false_and]

/-- A failed program of an entry at the head has the ACTIVE sector closed (R36, R66). -/
theorem commitStep_entryFailed {b : Block} {p : Port} {what : JobEntry} {img : EntryImage} {st : PlaceStage} {x a : Sector}
    {n o : Nat} (hw : beforeCommit (.place what img st) = true)
    (hst : st = .header x n ∨ st = .written x n ∨ st = .payload x n ∨ st = .complete x n) (hh : head b = some (a, o)) :
    commitStep b p (.place what img st) false = setWork (issueClose b a) p (.failClose a) := by
  have failed : placeNext b img st false = .failed b := by rcases hst with rfl | rfl | rfl | rfl <;> rfl
  have attempt : entryFailed b p what = attemptFailed b p := by
    cases what with
    | member i => rfl
    | endMarker => rfl
    | settleCopy i second => cases hw
  unfold commitStep
  simp only [failed, attempt, attemptFailed, hh]

/-! ## The close after a failed attempt (R36) -/

theorem endStretch_retryCount (b : Block) : (endStretch b).retryCount = b.retryCount := by rw [endStretch_eq]

/-- The close of the only ACTIVE sector leaves none. -/
theorem closeDone_noActive {b : Block} {x : Sector} (h : ∀ z, (row b z).state = .active → z = x) (ok : Bool) (z : Sector) :
    (row (closeDone b x ok) z).state ≠ .active := fun e => by
  obtain ⟨hz, ha⟩ := (closeDone_state b x z ok (by decide) (by decide) (by decide)).1 e
  exact hz (h z ha)

/-- The close of an ACTIVE sector leaves the ERASED ones. -/
theorem closeDone_erased {b : Block} {x : Sector} (h : (row b x).state = .active) (ok : Bool) (z : Sector) :
    (row (closeDone b x ok) z).state = .erased ↔ (row b z).state = .erased := by
  rw [closeDone_state b x z ok (by decide) (by decide) (by decide)]
  refine ⟨And.right, fun e => ⟨?_, e⟩⟩
  rintro rfl
  rw [h] at e
  cases e

theorem erasedCount_congr {a b : Block} (h : ∀ z, (row a z).state = .erased ↔ (row b z).state = .erased) :
    erasedCount a = erasedCount b := congrArg List.length (inState_congr h)

/-- What follows the close after a failed attempt, in the figures of the part as the close began (R36, R37, R69). -/
theorem afterFail_closed {b : Block} {p : Port} {tag : Byte} {j : Job} {x : Sector} (hr : b.storeState = .ready)
    (hj : (b.ports.get p).job = some j) (hd : j.detached = false) (hs : (b.ports.get p).slot = .working tag .job)
    (hx : (row b x).state = .active) (ha : ∀ z, (row b z).state = .active → z = x) (ok : Bool) :
    AfterFail b p tag j (afterFail (closeDone b x ok) p) := by
  have kept := jobs_closeDone b x ok
  have after := afterFail_spec (c := closeDone b x ok) (p := p) (tag := tag) (j := j) (kept.storeState.trans hr)
    ((kept.job p).trans hj) hd ((kept.slot p).trans hs) (closeDone_noActive ha ok)
  have counts : ∀ z, (row (closeDone b x ok) z).eraseCount = (row b z).eraseCount := fun z => eraseCount_closeDone b x z ok
  have erased := erasedCount_congr (closeDone_erased hx ok)
  have limit : seqLimitReached (closeDone b x ok) = seqLimitReached b := by unfold seqLimitReached; rw [kept.storeSeq]
  obtain ⟨retryCount, fault, restart, successor, lost⟩ := after
  simp only [erased, limit, isOpenChoice_congr counts (closeDone_erased hx ok), countOf_congr counts, kept.generation,
    kept.storeSeq, kept.retryCount, kept.batch] at retryCount restart successor lost
  exact ⟨retryCount, fault, restart, successor, lost⟩

/-- The end of the event changes port 2's framing alone. -/
theorem AfterFail.endStretch {c t : Block} {p : Port} {tag : Byte} {j : Job} (h : AfterFail c p tag j t) :
    AfterFail c p tag j (endStretch t) := by
  obtain ⟨retryCount, fault, restart, successor, lost⟩ := h
  constructor <;>
    simp only [endStretch_retryCount, endStretch_ports, endStretch_issued, endStretch_holder, endStretch_storeSeq,
      endStretch_storeState] <;> assumption

theorem EndedWithout.endStretch {a t : Block} {p : Port} {tag : Byte} {j : Job} {st : Status}
    (h : EndedWithout a p tag j st t) : EndedWithout a p tag j st (endStretch t) := by
  obtain ⟨slot, job, batch, holder, storeSeq, retryCount, storeState, sticky⟩ := h
  constructor <;>
    simp only [endStretch_retryCount, endStretch_ports, endStretch_holder, endStretch_storeSeq, endStretch_storeState] <;>
    assumption

/-- The limit of R31, as a number. -/
theorem seqLimitReached_iff (b : Block) : seqLimitReached b = true ↔ 0xFFFFFF00 ≤ b.storeSeq.toNat + 1 := by
  unfold seqLimitReached
  exact decide_eq_true_iff

/-! ## The successor's open (R69) -/

theorem records_startCycle {a b : Block} (h : RecordsKept a b) (v : Sector) : RecordsKept a (startCycle b v) :=
  records_update h _ _ _ _ _ _ _ _ _ _ _ _ _

theorem jobs_startCycle (b : Block) (v : Sector) : JobsKept b (startCycle b v) :=
  ⟨rfl, rfl, rfl, rfl, fun _ => rfl, fun _ => rfl, fun _ => rfl⟩

/-- The part as the successor is open, before its job ends (R69). -/
def successorOpened (b : Block) (x : Sector) (last : Bool) : Block :=
  if last && (openDone b x).cycle == .idle then
    match victim (openDone b x) with
    | some v => startCycle (openDone b x) v
    | none => openDone b x
  else openDone b x

theorem successorDone_eq (b : Block) (p : Port) (x : Sector) (last : Bool) (st : Status) :
    successorDone b p x last st = finishJob (successorOpened b x last) p st 0 0xFF := rfl

/-- The cycle that may start then has another victim: the successor stays ACTIVE (R69, R75). -/
theorem successorOpened_spec (b : Block) (x : Sector) (last : Bool) :
    RecordsKept b (successorOpened b x last) ∧ JobsKept b (successorOpened b x last) ∧
      (row (successorOpened b x last) x).state = .active := by
  have records := records_openDone (RecordsKept.refl b) x
  have jobs := jobs_openDone b x
  have active := openDone_active b x
  unfold successorOpened
  split
  · split
    · rename_i v hv
      refine ⟨records_startCycle records v, jobs.trans (jobs_startCycle _ v), ?_⟩
      obtain ⟨⟨victim, -⟩, -⟩ := victim_isVictim hv
      have other : x ≠ v := by
        rintro rfl
        rw [active] at victim
        rcases victim with h | h <;> cases h
      exact (congrArg SectorRow.state (row_setRow_other (openDone b x) _ other)).trans active
    · exact ⟨records, jobs, active⟩
  · exact ⟨records, jobs, active⟩

/-- The end of a job moves a row only from FULL or OLDGEN. -/
theorem finishJob_active {b : Block} {p : Port} {j : Job} {tag : Byte} {x : Sector} (hj : (b.ports.get p).job = some j)
    (hd : j.detached = false) (hs : (b.ports.get p).slot = .working tag .job) (st : Status) (h : (row b x).state = .active) :
    (row (finishJob b p st 0 0xFF) x).state = .active := by
  rw [finishJob_eq hj hd hs, state_evalTriggers _ _ (by decide) (by decide) (by decide)]
  exact h

/-- Settles O41: the failed program, the close after it, and the successor that has opened. -/
theorem failedAttemptsEndWithoutEffect : Obligations.FailedAttemptsEndWithoutEffect := by
  intro p tag j bytes miss x o elapsed s hr hm hready hj hd hs ho he b recordsKept ended retryCounted lastActive limit opened
  have kept : ∀ {c : Block} (array : List Host.Cell), RecordsKept b c → recordsKept { s with array := array, block := c } :=
    fun _ h => ⟨h.dir, h.usage, h.policy, h.notes⟩
  refine ⟨fun w hw hb => ?_, fun i hi hw hx => ?_, fun last st hw hbytes => ?_⟩
  · obtain ⟨ok, failed, ends⟩ := exec_program_end (.inr rfl) hr he
    rw [failed rfl, opEnded_beforeCommit hw hb] at ends
    have same : RecordsKept b { b with engine := .idle } := ⟨rfl, rfl, rfl, fun _ => rfl⟩
    refine ⟨_, ends, kept _ (records_endStretch (records_commitStep_failed same p hb)), ?_⟩
    rintro what img st a n rfl hst hh
    rw [commitStep_entryFailed (b := { s.block with engine := .idle }) hb hst hh, endStretch_issued, endStretch_holder]
    exact ⟨rfl, rfl⟩
  · obtain ⟨ok, -, ends⟩ := exec_program_end hi hr he
    rw [opEnded_beforeCommit hw rfl] at ends
    obtain ⟨active, only⟩ := hx
    obtain ⟨retryCount, fault, restart, successor, lost⟩ :=
      (afterFail_closed (b := { b with engine := .idle }) hready hj hd hs active only ok).endStretch
    have same : RecordsKept b { b with engine := .idle } := ⟨rfl, rfl, rfl, fun _ => rfl⟩
    have limited := seqLimitReached_iff { b with engine := .idle }
    refine ⟨_, ends, kept _ (records_endStretch (records_afterFail (records_closeDone same x ok) p)),
      ⟨retryCount.trans (satInc_eq _), fault⟩, fun h3 h2 hl => ?_, fun st h1 h => ?_, fun h => ?_⟩
    · exact restart h3 h2 (Bool.eq_false_iff.2 fun e => hl (limited.1 e))
    · refine successor st h1 (h.imp_right fun ⟨h3, h2, hl, hst⟩ => ⟨h3, h2, limited.2 hl, hst⟩)
    · obtain ⟨slot, job, batch, holder, storeSeq, readOnly⟩ := lost h
      exact ⟨⟨slot, job, batch, holder, storeSeq⟩, readOnly⟩
  · subst hbytes
    have ends := exec_mark_complete hr he ho hm
    rw [opEnded_beforeCommit hw rfl] at ends
    obtain ⟨records, jobs, active⟩ := successorOpened_spec { b with engine := .idle } x last
    have job := (jobs.job p).trans hj
    have slot := (jobs.slot p).trans hs
    have done := (finishJob_ended job hd slot st).endStretch
    have stays := finishJob_active job hd slot st active
    have same : RecordsKept b (successorOpened { b with engine := .idle } x last) :=
      ⟨records.dir, records.usage, records.policy, records.notes⟩
    refine ⟨_, ends, kept _ (records_endStretch (records_finishJob same p st 0 0xFF)), ?_, ?_⟩
    · exact ⟨done.slot, done.job, done.batch.trans (by rw [jobs.batch p]), done.holder, done.storeSeq.trans jobs.storeSeq⟩
    · exact (congrArg SectorRow.state (row_endStretch _ x)).trans stays

end Sys2Proof.Machine
end

section
/-! RELEASE (R41, R61, R127, R128, R153, R164). -/

namespace Sys2Proof.Machine

open Safety

/-! ## What a release makes of each piece -/

/-- A QUEUED or waiting job is removed, a RUNNING one detached (R41). -/
theorem releasedJob_eq (j : Job) : releasedJob j = if j.state = .running then some { j with detached := true } else none := by
  unfold releasedJob
  cases j.state <;> rfl

/-- The registers of a released port (R41, R128): slot EMPTY, RELEASED raised, batch CLOSED; the rest stands. -/
theorem releasedPort_eq (q : PortState) :
    releasedPort q =
      { q with
          slot := .empty
          fetchProgress := 0
          sticky := q.sticky ||| 0x0040
          batch := .closed
          releaseSpent := true
          job :=
            match q.job with
            | some j => if j.state = .running then some { j with detached := true } else none
            | none => none } := by
  unfold releasedPort
  cases q.job with
  | none => rfl
  | some j => exact congrArg (fun job => { releasedPort q with job := job }) (releasedJob_eq j)

/-- A frame in progress is discarded (R153). -/
theorem discardFrame_eq (f : SelectFraming) :
    discardFrame f = if f.state = .frame then SelectFraming.reset .discarding else f := by
  unfold discardFrame
  cases f.state <;> rfl

/-- A transaction is discarded, and so is an address byte in reception (R164). -/
theorem discardTransaction_eq (w : WireFraming) :
    discardTransaction w =
      if w.state ≠ .ignoring ∧ (w.state = .idle → w.address ≠ none) then WireFraming.cleared .ignoring else w := by
  unfold discardTransaction
  cases w.state with
  | idle => cases w.address <;> simp
  | addressedWrite | addressedRead | stretching | ignoring => simp

/-- The select ports' framing after the release of port p: a frame of p is discarded (R153). -/
theorem releaseFraming_select (b : Block) (p : Port) (x : SelPort) :
    (releaseFraming b p).select.get x =
      if x.port = p ∧ (b.select.get x).state = .frame then SelectFraming.reset .discarding else b.select.get x := by
  have discarded := discardFrame_eq (b.select.get x)
  cases p with
  | p0 =>
    cases x with
    | s0 => simpa [releaseFraming, SelPort.port] using discarded
    | s1 => simp [releaseFraming, SelPort.port, PerSel.get_set]
  | p1 =>
    cases x with
    | s0 => simp [releaseFraming, SelPort.port, PerSel.get_set]
    | s1 => simpa [releaseFraming, SelPort.port] using discarded
  | p2 => cases x <;> simp [releaseFraming, SelPort.port]

/-- Port 2's framing after the release of port p: a transaction is discarded by the release of port 2 alone (R164). -/
theorem releaseFraming_wire (b : Block) (p : Port) :
    (releaseFraming b p).wire =
      if p = .p2 ∧ b.wire.state ≠ .ignoring ∧ (b.wire.state = .idle → b.wire.address ≠ none) then
        WireFraming.cleared .ignoring
      else b.wire := by
  cases p with
  | p0 | p1 => rfl
  | p2 => simpa [releaseFraming] using discardTransaction_eq b.wire

theorem releaseFraming_ports (b : Block) (p : Port) : (releaseFraming b p).ports = b.ports := by cases p <;> rfl

theorem releaseFraming_banks (b : Block) (p : Port) : (releaseFraming b p).banks = b.banks := by cases p <;> rfl

theorem releaseReads_get (b : Block) (p : Port) (k : Bank) :
    (releaseReads b p).banks.get k = releasedPath p (b.banks.get k) := by cases k <;> rfl

/-- Dropped pins touch no port, no framing and no bank's reads. -/
theorem pinsDropped_fields (b : Block) :
    (pinsDropped b).ports = b.ports ∧ (pinsDropped b).banks = b.banks ∧ (pinsDropped b).select = b.select ∧
      (pinsDropped b).wire = b.wire := by
  have kept := keeps_unpinned (Keeps.refl true b)
  refine ⟨by simp [pinsDropped], ?_, ?_, ?_⟩
  · exact (resumeErase_banks _).trans kept.banks
  · exact (resumeErase_select _).trans kept.select
  · exact (resumeErase_wire _).trans kept.wire

/-! ## The release -/

/-- A release that can be accepted (R127). -/
theorem exec_release {s : State} {p : Port} (hr : s.block.inReset = false) :
    exec (.release p) s = .next (if releaseOpen (s.block.ports.get p) then onBlock s (released · p) else s) := by
  show execRelease p s = _
  simp only [execRelease, outsideReset, hr, Bool.false_eq_true, if_false]
  split <;> rfl

/-- The fields of the part after a release (R41, R61, R128, R153, R164). -/
theorem released_fields (b : Block) (p : Port) :
    (released b p).ports = (modPort b p releasedPort).ports ∧
      (∀ k, (released b p).banks.get k = releasedPath p (b.banks.get k)) ∧
      (released b p).select = (releaseFraming b p).select ∧ (released b p).wire = (releaseFraming b p).wire := by
  obtain ⟨ports, banks, select, wire⟩ := pinsDropped_fields (releaseReads (releaseFraming (modPort b p releasedPort) p) p)
  refine ⟨ports.trans (releaseFraming_ports _ p), fun k => ?_, select.trans ?_, wire.trans ?_⟩
  · show (pinsDropped _).banks.get k = _
    rw [banks, releaseReads_get, releaseFraming_banks]
    rfl
  · cases p <;> rfl
  · cases p <;> rfl

/-- Settles O46: the port's registers, its reads and its framing, and nothing of another port. -/
theorem releaseClearsThePort : Obligations.ReleaseClearsThePort := by
  intro p s hr q
  have release := exec_release (p := p) hr
  refine ⟨?_, fun shut => ?_, fun enabled unspent => ?_⟩
  · show execReleaseInputHigh p s = _
    simp only [execReleaseInputHigh, outsideReset, hr, Bool.false_eq_true, if_false]
    rfl
  · have closed : releaseOpen q = false := by rcases shut with h | h <;> simp [releaseOpen, h]
    rw [release, closed]
    rfl
  · have accepted : releaseOpen q = true := by simp [releaseOpen, enabled, unspent]
    obtain ⟨ports, banks, select, wire⟩ := released_fields s.block p
    refine ⟨_, release.trans (congrArg _ (if_pos accepted)), fun o ho => ?_, ?_, fun k => congrArg ReadPath.queue (banks k),
      fun k => congrArg ReadPath.current (banks k), fun x => ?_, wire.trans (releaseFraming_wire s.block p), rfl⟩
    · show (released s.block p).ports.get o = _
      rw [ports]
      exact modPort_get_other _ _ ho
    · show (released s.block p).ports.get p = _
      rw [ports, modPort_get]
      exact releasedPort_eq q
    · exact (congrArg (·.get x) select).trans (releaseFraming_select s.block p x)

end Sys2Proof.Machine
end

section
/-! The array over every command and every step (R42 to R46). -/

namespace Sys2Proof.Machine

open Safety

/-! ## What a command can make of the array -/

/-- What one command can make of the array: nothing, a program of a run (R43), or an erase of a sector (R44). -/
inductive ArrayChange (m : List Host.Cell) : List Host.Cell → Prop where
  | kept : ArrayChange m m
  | programmed (x : Sector) (o : Nat) (bytes miss : List Byte) : ArrayChange m (programRun m x o bytes miss)
  | erased (x : Sector) (residue : List (Nat × Byte)) : ArrayChange m (eraseRun m x residue)

theorem ArrayChange.wf {m m' : List Host.Cell} (h : ArrayChange m m') (hm : Memory.wf m = true) : Memory.wf m' = true := by
  cases h with
  | kept => exact hm
  | programmed x o bytes miss => exact programRun_wf x o bytes miss hm
  | erased x residue => exact eraseRun_wf x residue hm

/-- What a command's next state has of the queue and the array. -/
structure StorageStep (i : Instr) (s t : State) : Prop where
  pending : t.pending = s.pending
  array : ArrayChange s.array t.array
  kept : changesArray i = false → t.array = s.array

/-- A state that differs in its block alone. -/
theorem StorageStep.of_block {i : Instr} {s : State} (b : Block) : StorageStep i s { s with block := b } :=
  ⟨rfl, .kept, fun _ => rfl⟩

/-- Outside reset a command leaves its effect; in reset it leaves the state (R180). -/
theorem ended_storage {i : Instr} {s e t : State} (h : (.next (if s.block.inReset then s else e) : Out) = .next t)
    (he : StorageStep i s e) : StorageStep i s t := by
  cases h
  split
  · exact .of_block s.block
  · exact he

/-! ## The commands that change it, and those that can fault -/

theorem endProgram_storage {i : Instr} (hi : changesArray i = true) (s : State) (miss : List Byte) (inTime : Bool) :
    StorageStep i s (endProgram s miss inTime) := by
  unfold endProgram
  split
  · exact ⟨rfl, .programmed _ _ _ _, fun e => nomatch hi.symm.trans e⟩
  · exact .of_block s.block

theorem endErase_storage {i : Instr} (hi : changesArray i = true) (s : State) (residue : List (Nat × Byte)) (inTime : Bool) :
    StorageStep i s (endErase s residue inTime) := by
  unfold endErase
  split
  · exact ⟨rfl, .erased _ _, fun e => nomatch hi.symm.trans e⟩
  · exact .of_block s.block

/-- A reset leaves what its program or erase had done (R45). -/
theorem interrupted_change (s : State) (miss : List Byte) (residue : List (Nat × Byte)) :
    ArrayChange s.array (interrupted s miss residue) := by
  unfold interrupted
  split
  · exact .kept
  · split
    · exact .programmed _ _ _ _
    all_goals exact .kept
  all_goals exact .erased _ _

theorem resetEnd_storage {adm adr : BitVec 2} {h0 h1 : Bool} {s t : State} (h : exec (.resetEnd adm adr h0 h1) s = .next t) :
    StorageStep (.resetEnd adm adr h0 h1) s t := by
  cases h
  split
  · exact .of_block _
  · exact .of_block s.block

theorem engineOpStart_storage {s t : State} (h : exec .engineOpStart s = .next t) : StorageStep .engineOpStart s t := by
  change execEngineOpStart s = .next t at h
  unfold execEngineOpStart at h
  split at h
  · split at h
    · cases h; exact .of_block s.block
    · split at h
      · cases h
      · cases h; exact .of_block _
  · cases h; exact .of_block s.block

theorem readStart_storage {k : Bank} {s t : State} (h : exec (.readStart k) s = .next t) : StorageStep (.readStart k) s t := by
  change execReadStart k s = .next t at h
  unfold execReadStart at h
  dsimp only at h
  split at h
  · split at h
    · cases h; exact .of_block s.block
    · split at h
      · cases h
      · cases h; exact .of_block _
  · cases h; exact .of_block s.block

/-! ## Every command, every step -/

/-- The ends of operations and a reset reach the array; every other command leaves or changes the block alone. -/
theorem exec_storage (i : Instr) {s t : State} (h : exec i s = .next t) : StorageStep i s t := by
  cases i with
  | readStart k => exact readStart_storage h
  | engineOpStart => exact engineOpStart_storage h
  | programComplete miss => exact ended_storage h (endProgram_storage rfl s miss true)
  | programTimeout miss => exact ended_storage h (endProgram_storage rfl s miss false)
  | eraseComplete residue => exact ended_storage h (endErase_storage rfl s residue true)
  | eraseTimeout residue => exact ended_storage h (endErase_storage rfl s residue false)
  | resetAssert miss residue => cases h; exact ⟨rfl, interrupted_change s miss residue, fun e => nomatch e⟩
  | resetEnd adm adr h0 h1 => exact resetEnd_storage h
  | _ => exact ended_storage h (.of_block _)

/-- Settles O4: only the ends of programs and erases and a reset have an effect on the array, and none on the queue. -/
theorem fewCommandsChangeTheArray : Obligations.FewCommandsChangeTheArray := by
  intro i s t h
  obtain ⟨pending, -, kept⟩ := exec_storage i h
  exact ⟨pending, fun hi a => congrArg (readByte · a) (kept hi)⟩

/-- A step makes of the array what its command does; a millisecond that passes leaves it. -/
theorem step_array {s t : State} (h : step s = .next t) : ArrayChange s.array t.array := by
  unfold step at h
  split at h
  · rename_i i rest _
    exact (exec_storage (s := { s with pending := rest }) i h).array
  · cases h
    unfold idleTick
    split <;> exact .kept

/-- Settles O55: programs and erases keep the canonical form, and a step does nothing else to the array. -/
theorem arrayStaysCanonical : Obligations.ArrayStaysCanonical := fun _ _ hs h => (step_array h).wf hs

end Sys2Proof.Machine
end

section
/-! The bytes of programs, of erases and of the operation that a reset interrupts (R43 to R46, R180). -/

namespace Sys2Proof.Machine

open Safety

/-! ## The addresses of a sector -/

/-- The 4096 addresses of a sector (R42). -/
theorem inSector_iff (x : Sector) (a : Nat) : inSector x a = true ↔ address x 0 ≤ a ∧ a < address x 4096 := by
  simp only [inSector, address, Config.sectorBytes, Bool.and_eq_true, decide_eq_true_eq]
  omega

/-- An erase leaves the bytes below and above its sector (R44). -/
theorem readByte_eraseRun_beside {m : List Host.Cell} (h : Memory.wf m = true) (x : Sector) (residue : List (Nat × Byte))
    {a : Nat} (ha : a < address x 0 ∨ address x 4096 ≤ a) : readByte (eraseRun m x residue) a = readByte m a := by
  refine readByte_eraseRun_outside h x residue a (Bool.eq_false_iff.2 fun hin => ?_)
  obtain ⟨low, high⟩ := (inSector_iff x a).1 hin
  omega

/-! ## The ends of programs and erases -/

/-- Settles O37: in time or not, the array is that of the program's run. -/
theorem programAndsTheRun : Obligations.ProgramAndsTheRun := by
  intro i op elapsed bytes miss s hi hr hm he hk hrun
  obtain ⟨kind, x, o⟩ := op
  obtain rfl : kind = .program bytes := hk
  obtain ⟨ok, -, ends⟩ := exec_program_end hi hr he
  exact ⟨_, ends, fun n hn => readByte_programRun_inside hm x o bytes miss hrun n hn,
    fun a ha => readByte_programRun_outside hm x o bytes miss a ha⟩

/-- The end of an erase: the holder goes on with its result (R44, R46, R48). -/
theorem exec_erase_end {s : State} {op : EngineOp} {elapsed suspends : Nat} {residue : List (Nat × Byte)} {i : Instr}
    (hi : i = .eraseComplete residue ∨ i = .eraseTimeout residue) (hr : s.block.inReset = false)
    (he : s.block.engine = .erasing op elapsed suspends) :
    ∃ ok, exec i s = .next { s with array := eraseRun s.array op.sector residue, block := opEnded s.block ok [] } := by
  rcases hi with rfl | rfl
  · refine ⟨true && verifyOk (eraseRun s.array op.sector residue) op.sector, ?_⟩
    show execEraseComplete residue s = _
    simp only [execEraseComplete, hr, Bool.false_eq_true, if_false, endErase_erasing he]
  · refine ⟨false && verifyOk (eraseRun s.array op.sector residue) op.sector, ?_⟩
    show execEraseTimeout residue s = _
    simp only [execEraseTimeout, hr, Bool.false_eq_true, if_false, endErase_erasing he]

/-- Settles O38: in time or not, the array is that of the sector's erase. -/
theorem eraseSetsTheSector : Obligations.EraseSetsTheSector := by
  intro i op elapsed suspends residue s hi hr hm he
  obtain ⟨ok, ends⟩ := exec_erase_end hi hr he
  refine ⟨_, ends, fun a ha => readByte_eraseRun_beside hm op.sector residue ha, ?_⟩
  rintro rfl a low high
  exact readByte_eraseRun_inside s.array op.sector a ((inSector_iff op.sector a).2 ⟨low, high⟩)

/-! ## RESET_ASSERT (R45, R180) -/

theorem interrupted_idle {s : State} (h : s.block.engine = .idle) (miss : List Byte) (residue : List (Nat × Byte)) :
    interrupted s miss residue = s.array := by
  simp only [interrupted, h]

theorem interrupted_stepRead {s : State} {op : EngineOp} {elapsed n : Nat} (h : s.block.engine = .programming op elapsed)
    (hk : op.kind = .stepRead n) (miss : List Byte) (residue : List (Nat × Byte)) :
    interrupted s miss residue = s.array := by
  simp only [interrupted, h, hk]

theorem interrupted_program {s : State} {op : EngineOp} {elapsed : Nat} {bytes : List Byte}
    (h : s.block.engine = .programming op elapsed) (hk : op.kind = .program bytes) (miss : List Byte)
    (residue : List (Nat × Byte)) : interrupted s miss residue = programRun s.array op.sector op.offset bytes miss := by
  simp only [interrupted, h, hk]

theorem interrupted_erase {s : State} {op : EngineOp} {elapsed suspends : Nat}
    (h : s.block.engine = .erasing op elapsed suspends ∨ s.block.engine = .eraseSuspended op elapsed suspends)
    (miss : List Byte) (residue : List (Nat × Byte)) :
    interrupted s miss residue = eraseRun s.array op.sector residue := by
  rcases h with h | h <;> simp only [interrupted, h]

/-- Every port is reset, and ATTN released, while the part is in reset (R180). -/
theorem inResetValues_port (b : Block) (p : Port) :
    attn b.inResetValues p = false ∧ b.inResetValues.ports.get p = PortState.reset := ⟨rfl, PerPort.get_all _ p⟩

/-- Neither SDO output is driven while the part is in reset (R180). -/
theorem inResetValues_select (b : Block) (p : SelPort) :
    (b.inResetValues.select.get p).sdo = none ∧ (b.inResetValues.select.get p).driven = false := by
  cases p <;> exact ⟨rfl, rfl⟩

/-- Settles O44: the block at its values for RESET_n, and the array as the interrupted operation leaves it. -/
theorem resetAssertStopsThePart : Obligations.ResetAssertStopsThePart := by
  intro miss residue s hm
  refine ⟨_, rfl, rfl, rfl, inResetValues_port s.block, inResetValues_select s.block, (fun h => nomatch h), rfl, rfl, rfl,
    fun h => interrupted_idle h miss residue, fun op elapsed n h hk => interrupted_stepRead h hk miss residue,
    fun op elapsed bytes h hk a ha => ?_, fun op elapsed suspends h a ha => ?_⟩
  · show readByte (interrupted s miss residue) a = _
    rw [interrupted_program h hk]
    exact readByte_programRun_outside hm op.sector op.offset bytes miss a ha
  · show readByte (interrupted s miss residue) a = _
    rw [interrupted_erase h]
    exact readByte_eraseRun_beside hm op.sector residue ha

end Sys2Proof.Machine
end

section
/-! Reads: a GET that creates one, the start of a waiting one, and the finish of a good one (R55 to R61, R124, R125). -/

namespace Sys2Proof.Machine

open Safety

/-! ## The creation of a read (R55, R57, R59) -/

/-- A bank is clear when nothing is read from it and no read waits for it (R48). -/
theorem bankClear_iff (b : Block) (k : Bank) :
    bankClear b k = true ↔ (b.banks.get k).current = none ∧ (b.banks.get k).queue = [] := by
  simp only [bankClear, Bool.and_eq_true, Option.isNone_iff_eq_none, List.isEmpty_iff]

/-- The engine once a read has come to bank k (R59). -/
def suspendedFor (k : Bank) (e : EngineState) : EngineState :=
  match e with
  | .erasing op t n => if bankOf op.sector = k ∧ n < 16 then .eraseSuspended op t n else e
  | .idle | .programming _ _ | .eraseSuspended _ _ _ => e

theorem suspendErase_eq (b : Block) (k : Bank) : suspendErase b k = { b with engine := suspendedFor k b.engine } := by
  have frame : suspendErase b k = { b with engine := (suspendErase b k).engine } := by
    unfold suspendErase
    split
    · split <;> rfl
    all_goals rfl
  have engine : (suspendErase b k).engine = suspendedFor k b.engine := by
    unfold suspendErase suspendedFor
    cases he : b.engine with
    | erasing op t n =>
      dsimp only
      split
      · rfl
      · exact he
    | idle | programming | eraseSuspended => exact he
  rw [frame, engine]

/-- The reads of bank k once r has come to it (R57, log 29). -/
def joinedBy (r : Read) (k : Bank) (e : EngineState) (path : ReadPath) : ReadPath :=
  if path.current = none ∧ path.queue = [] ∧ occupied e ≠ some k then { path with current := some r }
  else { path with queue := path.queue ++ [r] }

theorem joinBank_eq (b : Block) (r : Read) :
    joinBank b r =
      { b with
          banks :=
            b.banks.set (bankOf r.sector) (joinedBy r (bankOf r.sector) b.engine (b.banks.get (bankOf r.sector))) } := by
  unfold joinBank joinedBy
  simp only [bankClear_iff, and_assoc]
  split <;> rfl

/-- A created read changes the engine and its bank's reads alone. -/
theorem createRead_eq {b : Block} {r : Read} {e : EngineState} {path : ReadPath}
    (he : suspendedFor (bankOf r.sector) b.engine = e)
    (hp : joinedBy r (bankOf r.sector) e (b.banks.get (bankOf r.sector)) = path) :
    createRead b r = { b with engine := e, banks := b.banks.set (bankOf r.sector) path } := by
  rw [createRead, suspendErase_eq, joinBank_eq, he, hp]

/-- Two changes of the block are one where they leave the same block. -/
theorem onBlock_congr {s : State} {f g : Block → Block} (h : f s.block = g s.block) : onBlock s f = onBlock s g := by
  unfold onBlock
  rw [h]

/-- A GET that no check of R124 answers creates its read, and the slot waits for it. -/
theorem exec_get_creates {p : Port} (tag : Byte) {key : Key} {offset : BitVec 16} (maxLength : BitVec 16) {d : DirSlot}
    {s : State} (ht : canTake s p) (hr : readable s) (hk : isKey key = true) (hp : presentSlot key s.block.dir = some d)
    (hl : d.state = .live) (hm : mayRead p d = true) (ho : offset.toNat ≤ d.length) :
    exec (.get p tag key offset maxLength) s =
      .next (onBlock (onPort (atTake s p) p fun q => { q with slot := .working tag .read }) fun b =>
        createRead b (readFor p d offset maxLength)) := by
  have found : lookup (atTake s p).block.dir p key = .present d := by
    rw [atTake_dir, lookup_eq, hp]
    simp only [hm, hl, if_true]
  refine (request_readable tag _ ht hr).trans ?_
  simp only [onBlock, found, hk, Bool.not_true, Bool.false_eq_true, if_false, if_neg (Nat.not_lt.2 ho)]
  rfl

/-- Settles O17: no check answers, so the read is created; the record's key is the one asked for. -/
theorem getCreatesARead : Obligations.GetCreatesARead := by
  intro p tag key offset maxLength d s ht hr hk hp hl hm ho k r engine' path path'
  obtain rfl : d.key = key := dirFind_key (presentSlot_state hp).1
  have engine : suspendedFor k s.block.engine = engine' := by
    unfold engine' suspendedFor
    cases s.block.engine <;> rfl
  refine (exec_get_creates tag maxLength ht hr hk hp hl hm ho).trans (congrArg Host.Outcome.next (onBlock_congr ?_))
  exact createRead_eq (r := r) ((congrArg (suspendedFor k) (atTake_engine s p)).trans engine)
    (congrArg (fun banks => joinedBy r k engine' (banks.get k)) (atTake_banks s p))

/-! ## READ_START (R57) -/

/-- READ_START outside reset, with the oldest waiting read named. -/
theorem exec_readStart_cons {k : Bank} {s : State} {r : Read} {rest : List Read} (hr : s.block.inReset = false)
    (hq : (s.block.banks.get k).queue = r :: rest) :
    exec (.readStart k) s =
      if (s.block.banks.get k).current ≠ none ∨ occupied s.block.engine = some k then .next s
      else if 4096 < r.offset + footprint r.length then .fault .outsideSector
      else .next (onBlock s fun b => { b with banks := b.banks.set k { current := some r, queue := rest } }) := by
  show execReadStart k s = _
  simp only [execReadStart, hq, hr, readInSector, Bool.false_or, Bool.or_eq_true, Option.isSome_iff_ne_none, beq_iff_eq,
    Bool.not_eq_true', decide_eq_false_iff_not, Nat.not_le, onBlock]

/-- Settles O18: with a read that waits, its two conditions and its sector decide. -/
theorem readStartTakesTheOldest : Obligations.ReadStartTakesTheOldest := by
  intro k s hr path
  refine ⟨fun blocked => ?_, fun r rest hq hc ho => ?_⟩
  · cases hq : path.queue with
    | nil =>
      show execReadStart k s = _
      simp only [execReadStart, show (s.block.banks.get k).queue = [] from hq]
    | cons r rest =>
      have busy : path.current ≠ none ∨ occupied s.block.engine = some k := blocked.resolve_left (by simp [hq])
      rw [exec_readStart_cons hr hq, if_pos busy]
  · have free : ¬(path.current ≠ none ∨ occupied s.block.engine = some k) := by simp [hc, ho]
    rw [exec_readStart_cons hr hq, if_neg free]
    exact ⟨fun fits => if_neg (Nat.not_lt.2 fits), fun leaves => if_pos leaves⟩

/-! ## READ_FINISH of a good read (R60, R61, R125) -/

/-- The state after a read that passes its check (R60). -/
theorem exec_readFinish_good {k : Bank} {r : Read} {s : State} (hr : s.block.inReset = false)
    (hc : (s.block.banks.get k).current = some r) (hg : readCheck r (readBytes s.array r) = true) :
    exec (.readFinish k) s = .next (onBlock s fun b =>
      endStretch (pinsDropped (answerRead
        { b with banks := b.banks.set k { b.banks.get k with current := none } } r .ok
          (getBody r (readBytes s.array r))))) := by
  show execReadFinish k s = _
  simp only [execReadFinish, outsideReset, hr, hc, readOutcome, hg, onBlock, Bool.false_eq_true, if_false, if_true]

/-- Settles O19: the answer to the port that waits, then the drop of the pin, which touches no port. -/
theorem goodReadAnswersTheGet : Obligations.GoodReadAnswersTheGet := by
  intro k r s hr hc hg
  let b : Block := { s.block with banks := s.block.banks.set k { s.block.banks.get k with current := none } }
  let a := answerRead b r .ok (getBody r (readBytes s.array r))
  have aEq : a = { b with ports := a.ports } := answerRead_eq b r .ok _
  obtain ⟨ports, banks, -, -⟩ := pinsDropped_fields a
  have tPorts : (endStretch (pinsDropped a)).ports = a.ports := (endStretch_ports _).trans ports
  have tBank : (endStretch (pinsDropped a)).banks.get k = { current := none, queue := (s.block.banks.get k).queue } := by
    rw [endStretch_banks, banks, aEq]
    exact PerBank.get_set_same _ _ _
  refine ⟨_, exec_readFinish_good hr hc hg, fun tag hw ho => ?_, fun q hq => ?_, fun q => ?_, congrArg ReadPath.current tBank,
    (congrArg ReadPath.queue tBank :), fun hp => ?_, rfl⟩
  · have answered : (endStretch (pinsDropped a)).ports.get r.port =
        responded tag .ok (getBody r (readBytes s.array r)) (s.block.ports.get r.port) := by
      rw [tPorts, show a = answer b r.port tag .ok _ from answerRead_waiting _ _ hw ho, answer_eq, modPort_get]
    exact ⟨congrArg PortState.slot answered, congrArg PortState.fetchProgress answered⟩
  · show ((endStretch (pinsDropped a)).ports.get q).slot = _
    rw [tPorts, show a.ports.get q = b.ports.get q from answerRead_other _ _ hq]
  · show ((endStretch (pinsDropped a)).ports.get q).sticky = _
    rw [tPorts]
    exact (answerRead_kept b r .ok _ q).1
  · have held : ∀ q w, a.holder ≠ .job q (.formatPins w) := by
      rw [aEq]
      exact hp
    obtain ⟨-, dir, usage, -, -⟩ := unpinned_fields held
    exact ⟨dir.trans (by rw [aEq]), usage.trans (by rw [aEq])⟩

end Sys2Proof.Machine
end

section
/-! The engine: its grants, the start of an issued operation, a mount's header reads, and a millisecond that passes (R46 to R52, R88,
R161). -/

namespace Sys2Proof.Machine

open Safety

/-! ## The ring of requesters (R52) -/

/-- The ring order lists the requesters by how many stand before them. -/
theorem ringAfter_wait (last : Requester) : (ringAfter last).map (ringWait last) = [0, 1, 2, 3] := by
  cases last with
  | job p => cases p <;> rfl
  | reclaim => rfl

theorem mem_ringAfter (last r : Requester) : r ∈ ringAfter last := by
  have every : ∀ r, r ∈ [Requester.job .p0, .job .p1, .job .p2, .reclaim] := by
    rintro (p | -)
    · cases p <;> decide
    · decide
  have order : [Requester.job .p0, .job .p1, .job .p2, .reclaim] ⊆ ringAfter last := by
    cases last with
    | job p => cases p <;> decide
    | reclaim => decide
  exact order (every r)

/-- The first requester of the ring with a property is one that no other with it stands before. -/
theorem find_ringAfter {last r : Requester} {up : Requester → Bool} (h : (ringAfter last).find? up = some r) :
    up r = true ∧ ∀ r', up r' = true → ringWait last r ≤ ringWait last r' := by
  obtain ⟨hr, before, after, parts, skipped⟩ := List.find?_eq_some_iff_append.1 h
  have ordered : (ringAfter last).Pairwise fun r r' => ringWait last r ≤ ringWait last r' :=
    List.pairwise_map.1 (by rw [ringAfter_wait]; decide)
  rw [parts, List.pairwise_append, List.pairwise_cons] at ordered
  obtain ⟨-, ⟨first, -⟩, -⟩ := ordered
  refine ⟨hr, fun r' hr' => ?_⟩
  have place := mem_ringAfter last r'
  rw [parts, List.mem_append, List.mem_cons] at place
  rcases place with earlier | rfl | later
  · exact absurd hr' (by simpa using skipped r' earlier)
  · exact Nat.le_refl _
  · exact first r' later

/-! ## The arbiter's choice (R51, R52) -/

theorem anyWaiting_iff (b : Block) :
    anyWaiting b = true ↔ ∃ p j, (b.ports.get p).job = some j ∧ j.state = .waitSpace := by
  have every : ∀ p, p ∈ allPorts := fun p => by cases p <;> decide
  simp only [anyWaiting, List.any_eq_true, every, true_and]
  refine exists_congr fun p => ?_
  cases (b.ports.get p).job <;> simp

/-- Reclaim goes before the ring where its flag is up and a job waits for space. -/
theorem grantee_eq (b : Block) :
    grantee b =
      if b.reclaimFlag = true ∧ anyWaiting b = true then some .reclaim
      else (ringAfter b.lastGranted).find? (flagUp b) := by
  simp only [grantee, Bool.and_eq_true]

theorem grantee_none {b : Block} (h : ∀ r, flagUp b r = false) : grantee b = none := by
  have low : b.reclaimFlag = false := h .reclaim
  rw [grantee_eq, if_neg (by simp [low]), List.find?_eq_none]
  exact fun r _ => by simp [h r]

/-- With a flag up some requester is granted. -/
theorem grantee_isSome {b : Block} {r : Requester} (h : flagUp b r = true) : ∃ r', grantee b = some r' := by
  rw [grantee_eq]
  split
  · exact ⟨_, rfl⟩
  · exact Option.isSome_iff_exists.1 (List.find?_isSome.2 ⟨r, mem_ringAfter _ r, h⟩)

/-- A grant is recorded (R52). -/
theorem grant_lastGranted (b : Block) (r : Requester) : (grant b r).lastGranted = r := by
  cases r with
  | job p => exact (keeps_takePort (Keeps.refl false { b with lastGranted := .job p }) p).lastGranted
  | reclaim =>
    exact (keeps_reclaimGrant (Keeps.refl false { b with lastGranted := .reclaim, reclaimFlag := false })).lastGranted

/-- ENGINE_GRANT while the engine is free. -/
theorem exec_engineGrant {s : State} (hr : s.block.inReset = false) (hf : s.block.holder = .free) :
    exec .engineGrant s =
      match grantee s.block with
      | some r => .next (onBlock s fun b => endStretch (grant b r))
      | none => .next s := by
  show execEngineGrant s = _
  simp only [execEngineGrant, outsideReset, hr, hf, Bool.false_eq_true, if_false, beq_self_eq_true, if_true]
  cases grantee s.block <;> rfl

/-- Settles O32: the arbiter's choice is reclaim, or the first of the ring. -/
theorem grantFollowsTheRing : Obligations.GrantFollowsTheRing := by
  intro s hr
  refine ⟨fun idle => ?_, fun hf => ?_⟩
  · by_cases hf : s.block.holder = .free
    · rw [exec_engineGrant hr hf, grantee_none (idle.resolve_left (not_not_intro hf))]
    · show execEngineGrant s = _
      simp [execEngineGrant, outsideReset, hr, hf]
  · rintro ⟨up, hup⟩
    obtain ⟨r, hg⟩ := grantee_isSome hup
    have run := exec_engineGrant hr hf
    rw [hg] at run
    refine ⟨r, _, run, (endStretch_lastGranted _).trans (grant_lastGranted _ r), ?_⟩
    rw [grantee_eq] at hg
    split at hg
    · rename_i reclaims
      obtain ⟨flag, waits⟩ := reclaims
      obtain ⟨p, j, hj, hw⟩ := (anyWaiting_iff s.block).1 waits
      obtain rfl : .reclaim = r := Option.some.inj hg
      refine ⟨flag, fun _ _ => rfl, fun ring => ?_⟩
      rcases ring with low | nobody
      · exact nomatch low.symm.trans flag
      · exact absurd hw (nobody p j hj)
    · rename_i ring
      obtain ⟨hup, first⟩ := find_ringAfter hg
      exact ⟨hup, fun flag waits => absurd ⟨flag, (anyWaiting_iff s.block).2 waits⟩ ring, fun _ => first⟩

/-! ## ENGINE_OP_START (R47, R48, R50) -/

/-- When an issued operation can start. -/
theorem canStart_iff (b : Block) (op : EngineOp) :
    canStart b op = true ↔
      b.engine = .idle ∧ (b.banks.get (bankOf op.sector)).current = none ∧ (b.banks.get (bankOf op.sector)).queue = [] ∧
        (op.kind = .erase → pinCount b op.sector = 0) := by
  simp only [canStart, Bool.and_eq_true, bankClear_iff, beq_iff_eq, Bool.or_eq_true, bne_iff_ne, ne_eq, and_assoc,
    imp_iff_not_or]

theorem startedEngine_eq (op : EngineOp) :
    startedEngine op = if op.kind = .erase then .erasing op 0 0 else .programming op 0 := by
  unfold startedEngine
  cases op.kind <;> rfl

/-- ENGINE_OP_START with an operation issued. -/
theorem exec_engineOpStart {s : State} {op : EngineOp} (hr : s.block.inReset = false) (hi : s.block.issued = some op) :
    exec .engineOpStart s =
      if canStart s.block op = true then
        if runInSector op = true then
          .next (onBlock s fun b =>
            { b with issued := none, engine := if op.kind = .erase then .erasing op 0 0 else .programming op 0 })
        else .fault .outsideSector
      else .next s := by
  show execEngineOpStart s = _
  simp only [execEngineOpStart, hi, hr, Bool.false_or, startedEngine_eq, onBlock]
  cases canStart s.block op <;> cases runInSector op <;> rfl

/-- Settles O36: the start's conditions, then the operation's run. -/
theorem issuedOperationStartsWhenClear : Obligations.IssuedOperationStartsWhenClear := by
  intro op s hr hi path clear
  have starts : canStart s.block op = true ↔ clear := canStart_iff s.block op
  rw [exec_engineOpStart hr hi]
  refine ⟨fun blocked => if_neg (mt starts.1 blocked), fun free fits => ?_, fun free leaves => ?_⟩
  · rw [if_pos (starts.2 free), if_pos fits]
  · rw [if_pos (starts.2 free), if_neg (Bool.eq_false_iff.1 leaves)]

/-! ## STEP_READ_COMPLETE in phase 1 of a mount (R49, R88) -/

/-- The end of a step read: the holder gets the bytes (R48, R49). -/
theorem exec_stepRead_end {s : State} {x : Sector} {o n elapsed : Nat} (hr : s.block.inReset = false)
    (he : s.block.engine = .programming { kind := .stepRead n, sector := x, offset := o } elapsed) :
    exec .stepReadComplete s = .next (onBlock s fun b => opEnded b true (readRun s.array x o n)) := by
  show execStepReadComplete s = _
  simp only [execStepReadComplete, outsideReset, hr, Bool.false_eq_true, if_false, he, currentStepRead, onBlock]

/-- A class is noted, and the header of the next sector read. -/
theorem noteClass_next (b : Block) {x y : Sector} (found : List HeaderClass) (c : HeaderClass) (hy : y.val = x.val + 1) :
    noteClass b x found c = setMount (issueRead b y 0 32) (.header y (found ++ [c])) := by
  have below : x.val + 1 < 64 := hy ▸ y.isLt
  have successor : Fin.ofNat 64 (x.val + 1) = y := Fin.ext ((Nat.mod_eq_of_lt below).trans hy.symm)
  simp only [noteClass, if_pos below, successor]

/-- Settles O43: the header decides its class, and the mount goes on to the next. -/
theorem mountReadsTheHeadersInOrder : Obligations.MountReadsTheHeadersInOrder := by
  intro x y found c elapsed s hr he hh hy hc hw
  refine (exec_stepRead_end hr he).trans (congrArg Host.Outcome.next (onBlock_congr ?_))
  have noted : holderNext { s.block with engine := .idle } true (readRun s.array x 0 32) =
      setMount (issueRead { s.block with engine := .idle } y 0 32) (.header y (found ++ [c])) := by
    simp only [holderNext, hh, mountStep, headerRead, hc]
    exact noteClass_next _ found c hy
  rw [opEnded, noted, endStretch_of_not (by rw [setMount_wire]; exact hw)]
  rfl

/-! ## A millisecond on an empty queue (R46, R47, R161) -/

/-- The stretch time runs while SCL is held, up to its limit. -/
theorem tickWire_eq (limit : Byte) (w : WireFraming) :
    tickWire limit w =
      if w.state = .stretching then { w with stretchTime := min (w.stretchTime + 1) limit.toNat } else w := by
  unfold tickWire
  cases w.state <;> rfl

/-- Outside reset a millisecond moves the two time fields. -/
theorem idleTick_eq {s : State} (hr : s.block.inReset = false) :
    idleTick s = onBlock s fun b =>
      { b with engine := tickEngine b.engine, wire := tickWire (b.ports.get .p2).stretchLimit b.wire } := by
  rw [idleTick, if_neg (Bool.eq_false_iff.1 hr)]
  rfl

/-- Settles O2: nothing in reset; outside it, the two time fields. -/
theorem emptyQueueLetsOneMillisecondPass : Obligations.EmptyQueueLetsOneMillisecondPass := by
  intro s hp
  have tick : step s = .next (idleTick s) := by simp only [step, hp]
  refine ⟨fun hr => ?_, fun hr => ?_⟩
  · rw [tick, idleTick, if_pos hr]
  · rw [tick, idleTick_eq hr]
    refine congrArg Host.Outcome.next (onBlock_congr ?_)
    rw [tickWire_eq]
    cases s.block.engine <;> rfl

end Sys2Proof.Machine
end

section
/-! RECLAIM's answers (R75, R76), and the space-low condition (R72, R141). -/

namespace Sys2Proof.Machine

open Safety

/-! ## The victim as a RECLAIM finds it (R75, R110) -/

@[simp] theorem row_modPort (b : Block) (p : Port) (f : PortState → PortState) (x : Sector) :
    row (modPort b p f) x = row b x := rfl

/-- The choice of a victim reads no port. -/
@[simp] theorem victim_modPort (b : Block) (p : Port) (f : PortState → PortState) : victim (modPort b p f) = victim b := rfl

@[simp] theorem victim_atTake (s : State) (p : Port) : victim (atTake s p).block = victim s.block := by
  obtain ⟨f, taken, -⟩ := atTake_eq s p
  rw [taken]
  exact victim_modPort s.block p f

@[simp] theorem row_atTake (s : State) (p : Port) (x : Sector) : row (atTake s p).block x = row s.block x := by
  simp [row]

/-- With a sector to reclaim there is a victim, the one of R75. -/
theorem victim_of_reclaimable {b : Block} (h : ∃ x, reclaimable b x) : ∃ x, victim b = some x ∧ isVictim b x := by
  obtain ⟨x, hx⟩ := h
  obtain ⟨v, hv⟩ := Option.ne_none_iff_exists'.1 fun none : victim b = none => victim_eq_none.1 none x hx
  exact ⟨v, hv, victim_isVictim hv⟩

/-! ## The table of R76 -/

theorem takeReclaim_notReady {b : Block} (h : b.storeState ≠ .ready) (p : Port) (tag : Byte) :
    takeReclaim p tag b = answer b p tag .state [] := by
  simp [takeReclaim, afterMount, h]

theorem takeReclaim_running {b : Block} (h : b.storeState = .ready) (hc : b.cycle ≠ .idle) (p : Port) (tag : Byte) :
    takeReclaim p tag b = answer b p tag .ok [0x02] := by
  simp [takeReclaim, afterMount, h, hc]

theorem takeReclaim_nothing {b : Block} (h : b.storeState = .ready) (hc : b.cycle = .idle) (hv : victim b = none) (p : Port)
    (tag : Byte) : takeReclaim p tag b = answer b p tag .ok [0x03] := by
  simp [takeReclaim, afterMount, h, hc, hv]

/-- RECLAIM with a victim is answered and starts a cycle; the two touch different fields. -/
theorem takeReclaim_started {b : Block} {x : Sector} (h : b.storeState = .ready) (hc : b.cycle = .idle)
    (hv : victim b = some x) (p : Port) (tag : Byte) :
    takeReclaim p tag b = startCycle (modPort b p (responded tag .ok [0x01])) x := by
  have started : takeReclaim p tag b = answer (startCycle b x) p tag .ok [0x01] := by
    simp [takeReclaim, afterMount, h, hc, hv]
  exact started

/-- Settles O30: the rows of R76 in their order, an idle cycle's by whether R75 finds a victim. -/
theorem reclaimAnswersByTheCycle : Obligations.ReclaimAnswersByTheCycle := by
  intro p tag s h _ run b
  have taken : run = .next (onBlock (atTake s p) (takeReclaim p tag)) := request_taken _ h
  have found : victim (atTake s p).block = victim b := victim_atTake s p
  rw [← atTake_storeState s p, ← atTake_cycle s p]
  refine ⟨fun hs => ?_, fun hs hc => ?_, fun hs hc nobody => ?_, fun hs hc somebody => ?_⟩
  · exact taken.trans (congrArg _ (onBlock_answer (takeReclaim_notReady hs p tag)))
  · exact taken.trans (congrArg _ (onBlock_answer (takeReclaim_running hs hc p tag)))
  · have nothing := takeReclaim_nothing hs hc (found.trans (victim_eq_none.2 nobody)) p tag
    exact taken.trans (congrArg _ (onBlock_answer nothing))
  · obtain ⟨x, hv, best⟩ := victim_of_reclaimable somebody
    have started := takeReclaim_started hs hc (found.trans hv) p tag
    refine ⟨x, best, taken.trans (congrArg Host.Outcome.next ?_)⟩
    rw [onBlock, started, ← row_atTake s p x]
    rfl

/-! ## The space-low condition (R72, R141) -/

/-- What an evaluation does: the condition is set by the free bytes, and its onset raises LOW_SPACE. -/
theorem evalSpaceLow_eq {b : Block} (hm : b.storeState ≠ .mounting) (hf : b.storeState ≠ .formatting) :
    evalSpaceLow b =
      let evaluated := { b with spaceLow := decide (freeBytes b < b.policy.lowSpace) }
      if freeBytes b < b.policy.lowSpace ∧ b.spaceLow = false then raiseAll evaluated causeLowSpace else evaluated := by
  unfold evalSpaceLow
  cases hs : b.storeState with
  | mounting => exact absurd hs hm
  | formatting => exact absurd hs hf
  | unformatted | ready | readOnly => simp

/-- The condition holds while the free bytes are below the threshold (R72). -/
theorem evalSpaceLow_spaceLow {b : Block} (hm : b.storeState ≠ .mounting) (hf : b.storeState ≠ .formatting) :
    (evalSpaceLow b).spaceLow = decide (freeBytes b < b.policy.lowSpace) := by
  rw [evalSpaceLow_eq hm hf]
  dsimp only
  split <;> rfl

/-- Its onset raises LOW_SPACE in every port, and nothing else touches a port (R141). -/
theorem evalSpaceLow_port {b : Block} (hm : b.storeState ≠ .mounting) (hf : b.storeState ≠ .formatting) (p : Port) :
    (evalSpaceLow b).ports.get p =
      if freeBytes b < b.policy.lowSpace ∧ b.spaceLow = false then
        { b.ports.get p with sticky := (b.ports.get p).sticky ||| causeLowSpace }
      else b.ports.get p := by
  rw [evalSpaceLow_eq hm hf]
  dsimp only
  split
  · exact raiseAll_get _ _ _
  · rfl

/-- Settles O31: the condition and the ports after an evaluation; no free bytes are below a threshold of 0. -/
theorem spaceLowFollowsTheFreeBytes : Obligations.SpaceLowFollowsTheFreeBytes := by
  intro b hm hf
  have low := evalSpaceLow_spaceLow hm hf
  refine ⟨by rw [low, decide_eq_true_iff], evalSpaceLow_port hm hf, fun threshold => ?_⟩
  rw [low, threshold]
  exact decide_eq_false (Nat.not_lt_zero _)

end Sys2Proof.Machine
end

section
/-! What a request may change of the part (R110 to R115). -/

namespace Sys2Proof.Machine

open Safety

/-! ## The registers of one port (R121, R138) -/

/-- The registers of port p with their reserved positions empty, and the stretch limit held on port 2 alone (R121, R138). -/
structure RegistersOk (p : Port) (q : PortState) : Prop where
  sticky : q.sticky &&& ~~~0x03FC = 0
  mask : q.mask &&& ~~~Config.usedCauses = 0
  stretchLimit : p ≠ .p2 → q.stretchLimit = 0

theorem portOk_iff (b : Block) (p : Port) : portOk b p = true ↔ RegistersOk p (b.ports.get p) := by
  simp only [portOk, Bool.and_eq_true, Bool.or_eq_true, beq_iff_eq]
  exact ⟨fun ⟨⟨sticky, mask⟩, limit⟩ => ⟨sticky, mask, limit.resolve_left⟩,
    fun ⟨sticky, mask, limit⟩ => ⟨⟨sticky, mask⟩, or_iff_not_imp_left.2 limit⟩⟩

theorem portsOk_iff (b : Block) : portsOk b = true ↔ ∀ p, RegistersOk p (b.ports.get p) := by
  simp only [portsOk, List.all_eq_true, portOk_iff]
  exact ⟨fun h p => h p (by cases p <;> decide), fun h p _ => h p⟩

theorem RegistersOk.congr {p : Port} {q q' : PortState} (h : RegistersOk p q) (hs : q'.sticky = q.sticky)
    (hm : q'.mask = q.mask) (hl : q'.stretchLimit = q.stretchLimit) : RegistersOk p q' :=
  ⟨hs ▸ h.sticky, hm ▸ h.mask, fun hp => hl ▸ h.stretchLimit hp⟩

/-- A raised cause is one of the used sticky positions (R138). -/
theorem RegistersOk.raise {p : Port} {q : PortState} (h : RegistersOk p q) {c : BitVec 16} (hc : c &&& ~~~0x03FC = 0) :
    RegistersOk p { q with sticky := q.sticky ||| c } :=
  ⟨(raise_sticky q.sticky c hc).trans h.sticky, h.mask, h.stretchLimit⟩

/-- EVENTS clears causes and raises none (R143). -/
theorem RegistersOk.clear {p : Port} {q : PortState} (h : RegistersOk p q) (clear : BitVec 16) :
    RegistersOk p { q with sticky := q.sticky &&& ~~~clear } := by
  refine ⟨?_, h.mask, h.stretchLimit⟩
  show q.sticky &&& ~~~clear &&& ~~~0x03FC = 0
  rw [BitVec.and_assoc, BitVec.and_comm (~~~clear), ← BitVec.and_assoc, h.sticky]
  exact BitVec.zero_and

/-- CONFIGURE cuts the mask to its used positions, and holds a stretch limit on port 2 alone (R121). -/
theorem RegistersOk.configured {p : Port} {q : PortState} (h : RegistersOk p q) (mask : BitVec 16) (rel stretch : Byte) :
    RegistersOk p (configured p mask rel stretch q) := by
  refine ⟨h.sticky, ?_, fun hp => if_neg hp⟩
  show mask &&& Config.usedCauses &&& ~~~Config.usedCauses = 0
  rw [BitVec.and_assoc, BitVec.and_not_self]
  exact BitVec.and_zero

theorem registersOk_reset (p : Port) : RegistersOk p PortState.reset := ⟨by decide, by decide, fun _ => rfl⟩

/-! ## Changes of the own port alone -/

/-- b is a with the registers of port p changed, their reserved positions kept empty. -/
def OwnPort (p : Port) (a b : Block) : Prop :=
  ∃ q, (RegistersOk p (a.ports.get p) → RegistersOk p q) ∧ b = { a with ports := a.ports.set p q }

theorem OwnPort.refl (p : Port) (b : Block) : OwnPort p b b := ⟨_, id, by rw [PerPort.set_get]⟩

theorem OwnPort.trans {p : Port} {a b c : Block} (h : OwnPort p a b) (k : OwnPort p b c) : OwnPort p a c := by
  obtain ⟨q, hq, rfl⟩ := h
  obtain ⟨q', hq', rfl⟩ := k
  rw [PerPort.get_set_same] at hq'
  exact ⟨q', hq' ∘ hq, by rw [PerPort.set_set]⟩

theorem modPort_own {b : Block} {p : Port} {f : PortState → PortState}
    (h : RegistersOk p (b.ports.get p) → RegistersOk p (f (b.ports.get p))) : OwnPort p b (modPort b p f) := ⟨_, h, rfl⟩

theorem answer_own (b : Block) (p : Port) (tag : Byte) (st : Status) (body : List Byte) :
    OwnPort p b (answer b p tag st body) :=
  modPort_own (f := responded tag st body) fun h => h.congr rfl rfl rfl

theorem setBatch_own (b : Block) (p : Port) (c : BatchContext) : OwnPort p b (setBatch b p c) :=
  modPort_own fun h => h.congr rfl rfl rfl

theorem createJob_own (b : Block) (p : Port) (tag : Byte) (j : Job) : OwnPort p b (createJob b p tag j) :=
  modPort_own fun h => h.congr rfl rfl rfl

theorem setSlot_own (b : Block) (p : Port) (q : ReqSlot) : OwnPort p b (setSlot b p q) :=
  modPort_own fun h => h.congr rfl rfl rfl

theorem holdRequest_own (b : Block) (p : Port) (tag : Byte) (h : Held) : OwnPort p b (holdRequest b p tag h) :=
  setSlot_own b p _

theorem raiseCause_own (b : Block) (p : Port) {c : BitVec 16} (hc : c &&& ~~~0x03FC = 0) : OwnPort p b (raiseCause b p c) :=
  modPort_own fun h => h.raise hc

theorem dropResponse_own (b : Block) (p : Port) : OwnPort p b (dropResponse b p) :=
  (modPort_own fun h => h.congr rfl rfl rfl).trans (raiseCause_own _ p (by decide))

/-! ## The takes of the requests (R111 to R115) -/

/-- What the take of a request makes of the part: registers of its port, with the read path and the engine for a GET (R124), and a
started cycle for a RECLAIM (R76). -/
inductive RequestEffect (p : Port) (a : Block) : Request → Block → Prop where
  | own {r : Request} {b : Block} (h : OwnPort p a b) : RequestEffect p a r b
  | read {key : Key} {offset maxLength : BitVec 16} {c : Block} (h : OwnPort p a c) (engine : EngineState)
      (banks : PerBank ReadPath) :
      RequestEffect p a (.get key offset maxLength) { c with engine := engine, banks := banks }
  | cycle {c : Block} (h : OwnPort p a c) (sectors : Vector SectorRow 64) (cycle : Cycle) (flag : Bool) :
      RequestEffect p a .reclaim { c with sectors := sectors, cycle := cycle, reclaimFlag := flag }

theorem RequestEffect.after {p : Port} {r : Request} {a b c : Block} (h : OwnPort p a b) (k : RequestEffect p b r c) :
    RequestEffect p a r c := by
  cases k with
  | own k => exact .own (h.trans k)
  | read k engine banks => exact .read (h.trans k) engine banks
  | cycle k sectors cycle flag => exact .cycle (h.trans k) sectors cycle flag

theorem afterMount_effect {b : Block} {p : Port} {tag : Byte} {take : Block → Block} {r : Request}
    (h : RequestEffect p b r (take b)) : RequestEffect p b r (afterMount b p tag take) := by
  unfold afterMount
  split
  · exact .own (answer_own _ _ _ _ _)
  · exact h

/-- A take that touches its port alone, once mounted. -/
theorem afterMount_own {p : Port} {take : Block → Block} (h : ∀ b, OwnPort p b (take b)) (tag : Byte) (b : Block)
    (r : Request) : RequestEffect p b r (afterMount b p tag take) := afterMount_effect (.own (h b))

theorem whenReadable_effect {b : Block} {p : Port} {tag : Byte} {take : Block → Block} {r : Request}
    (h : RequestEffect p b r (take b)) : RequestEffect p b r (whenReadable b p tag take) := by
  unfold whenReadable
  split
  · exact .own (answer_own _ _ _ _ _)
  · exact h

theorem takeConfigure_effect (p : Port) (tag : Byte) (mask : BitVec 16) (rel stretch : Byte) (b : Block) (r : Request) :
    RequestEffect p b r (takeConfigure p tag mask rel stretch b) := by
  refine afterMount_effect ?_
  split
  · exact .own (answer_own _ _ _ _ _)
  · exact .own ((modPort_own fun h => h.configured mask rel stretch).trans (answer_own _ _ _ _ _))

theorem takeEvents_effect (p : Port) (tag : Byte) (clear : BitVec 16) (b : Block) (r : Request) :
    RequestEffect p b r (takeEvents p tag clear b) :=
  afterMount_effect (.own ((modPort_own fun h => h.clear clear).trans (answer_own _ _ _ _ _)))

/-- A GET that creates a read touches its bank, and an erase that it suspends (R57, R59). -/
theorem takeGet_effect (p : Port) (tag : Byte) (key : Key) (offset maxLength : BitVec 16) (b : Block) :
    RequestEffect p b (.get key offset maxLength) (takeGet p tag key offset maxLength b) := by
  refine whenReadable_effect ?_
  split
  · exact .own (answer_own _ _ _ _ _)
  · split
    · exact .own (answer_own _ _ _ _ _)
    · exact .own (answer_own _ _ _ _ _)
    · exact .own (answer_own _ _ _ _ _)
    · split
      · exact .own (answer_own _ _ _ _ _)
      · rw [createRead_eq rfl rfl]
        exact .read (setSlot_own b p _) _ _

theorem takeStat_effect (p : Port) (tag : Byte) (key : Key) (b : Block) (r : Request) :
    RequestEffect p b r (takeStat p tag key b) := by
  refine whenReadable_effect ?_
  split
  · exact .own (answer_own _ _ _ _ _)
  · split <;> exact .own (answer_own _ _ _ _ _)

theorem takeList_effect (p : Port) (tag : Byte) (afterKey : Key) (maxCount : Byte) (b : Block) (r : Request) :
    RequestEffect p b r (takeList p tag afterKey maxCount b) := by
  refine whenReadable_effect ?_
  split <;> exact .own (answer_own _ _ _ _ _)

theorem write_own (b : Block) (p : Port) (tag : Byte) (op : WriteOp) : OwnPort p b (write b p tag op) := by
  unfold write
  split
  · unfold stage
    split
    · exact answer_own _ _ _ _ _
    · exact (setBatch_own _ _ _).trans (answer_own _ _ _ _ _)
  · unfold single submitWrite
    split
    · exact answer_own _ _ _ _ _
    · split
      · split
        · exact holdRequest_own _ _ _ _
        · exact createJob_own _ _ _ _
      · exact answer_own _ _ _ _ _
  · exact OwnPort.refl p b

theorem takeBegin_effect (p : Port) (tag : Byte) (b : Block) (r : Request) : RequestEffect p b r (takeBegin p tag b) := by
  refine afterMount_effect ?_
  split
  · exact .own ((setBatch_own _ _ _).trans (answer_own _ _ _ _ _))
  · exact .own (answer_own _ _ _ _ _)
  · exact .own (.refl p b)

theorem submitCommit_own (b : Block) (p : Port) (tag : Byte) : OwnPort p b (submitCommit b p tag) := by
  unfold submitCommit
  split
  · exact answer_own _ _ _ _ _
  · exact OwnPort.refl p b
  · split
    · split
      · exact (setBatch_own _ _ _).trans (answer_own _ _ _ _ _)
      · split
        · exact holdRequest_own _ _ _ _
        · exact (createJob_own _ _ _ _).trans (setBatch_own _ _ _)
    · exact answer_own _ _ _ _ _

theorem takeAbandon_effect (p : Port) (tag : Byte) (b : Block) (r : Request) : RequestEffect p b r (takeAbandon p tag b) := by
  refine afterMount_effect ?_
  split
  · exact .own ((setBatch_own _ _ _).trans (answer_own _ _ _ _ _))
  · exact .own (answer_own _ _ _ _ _)
  · exact .own (.refl p b)

theorem answerTable_own (b : Block) (p : Port) (tag : Byte) (table : Except Status (List Key)) :
    OwnPort p b (answerTable b p tag table) := by
  unfold answerTable
  split
  · exact (modPort_own fun h => h.congr rfl rfl rfl).trans (answer_own _ _ _ _ _)
  · exact answer_own _ _ _ _ _

theorem takeNotes_effect (p : Port) (tag maxCount : Byte) (b : Block) (r : Request) :
    RequestEffect p b r (takeNotes p tag maxCount b) := by
  refine afterMount_effect ?_
  split
  · exact .own (answer_own _ _ _ _ _)
  · exact .own ((modPort_own fun h => h.congr rfl rfl rfl).trans (answer_own _ _ _ _ _))

/-- A RECLAIM that starts a cycle makes its victim SOURCE and requests the engine (R76, R77). -/
theorem takeReclaim_effect (p : Port) (tag : Byte) (b : Block) : RequestEffect p b .reclaim (takeReclaim p tag b) := by
  refine afterMount_effect ?_
  split
  · split
    · split
      · exact .cycle (answer_own b p tag .ok [0x01]) _ _ _
      · exact .own (answer_own _ _ _ _ _)
    · exact .own (answer_own _ _ _ _ _)
  · exact .own (answer_own _ _ _ _ _)

theorem submitFormat_own (b : Block) (p : Port) (tag : Byte) : OwnPort p b (submitFormat b p tag) := by
  unfold submitFormat
  split
  · split
    · exact holdRequest_own _ _ _ _
    · split
      · exact createJob_own _ _ _ _
      · exact createJob_own _ _ _ _
      · exact createJob_own _ _ _ _
      all_goals exact answer_own _ _ _ _ _
  · exact answer_own _ _ _ _ _

theorem takeRequest_effect (p : Port) (tag : Byte) (r : Request) (b : Block) :
    RequestEffect p b r (takeRequest p tag r b) := by
  cases r with
  | identify => exact .own (answer_own _ _ _ _ _)
  | storeInfo => exact afterMount_own (fun b => answer_own b p tag _ _) tag b _
  | configure mask rel stretch => exact takeConfigure_effect p tag mask rel stretch b _
  | events clear => exact takeEvents_effect p tag clear b _
  | get key offset maxLength => exact takeGet_effect p tag key offset maxLength b
  | stat key => exact takeStat_effect p tag key b _
  | list afterKey maxCount => exact takeList_effect p tag afterKey maxCount b _
  | put key expected attrs payload => exact afterMount_own (fun b => write_own b p tag _) tag b _
  | delete key expected => exact afterMount_own (fun b => write_own b p tag _) tag b _
  | beginBatch => exact takeBegin_effect p tag b _
  | commit => exact afterMount_own (fun b => submitCommit_own b p tag) tag b _
  | abandon => exact takeAbandon_effect p tag b _
  | watch key => exact afterMount_own (fun b => answerTable_own b p tag _) tag b _
  | unwatch key => exact afterMount_own (fun b => answerTable_own b p tag _) tag b _
  | notes maxCount => exact takeNotes_effect p tag maxCount b _
  | reclaim => exact takeReclaim_effect p tag b
  | format => exact afterMount_own (fun b => submitFormat_own b p tag) tag b _

/-- A request that reaches a slot is refused, or takes effect after a response it may have displaced (R110). -/
theorem reachSlot_effect {p : Port} {r : Request} {take : Block → Block} (h : ∀ b, RequestEffect p b r (take b)) (b : Block) :
    RequestEffect p b r (reachSlot b p take) := by
  unfold reachSlot
  split
  · exact .own (raiseCause_own b p (by decide))
  · exact .after (dropResponse_own b p) (h _)
  · exact h b

/-! ## The frame of the requests -/

/-- The fields that an effect can change, and the requests that change those beside the registers. -/
theorem RequestEffect.frame {p : Port} {r : Request} {a b : Block} (h : RequestEffect p a r b) :
    ∃ q engine banks sectors cycle flag,
      b =
          { a with
              ports := a.ports.set p q, engine := engine, banks := banks, sectors := sectors, cycle := cycle
              reclaimFlag := flag } ∧
        ((∀ key offset maxLength, r ≠ .get key offset maxLength) → banks = a.banks ∧ engine = a.engine) ∧
        (r ≠ .reclaim → sectors = a.sectors ∧ cycle = a.cycle ∧ flag = a.reclaimFlag) := by
  cases h with
  | own h =>
    obtain ⟨q, -, rfl⟩ := h
    exact ⟨q, _, _, _, _, _, rfl, fun _ => ⟨rfl, rfl⟩, fun _ => ⟨rfl, rfl, rfl⟩⟩
  | read h engine banks =>
    obtain ⟨q, -, rfl⟩ := h
    exact ⟨q, engine, banks, _, _, _, rfl, fun other => absurd rfl (other _ _ _), fun _ => ⟨rfl, rfl, rfl⟩⟩
  | cycle h sectors cycle flag =>
    obtain ⟨q, -, rfl⟩ := h
    exact ⟨q, _, _, sectors, cycle, flag, rfl, fun _ => ⟨rfl, rfl⟩, fun other => absurd rfl other⟩

/-- A request command changes the block alone, by its effect. -/
theorem exec_command_effect {p : Port} {tag : Byte} {r : Request} {s t : State} (h : exec (command p tag r) s = .next t) :
    ∃ b, t = { s with block := b } ∧ RequestEffect p s.block r b := by
  rw [exec_command, request, outsideReset] at h
  cases h
  split
  · exact ⟨s.block, rfl, .own (.refl p _)⟩
  · exact ⟨_, rfl, reachSlot_effect (takeRequest_effect p tag r) _⟩

/-- Settles O5: a request changes what its effect names. -/
theorem requestsLeaveTheStore : Obligations.RequestsLeaveTheStore := by
  intro p tag r s t h
  obtain ⟨b, rfl, effect⟩ := exec_command_effect h
  obtain ⟨q, engine, banks, sectors, cycle, flag, rfl, readPath, space⟩ := effect.frame
  exact ⟨rfl, fun _ other => PerPort.get_set_other _ q other, rfl, rfl, rfl, rfl, rfl, rfl, rfl, rfl, rfl, rfl, rfl, rfl, rfl,
    rfl, rfl, rfl, rfl, rfl, readPath, space⟩

end Sys2Proof.Machine
end

section
/-! Every step keeps the reserved positions of causes and masks empty, and no stretch limit on the select ports (R121, R138). -/

namespace Sys2Proof.Machine

open Safety

/-! ## The registers of every port -/

/-- A change keeps the reserved positions of each port empty. -/
def RegistersSafe (a b : Block) : Prop := ∀ p, RegistersOk p (a.ports.get p) → RegistersOk p (b.ports.get p)

theorem RegistersSafe.refl (b : Block) : RegistersSafe b b := fun _ => id

theorem RegistersSafe.trans {a b c : Block} (h : RegistersSafe a b) (k : RegistersSafe b c) : RegistersSafe a c :=
  fun p => k p ∘ h p

/-- A change that touches no port. -/
theorem RegistersSafe.of_ports {a b : Block} (h : b.ports = a.ports) : RegistersSafe a b := fun _ k => h ▸ k

/-- What the holder of the engine does: it raises causes alone. -/
theorem Keeps.registers {m : Bool} {a b : Block} (h : Keeps m a b) : RegistersSafe a b := fun p k =>
  ⟨(h.ports p).sticky.trans k.sticky, (h.ports p).mask ▸ k.mask, fun hp => (h.ports p).stretchLimit ▸ k.stretchLimit hp⟩

/-- A change of one port. -/
theorem OwnPort.registers {p : Port} {a b : Block} (h : OwnPort p a b) : RegistersSafe a b := by
  obtain ⟨q, hq, rfl⟩ := h
  intro p'
  show _ → RegistersOk p' ((a.ports.set p q).get p')
  rw [PerPort.get_set]
  split
  · next same => rw [same]; exact hq
  · exact id

theorem RequestEffect.registers {p : Port} {r : Request} {a b : Block} (h : RequestEffect p a r b) : RegistersSafe a b := by
  cases h with
  | own h => exact h.registers
  | read h engine banks => exact h.registers.trans (.of_ports rfl)
  | cycle h sectors cycle flag => exact h.registers.trans (.of_ports rfl)

/-- Reset brings every register to a value without reserved positions. -/
theorem RegistersSafe.of_reset (a : Block) {b : Block} (h : b.ports = PerPort.all PortState.reset) : RegistersSafe a b := by
  intro p _
  rw [h, PerPort.get_all]
  exact registersOk_reset p

theorem endStretch_registers (b : Block) : RegistersSafe b (endStretch b) := .of_ports (endStretch_ports b)

/-! ## Frames and fetches -/

theorem frameEnds_registers (p : Port) (frame : List Byte) (b : Block) : RegistersSafe b (frameEnds p frame b) := by
  unfold frameEnds
  split
  · exact RegistersSafe.refl b
  · unfold reachSlot
    have taken : ∀ c, RegistersSafe c (takeFrame p frame c) := by
      intro c
      unfold takeFrame
      split
      · exact (answer_own _ _ _ _ _).registers
      · exact (takeRequest_effect _ _ _ _).registers
    split
    · exact (raiseCause_own b p (by decide)).registers
    · exact (dropResponse_own b p).registers.trans (taken _)
    · exact taken b

theorem requestFrameOver_registers (b : Block) (p : Port) (bytes : List Byte) (bad : Bool) :
    RegistersSafe b (requestFrameOver b p bytes bad) := by
  unfold requestFrameOver
  split
  · exact (raiseCause_own b p (by decide)).registers
  · exact frameEnds_registers p bytes b

/-- The count of fetched bytes touches the fetch progress alone (R118). -/
theorem countFetched_own (b : Block) (p : Port) (answered : Bool) : OwnPort p b (countFetched b p answered) :=
  modPort_own fun h => by
    split
    · exact h.congr rfl rfl rfl
    · exact h

/-- The end of a fetch touches slot and fetch progress alone (R118). -/
theorem fetchEnds_own (b : Block) (p : Port) (clean : Bool) : OwnPort p b (fetchEnds b p clean) :=
  modPort_own fun h => by
    split
    · split <;> exact h.congr rfl rfl rfl
    all_goals exact h

theorem frameByte_registers (b : Block) (p : SelPort) (sdi : Byte) : RegistersSafe b (frameByte b p sdi) := by
  unfold frameByte
  split
  · exact .of_ports rfl
  · unfold laterByte
    split
    · exact .of_ports rfl
    · exact (countFetched_own _ _ _).registers
    all_goals exact RegistersSafe.refl b

theorem busCondition_registers (b : Block) (incomplete started : Bool) :
    RegistersSafe b (busCondition b incomplete started) := by
  have ends : ∀ c : Block, RegistersSafe c (transactionEnds c b.wire incomplete) := by
    intro c
    unfold transactionEnds
    split
    · exact requestFrameOver_registers _ _ _ _
    · exact (fetchEnds_own _ _ _).registers
    all_goals exact RegistersSafe.refl c
  unfold busCondition
  split
  · exact RegistersSafe.refl b
  all_goals exact RegistersSafe.trans (b := setWire b (wireIdle started)) (.of_ports rfl) (ends _)

theorem acknowledged_registers (b : Block) (ack : Bool) : RegistersSafe b (acknowledged b ack) := by
  have counted : RegistersSafe b (if 0 < b.wire.bytesSent then countFetched b .p2 b.wire.showedAnswered else b) := by
    split
    · exact (countFetched_own _ _ _).registers
    · exact RegistersSafe.refl b
  unfold acknowledged
  dsimp only
  split <;> exact counted.trans (.of_ports rfl)

/-! ## The engine, reads and release -/

theorem opEnded_registers (b : Block) (ok : Bool) (bytes : List Byte) : RegistersSafe b (opEnded b ok bytes) :=
  RegistersSafe.trans (b := { b with engine := .idle }) (.of_ports rfl)
    ((keeps_holderNext_any _ ok bytes).registers.trans (endStretch_registers _))

theorem grant_registers (b : Block) (r : Requester) : RegistersSafe b (grant b r) := by
  cases r with
  | job p =>
    exact RegistersSafe.trans (b := { b with lastGranted := .job p }) (.of_ports rfl)
      (keeps_takePort (Keeps.refl false _) p).registers
  | reclaim =>
    exact RegistersSafe.trans (b := { b with lastGranted := .reclaim, reclaimFlag := false }) (.of_ports rfl)
      (keeps_reclaimGrant (Keeps.refl false _)).registers

theorem answerRead_registers (b : Block) (r : Read) (st : Status) (body : List Byte) :
    RegistersSafe b (answerRead b r st body) := by
  unfold answerRead
  split
  · split
    · exact RegistersSafe.refl b
    · exact (answer_own _ _ _ _ _).registers
  all_goals exact RegistersSafe.refl b

theorem readOutcome_registers (b : Block) (r : Read) (bytes : List Byte) : RegistersSafe b (readOutcome b r bytes) := by
  unfold readOutcome
  split
  · exact answerRead_registers _ _ _ _
  · exact (keeps_damageReport (Keeps.refl false b) _ _ _ _).registers.trans (answerRead_registers _ _ _ _)

theorem pinsDropped_ports (b : Block) : (pinsDropped b).ports = b.ports := by simp [pinsDropped]

/-- A release raises RELEASED, and leaves mask and stretch limit (R128). -/
theorem released_registers (b : Block) (p : Port) : RegistersSafe b (released b p) := by
  have port : OwnPort p b (modPort b p releasedPort) :=
    modPort_own fun h => (h.raise (c := causeReleased) (by decide)).congr rfl rfl rfl
  refine port.registers.trans (.of_ports ?_)
  exact (pinsDropped_ports _).trans (releaseFraming_ports _ p)

/-! ## Every command, every step -/

/-- A command that acts outside reset. -/
theorem outsideReset_registers {s t : State} {f : Block → Block} (h : outsideReset s f = .next t)
    (hf : ∀ b, RegistersSafe b (f b)) : RegistersSafe s.block t.block := by
  unfold outsideReset at h
  cases h
  split
  · exact RegistersSafe.refl _
  · exact hf _

/-- A command that touches no port. -/
theorem outsideReset_ports {s t : State} {f : Block → Block} (h : outsideReset s f = .next t)
    (hf : ∀ b, (f b).ports = b.ports) : RegistersSafe s.block t.block :=
  outsideReset_registers h fun b => .of_ports (hf b)

theorem request_registers {s t : State} {p : Port} {tag : Byte} {r : Request} (h : exec (command p tag r) s = .next t) :
    RegistersSafe s.block t.block := by
  obtain ⟨b, rfl, effect⟩ := exec_command_effect h
  exact effect.registers

/-- The end of an operation outside reset. -/
theorem ended_registers {s e t : State} (h : (.next (if s.block.inReset then s else e) : Out) = .next t)
    (he : RegistersSafe s.block e.block) : RegistersSafe s.block t.block := by
  cases h
  split
  · exact RegistersSafe.refl _
  · exact he

theorem endProgram_registers (s : State) (miss : List Byte) (inTime : Bool) :
    RegistersSafe s.block (endProgram s miss inTime).block := by
  unfold endProgram
  split
  · exact opEnded_registers _ _ _
  · exact RegistersSafe.refl _

theorem endErase_registers (s : State) (residue : List (Nat × Byte)) (inTime : Bool) :
    RegistersSafe s.block (endErase s residue inTime).block := by
  unfold endErase
  split
  · exact opEnded_registers _ _ _
  · exact RegistersSafe.refl _

theorem readFinish_registers {k : Bank} {s t : State} (h : exec (.readFinish k) s = .next t) :
    RegistersSafe s.block t.block := by
  unfold exec execReadFinish at h
  refine outsideReset_registers h fun b => ?_
  dsimp only
  split
  · exact RegistersSafe.trans (b := { b with banks := b.banks.set k { b.banks.get k with current := none } }) (.of_ports rfl)
      ((readOutcome_registers _ _ _).trans
        ((RegistersSafe.of_ports (pinsDropped_ports _)).trans (endStretch_registers _)))
  · exact RegistersSafe.refl b

theorem engineGrant_registers {s t : State} (h : exec .engineGrant s = .next t) : RegistersSafe s.block t.block := by
  unfold exec execEngineGrant at h
  refine outsideReset_registers h fun b => ?_
  split
  · split
    · exact (grant_registers _ _).trans (endStretch_registers _)
    · exact RegistersSafe.refl b
  · exact RegistersSafe.refl b

theorem stepReadComplete_registers {s t : State} (h : exec .stepReadComplete s = .next t) :
    RegistersSafe s.block t.block := by
  unfold exec execStepReadComplete at h
  refine outsideReset_registers h fun b => ?_
  split
  · exact opEnded_registers _ _ _
  · exact RegistersSafe.refl b

theorem resetEnd_registers {adm adr : BitVec 2} {h0 h1 : Bool} {s t : State} (h : exec (.resetEnd adm adr h0 h1) s = .next t) :
    RegistersSafe s.block t.block := by
  cases h
  split
  · exact RegistersSafe.of_reset _ rfl
  · exact RegistersSafe.refl _

theorem release_registers {p : Port} {s t : State} (h : exec (.release p) s = .next t) : RegistersSafe s.block t.block := by
  unfold exec execRelease at h
  refine outsideReset_registers h fun b => ?_
  split
  · exact released_registers b p
  · exact RegistersSafe.refl b

theorem selectByteComplete_registers {p : SelPort} {sdi : Byte} {s t : State}
    (h : exec (.selectByteComplete p sdi) s = .next t) : RegistersSafe s.block t.block := by
  unfold exec execSelectByteComplete at h
  refine outsideReset_registers h fun b => ?_
  split
  · exact (frameByte_registers b p sdi).trans (.of_ports rfl)
  all_goals exact RegistersSafe.refl b

theorem requestFrameSelectEnd_registers {p : SelPort} {onBoundary : Bool} {s t : State}
    (h : exec (.requestFrameSelectEnd p onBoundary) s = .next t) : RegistersSafe s.block t.block := by
  unfold exec execRequestFrameSelectEnd at h
  refine outsideReset_registers h fun b => ?_
  dsimp only
  split
  · exact RegistersSafe.trans (b := frameOver b p) (.of_ports rfl) (requestFrameOver_registers _ _ _ _)
  · exact RegistersSafe.refl b

theorem fetchFrameEnd_registers {p : SelPort} {onBoundary : Bool} {s t : State}
    (h : exec (.fetchFrameEnd p onBoundary) s = .next t) : RegistersSafe s.block t.block := by
  unfold exec execFetchFrameEnd at h
  refine outsideReset_registers h fun b => ?_
  dsimp only
  split
  · exact RegistersSafe.trans (b := frameOver b p) (.of_ports rfl) (fetchEnds_own _ _ _).registers
  · exact RegistersSafe.refl b

theorem otherFrameEnd_registers {p : SelPort} {onBoundary : Bool} {s t : State}
    (h : exec (.otherFrameEnd p onBoundary) s = .next t) : RegistersSafe s.block t.block := by
  unfold exec execOtherFrameEnd at h
  refine outsideReset_registers h fun b => ?_
  dsimp only
  split
  · exact .of_ports rfl
  · exact .of_ports rfl
  · exact RegistersSafe.trans (b := frameOver b p) (.of_ports rfl) (raiseCause_own _ _ (by decide)).registers
  all_goals exact RegistersSafe.refl b

theorem readByteAcknowledge_registers {ack : Bool} {s t : State} (h : exec (.readByteAcknowledge ack) s = .next t) :
    RegistersSafe s.block t.block := by
  unfold exec execReadByteAcknowledge at h
  refine outsideReset_registers h fun b => ?_
  split
  · exact acknowledged_registers b ack
  · exact RegistersSafe.refl b

theorem addressByte_registers {x : Byte} {s t : State} (h : exec (.addressByte x) s = .next t) :
    RegistersSafe s.block t.block := by
  unfold exec execAddressByte at h
  refine outsideReset_ports h fun b => ?_
  split
  · split
    · rfl
    · split
      · exact readAddressed_ports b
      · rfl
  · rfl

theorem exec_registers (i : Instr) {s t : State} (h : exec i s = .next t) : RegistersSafe s.block t.block := by
  cases i with
  | identify p tag => exact request_registers (r := .identify) h
  | storeInfo p tag => exact request_registers (r := .storeInfo) h
  | configure p tag mask rel stretch => exact request_registers (r := .configure mask rel stretch) h
  | events p tag clear => exact request_registers (r := .events clear) h
  | get p tag key offset maxLength => exact request_registers (r := .get key offset maxLength) h
  | stat p tag key => exact request_registers (r := .stat key) h
  | list p tag afterKey maxCount => exact request_registers (r := .list afterKey maxCount) h
  | put p tag key expected attrs payload => exact request_registers (r := .put key expected attrs payload) h
  | delete p tag key expected => exact request_registers (r := .delete key expected) h
  | beginBatch p tag => exact request_registers (r := .beginBatch) h
  | commit p tag => exact request_registers (r := .commit) h
  | abandon p tag => exact request_registers (r := .abandon) h
  | watch p tag key => exact request_registers (r := .watch key) h
  | unwatch p tag key => exact request_registers (r := .unwatch key) h
  | notes p tag maxCount => exact request_registers (r := .notes maxCount) h
  | reclaim p tag => exact request_registers (r := .reclaim) h
  | format p tag => exact request_registers (r := .format) h
  | requestFrameEnd p bytes => exact outsideReset_registers h (frameEnds_registers p bytes)
  | readStart k => exact .of_ports (readStart_ports h)
  | readFinish k => exact readFinish_registers h
  | engineGrant => exact engineGrant_registers h
  | engineOpStart => exact .of_ports (engineOpStart_ports h)
  | programComplete miss => exact ended_registers h (endProgram_registers s miss true)
  | programTimeout miss => exact ended_registers h (endProgram_registers s miss false)
  | eraseComplete residue => exact ended_registers h (endErase_registers s residue true)
  | eraseTimeout residue => exact ended_registers h (endErase_registers s residue false)
  | stepReadComplete => exact stepReadComplete_registers h
  | resetAssert miss residue => cases h; exact RegistersSafe.of_reset _ rfl
  | resetEnd adm adr h0 h1 => exact resetEnd_registers h
  | release p => exact release_registers h
  | selectFall p clockHigh =>
    unfold exec execSelectFall at h
    exact outsideReset_ports h fun b => by split <;> rfl
  | requestFrameSelectEnd p onBoundary => exact requestFrameSelectEnd_registers h
  | fetchFrameEnd p onBoundary => exact fetchFrameEnd_registers h
  | otherFrameEnd p onBoundary => exact otherFrameEnd_registers h
  | discardingEnd p =>
    unfold exec execDiscardingEnd at h
    exact outsideReset_ports h fun b => by split <;> rfl
  | busStart incomplete =>
    exact outsideReset_registers (f := fun b => busCondition b incomplete true) h fun b => busCondition_registers b _ _
  | busStop incomplete =>
    exact outsideReset_registers (f := fun b => busCondition b incomplete false) h fun b => busCondition_registers b _ _
  | addressByte x => exact addressByte_registers h
  | stretchLimitExpiry =>
    unfold exec execStretchLimitExpiry at h
    exact outsideReset_ports h fun b => by split <;> rfl
  | selectByteComplete p sdi => exact selectByteComplete_registers h
  | twoWireRequestByte x =>
    unfold exec execTwoWireRequestByte at h
    exact outsideReset_ports h fun b => by split <;> rfl
  | readByteAcknowledge ack => exact readByteAcknowledge_registers h
  | releaseInputHigh p =>
    exact outsideReset_registers (f := fun b => modPort b p _) h fun _ =>
      (modPort_own fun k => k.congr rfl rfl rfl).registers

/-- A step runs the front command, or lets a millisecond pass, which touches no port. -/
theorem step_registers {s t : State} (h : step s = .next t) : RegistersSafe s.block t.block := by
  unfold step at h
  split at h
  · rename_i i rest _
    exact exec_registers (s := { s with pending := rest }) i h
  · cases h
    refine .of_ports ?_
    unfold idleTick
    split <;> rfl

/-- Settles O57: every command keeps the registers of each port, so every step does. -/
theorem reservedPositionsStayEmpty : Obligations.ReservedPositionsStayEmpty := fun s t hs h =>
  (portsOk_iff t.block).2 fun p => step_registers h p ((portsOk_iff s.block).1 hs p)

end Sys2Proof.Machine
end

section
/-! What reaches a slot and is not taken, the immediate requests IDENTIFY, STORE_INFO, CONFIGURE and NOTES, and the end of a fetch
(R110 to R121, R137, R152). -/

namespace Sys2Proof.Machine

open Safety

/-- Two changes of a port are one where they leave the same registers. -/
theorem onPort_congr {s : State} {p : Port} {f g : PortState → PortState}
    (h : f (s.block.ports.get p) = g (s.block.ports.get p)) : onPort s p f = onPort s p g := by
  unfold onPort modPort
  rw [h]

theorem onPort_id (s : State) (p : Port) : onPort s p id = s := by
  unfold onPort modPort
  rw [id, PerPort.set_get]

/-! ## A WORKING slot, and the mount (R110, R111) -/

/-- Settles O6: a WORKING slot raises REFUSED, whatever reaches it; a mount answers in the take. -/
theorem slotAndMountGateRequests : Obligations.SlotAndMountGateRequests := by
  intro p tag r frame i s
  refine ⟨fun hi hr hw => ?_, fun hid ht hm => ?_⟩
  · rcases hi with rfl | ⟨rfl, some, fits⟩
    · rw [exec_command]
      exact request_working _ hr hw
    · rw [exec_requestFrameEnd s some fits]
      exact request_working _ hr hw
  · rw [exec_command, request_taken _ ht, onBlock_answer (takeRequest_mounting hid ((atTake_storeState s p).trans hm))]

/-! ## IDENTIFY, STORE_INFO, CONFIGURE and NOTES -/

/-- Settles O10: the 29 bytes, in every store state. -/
theorem identifyAnswersTheDescription : Obligations.IdentifyAnswersTheDescription := by
  intro p tag s ht
  have body : identifyBody p =
      [0x2D, 0x47, 0x04, 0x18, 0x01, BitVec.ofNat 8 p.num, 0x00, 0x04, 0x00, 0x00, 0x10, 0x00, 0x40, 0x02, 0x0F, 0xE0,
        0x04, 0x00, 0x02, 0x00, 0x08, 0x08, 0x00, 0x08, 0x10, 0x04, 0x10, 0x04, 0x16] := by cases p <;> decide
  rw [← body]
  exact request_taken (takeIdentify p tag) ht

/-- The description does not look at the registers of a port. -/
theorem storeInfoBody_atTake (s : State) (p : Port) : storeInfoBody (atTake s p).block = storeInfoBody s.block := by
  unfold atTake
  split <;> rfl

/-- Settles O11: the fields are laid out from the state that the request is taken in, which differs in its port alone. -/
theorem storeInfoAnswersTheFields : Obligations.StoreInfoAnswersTheFields := by
  intro p tag s ht hm b count storeByte adminByte cycleByte body
  have taken : exec (.storeInfo p tag) s = .next (onBlock (atTake s p) fun b => answer b p tag .ok (storeInfoBody b)) :=
    request_mounted tag _ ht hm
  have store : (storeCode b.storeState).zeroExtend 8 = storeByte := by
    dsimp only [storeByte]
    cases b.storeState <;> rfl
  have admin : portCode b.admin = adminByte := by
    dsimp only [adminByte]
    rcases b.admin with _ | _ | _ | _ <;> rfl
  have cycle : cycleCode b.cycle = cycleByte := by
    dsimp only [cycleByte]
    cases b.cycle <;> rfl
  have fields : storeInfoBody b = body := by
    simp only [storeInfoBody, store, admin, cycle, usageBytes, ← List.append_assoc]
    rfl
  have answered := congrArg (answer (atTake s p).block p tag .ok) ((storeInfoBody_atTake s p).trans fields)
  exact ⟨by simp [body], taken.trans (congrArg Host.Outcome.next (onBlock_answer answered))⟩

/-- Settles O12: a release enable of 0 or 1 is laid out as it came. -/
theorem configureSetsThreeValues : Obligations.ConfigureSetsThreeValues := by
  intro p tag mask rel stretch s ht hm
  have taken : exec (.configure p tag mask rel stretch) s =
      .next (onBlock (atTake s p) fun b =>
        if !releaseEnableOk rel then answer b p tag .badValue []
        else
          let b := modPort b p (configured p mask rel stretch)
          answer b p tag .ok (configureBody (b.ports.get p))) := request_mounted tag _ ht hm
  refine ⟨fun hrel => ?_, fun hrel => ?_⟩
  · have ok : releaseEnableOk rel = true := by simpa [releaseEnableOk] using hrel
    have byte : boolByte (rel == 1) = rel := by rcases hrel with rfl | rfl <;> rfl
    simp only [taken, onBlock, ok, Bool.not_true, Bool.false_eq_true, if_false, modPort_get, answer_modPort, configureBody,
      configured, byte]
    rfl
  · have bad : releaseEnableOk rel = false := by simpa [releaseEnableOk] using hrel
    rw [taken, onBlock_answer (by rw [bad]; rfl)]

/-- A max count of R114 takes the oldest notes. -/
theorem exec_notes {p : Port} {tag maxCount : Byte} {s : State} (ht : canTake s p) (hm : mounted s)
    (hn : notesCountOk maxCount = true) :
    exec (.notes p tag maxCount) s =
      .next (onPort (atTake s p) p fun q =>
        responded tag .ok (notesBody ((s.block.ports.get p).notes.take maxCount.toNat))
          { q with notes := (s.block.ports.get p).notes.drop maxCount.toNat }) := by
  have taken := request_mounted tag (fun b =>
    if !notesCountOk maxCount then answer b p tag .badValue []
    else
      answer (modPort b p fun q => { q with notes := q.notes.drop maxCount.toNat }) p tag .ok
        (notesBody ((b.ports.get p).notes.take maxCount.toNat))) ht hm
  refine taken.trans ?_
  simp only [hn, Bool.not_true, Bool.false_eq_true, if_false, answer_modPort, ← atTake_notes s p]
  rfl

/-- Settles O28: the oldest notes leave the queue and are laid out one after the other. -/
theorem notesReturnsTheOldest : Obligations.NotesReturnsTheOldest := by
  intro p tag maxCount s ht hm run queue given bytes
  refine ⟨fun hn => ?_, fun hn => ?_⟩
  · have bad : notesCountOk maxCount = false := by simp [notesCountOk]; omega
    exact (request_mounted tag _ ht hm).trans (congrArg _ (onBlock_answer (by rw [bad]; rfl)))
  · have ok : notesCountOk maxCount = true := by simp [notesCountOk, hn]
    have layout : noteBytes = bytes := funext fun ⟨_, _, kind, _, _⟩ => by cases kind <;> rfl
    have body : notesBody given = BitVec.ofNat 8 given.length :: (given.map bytes).flatten := by
      rw [← layout, notesBody, List.flatMap_def]
      rfl
    rw [← body]
    exact exec_notes ht hm ok

/-! ## FETCH_FRAME_END (R118, R152) -/

/-- The port after the end of a fetch: a response that all went out is released (R118). -/
def fetched (clean : Bool) (q : PortState) : PortState :=
  match q.slot with
  | .answered r =>
    if clean && q.fetchProgress == r.length then { q with slot := .empty, fetchProgress := 0 }
    else { q with fetchProgress := 0 }
  | .empty | .working _ _ => q

theorem fetchEnds_eq (b : Block) (p : Port) (clean : Bool) : fetchEnds b p clean = modPort b p (fetched clean) := rfl

theorem fetched_other {clean : Bool} {q : PortState} (h : slotAnswered q.slot = false) : fetched clean q = q := by
  unfold fetched
  cases hq : q.slot with
  | answered r => rw [hq] at h; cases h
  | empty | working => rfl

theorem fetched_whole {clean : Bool} {q : PortState} {r : List Byte} (hq : q.slot = .answered r)
    (h : clean = true ∧ q.fetchProgress = r.length) : fetched clean q = { q with slot := .empty, fetchProgress := 0 } := by
  unfold fetched
  rw [hq]
  exact if_pos (by simpa using h)

theorem fetched_kept {clean : Bool} {q : PortState} {r : List Byte} (hq : q.slot = .answered r)
    (h : ¬(clean = true ∧ q.fetchProgress = r.length)) : fetched clean q = { q with fetchProgress := 0 } := by
  unfold fetched
  rw [hq]
  exact if_neg (by simpa using h)

/-- Settles O51: an ANSWERED slot is released or kept; no other acts on the end. -/
theorem fetchFrameReleasesWhenWhole : Obligations.FetchFrameReleasesWhenWhole := by
  intro p onBoundary s hr f q hs hf ended run
  have ends : run = .next (onPort ended p.port (fetched (onBoundary && f.showedAnswered))) := by
    have frame : (s.block.select.get p).state = .frame ∧ (s.block.select.get p).frameType = .fetch := ⟨hs, hf⟩
    show execFetchFrameEnd p onBoundary s = _
    simp only [execFetchFrameEnd, outsideReset, hr, Bool.false_eq_true, if_false, if_pos frame]
    rfl
  have acts : ∀ g : PortState → PortState, fetched (onBoundary && f.showedAnswered) q = g q →
      run = .next (onPort ended p.port g) := fun g h => ends.trans (congrArg _ (onPort_congr (s := ended) h))
  refine ⟨fun none => ?_, fun r hq => ⟨fun whole => ?_, fun cut => ?_⟩⟩
  · exact (acts id (fetched_other none)).trans (congrArg _ (onPort_id ended p.port))
  · exact acts _ (fetched_whole hq (by simpa [and_assoc] using whole))
  · exact acts _ (fetched_kept hq (by simpa [and_assoc] using cut))

end Sys2Proof.Machine
end

section
/-! Request frames: the common checks, and the frame that carries a request (R110 to R112, R174). -/

namespace Sys2Proof.Machine

open Safety Decode

/-! ## The common checks (R111) -/

/-- Check 1, with the length bytes named. -/
theorem lengthOk_iff (frame : List Byte) :
    lengthOk frame = true ↔
      6 ≤ frame.length ∧ frame.length = 6 + (word16 (frame.getD 2 0) (frame.getD 3 0)).toNat := by
  simp [lengthOk, word16At, byteAt]

/-- Check 2, with the check bytes named. -/
theorem checkOk_iff {frame : List Byte} (h : 6 ≤ frame.length) :
    checkOk frame = true ↔
      crc16 (frame.take (frame.length - 2)) =
        word16 (frame.getD (frame.length - 2) 0) (frame.getD (frame.length - 1) 0) := by
  have last : frame.length - 2 + 1 = frame.length - 1 := by omega
  simp only [checkOk, word16At, byteAt, last, beq_iff_eq]

theorem commonChecks_badLength {mounting : Bool} {frame : List Byte} (h : ¬lengthOk frame = true) :
    commonChecks mounting frame = .refused .malformed := by
  simp [commonChecks, h]

theorem commonChecks_badCheck {mounting : Bool} {frame : List Byte} (hl : lengthOk frame = true)
    (h : ¬checkOk frame = true) : commonChecks mounting frame = .refused .malformed := by
  simp [commonChecks, hl, h]

theorem commonChecks_unknown {mounting : Bool} {frame : List Byte} (hl : lengthOk frame = true) (hc : checkOk frame = true)
    (h : ¬knownCode (byteAt frame 0) = true) : commonChecks mounting frame = .refused .unknown := by
  simp [commonChecks, hl, hc, h]

theorem commonChecks_mounting {frame : List Byte} (hl : lengthOk frame = true) (hc : checkOk frame = true)
    (hk : knownCode (byteAt frame 0) = true) (h : byteAt frame 0 ≠ 0x01) : commonChecks true frame = .refused .state := by
  have closed : (true && byteAt frame 0 != 0x01) = true := bne_iff_ne.2 h
  simp only [commonChecks, hl, hc, hk, closed, Bool.not_true, Bool.false_eq_true, if_false, if_true]

/-- Where the mount lets the frame by, its structure decides. -/
theorem commonChecks_parse {mounting : Bool} {frame : List Byte} (hl : lengthOk frame = true) (hc : checkOk frame = true)
    (hk : knownCode (byteAt frame 0) = true) (hm : byteAt frame 0 = 0x01 ∨ mounting = false) :
    commonChecks mounting frame = (parse (byteAt frame 0) (frameParams frame)).elim (.refused .malformed) .request := by
  have served : (mounting && byteAt frame 0 != 0x01) = false := by rcases hm with h | h <;> simp [h]
  simp only [commonChecks, hl, hc, hk, served, Bool.not_true, Bool.false_eq_true, if_false]
  cases parse (byteAt frame 0) (frameParams frame) <;> rfl

/-- A frame that a common check refuses is answered with an empty body (R111). -/
theorem exec_frame_refused {p : Port} {frame : List Byte} {s : State} {st : Status} (ht : canTake s p) (hf : frame ≠ [])
    (hl : frame.length ≤ 1046) (h : commonChecks (s.block.storeState == .mounting) frame = .refused st) :
    exec (.requestFrameEnd p frame) s = .next (onPort (atTake s p) p (responded (frame.getD 1 0) st [])) := by
  have refused : takeFrame p frame (atTake s p).block = answer (atTake s p).block p (frameTag frame) st [] := by
    unfold takeFrame
    rw [atTake_storeState, h]
  rw [exec_requestFrameEnd s hf hl, request_taken _ ht, onBlock_answer refused]
  rfl

/-- Settles O7: the first check that fails gives the status. -/
theorem badFramesAreAnsweredInOrder : Obligations.BadFramesAreAnsweredInOrder := by
  intro p frame s ht hf hl answer n checked sent known
  have refused : ∀ st, commonChecks (s.block.storeState == .mounting) frame = .refused st →
      exec (.requestFrameEnd p frame) s = answer st := fun st h => exec_frame_refused ht hf hl h
  have codes : knownCode (byteAt frame 0) = true ↔ frame.getD 0 0 ∈ known := List.contains_iff_mem
  refine ⟨fun short => refused _ (commonChecks_badLength ?_), fun long => ?_⟩
  · rw [lengthOk_iff]
    omega
  · have length : lengthOk frame = true := (lengthOk_iff frame).2 long
    have check : checkOk frame = true ↔ crc16 checked = sent := checkOk_iff long.1
    refine ⟨fun wrong => refused _ (commonChecks_badCheck length (mt check.1 wrong)), fun right => ?_⟩
    have check := check.2 right
    refine ⟨fun other => ?_, fun code hid hm => ?_, fun code served bad => ?_⟩
    · exact refused _ (commonChecks_unknown length check (mt codes.1 other))
    · exact refused _ (by rw [hm]; exact commonChecks_mounting length check (codes.2 code) hid)
    · have params : frameParams frame = (frame.drop 4).take n := by rw [frameParams, long.2, Nat.add_sub_cancel_left]
      have none : parse (byteAt frame 0) (frameParams frame) = none := params ▸ bad
      refine refused _ ?_
      rw [commonChecks_parse length check (codes.2 code) (served.imp id beq_false_of_ne), none]
      rfl

/-! ## Words and bytes of the parameters (R112, R174) -/

theorem word16_be16Nat {n : Nat} (h : n < 65536) :
    (word16 ((BitVec.ofNat 16 n).extractLsb' 8 8) ((BitVec.ofNat 16 n).extractLsb' 0 8)).toNat = n := by
  rw [word16_extract, BitVec.toNat_ofNat, Nat.mod_eq_of_lt h]

theorem portSetOf_portSetByte (set : PortSet) : portSetOf (portSetByte set) = some set := by
  revert set
  decide

theorem writeOnceOf_boolByte (b : Bool) : writeOnceOf (boolByte b) = some b := by cases b <;> rfl

theorem attrsOf_attrsBytes (a : Attrs) :
    attrsOf (portSetByte a.readSet) (portSetByte a.writeSet) (boolByte a.writeOnce) = some a := by
  simp only [attrsOf, portSetOf_portSetByte, writeOnceOf_boolByte]

theorem payloadOf_bytes {payload : List Byte} (h : payload.length < 65536) :
    payloadOf (be16Nat payload.length ++ payload) = some payload := by
  show (if payload.length == _ then some payload else none) = _
  rw [word16_be16Nat h, beq_self_eq_true, if_pos rfl]

theorem putRest_bytes (key : Key) (expected : Option Seq) (attrs : Option Attrs) {payload : List Byte}
    (h : payload.length < 65536) :
    putRest key expected attrs.isSome (attrsBytes attrs ++ (be16Nat payload.length ++ payload)) =
      some (.put key expected attrs payload) := by
  unfold putRest
  cases attrs with
  | none => simp [attrsBytes, payloadOf_bytes h]
  | some a => simp [attrsBytes, payloadOf_bytes h, attrsOf_attrsBytes]

/-- Option flags: bits 7 to 2 are 0, bit 0 is expected-present, bit 1 attrs-present (R112). -/
theorem optionFlags_bits (expected : Option Seq) (attrs : Option Attrs) :
    (optionFlags expected attrs >>> 2 == 0) = true ∧ (optionFlags expected attrs).getLsbD 0 = expected.isSome ∧
      (optionFlags expected attrs).getLsbD 1 = attrs.isSome := by
  have bits : ∀ e a : Bool,
      let flags : Byte := (if e then 1 else 0) ||| (if a then 2 else 0)
      (flags >>> 2 == 0) = true ∧ flags.getLsbD 0 = e ∧ flags.getLsbD 1 = a := by decide
  exact bits expected.isSome attrs.isSome

/-- The option flags say which of the expected sequence and the attributes follow. -/
theorem putParams_bytes (key : Key) (expected : Option Seq) (attrs : Option Attrs) (rest : List Byte) :
    putParams (be16 key ++ [optionFlags expected attrs] ++ expectedBytes expected ++ rest) =
      putRest key expected attrs.isSome rest := by
  obtain ⟨reserved, hasExpected, hasAttrs⟩ := optionFlags_bits expected attrs
  cases expected <;>
    simp only [putParams, be16, be32, expectedBytes, List.cons_append, List.nil_append, reserved, hasExpected, hasAttrs,
      Option.isSome_none, Option.isSome_some, Bool.false_eq_true, if_true, if_false, word16_extract, word32_extract]

theorem deleteParams_bytes (key : Key) (expected : Option Seq) :
    deleteParams (be16 key ++ [optionFlags expected none] ++ expectedBytes expected) = some (.delete key expected) := by
  cases expected <;>
    simp [deleteParams, be16, be32, expectedBytes, optionFlags, word16_extract, word32_extract]

/-- The structure check reads back the parameters that a request is laid out as. -/
theorem parse_params {r : Request} (h : (params r).length < 65536) : parse (code r) (params r) = some r := by
  cases r with
  | identify | storeInfo | beginBatch | commit | abandon | reclaim | format => rfl
  | configure mask rel stretch => exact congrArg (fun m => some (Request.configure m rel stretch)) (word16_extract mask)
  | events clear => exact congrArg (fun c => some (Request.events c)) (word16_extract clear)
  | get key offset maxLength =>
    show some (Request.get (word16 _ _) (word16 _ _) (word16 _ _)) = _
    rw [word16_extract, word16_extract, word16_extract]
  | stat key => exact congrArg (fun k => some (Request.stat k)) (word16_extract key)
  | list afterKey maxCount => exact congrArg (fun k => some (Request.list k maxCount)) (word16_extract afterKey)
  | put key expected attrs payload =>
    have fits : payload.length < 65536 := by
      simp only [params, List.length_append] at h
      omega
    have bytes : params (.put key expected attrs payload) =
        be16 key ++ [optionFlags expected attrs] ++ expectedBytes expected ++
          (attrsBytes attrs ++ (be16Nat payload.length ++ payload)) := by simp only [params, List.append_assoc]
    rw [bytes]
    exact (putParams_bytes key expected attrs _).trans (putRest_bytes key expected attrs fits)
  | delete key expected => exact deleteParams_bytes key expected
  | watch key => exact congrArg (fun k => some (Request.watch k)) (word16_extract key)
  | unwatch key => exact congrArg (fun k => some (Request.unwatch k)) (word16_extract key)
  | notes maxCount => rfl

/-! ## The frame that carries a request (R111, R174) -/

/-- Only a PUT could be longer than a frame (R110). -/
theorem params_length {r : Request} (h : r.wf = true) : (params r).length ≤ 1040 := by
  cases r with
  | put key expected attrs payload =>
    have fits : putFrameBytes expected attrs payload ≤ 1046 := of_decide_eq_true h
    cases expected <;> cases attrs <;>
      simp [params, expectedBytes, attrsBytes, putFrameBytes] at fits ⊢ <;> omega
  | delete key expected => cases expected <;> simp [params, expectedBytes]
  | _ => simp [params]

/-- The bytes before the check: code, tag, parameter length, parameters. -/
def frameFront (tag : Byte) (r : Request) : List Byte := code r :: tag :: (be16Nat (params r).length ++ params r)

theorem encode_eq (tag : Byte) (r : Request) : encode tag r = frameFront tag r ++ be16 (crc16 (frameFront tag r)) := rfl

theorem frameFront_length (tag : Byte) (r : Request) : (frameFront tag r).length = 4 + (params r).length := by
  simp [frameFront]
  omega

theorem encode_length (tag : Byte) (r : Request) : (encode tag r).length = 6 + (params r).length := by
  simp [encode_eq, frameFront_length]
  omega

theorem encode_lengthOk (tag : Byte) {r : Request} (h : r.wf = true) : lengthOk (encode tag r) = true := by
  have fits := params_length h
  rw [lengthOk_iff, encode_length]
  refine ⟨by omega, ?_⟩
  have said := word16_be16Nat (n := (params r).length) (by omega)
  exact congrArg (6 + ·) said.symm

theorem encode_checkOk (tag : Byte) (r : Request) : checkOk (encode tag r) = true := by
  have front : (encode tag r).length - 2 = (frameFront tag r).length := by rw [encode_length, frameFront_length]; omega
  have back : (encode tag r).length - 1 = (frameFront tag r).length + 1 := by rw [encode_length, frameFront_length]; omega
  rw [checkOk_iff (by rw [encode_length]; omega), front, back, encode_eq, List.take_left]
  simp [be16, word16_extract]

theorem encode_params (tag : Byte) (r : Request) : frameParams (encode tag r) = params r := by
  rw [frameParams, encode_length, Nat.add_sub_cancel_left]
  show (params r ++ _).take _ = _
  exact List.take_left

theorem knownCode_code (r : Request) : knownCode (code r) = true := by cases r <;> rfl

/-- The frame of a request passes the common checks, but for check 4 while the store is MOUNTING (R111). -/
theorem commonChecks_encode {mounting : Bool} (tag : Byte) {r : Request} (h : r.wf = true)
    (hm : code r = 0x01 ∨ mounting = false) : commonChecks mounting (encode tag r) = .request r := by
  rw [commonChecks_parse (encode_lengthOk tag h) (encode_checkOk tag r) (knownCode_code r) hm, encode_params]
  have read : parse (byteAt (encode tag r) 0) (params r) = some r := parse_params ((params_length h).trans_lt (by decide))
  rw [read]
  rfl

/-- Settles O8: each common check passes, and the structure check reads the request back. -/
theorem encodedRequestsDecode : Obligations.EncodedRequestsDecode := by
  intro tag r h
  have fits := params_length h
  exact ⟨commonChecks_encode tag h (.inr rfl), rfl, by rw [encode_length]; omega, by rw [encode_length]; omega⟩

/-- The take of the frame that carries a request is the request's. -/
theorem takeFrame_encode (p : Port) (tag : Byte) {r : Request} (h : r.wf = true) (b : Block) :
    takeFrame p (encode tag r) b = takeRequest p tag r b := by
  unfold takeFrame
  by_cases hm : code r = 0x01 ∨ (b.storeState == .mounting) = false
  · rw [commonChecks_encode tag h hm]
    rfl
  · obtain ⟨other, mounting⟩ := not_or.1 hm
    have mounting : (b.storeState == .mounting) = true := by simpa using mounting
    rw [mounting, commonChecks_mounting (encode_lengthOk tag h) (encode_checkOk tag r) (knownCode_code r) other]
    exact (takeRequest_mounting (fun e => other (congrArg code e)) (by simpa using mounting)).symm

/-- Settles O9: frame and command reach the slot with the same take. -/
theorem framesActAsTheirRequests : Obligations.FramesActAsTheirRequests := by
  intro p tag r s h
  have fits := params_length h
  have length := encode_length tag r
  have frame := exec_requestFrameEnd (p := p) (frame := encode tag r) s (List.ne_nil_of_length_pos (by omega))
    (by rw [length, Config.maxRequestBytes]; omega)
  obtain ⟨t, ht⟩ := request_next s p (takeRequest p tag r)
  refine ⟨t, ?_, (exec_command p tag r s).trans ht⟩
  rw [frame, funext (takeFrame_encode p tag h)]
  exact ht

end Sys2Proof.Machine
end

section
/-! WATCH, UNWATCH and EVENTS, and a posting to a notification queue (R131, R132, R134, R138, R139, R143). -/

namespace Sys2Proof.Machine

open Safety

/-! ## The answer with a watch table (R131, R132) -/

section
variable {s : State} {p : Port} {tag : Byte} {table : Block → Except Status (List Key)}

/-- A request for a new watch table that its checks refuse. -/
theorem request_tableRefused {st : Status} (h : canTake s p) (hm : mounted s)
    (ht : table (atTake s p).block = .error st) :
    (request s p fun b => afterMount b p tag fun b => answerTable b p tag (table b)) =
      .next (onPort (atTake s p) p (responded tag st [])) :=
  (request_mounted tag _ h hm).trans (congrArg _ (onBlock_answer (by rw [ht]; rfl)))

/-- A request for a new watch table that its checks accept. -/
theorem request_tableSet {l : List Key} (h : canTake s p) (hm : mounted s) (ht : table (atTake s p).block = .ok l) :
    (request s p fun b => afterMount b p tag fun b => answerTable b p tag (table b)) =
      .next (onPort (atTake s p) p fun q => responded tag .ok [BitVec.ofNat 8 l.length] { q with watches := l }) :=
  (request_mounted tag _ h hm).trans (congrArg _ (onBlock_answer_modPort (by rw [ht]; rfl)))

end

/-! ## WATCH (R131) -/

/-- The lookup hides a present record that the port may not read (R11). -/
theorem lookup_notReadable_iff {dir : List DirSlot} {p : Port} {k : Key} :
    lookup dir p k = .notReadable ↔ ∃ d, presentSlot k dir = some d ∧ mayRead p d = false := by
  rw [lookup_eq]
  cases presentSlot k dir with
  | none => simp
  | some d =>
    cases may : mayRead p d with
    | false => simp [may]
    | true => by_cases live : d.state = .live <;> simp [may, live]

section
variable {b : Block} {p : Port} {key : Key}

theorem watchTable_badKey (hk : isKey key = false) : watchTable b p key = .error .badKey := by
  simp [watchTable, hk]

theorem watchTable_denied (hk : isKey key = true) (hd : lookup b.dir p key = .notReadable) :
    watchTable b p key = .error .denied := by
  simp [watchTable, hk, hd]

/-- A key that is watched already stays where it is. -/
theorem watchTable_watched (hk : isKey key = true) (hd : lookup b.dir p key ≠ .notReadable)
    (hw : key ∈ (b.ports.get p).watches) : watchTable b p key = .ok (b.ports.get p).watches := by
  simp [watchTable, hk, hd, hw]

/-- Behind the other checks the table's 8 places decide. -/
theorem watchTable_new (hk : isKey key = true) (hd : lookup b.dir p key ≠ .notReadable)
    (hw : key ∉ (b.ports.get p).watches) :
    watchTable b p key =
      if 8 ≤ (b.ports.get p).watches.length then .error .watchFull else .ok ((b.ports.get p).watches ++ [key]) := by
  simp [watchTable, hk, hd, hw, Config.maxWatches]

end

@[simp] theorem watchTable_atTake (s : State) (p : Port) (key : Key) :
    watchTable (atTake s p).block p key = watchTable s.block p key := by
  simp [watchTable]

/-- Settles O26: the table after the request, or the status of the first check that fails. -/
theorem watchAddsAKey : Obligations.WatchAddsAKey := by
  intro p tag key s h hm run table refuse hidden
  have refused : ∀ st, watchTable s.block p key = .error st → run = refuse st := fun st ht =>
    request_tableRefused h hm ((watchTable_atTake s p key).trans ht)
  have accepted : ∀ l, watchTable s.block p key = .ok l →
      run = .next (onPort (atTake s p) p fun q =>
        responded tag .ok [BitVec.ofNat 8 l.length] { q with watches := l }) := fun l ht =>
    request_tableSet h hm ((watchTable_atTake s p key).trans ht)
  have shown : ¬hidden → lookup s.block.dir p key ≠ .notReadable := mt lookup_notReadable_iff.1
  refine ⟨fun hk => ?_, fun hk hh => ?_, fun hk hh hw => ?_, fun hk hh hw hl => ?_, fun hk hh hw hl => ?_⟩
  · exact refused _ (watchTable_badKey hk)
  · exact refused _ (watchTable_denied hk (lookup_notReadable_iff.2 hh))
  · have kept : ((atTake s p).block.ports.get p).watches = table := atTake_watches s p
    refine (accepted table (watchTable_watched hk (shown hh) hw)).trans (congrArg _ (onPort_congr ?_))
    rw [← kept]
  · exact refused _ ((watchTable_new hk (shown hh) hw).trans (if_pos hl))
  · have added := accepted _ ((watchTable_new hk (shown hh) hw).trans (if_neg (Nat.not_le.2 hl)))
    rwa [List.length_append] at added

/-! ## UNWATCH (R132) -/

section
variable {b : Block} {p : Port} {key : Key}

theorem unwatchTable_badKey (hk : isKey key = false) : unwatchTable b p key = .error .badKey := by
  simp [unwatchTable, hk]

theorem unwatchTable_notFound (hk : isKey key = true) (hw : key ∉ (b.ports.get p).watches) :
    unwatchTable b p key = .error .notFound := by
  simp [unwatchTable, hk, hw]

theorem unwatchTable_removed (hk : isKey key = true) (hw : key ∈ (b.ports.get p).watches) :
    unwatchTable b p key = .ok ((b.ports.get p).watches.filter (· != key)) := by
  simp [unwatchTable, hk, hw]

end

@[simp] theorem unwatchTable_atTake (s : State) (p : Port) (key : Key) :
    unwatchTable (atTake s p).block p key = unwatchTable s.block p key := by
  simp [unwatchTable]

/-- Settles O27: the table without the key, or the status of the first check that fails. -/
theorem unwatchRemovesAKey : Obligations.UnwatchRemovesAKey := by
  intro p tag key s h hm run table left
  have taken := unwatchTable_atTake s p key
  refine ⟨fun hk => ?_, fun hk hw => ?_, fun hk hw => ?_⟩
  · exact request_tableRefused h hm (taken.trans (unwatchTable_badKey hk))
  · exact request_tableRefused h hm (taken.trans (unwatchTable_notFound hk hw))
  · exact request_tableSet h hm (taken.trans (unwatchTable_removed hk hw))

/-! ## EVENTS (R138, R139, R143) -/

/-- From an EMPTY slot RESP is not in the cause set. -/
theorem causeSet_empty {q : PortState} (h : q.slot = .empty) :
    causeSet q = q.sticky ||| (if q.notes.isEmpty then 0 else 0x0002) := by
  simp [causeSet, h, slotAnswered, causeNote]

/-- Settles O13: the slot is EMPTY at the take, so the cause set is the sticky causes and NOTE. -/
theorem eventsCopiesThenClears : Obligations.EventsCopiesThenClears := by
  intro p tag clear s h hm before copy
  have causes : causeSet before = copy := causeSet_empty (atTake_slot h)
  rw [← causes]
  exact (request_mounted tag _ h hm).trans (congrArg _ (onBlock_answer_modPort rfl))

/-! ## Postings (R134) -/

theorem noteHas_iff {k : Key} {l : List Note} : noteHas k l = true ↔ ∃ old ∈ l, old.key = k := by
  simp [noteHas]

theorem noteHas_eq_false_iff {k : Key} {l : List Note} : noteHas k l = false ↔ ∀ old ∈ l, old.key ≠ k := by
  simp [noteHas]

section
variable {n : Note} {q : PortState}

/-- A posting whose key has a note is folded into it. -/
theorem postNote_folded (h : noteHas n.key q.notes = true) :
    postNote n q = { q with notes := q.notes.map fun old => if old.key = n.key then foldNote n old else old } := by
  simp [postNote, h]

theorem postNote_appended (h : noteHas n.key q.notes = false) (hl : q.notes.length < 16) :
    postNote n q = { q with notes := q.notes ++ [{ n with merged := 0 }] } := by
  simp [postNote, h, Config.maxNotes, hl]

/-- A posting that finds the queue full leaves NOTE_LOST alone. -/
theorem postNote_dropped (h : noteHas n.key q.notes = false) (hl : 16 ≤ q.notes.length) :
    postNote n q = { q with sticky := q.sticky ||| causeNoteLost } := by
  simp [postNote, h, Config.maxNotes, Nat.not_lt.2 hl]

end

/-- Settles O29: by whether the queue holds a note of the key, and by its 16 places. -/
theorem postingFoldsAppendsOrDrops : Obligations.PostingFoldsAppendsOrDrops := fun _ _ =>
  ⟨fun held => postNote_folded (noteHas_iff.2 held),
    fun fresh room => postNote_appended (noteHas_eq_false_iff.2 fresh) room,
    fun fresh full => postNote_dropped (noteHas_eq_false_iff.2 fresh) full⟩

end Sys2Proof.Machine
end

section
/-! The framing of the select ports: the beginning of a frame, its bytes, and its end where it is no fetch (R144, R146 to R152, R154). -/

namespace Sys2Proof.Machine

open Safety

/-- Outside reset a command is its change f of the block, whatever g it comes to. -/
theorem outsideReset_next {s : State} {f g : Block → Block} (hr : s.block.inReset = false) (h : f s.block = g s.block) :
    outsideReset s f = .next (onBlock s g) := by
  simp only [outsideReset, hr, Bool.false_eq_true, if_false, h, onBlock]

/-- Two changes of a port are one where they leave the same registers. -/
theorem modPort_congr {b : Block} {p : Port} {f g : PortState → PortState} (h : f (b.ports.get p) = g (b.ports.get p)) :
    modPort b p f = modPort b p g :=
  congrArg (fun q => { b with ports := b.ports.set p q }) h

/-! ## Bytes of a frame (R147 to R150) -/

/-- The framing when a byte is complete and x comes onto SDOp (R144, R147). -/
def counted (x : Byte) (f : SelectFraming) : SelectFraming :=
  { f with bytesComplete := f.bytesComplete + 1, sdo := some x, driven := true }

/-- The next byte on SDOp is chosen from the framing as the byte has left it. -/
theorem byteCounted_eq {b : Block} {p : SelPort} {f : SelectFraming} {x : Byte} (hf : b.select.get p = f)
    (hx : nextSdo b p f.frameType f.showedAnswered = x) : byteCounted b p = modSelect b p fun _ => counted x f := by
  subst hf hx
  rfl

/-- Request bytes are kept up to 1046, and every byte past them sets over-length (R149). -/
theorem appendRequest_eq (x : Byte) (f : SelectFraming) :
    appendRequest x f =
      { f with
          requestBytes :=
            if f.overLength = false ∧ f.requestBytes.length < 1046 then f.requestBytes ++ [x] else f.requestBytes
          overLength := f.overLength || decide (1046 ≤ f.requestBytes.length) } := by
  obtain ⟨state, mode3, bytes, type, answered, kept, long, sdo, driven⟩ := f
  cases long with
  | true => simp [appendRequest]
  | false =>
    by_cases room : kept.length < 1046
    · simp [appendRequest, Config.maxRequestBytes, room]
    · simp [appendRequest, Config.maxRequestBytes, room, Nat.not_lt.1 room]

/-- Nothing is counted where the status byte did not show ANSWERED (R150). -/
theorem countFetched_notShown (b : Block) (p : Port) : countFetched b p false = b :=
  congrArg (fun ports => { b with ports := ports }) (PerPort.set_get b.ports p)

/-- A response byte is counted while one is left (R118, R150). -/
theorem countFetched_answered {b : Block} {p : Port} {r : List Byte} (hq : (b.ports.get p).slot = .answered r) :
    countFetched b p true =
      modPort b p fun q =>
        { q with
            fetchProgress :=
              if (b.ports.get p).fetchProgress < r.length then (b.ports.get p).fetchProgress + 1
              else (b.ports.get p).fetchProgress } := by
  have buffer : bufferOf (b.ports.get p) = r := by rw [bufferOf, hq]
  refine modPort_congr ?_
  rw [buffer]
  by_cases left : (b.ports.get p).fetchProgress < r.length
  · simp only [left, decide_true, Bool.and_self, if_true]
  · simp only [left, decide_false, Bool.and_false, Bool.false_eq_true, if_false]

/-- A fetch sends the response from the fetch progress on (R118, R150). -/
theorem nextSdo_answered {b : Block} {p : SelPort} {q : PortState} {r : List Byte} (hp : b.ports.get p.port = q)
    (hq : q.slot = .answered r) : nextSdo b p .fetch true = r.getD q.fetchProgress 0xFF := by
  rw [nextSdo, hp, fetchByte, bufferOf, hq]
  rfl

section
variable {p : SelPort} {sdi : Byte} {s : State}

theorem exec_selectByteComplete (hr : s.block.inReset = false) (hs : (s.block.select.get p).state = .frame) :
    exec (.selectByteComplete p sdi) s = .next (onBlock s fun b => byteCounted (frameByte b p sdi) p) := by
  show execSelectByteComplete p sdi s = _
  exact outsideReset_next hr (by rw [hs])

/-- Byte 0 sets the type, and the next byte on SDOp goes by it (R147, R148, R150). -/
theorem exec_byteZero (hr : s.block.inReset = false) (hs : (s.block.select.get p).state = .frame)
    (hn : (s.block.select.get p).bytesComplete = 0) :
    exec (.selectByteComplete p sdi) s =
      .next (onBlock s fun b =>
        modSelect b p fun f =>
          counted (nextSdo b p (frameTypeOf sdi) f.showedAnswered) { f with frameType := frameTypeOf sdi }) := by
  refine (exec_selectByteComplete hr hs).trans (congrArg _ (onBlock_congr ?_))
  have sdo : ∀ f ty answered, nextSdo (modSelect s.block p f) p ty answered = nextSdo s.block p ty answered := by
    intro f ty answered
    cases ty <;> rfl
  rw [frameByte, if_pos hn, byteCounted_eq (modSelect_get _ _ _) (sdo _ _ _), modSelect_modSelect]
  rfl

/-- A later byte: c is what it makes of the block by its frame type, with the framing g, and x comes onto SDOp. -/
theorem exec_laterByte {c : Block} {g : SelectFraming} {x : Byte} (hr : s.block.inReset = false)
    (hs : (s.block.select.get p).state = .frame) (hn : (s.block.select.get p).bytesComplete ≠ 0)
    (acts : laterByte s.block p (s.block.select.get p) sdi = c) (hg : c.select.get p = g)
    (hx : nextSdo c p g.frameType g.showedAnswered = x) :
    exec (.selectByteComplete p sdi) s = .next (onBlock s fun _ => modSelect c p fun _ => counted x g) := by
  refine (exec_selectByteComplete hr hs).trans (congrArg _ (onBlock_congr ?_))
  rw [frameByte, if_neg hn, acts, byteCounted_eq hg hx]

end

/-- Settles O49: by the frame type, what the byte makes of the block and what comes onto SDOp. -/
theorem laterBytesActByTheType : Obligations.LaterBytesActByTheType := by
  intro p sdi s hr f q hs hn setFrame
  have quiet : ∀ x, laterByte s.block p f sdi = s.block → nextSdo s.block p f.frameType f.showedAnswered = x →
      exec (.selectByteComplete p sdi) s = .next (setFrame s { f with sdo := some x }) := fun x acts hx =>
    exec_laterByte (g := f) hr hs hn acts rfl hx
  refine ⟨fun request => ?_, fun poll => ?_, fun unknown => ?_, fun fetch hidden => ?_, fun r fetch shown hq => ?_⟩
  · have acts : laterByte s.block p f sdi = modSelect s.block p (appendRequest sdi) := by rw [laterByte, request]
    have kept := (modSelect_get s.block p (appendRequest sdi)).trans (appendRequest_eq sdi f)
    refine (exec_laterByte hr hs hn acts kept (x := 0xFF) ?_).trans (congrArg _ (onBlock_congr ?_))
    · dsimp only
      rw [request]
      rfl
    · exact modSelect_modSelect _ _ _ _
  · exact quiet _ (by rw [laterByte, poll]) (by rw [poll]; rfl)
  · exact quiet _ (by rw [laterByte, unknown]) (by rw [unknown]; rfl)
  · exact quiet _ (by rw [laterByte, fetch]; dsimp only; rw [hidden, countFetched_notShown]) (by rw [fetch, hidden]; rfl)
  · intro n
    have acts : laterByte s.block p f sdi = modPort s.block p.port fun q => { q with fetchProgress := n } := by
      rw [laterByte, fetch]
      dsimp only
      rw [shown, countFetched_answered hq]
    refine exec_laterByte hr hs hn acts (g := f) rfl ?_
    rw [fetch, shown]
    exact nextSdo_answered (modPort_get _ _ _) hq

/-! ## The end of a frame (R151, R152, R154) -/

section
variable {p : SelPort} {onBoundary : Bool} {s : State}

theorem exec_requestFrameSelectEnd (hr : s.block.inReset = false) (hs : (s.block.select.get p).state = .frame)
    (ht : (s.block.select.get p).frameType = .request) :
    exec (.requestFrameSelectEnd p onBoundary) s =
      .next (onBlock s fun b =>
        requestFrameOver (frameOver b p) p.port (s.block.select.get p).requestBytes
          ((s.block.select.get p).overLength || !onBoundary)) := by
  show execRequestFrameSelectEnd p onBoundary s = _
  exact outsideReset_next hr (if_pos ⟨hs, ht⟩)

theorem exec_otherFrameEnd_quiet (hr : s.block.inReset = false) (hs : (s.block.select.get p).state = .frame)
    (ht : (s.block.select.get p).frameType = .none ∨ (s.block.select.get p).frameType = .poll) :
    exec (.otherFrameEnd p onBoundary) s = .next (onBlock s (frameOver · p)) := by
  show execOtherFrameEnd p onBoundary s = _
  refine outsideReset_next hr ?_
  dsimp only
  rcases ht with none | poll
  · rw [hs, none]
  · rw [hs, poll]

theorem exec_otherFrameEnd_unknown (hr : s.block.inReset = false) (hs : (s.block.select.get p).state = .frame)
    (ht : (s.block.select.get p).frameType = .unknown) :
    exec (.otherFrameEnd p onBoundary) s =
      .next (onBlock s fun b => raiseCause (frameOver b p) p.port causeFrameErr) := by
  show execOtherFrameEnd p onBoundary s = _
  refine outsideReset_next hr ?_
  dsimp only
  rw [hs, ht]

theorem exec_discardingEnd (hr : s.block.inReset = false) (hs : (s.block.select.get p).state = .discarding) :
    exec (.discardingEnd p) s = .next (onBlock s (frameOver · p)) := by
  show execDiscardingEnd p s = _
  exact outsideReset_next hr (by rw [hs])

end

/-- Settles O50: each end clears the framing; what it brings the slot goes by the frame type and, in REQUEST, by the bytes. -/
theorem selectRiseEndsFramesByType : Obligations.SelectRiseEndsFramesByType := by
  intro p onBoundary s hr f ended frameErr run
  refine ⟨fun hs ht => ?_, exec_otherFrameEnd_quiet hr, exec_otherFrameEnd_unknown hr, exec_discardingEnd hr⟩
  have ends : run = .next (onBlock ended fun b =>
      requestFrameOver b p.port f.requestBytes (f.overLength || !onBoundary)) := exec_requestFrameSelectEnd hr hs ht
  have whole : f.overLength = false → onBoundary = true →
      run = exec (.requestFrameEnd p.port f.requestBytes) ended := by
    intro fits boundary
    rw [ends, fits, boundary]
    exact (outsideReset_next (s := ended) hr rfl).symm
  refine ⟨fun bad => ?_, fun fits boundary empty => ?_, fun fits boundary _ => ?_⟩
  · have flag : (f.overLength || !onBoundary) = true := by simpa using bad
    rw [ends, flag]
    rfl
  · rw [whole fits boundary, empty]
    exact outsideReset_next (s := ended) (g := id) hr rfl
  · exact ⟨_, ends, (whole fits boundary).symm.trans ends⟩

/-! ## The beginning of a frame (R146, R147) -/

section
variable {p : SelPort} {clockHigh : Bool} {s : State}

theorem exec_selectFall_idle (hr : s.block.inReset = false) (hs : (s.block.select.get p).state = .idle) :
    exec (.selectFall p clockHigh) s =
      .next (onBlock s fun b =>
        modSelect b p fun _ =>
          frameBegun clockHigh (slotAnswered (b.ports.get p.port).slot) (statusByte b p.port)) := by
  show execSelectFall p clockHigh s = _
  exact outsideReset_next hr (by rw [hs])

theorem exec_selectFall_other (hr : s.block.inReset = false) (hs : (s.block.select.get p).state ≠ .idle) :
    exec (.selectFall p clockHigh) s = .next s := by
  show execSelectFall p clockHigh s = _
  refine outsideReset_next (g := id) hr ?_
  cases h : (s.block.select.get p).state with
  | idle => exact absurd h hs
  | frame | discarding => rfl

end

/-- The byte on SDOp after byte 0, by the value of byte 0 (R148, R150). -/
theorem nextSdo_frameTypeOf (b : Block) (p : SelPort) (sdi : Byte) (answered : Bool) :
    some (nextSdo b p (frameTypeOf sdi) answered) =
      if sdi = 0x5A then some (statusByte b p.port)
      else if sdi = 0xC3 then some (fetchByte answered (b.ports.get p.port) (b.ports.get p.port).fetchProgress)
      else some 0xFF := by
  unfold frameTypeOf
  by_cases poll : sdi = 0x5A
  · rw [if_pos poll, if_pos poll]
    rfl
  · by_cases request : sdi = 0xA5
    · subst request
      rfl
    · rw [if_neg poll, if_neg poll, if_neg request]
      split <;> rfl

/-- Settles O47: a fall begins a frame in IDLE alone; byte 0 sets the type, which says what comes onto SDOp. -/
theorem selectFallAndByteZeroBeginAFrame : Obligations.SelectFallAndByteZeroBeginAFrame := by
  intro p clockHigh sdi s hr f q
  refine ⟨exec_selectFall_idle hr, exec_selectFall_other hr, fun hs hn => ?_⟩
  refine (exec_byteZero hr hs hn).trans (congrArg _ (onBlock_congr ?_))
  refine congrArg (fun g => { s.block with select := s.block.select.set p g }) ?_
  show { f with
      bytesComplete := f.bytesComplete + 1, frameType := frameTypeOf sdi
      sdo := some (nextSdo s.block p (frameTypeOf sdi) f.showedAnswered), driven := true } = _
  rw [hn, nextSdo_frameTypeOf]
  unfold fetchByte bufferOf
  dsimp only [f, q]
  cases (s.block.ports.get p.port).slot with
  | answered | empty | working => cases (s.block.select.get p).showedAnswered <;> rfl

end Sys2Proof.Machine
end

section
/-! The framing of port 2: the ends of its transactions, the address byte and the stretch, and the bytes that count (R155 to R163). -/

namespace Sys2Proof.Machine

open Safety

/-! ## The end of a transaction (R157, R159, R163) -/

theorem busCondition_held {b : Block} {incomplete started : Bool} (hw : b.wire.state = .stretching) :
    busCondition b incomplete started = b := by rw [busCondition, hw]

theorem busCondition_ends {b : Block} {incomplete started : Bool} (hw : b.wire.state ≠ .stretching) :
    busCondition b incomplete started = transactionEnds (setWire b (wireIdle started)) b.wire incomplete := by
  unfold busCondition
  cases h : b.wire.state with
  | stretching => exact absurd h hw
  | idle | addressedWrite | addressedRead | ignoring => rfl

theorem exec_busCondition (start incomplete : Bool) (s : State) :
    (if start then exec (.busStart incomplete) s else exec (.busStop incomplete) s) =
      outsideReset s fun b => busCondition b incomplete start := by
  cases start <;> rfl

section
variable {w : WireFraming} {incomplete : Bool} (b : Block)

theorem transactionEnds_write (hw : w.state = .addressedWrite) :
    transactionEnds b w incomplete = requestFrameOver b .p2 w.requestBytes (w.overLength || incomplete) := by
  rw [transactionEnds, hw]

theorem transactionEnds_read (hw : w.state = .addressedRead) :
    transactionEnds b w incomplete = fetchEnds b .p2 (w.nakSeen && w.showedAnswered) := by
  rw [transactionEnds, hw]

theorem transactionEnds_none (hw : w.state = .idle ∨ w.state = .ignoring) : transactionEnds b w incomplete = b := by
  rcases hw with idle | ignoring
  · rw [transactionEnds, idle]
  · rw [transactionEnds, ignoring]

end

/-- A whole request frame that is over acts as REQUEST_FRAME_END of its bytes (R151, R159). -/
theorem exec_requestFrameEnd_eq {s : State} {p : Port} {bytes : List Byte} (hr : s.block.inReset = false) :
    exec (.requestFrameEnd p bytes) s = .next (onBlock s fun b => requestFrameOver b p bytes false) :=
  outsideReset_next hr rfl

section
variable {s : State} {p : Port} {clean : Bool}

/-- What the end of a fetch makes of the state, where it makes g of the port (R118). -/
theorem onBlock_fetchEnds {g : PortState → PortState}
    (h : fetched clean (s.block.ports.get p) = g (s.block.ports.get p)) :
    onBlock s (fetchEnds · p clean) = onPort s p g := onPort_congr h

/-- The end of a fetch brings a slot that is not ANSWERED nothing (R163). -/
theorem fetchEnds_other (h : slotAnswered (s.block.ports.get p).slot = false) : onBlock s (fetchEnds · p clean) = s :=
  (onBlock_fetchEnds (g := id) (fetched_other h)).trans (onPort_id s p)

end

/-- Settles O52: outside STRETCHING either condition leaves IDLE, and the transaction's end acts on the slot by its direction. -/
theorem busConditionsEndTransactions : Obligations.BusConditionsEndTransactions := by
  intro start incomplete s hr run w q ended
  have ends : ∀ {f : Block → Block}, w.state ≠ .stretching → (∀ b, transactionEnds b w incomplete = f b) →
      run = .next (onBlock ended f) := by
    intro f hw acts
    have block := (busCondition_ends hw).trans (acts (setWire s.block (wireIdle start)))
    exact (exec_busCondition start incomplete s).trans
      (outsideReset_next (g := fun b => f (setWire b (wireIdle start))) hr block)
  have writes : w.state = .addressedWrite →
      run = .next (onBlock ended fun b => requestFrameOver b .p2 w.requestBytes (w.overLength || incomplete)) :=
    fun hw => ends (by rw [hw]; decide) (transactionEnds_write · hw)
  have reads : w.state = .addressedRead →
      run = .next (onBlock ended (fetchEnds · .p2 (w.nakSeen && w.showedAnswered))) :=
    fun hw => ends (by rw [hw]; decide) (transactionEnds_read · hw)
  have whole : w.state = .addressedWrite → w.overLength = false → incomplete = false →
      run = exec (.requestFrameEnd .p2 w.requestBytes) ended := by
    intro hw fits complete
    rw [writes hw, fits, complete]
    exact (exec_requestFrameEnd_eq (s := ended) hr).symm
  have clean_iff : ∀ {whole : Prop}, (w.nakSeen && w.showedAnswered) = true ∧ whole ↔
      w.nakSeen = true ∧ w.showedAnswered = true ∧ whole := by
    intro whole
    rw [Bool.and_eq_true, and_assoc]
  refine ⟨fun hw => ?_, fun hw => ?_, fun hw => ⟨fun bad => ?_, fun fits complete empty => ?_, fun fits complete _ => ?_⟩,
    fun hw none => ?_, fun hw r hq => ⟨fun all => ?_, fun cut => ?_⟩⟩
  · exact (exec_busCondition start incomplete s).trans (outsideReset_next (g := id) hr (busCondition_held hw))
  · exact ends (f := id) (fun held => by simp [held] at hw) (transactionEnds_none · hw)
  · have flag : (w.overLength || incomplete) = true := by simpa using bad
    rw [writes hw, flag]
    rfl
  · rw [whole hw fits complete, empty]
    exact outsideReset_next (s := ended) (g := id) hr rfl
  · exact ⟨_, writes hw, (whole hw fits complete).symm.trans (writes hw)⟩
  · exact (reads hw).trans (congrArg _ (fetchEnds_other (s := ended) none))
  · exact (reads hw).trans (congrArg _ (onBlock_fetchEnds (s := ended) (fetched_whole hq (clean_iff.2 all))))
  · exact (reads hw).trans (congrArg _ (onBlock_fetchEnds (s := ended) (fetched_kept hq (mt clean_iff.1 cut))))

/-! ## The bytes of a transaction (R158, R162) -/

/-- The framing after a sent byte's acknowledge bit, x next to be sent if it was ACK (R162). -/
def byteSent (ack : Bool) (x : Byte) (w : WireFraming) : WireFraming :=
  if ack then { w with bytesSent := w.bytesSent + 1, sending := some x }
  else { w with bytesSent := w.bytesSent + 1, nakSeen := true, sending := none }

/-- The block c in which the byte has counted says which byte x comes next. -/
theorem acknowledged_eq {b c : Block} {ack : Bool} {x : Byte}
    (hc : (if 0 < b.wire.bytesSent then countFetched b .p2 b.wire.showedAnswered else b) = c)
    (hx : fetchByte b.wire.showedAnswered (c.ports.get .p2) (c.ports.get .p2).fetchProgress = x) :
    acknowledged b ack = setWire c (byteSent ack x b.wire) := by
  subst hc hx
  cases ack <;> rfl

theorem fetchByte_answered {q : PortState} {r : List Byte} (hq : q.slot = .answered r) (i : Nat) :
    fetchByte true q i = r.getD i 0xFF := by
  rw [fetchByte, bufferOf, hq]
  rfl

section
variable {x : Byte} {ack : Bool} {s : State}

theorem exec_twoWireRequestByte (hr : s.block.inReset = false) (hw : s.block.wire.state = .addressedWrite) :
    exec (.twoWireRequestByte x) s = .next (onBlock s fun b => setWire b (wireByte x b.wire)) := by
  show execTwoWireRequestByte x s = _
  exact outsideReset_next hr (by rw [hw])

theorem exec_twoWireRequestByte_other (hr : s.block.inReset = false) (hw : s.block.wire.state ≠ .addressedWrite) :
    exec (.twoWireRequestByte x) s = .next s := by
  show execTwoWireRequestByte x s = _
  refine outsideReset_next (g := id) hr ?_
  cases h : s.block.wire.state with
  | addressedWrite => exact absurd h hw
  | idle | addressedRead | stretching | ignoring => rfl

theorem exec_readByteAcknowledge_other (hr : s.block.inReset = false)
    (hw : s.block.wire.state ≠ .addressedRead ∨ s.block.wire.nakSeen = true) :
    exec (.readByteAcknowledge ack) s = .next s := by
  show execReadByteAcknowledge ack s = _
  refine outsideReset_next (g := id) hr (if_neg ?_)
  rintro ⟨reading, noNak⟩
  rcases hw with other | nak
  · exact other reading
  · rw [nak] at noNak
    cases noNak

/-- A byte that counts: c is the block in which it has, and x comes next (R162). -/
theorem exec_readByteAcknowledge {c : Block} (hr : s.block.inReset = false) (hw : s.block.wire.state = .addressedRead)
    (hn : s.block.wire.nakSeen = false)
    (hc : (if 0 < s.block.wire.bytesSent then countFetched s.block .p2 s.block.wire.showedAnswered else s.block) = c)
    (hx : fetchByte s.block.wire.showedAnswered (c.ports.get .p2) (c.ports.get .p2).fetchProgress = x) :
    exec (.readByteAcknowledge ack) s = .next (onBlock s fun _ => setWire c (byteSent ack x s.block.wire)) := by
  show execReadByteAcknowledge ack s = _
  refine outsideReset_next hr ((if_pos ⟨hw, ?_⟩).trans (acknowledged_eq hc hx))
  rw [hn]
  rfl

end

/-- Settles O54: a request byte by the room left, a sent byte by what the status byte showed and whether it was that byte. -/
theorem transactionBytesCount : Obligations.TransactionBytesCount := by
  intro x ack s hr w q set sent
  refine ⟨exec_twoWireRequestByte_other hr, fun hw => ⟨fun room fits => ?_, fun full => ?_⟩,
    exec_readByteAcknowledge_other hr, fun hw hn => ⟨fun hidden => ?_, fun r shown hq => ⟨fun first => ?_, fun later => ?_⟩⟩⟩
  · refine (exec_twoWireRequestByte hr hw).trans (congrArg set (if_pos ⟨room, ?_⟩))
    exact congrArg (!·) fits
  · refine (exec_twoWireRequestByte hr hw).trans (congrArg set (if_neg ?_))
    rintro ⟨room, fits⟩
    rcases full with full | long
    · exact absurd room (Nat.not_lt.2 full)
    · exact absurd fits (by simp [w, long])
  · refine exec_readByteAcknowledge hr hw hn (c := s.block) ?_ ?_
    · rw [hidden, countFetched_notShown, ite_self]
    · rw [hidden]
      rfl
  · refine exec_readByteAcknowledge hr hw hn (c := s.block) (if_neg (by rw [first]; decide)) ?_
    rw [shown]
    exact fetchByte_answered hq _
  · intro n
    refine exec_readByteAcknowledge hr hw hn (c := modPort s.block .p2 fun q => { q with fetchProgress := n }) ?_ ?_
    · rw [if_pos (Nat.pos_of_ne_zero later), shown, countFetched_answered hq]
    · rw [shown, modPort_get]
      exact fetchByte_answered hq _

/-! ## Addressing and the stretch (R155, R157, R160, R161) -/

/-- The address byte: 58h plus the straps in bits 7 to 1, the direction in bit 0 (R155, R157). -/
theorem addressByte_toNat (b : Block) (isRead : Bool) :
    (addressByte b isRead).toNat = 2 * (0x58 + b.addrStraps.toNat) + isRead.toNat := by
  unfold addressByte wireAddress
  generalize b.addrStraps = straps
  revert straps isRead
  decide

theorem eq_addressByte_iff (x : Byte) (b : Block) (isRead : Bool) :
    x = addressByte b isRead ↔ x.toNat = 2 * (0x58 + b.addrStraps.toNat) + isRead.toNat := by
  rw [← addressByte_toNat, BitVec.toNat_inj]

theorem readAddressed_stretches {b : Block}
    (h : slotWorking (b.ports.get .p2).slot = true ∧ (b.ports.get .p2).stretchLimit ≠ 0) :
    readAddressed b = setWire b { WireFraming.cleared .stretching with ackOut := some true } :=
  if_pos (by simpa using h)

/-- Without a stretch the status byte of the port is captured at once (R160). -/
theorem readAddressed_captures {b : Block}
    (h : ¬(slotWorking (b.ports.get .p2).slot = true ∧ (b.ports.get .p2).stretchLimit ≠ 0)) :
    readAddressed b =
      setWire b
        { WireFraming.cleared .addressedRead with
          ackOut := some true
          showedAnswered := slotAnswered (b.ports.get .p2).slot
          sending := some (statusByte b .p2) } :=
  if_neg (by simpa using h)

section
variable {x : Byte} {s : State}

theorem exec_addressByte (hr : s.block.inReset = false) (hw : s.block.wire.state = .idle ∧ s.block.wire.address ≠ none) :
    exec (.addressByte x) s =
      .next (onBlock s fun b =>
        if x = addressByte b false then setWire b { WireFraming.cleared .addressedWrite with ackOut := some true }
        else if x = addressByte b true then readAddressed b
        else setWire b { WireFraming.cleared .ignoring with ackOut := some false }) := by
  show execAddressByte x s = _
  exact outsideReset_next hr (if_pos (by simpa [Option.isSome_iff_ne_none] using hw))

theorem exec_addressByte_other (hr : s.block.inReset = false)
    (hw : ¬(s.block.wire.state = .idle ∧ s.block.wire.address ≠ none)) : exec (.addressByte x) s = .next s := by
  show execAddressByte x s = _
  exact outsideReset_next (g := id) hr (if_neg (by simpa [Option.isSome_iff_ne_none] using hw))

theorem exec_stretchLimitExpiry (hr : s.block.inReset = false) (hw : s.block.wire.state = .stretching) :
    exec .stretchLimitExpiry s =
      .next (onBlock s fun b =>
        captureWire (setWire b { b.wire with stretchTime := (b.ports.get .p2).stretchLimit.toNat })) := by
  show execStretchLimitExpiry s = _
  exact outsideReset_next hr (by rw [hw])

theorem exec_stretchLimitExpiry_other (hr : s.block.inReset = false) (hw : s.block.wire.state ≠ .stretching) :
    exec .stretchLimitExpiry s = .next s := by
  show execStretchLimitExpiry s = _
  refine outsideReset_next (g := id) hr ?_
  cases h : s.block.wire.state with
  | stretching => exact absurd h hw
  | idle | addressedWrite | addressedRead | ignoring => rfl

end

/-- Settles O53: the address byte by its value, a read address by the slot and the limit. -/
theorem addressAndExpiryBeginTheTransfer : Obligations.AddressAndExpiryBeginTheTransfer := by
  intro x s hr w q base clear set
  have isWrite : x = addressByte s.block false ↔ x.toNat = base := eq_addressByte_iff x s.block false
  have isRead : x = addressByte s.block true ↔ x.toNat = base + 1 := eq_addressByte_iff x s.block true
  have reads : x.toNat = base + 1 → w.state = .idle ∧ w.address ≠ none →
      exec (.addressByte x) s = .next (onBlock s readAddressed) := by
    intro read hw
    have noWrite : x ≠ addressByte s.block false := fun h => by have := isWrite.1 h; omega
    refine (exec_addressByte hr hw).trans (congrArg _ (onBlock_congr ?_))
    rw [if_neg noWrite, if_pos (isRead.2 read)]
  refine ⟨exec_addressByte_other hr, fun hw => ⟨fun write => ?_, fun read waits => ?_, fun read ready => ?_,
    fun noWrite noRead => ?_⟩, exec_stretchLimitExpiry_other hr, exec_stretchLimitExpiry hr⟩
  · exact (exec_addressByte hr hw).trans (congrArg _ (onBlock_congr (if_pos (isWrite.2 write))))
  · exact (reads read hw).trans (congrArg _ (onBlock_congr (readAddressed_stretches waits)))
  · exact (reads read hw).trans (congrArg _ (onBlock_congr (readAddressed_captures ready)))
  · refine (exec_addressByte hr hw).trans (congrArg _ (onBlock_congr ?_))
    rw [if_neg (mt isWrite.1 noWrite), if_neg (mt isRead.1 noRead)]
    rfl

end Sys2Proof.Machine
end

section
/-! The status byte as a number (R176), and the commands in reset (R180). -/

namespace Sys2Proof.Machine

/-! ## The status byte (R176) -/

theorem append_toNat {m n : Nat} (x : BitVec m) (y : BitVec n) : (x ++ y).toNat = x.toNat * 2 ^ n + y.toNat := by
  rw [BitVec.toNat_append, shift_or _ _ _ y.isLt]

/-- Each field by its weight. -/
theorem statusByte_toNat (b : Block) (p : Port) :
    (statusByte b p).toNat =
      (slotCode (b.ports.get p).slot).toNat * 64 + (storeCode b.storeState).toNat * 8 + (attn b p).toNat * 4 +
        (!(b.ports.get p).notes.isEmpty).toNat * 2 + (batchOpen (b.ports.get p).batch).toNat := by
  unfold statusByte
  simp only [append_toNat, BitVec.toNat_ofBool]
  omega

/-- No slot state has the code 3. -/
theorem slotCode_lt (slot : ReqSlot) : (slotCode slot).toNat < 3 := by
  cases slot with
  | empty | working | answered => simp [slotCode]

/-- Bits 7 and 6 are never both 1. -/
theorem statusByte_lt (b : Block) (p : Port) : (statusByte b p).toNat < 192 := by
  have slot := slotCode_lt (b.ports.get p).slot
  have store := (storeCode b.storeState).isLt
  have attention := Bool.toNat_le (attn b p)
  have notes := Bool.toNat_le (!(b.ports.get p).notes.isEmpty)
  have batch := Bool.toNat_le (batchOpen (b.ports.get p).batch)
  rw [statusByte_toNat]
  omega

/-- Settles O48: each field's code by its weight; the slot's code leaves FFh out of reach. -/
theorem statusByteShowsThePort : Obligations.StatusByteShowsThePort := by
  intro b p q v
  refine ⟨?_, fun full => ?_⟩
  · have attention : (attn b p).toNat * 4 = if attn b p then 4 else 0 := by cases attn b p <;> rfl
    have notes : (!q.notes.isEmpty).toNat * 2 = if q.notes = [] then 0 else 2 := by cases q.notes <;> rfl
    have batch : (batchOpen q.batch).toNat = if q.batch = .closed then 0 else 1 := by cases q.batch <;> rfl
    rw [statusByte_toNat, attention, notes, batch]
    cases q.slot with
    | empty | working | answered => cases b.storeState <;> rfl
  · have bound : v.toNat < 192 := statusByte_lt b p
    have ones : v.toNat = 255 := congrArg BitVec.toNat full
    omega

/-! ## The commands in reset (R180) -/

/-- A command that has its effect e outside reset alone. -/
theorem next_inReset {s : State} (hr : s.block.inReset = true) (e : State) :
    (.next (if s.block.inReset then s else e) : Out) = .next s := by rw [if_pos hr]

theorem readStart_inReset {s : State} (hr : s.block.inReset = true) (k : Bank) : exec (.readStart k) s = .next s := by
  show execReadStart k s = _
  unfold execReadStart
  dsimp only
  cases (s.block.banks.get k).queue with
  | nil => rfl
  | cons r rest => exact if_pos (by rw [hr]; rfl)

theorem engineOpStart_inReset {s : State} (hr : s.block.inReset = true) : exec .engineOpStart s = .next s := by
  show execEngineOpStart s = _
  unfold execEngineOpStart
  cases s.block.issued with
  | none => rfl
  | some op => exact if_pos (by rw [hr]; rfl)

/-- Settles O3: the two starts test the reset among their conditions; every other command tests it first. -/
theorem nothingHappensInReset : Obligations.NothingHappensInReset := by
  intro i s hr hi
  cases i with
  | resetAssert | resetEnd => cases hi
  | readStart k => exact readStart_inReset hr k
  | engineOpStart => exact engineOpStart_inReset hr
  | _ => exact next_inReset hr _

end Sys2Proof.Machine
end

section
/-! The command at the front of the queue (98). -/

namespace Sys2Proof.Machine

/-- Settles O1: a queue with a front takes the first branch of the step. -/
theorem stepRunsTheFrontCommand : Obligations.StepRunsTheFrontCommand := by
  intro i rest s front
  rw [step, front]

end Sys2Proof.Machine
end
